-- ==== Sys2Proof/Word.lean ====
section
/-! DEFINITION. The fixed-width types of HUFFCORE (spec/00_scope.md rules R8, R10, R12): every value is unsigned. -/

namespace Sys2Proof

/-- One byte of a stream, of DUMP or of a bit buffer; also a symbol (R8: ALPHABET is 256 byte values). -/
abbrev Byte := BitVec 8

/-- One 32-bit host-port word (R60); also a command word (R90). -/
abbrev Word := BitVec 32

/-- A u9 node index (R22); 0x1FF is NIL. -/
abbrev NodeIx := BitVec 9

/-- A u64 frequency (R8: FREQ_WIDTH). -/
abbrev Freq := BitVec 64

end Sys2Proof
end

