-- ==== Sys2Proof/Config.lean ====
section
/-! DEFINITION. The implementation parameters of spec/00_scope.md rule R8: the fixed capacities, and the three
OPEN parameters MAGIC, TAG_LEAF and TAG_INTERIOR, which no spec file gives a value (assumption log entry 1). -/

namespace Sys2Proof

/-- ALPHABET (R8). -/
abbrev alphabet : Nat := 256

/-- MAX_CODE_BITS (R8). -/
abbrev maxCodeBits : Nat := 256

/-- BLOCK (R8; fixed at 4096, D44). -/
abbrev block : Nat := 4096

/-- PQ_CAP (R8). -/
abbrev pqCap : Nat := 256

/-- NODE_CAP (R8). -/
abbrev nodeCap : Nat := 511

/-- NIL, the node index that means "no node" (R8, R17). -/
abbrev nil : NodeIx := 0x1FF#9

/-- MAX_TREE_SIZE (R8). -/
abbrev maxTreeSize : Nat := 767

/-- STACK_CAP (R8). -/
abbrev stackCap : Nat := 767

/-- HEADER_SIZE (R8). -/
abbrev headerSize : Nat := 16

/-- The OPEN parameters of R8. A machine carries one such record and no step changes it. -/
structure Config where
  /-- MAGIC (R101) -/
  magic : BitVec 32
  /-- TAG_LEAF (R107) -/
  tagLeaf : Byte
  /-- TAG_INTERIOR (R107) -/
  tagInterior : Byte
  deriving DecidableEq, Repr

/-- FREE VALUE (log entry 1): the value of MAGIC; R8 leaves it OPEN and nothing can evaluate it. -/
opaque Config.freeMagic : BitVec 32

/-- FREE VALUE (log entry 1): the value of TAG_LEAF; R8 leaves it OPEN. -/
opaque Config.freeTagLeaf : Byte

/-- FREE VALUE (log entry 1): how far TAG_INTERIOR lies above TAG_LEAF, less one; R8 leaves the tag OPEN. -/
opaque Config.freeTagGap : Nat

/-- The parameters of the machine this model is about. They are free but for R107's premise TAG_LEAF ≠ TAG_INTERIOR:
the gap modulo 255, plus one, runs over all 255 nonzero distances, so every pair of different tags is allowed. -/
def Config.free : Config where
  magic := Config.freeMagic
  tagLeaf := Config.freeTagLeaf
  tagInterior := Config.freeTagLeaf + 1#8 + BitVec.ofNat 8 (Config.freeTagGap % 255)

/-- The one premise R107 puts on the OPEN parameters. -/
abbrev Config.wf (c : Config) : Prop := c.tagLeaf ≠ c.tagInterior

end Sys2Proof
end

