-- ==== Sys2Proof/Syntax.lean ====
section
/-! DEFINITION. The command set (spec/30_encoding.md rules R91, R92): one constructor per row of spec/opcode_table.json. -/

namespace Sys2Proof

/-- The three operand kinds of R91. -/
inductive OperandKind where
  /-- OPERAND must be 0 -/
  | none
  /-- OPERAND is a node index below NODE_CAP -/
  | node
  /-- OPERAND is a symbol, at most 255 -/
  | sym
  deriving DecidableEq, Repr

/-- The 20 commands of R92. An operand is the u16 OPERAND field (R90); `Instr.wf` bounds it as R91 says. -/
inductive Instr where
  /-- NOP (R230) -/
  | nop
  /-- CLEAR_ERR (R231) -/
  | clearErr
  /-- SOFT_RESET (R232) -/
  | softReset
  /-- BUILD_TREE (R131) -/
  | buildTree
  /-- BUILD_CODES (R132) -/
  | buildCodes
  /-- DELETE_TREE (R135) -/
  | deleteTree
  /-- NODE_READ v (R136) -/
  | nodeRead (v : BitVec 16)
  /-- CODE_READ s (R137) -/
  | codeRead (v : BitVec 16)
  /-- SERIALIZE_TREE (R152) -/
  | serializeTree
  /-- REBUILD_TREE (R155) -/
  | rebuildTree
  /-- PQ_CLEAR (R174) -/
  | pqClear
  /-- PQ_INSERT v (R175) -/
  | pqInsert (v : BitVec 16)
  /-- PQ_EXTRACT_MIN (R176) -/
  | pqExtractMin
  /-- BW_WRITE_CODE s (R193) -/
  | bwWriteCode (v : BitVec 16)
  /-- BW_FLUSH (R194) -/
  | bwFlush
  /-- BW_RESET (R195) -/
  | bwReset
  /-- BR_RESET (R198) -/
  | brReset
  /-- BR_READ_BIT (R199) -/
  | brReadBit
  /-- ENCODE (R214) -/
  | encode
  /-- DECODE (R220) -/
  | decode
  deriving DecidableEq, Repr

end Sys2Proof
end

