-- ==== Sys2Proof/WellFormed.lean ====
section
/-! DEFINITION. Which commands are well formed: the operand ranges of spec/30_encoding.md rule R91. -/

namespace Sys2Proof

/-- The range R91 gives an operand of each kind. -/
def OperandKind.admits (k : OperandKind) (opd : BitVec 16) : Bool :=
  match k with
  | .none => opd.toNat == 0
  | .node => opd.toNat < nodeCap
  | .sym => opd.toNat < alphabet

/-- R91: a node operand is below NODE_CAP and a symbol operand is at most 255. -/
def Instr.wf (i : Instr) : Bool :=
  match i with
  | .nop => true
  | .clearErr => true
  | .softReset => true
  | .buildTree => true
  | .buildCodes => true
  | .deleteTree => true
  | .nodeRead v => OperandKind.node.admits v
  | .codeRead v => OperandKind.sym.admits v
  | .serializeTree => true
  | .rebuildTree => true
  | .pqClear => true
  | .pqInsert v => OperandKind.node.admits v
  | .pqExtractMin => true
  | .bwWriteCode v => OperandKind.sym.admits v
  | .bwFlush => true
  | .bwReset => true
  | .brReset => true
  | .brReadBit => true
  | .encode => true
  | .decode => true

end Sys2Proof
end

