-- ==== Sys2Proof/Decode.lean ====
section
/-! DEFINITION. The command word: decoder, encoder and the opcode table (spec/30_encoding.md rules R90 to R95;
spec/opcode_table.json). -/

namespace Sys2Proof

/-- Why R93 turns a word down; each is a UsageError cause of R241. -/
inductive DecodeError where
  /-- OPCODE is in no row of R92 -/
  | illegalOpcode
  /-- RSVD ≠ 0, or OPERAND ≠ 0 on a command of kind `none` -/
  | reservedField
  /-- a node operand ≥ 511 or a symbol operand ≥ 256 -/
  | badOperand
  deriving DecidableEq, Repr

/-- OPCODE, bits [7:0] (R90). -/
def opcodeOf (w : Word) : BitVec 8 := w.extractLsb' 0 8

/-- RSVD, bits [15:8] (R90). -/
def rsvdOf (w : Word) : BitVec 8 := w.extractLsb' 8 8

/-- OPERAND, bits [31:16] (R90). -/
def operandOf (w : Word) : BitVec 16 := w.extractLsb' 16 16

/-- R92's opcode map: the operand kind of an OPCODE and the command it names with a given operand. -/
def commandOf (op : BitVec 8) : Option (OperandKind × (BitVec 16 → Instr)) :=
  match op.toNat with
  | 0x00 => some (.none, fun _ => .nop)
  | 0x01 => some (.none, fun _ => .clearErr)
  | 0x02 => some (.none, fun _ => .softReset)
  | 0x10 => some (.none, fun _ => .buildTree)
  | 0x11 => some (.none, fun _ => .buildCodes)
  | 0x12 => some (.none, fun _ => .deleteTree)
  | 0x13 => some (.node, .nodeRead)
  | 0x14 => some (.sym, .codeRead)
  | 0x18 => some (.none, fun _ => .serializeTree)
  | 0x19 => some (.none, fun _ => .rebuildTree)
  | 0x20 => some (.none, fun _ => .pqClear)
  | 0x21 => some (.node, .pqInsert)
  | 0x22 => some (.none, fun _ => .pqExtractMin)
  | 0x30 => some (.sym, .bwWriteCode)
  | 0x31 => some (.none, fun _ => .bwFlush)
  | 0x32 => some (.none, fun _ => .bwReset)
  | 0x38 => some (.none, fun _ => .brReset)
  | 0x39 => some (.none, fun _ => .brReadBit)
  | 0x40 => some (.none, fun _ => .encode)
  | 0x41 => some (.none, fun _ => .decode)
  | _ => none

/-- The error R93 raises for an operand outside its kind's range. -/
def OperandKind.error (k : OperandKind) : DecodeError :=
  match k with
  | .none => .reservedField
  | .node => .badOperand
  | .sym => .badOperand

/-- The decoder: R93's checks in R93's order (OPCODE, RSVD, operand), for ERR = 0. Total on every word. -/
def decodeWord (w : Word) : Except DecodeError Instr :=
  match commandOf (opcodeOf w) with
  | none => .error .illegalOpcode
  | some (kind, mk) =>
    if rsvdOf w ≠ 0#8 then .error .reservedField
    else if kind.admits (operandOf w) then .ok (mk (operandOf w))
    else .error kind.error

/-- The OPCODE column of R92. -/
def opcode (i : Instr) : BitVec 8 :=
  match i with
  | .nop => 0x00#8
  | .clearErr => 0x01#8
  | .softReset => 0x02#8
  | .buildTree => 0x10#8
  | .buildCodes => 0x11#8
  | .deleteTree => 0x12#8
  | .nodeRead _ => 0x13#8
  | .codeRead _ => 0x14#8
  | .serializeTree => 0x18#8
  | .rebuildTree => 0x19#8
  | .pqClear => 0x20#8
  | .pqInsert _ => 0x21#8
  | .pqExtractMin => 0x22#8
  | .bwWriteCode _ => 0x30#8
  | .bwFlush => 0x31#8
  | .bwReset => 0x32#8
  | .brReset => 0x38#8
  | .brReadBit => 0x39#8
  | .encode => 0x40#8
  | .decode => 0x41#8

/-- The OPERAND field of a command; 0 for the commands of kind `none` (R91). -/
def operand (i : Instr) : BitVec 16 :=
  match i with
  | .nodeRead v => v
  | .codeRead v => v
  | .pqInsert v => v
  | .bwWriteCode v => v
  | .nop => 0#16
  | .clearErr => 0#16
  | .softReset => 0#16
  | .buildTree => 0#16
  | .buildCodes => 0#16
  | .deleteTree => 0#16
  | .serializeTree => 0#16
  | .rebuildTree => 0#16
  | .pqClear => 0#16
  | .pqExtractMin => 0#16
  | .bwFlush => 0#16
  | .bwReset => 0#16
  | .brReset => 0#16
  | .brReadBit => 0#16
  | .encode => 0#16
  | .decode => 0#16

/-- The encoder, R90: the word is `OPCODE | (RSVD << 8) | (OPERAND << 16)` with RSVD = 0. -/
def encode (i : Instr) : Word :=
  (opcode i).setWidth 32 ||| ((operand i).setWidth 32 <<< 16)

/-- One row of spec/opcode_table.json: a mask and the pattern the masked word must equal. -/
structure OpcodeRow where
  mnemonic : String
  pattern : Word
  mask : Word
  kind : OperandKind
  deriving DecidableEq, Repr

/-- spec/opcode_table.json, row by row. -/
def opcodeTable : List OpcodeRow := [
  ⟨"NOP", 0x00000000#32, 0xFFFFFFFF#32, .none⟩,
  ⟨"CLEAR_ERR", 0x00000001#32, 0xFFFFFFFF#32, .none⟩,
  ⟨"SOFT_RESET", 0x00000002#32, 0xFFFFFFFF#32, .none⟩,
  ⟨"BUILD_TREE", 0x00000010#32, 0xFFFFFFFF#32, .none⟩,
  ⟨"BUILD_CODES", 0x00000011#32, 0xFFFFFFFF#32, .none⟩,
  ⟨"DELETE_TREE", 0x00000012#32, 0xFFFFFFFF#32, .none⟩,
  ⟨"NODE_READ", 0x00000013#32, 0x0000FFFF#32, .node⟩,
  ⟨"CODE_READ", 0x00000014#32, 0x0000FFFF#32, .sym⟩,
  ⟨"SERIALIZE_TREE", 0x00000018#32, 0xFFFFFFFF#32, .none⟩,
  ⟨"REBUILD_TREE", 0x00000019#32, 0xFFFFFFFF#32, .none⟩,
  ⟨"PQ_CLEAR", 0x00000020#32, 0xFFFFFFFF#32, .none⟩,
  ⟨"PQ_INSERT", 0x00000021#32, 0x0000FFFF#32, .node⟩,
  ⟨"PQ_EXTRACT_MIN", 0x00000022#32, 0xFFFFFFFF#32, .none⟩,
  ⟨"BW_WRITE_CODE", 0x00000030#32, 0x0000FFFF#32, .sym⟩,
  ⟨"BW_FLUSH", 0x00000031#32, 0xFFFFFFFF#32, .none⟩,
  ⟨"BW_RESET", 0x00000032#32, 0xFFFFFFFF#32, .none⟩,
  ⟨"BR_RESET", 0x00000038#32, 0xFFFFFFFF#32, .none⟩,
  ⟨"BR_READ_BIT", 0x00000039#32, 0xFFFFFFFF#32, .none⟩,
  ⟨"ENCODE", 0x00000040#32, 0xFFFFFFFF#32, .none⟩,
  ⟨"DECODE", 0x00000041#32, 0xFFFFFFFF#32, .none⟩]

/-- Whether a word matches a row under its mask (R92, Selection). -/
def OpcodeRow.selects (r : OpcodeRow) (w : Word) : Bool := w &&& r.mask == r.pattern

/-- The row a word selects, or R93's last sentence: "a word no row matches under its mask is ILLEGAL_OPCODE if its
OPCODE is in no row, and RESERVED_FIELD otherwise"; the operand range is then checked by R91. -/
def selectRow (w : Word) : Except DecodeError OpcodeRow :=
  match opcodeTable.find? (fun r => r.selects w) with
  | some r => if r.kind.admits (operandOf w) then .ok r else .error r.kind.error
  | none =>
    if opcodeTable.any (fun r => opcodeOf r.pattern == opcodeOf w) then .error .reservedField
    else .error .illegalOpcode

/-- The mnemonic of a command, as spec/opcode_table.json spells it. -/
def mnemonic (i : Instr) : String :=
  match i with
  | .nop => "NOP"
  | .clearErr => "CLEAR_ERR"
  | .softReset => "SOFT_RESET"
  | .buildTree => "BUILD_TREE"
  | .buildCodes => "BUILD_CODES"
  | .deleteTree => "DELETE_TREE"
  | .nodeRead _ => "NODE_READ"
  | .codeRead _ => "CODE_READ"
  | .serializeTree => "SERIALIZE_TREE"
  | .rebuildTree => "REBUILD_TREE"
  | .pqClear => "PQ_CLEAR"
  | .pqInsert _ => "PQ_INSERT"
  | .pqExtractMin => "PQ_EXTRACT_MIN"
  | .bwWriteCode _ => "BW_WRITE_CODE"
  | .bwFlush => "BW_FLUSH"
  | .bwReset => "BW_RESET"
  | .brReset => "BR_RESET"
  | .brReadBit => "BR_READ_BIT"
  | .encode => "ENCODE"
  | .decode => "DECODE"

/-- What the decoder reads from an instruction of `nbits` bits whose bits are `w`, bit 0 the least significant bit of
its only word (R95: every command is one 32-bit word); the bits above `nbits` are 0. Log entry 12. -/
def decodeTableWord (nbits w : Nat) : Option Instr :=
  if nbits ≤ 32 then
    match decodeWord (BitVec.ofNat 32 (w % 2 ^ nbits)) with
    | .ok i => some i
    | .error _ => none
  else none

end Sys2Proof
end

