-- ==== Sys2Proof/Machine/Errors.lean ====
section
/-! DEFINITION. Error kinds and causes (spec/60_exceptions.md R240, R241). -/

namespace Sys2Proof.Machine

open Sys2Proof

/-- The four error kinds (R240). -/
inductive ErrorKind where
  | formatError
  | truncatedInputError
  | capacityError
  | usageError
  deriving DecidableEq, Repr

/-- The causes of R241, in its order. -/
inductive Cause where
  | badMagic
  | badTag
  | stackUnderflow
  | dumpLeftover
  | treeSizeRange
  | leafRecordCut
  | emptyTree
  | headerShort
  | dumpShort
  | payloadShort
  | absentChild
  | inputShort
  | pqFull
  | pqEmpty
  | stackFull
  | stackEmpty
  | poolFull
  | codeFull
  | codeEmpty
  | freqOverflow
  | illegalOpcode
  | reservedField
  | badOperand
  | badNode
  | noCode
  deriving DecidableEq, Repr

/-- ERROR.KIND of a kind (R34, R240). -/
def kindCode (k : ErrorKind) : Nat :=
  match k with
  | .formatError => 1
  | .truncatedInputError => 2
  | .capacityError => 3
  | .usageError => 4

/-- The KIND column of R241. -/
def causeKind (c : Cause) : ErrorKind :=
  match c with
  | .badMagic => .formatError
  | .badTag => .formatError
  | .stackUnderflow => .formatError
  | .dumpLeftover => .formatError
  | .treeSizeRange => .formatError
  | .leafRecordCut => .formatError
  | .emptyTree => .formatError
  | .headerShort => .truncatedInputError
  | .dumpShort => .truncatedInputError
  | .payloadShort => .truncatedInputError
  | .absentChild => .truncatedInputError
  | .inputShort => .truncatedInputError
  | .pqFull => .capacityError
  | .pqEmpty => .capacityError
  | .stackFull => .capacityError
  | .stackEmpty => .capacityError
  | .poolFull => .capacityError
  | .codeFull => .capacityError
  | .codeEmpty => .capacityError
  | .freqOverflow => .capacityError
  | .illegalOpcode => .usageError
  | .reservedField => .usageError
  | .badOperand => .usageError
  | .badNode => .usageError
  | .noCode => .usageError

/-- The CAUSE column of R241. -/
def causeCode (c : Cause) : Nat :=
  match c with
  | .badMagic => 0x01
  | .badTag => 0x02
  | .stackUnderflow => 0x03
  | .dumpLeftover => 0x04
  | .treeSizeRange => 0x05
  | .leafRecordCut => 0x06
  | .emptyTree => 0x07
  | .headerShort => 0x10
  | .dumpShort => 0x11
  | .payloadShort => 0x12
  | .absentChild => 0x13
  | .inputShort => 0x14
  | .pqFull => 0x20
  | .pqEmpty => 0x21
  | .stackFull => 0x22
  | .stackEmpty => 0x23
  | .poolFull => 0x24
  | .codeFull => 0x25
  | .codeEmpty => 0x26
  | .freqOverflow => 0x27
  | .illegalOpcode => 0x30
  | .reservedField => 0x31
  | .badOperand => 0x32
  | .badNode => 0x33
  | .noCode => 0x34

/-- The cause R93 raises for each way a word is turned down. -/
def decodeCause (e : DecodeError) : Cause :=
  match e with
  | .illegalOpcode => .illegalOpcode
  | .reservedField => .reservedField
  | .badOperand => .badOperand

/-- The ERROR word of R243: `zext_32(K) | C << 8 | op << 16`. -/
def errorWord (op : BitVec 8) (c : Cause) : Word :=
  BitVec.ofNat 32 (kindCode (causeKind c)) ||| (BitVec.ofNat 32 (causeCode c) <<< 8) ||| (op.setWidth 32 <<< 16)

end Sys2Proof.Machine
end

