-- ==== Sys2Proof/Machine/State.lean ====
section
/-! DEFINITION. The state of HUFFCORE (spec/10_state.md), its external streams (R42), the host's pending accesses (R18),
the reasons a step can stop, and the state after reset (spec/70_reset_and_hazards.md R271). -/

namespace Sys2Proof.Machine

open Sys2Proof

/-- A memory of values `α` by index: the entries that differ from what an unlisted index reads as, indices strictly
rising. Each memory of the state has its own value for an unlisted index: the reset value R271 gives it. -/
abbrev Store (α : Type) : Type := List (Nat × α)

/-- A byte memory (DUMP, BW_BUF, BR_BUF); an unlisted address reads 0, its reset value (R271). -/
abbrev Memory : Type := List Host.Cell

/-- One entry of the node pool (R22). -/
structure NodeEntry where
  /-- set while the entry holds a node -/
  alloc : Bool
  sym : Byte
  freq : Freq
  left : NodeIx
  right : NodeIx
  deriving DecidableEq, Repr

/-- A pool entry at reset (R271: alloc = 0, other fields 0). -/
def NodeEntry.blank : NodeEntry := ⟨false, 0#8, 0#64, 0#9, 0#9⟩

/-- One entry of the code table (R25): `bits` bit j, for j < `len`, is the j-th bit of the code from the root. -/
structure CodeEntry where
  len : BitVec 9
  bits : BitVec 256
  deriving DecidableEq, Repr

/-- A code-table entry at reset (R271): the symbol has no code. -/
def CodeEntry.blank : CodeEntry := ⟨0#9, 0#256⟩

/-- One entry of the priority queue (R27): a node index and the frequency copied when it was inserted. -/
structure PqEntry where
  node : NodeIx
  key : Freq
  deriving DecidableEq, Repr

/-- What the outside world does to the block: one host access or platform action (R18, R64, R270, R274). -/
inductive HostEvent where
  /-- `MemRead(HOST, off, bytes)` (R64) -/
  | read (off : Nat) (bytes : Nat)
  /-- `MemWrite(HOST, off, bytes, v)` (R64) -/
  | write (off : Nat) (bytes : Nat) (v : Word)
  /-- the hardware reset input (R270) -/
  | hardwareReset
  /-- the platform attaches an IN source positioned at its first byte (R274, R275 step 4, R276 step 2; log entry 4) -/
  | attachIn (xs : List Byte)
  deriving DecidableEq, Repr

/-- The whole state. Fields from `freq` to `outCount` are HUFFCORE's (R21 to R40); `inBytes` to `out` are the external
streams (R42); `host` to `errLog` and `cfg` are the model's own (log entries 1 to 4). -/
structure State where
  /-- the OPEN parameters of R8; no step changes them (log entry 1) -/
  cfg : Config
  /-- FREQ[0..255] (R21); an unlisted entry reads 0 -/
  freq : Store Freq
  /-- the node pool node[0..510] (R22); an unlisted entry is `NodeEntry.blank` -/
  pool : Store NodeEntry
  /-- ROOT (R24) -/
  root : NodeIx
  /-- LEAF_COUNT (R24) -/
  leafCount : BitVec 9
  /-- the code table CODE[0..255] (R25); an unlisted entry is `CodeEntry.blank` -/
  code : Store CodeEntry
  /-- CODES_VALID (R26) -/
  codesValid : Bool
  /-- the priority queue, head first (R27) -/
  pq : List PqEntry
  /-- the stack of node indices, the last pushed first (R28) -/
  stack : List NodeIx
  /-- DUMP[0..766] (R29) -/
  dump : Memory
  /-- TREE_SIZE (R29) -/
  treeSize : BitVec 16
  /-- BW_BUF[0..BLOCK-1] (R31) -/
  bwBuf : Memory
  /-- BW_COUNT (R31) -/
  bwCount : Nat
  /-- BR_BUF[0..BLOCK-1] (R32) -/
  brBuf : Memory
  /-- BR_VALID (R32) -/
  brValid : Nat
  /-- BR_INDEX (R32) -/
  brIndex : Nat
  /-- EOS (R32) -/
  eos : Bool
  /-- STATUS.ERR (R33) -/
  err : Bool
  /-- ERROR (R34): KIND [3:0], CAUSE [15:8], OPCODE [23:16] -/
  error : Word
  /-- RESULT (R35) -/
  result : Word
  /-- PERMISSIONS (R36) -/
  permissions : BitVec 16
  /-- ORIG_SIZE (R36) -/
  origSize : BitVec 64
  /-- NODE_SYM (R37) -/
  nodeSym : Word
  /-- NODE_LEFT (R37) -/
  nodeLeft : Word
  /-- NODE_RIGHT (R37) -/
  nodeRight : Word
  /-- NODE_FREQ_HI and NODE_FREQ_LO as one 64-bit value (R37) -/
  nodeFreq : BitVec 64
  /-- CODE_LEN (R39) -/
  codeLen : BitVec 9
  /-- CODE_BITS0 to CODE_BITS7: bit 32k + i is CODE_BITSk[i] (R39) -/
  codeBits : BitVec 256
  /-- IN_COUNT (R38) -/
  inCount : BitVec 64
  /-- OUT_COUNT (R38) -/
  outCount : BitVec 64
  /-- IN_BYTES, the bytes of the IN source (R66) -/
  inBytes : List Byte
  /-- in_pos, the position of the IN source (R66) -/
  inPos : Nat
  /-- the OUT log, oldest byte first (R67) -/
  out : List Byte
  /-- MODEL'S OWN: the accesses the host has still to make, next first (R18; log entry 2) -/
  host : List HostEvent
  /-- MODEL'S OWN: the words host reads have returned, oldest first (log entry 3) -/
  readLog : List Word
  /-- MODEL'S OWN: every ERROR value ever raised, oldest first; nothing clears it (R246; log entry 3) -/
  errLog : List Word
  deriving DecidableEq, Repr

/-- Why a step stops. Every one is the model's own, SAFE, and reached only from states no run from reset reaches
(log entry 6). -/
inductive Fault where
  /-- a walk over the tree came to node index 511, which has no pool entry; raised by BUILD_CODES, SERIALIZE_TREE
  and ENCODE (R22); safe -/
  | absentNode
  /-- SERIALIZE_TREE or ENCODE went deeper than the pool has nodes: the pool holds no tree (R24); safe -/
  | treeTooDeep
  /-- an access beyond DUMP[766], BW_BUF[BLOCK-1] or BR_BUF[BLOCK-1] (R29, R31, R32); raised by SERIALIZE_TREE,
  BW_WRITE_CODE, BW_FLUSH, BR_READ_BIT, ENCODE and DECODE; safe -/
  | bufferOverrun
  /-- a loop ran past the bound the model gives it: BUILD_TREE, BUILD_CODES, ENCODE and DECODE; safe -/
  | loopBound
  deriving DecidableEq, Repr

/-- What the model gives no meaning. -/
inductive Refusal where
  /-- an instruction without a meaning yet, by its mnemonic; no arm raises it now; safe -/
  | notModelled (mnemonic : String)
  /-- a host access that is not 32 bits wide, or at an offset that is no multiple of 4 below 0x10000
  (R60: "refuses any other"; spec/93 I14); raised by the host step; safe -/
  | hostAccessForm
  deriving DecidableEq, Repr

/-- The state after reset: R271's table, IN and OUT empty (launch premise, R42; log entry 5), no host access pending. -/
def State.reset : State where
  cfg := Config.free
  freq := []
  pool := []
  root := nil
  leafCount := 0#9
  code := []
  codesValid := false
  pq := []
  stack := []
  dump := []
  treeSize := 0#16
  bwBuf := []
  bwCount := 0
  brBuf := []
  brValid := 0
  brIndex := 0
  eos := false
  err := false
  error := 0#32
  result := 0#32
  permissions := 0#16
  origSize := 0#64
  nodeSym := 0#32
  nodeLeft := 0#32
  nodeRight := 0#32
  nodeFreq := 0#64
  codeLen := 0#9
  codeBits := 0#256
  inCount := 0#64
  outCount := 0#64
  inBytes := []
  inPos := 0
  out := []
  host := []
  readLog := []
  errLog := []

end Sys2Proof.Machine
end

