-- ==== Sys2Proof/Machine/Memory.lean ====
section
/-! DEFINITION. The memories of the state: reading, writing, the canonical form, and the byte and bit views of
spec/20_memory.md R69 and R70. -/

namespace Sys2Proof.Machine

open Sys2Proof

/-- The value at index `a`; `d` where nothing is listed. -/
def storeRead {α : Type} (d : α) : Store α → Nat → α
  | [], _ => d
  | (b, v) :: m, a => if a = b then v else storeRead d m a

/-- The memory with nothing listed at index `a`. -/
def storeErase {α : Type} (m : Store α) (a : Nat) : Store α := m.filter (fun p => p.1 ≠ a)

/-- The memory with an entry put before the first entry of a greater index. -/
def storeInsert {α : Type} : Store α → Nat → α → Store α
  | [], a, v => [(a, v)]
  | (b, u) :: m, a, v => if a < b then (a, v) :: (b, u) :: m else (b, u) :: storeInsert m a v

/-- The memory with index `a` holding `v`, in canonical form when the memory was: writing what an unlisted index reads
as removes the entry. -/
def storeWrite {α : Type} [DecidableEq α] (d : α) (m : Store α) (a : Nat) (v : α) : Store α :=
  if v = d then storeErase m a else storeInsert (storeErase m a) a v

/-- The canonical form of a memory of `bound` entries: indices strictly rising and below `bound`, no entry equal to
what an unlisted index reads as. -/
abbrev storeWf {α : Type} (d : α) (bound : Nat) (m : Store α) : Prop :=
  m.Pairwise (fun p q => p.1 < q.1) ∧ ∀ p ∈ m, p.2 ≠ d ∧ p.1 < bound

/-- The canonical form of a byte memory. -/
abbrev Memory.wf (bound : Nat) (m : Memory) : Prop := storeWf 0#8 bound m

/-- Every entry changed by `f`, for an `f` that leaves what an unlisted index reads as alone. -/
def storeMap {α : Type} [DecidableEq α] (d : α) (f : α → α) (m : Store α) : Store α :=
  (m.map (fun p => (p.1, f p.2))).filter (fun p => p.2 ≠ d)

/-- The memory with the values `vs` written from index `a` up. -/
def storeWriteList {α : Type} [DecidableEq α] (d : α) (m : Store α) (a : Nat) : List α → Store α
  | [] => m
  | v :: vs => storeWriteList d (storeWrite d m a v) (a + 1) vs

/-- `m[0 .. n)` (R11). -/
def storeTake {α : Type} (d : α) (m : Store α) (n : Nat) : List α :=
  (List.range n).map (fun i => storeRead d m i)

/-- A byte with bit `k` set to `b`. -/
def byteSetBit (x : Byte) (k : Nat) (b : Bool) : Byte :=
  if b then x ||| (1#8 <<< k) else x &&& ~~~(1#8 <<< k)

/-- R70: bit `i` of a buffer is bit `i mod 8` of byte `i / 8`. -/
def bufBit (m : Memory) (i : Nat) : Bool := (storeRead 0#8 m (i / 8)).getLsbD (i % 8)

/-- R70: the buffer with bit `i` set to `b`. -/
def bufSetBit (m : Memory) (i : Nat) (b : Bool) : Memory :=
  storeWrite 0#8 m (i / 8) (byteSetBit (storeRead 0#8 m (i / 8)) (i % 8) b)

/-- The `n`-byte little-endian sequence of `v`: byte 0 holds v[7:0] (R11; `le16`, `le32`, `le64`). -/
def leBytes (n : Nat) (v : Nat) : List Byte :=
  (List.range n).map (fun i => BitVec.ofNat 8 (v / 256 ^ i))

/-- The value of a little-endian byte sequence (R11; `rdle16`, `rdle32`, `rdle64`). -/
def rdle : List Byte → Nat
  | [] => 0
  | b :: bs => b.toNat + 256 * rdle bs

/-- `ceil_div(a, b)` (R11). -/
def ceilDiv (a b : Nat) : Nat := (a + b - 1) / b

end Sys2Proof.Machine
end

