-- ==== Sys2Proof/Machine/Ops.lean ====
section
/-! DEFINITION. The named operations every command is built from: how a command's body ends, raising an error and
clearing it (spec/60_exceptions.md R243, R245), reset (R270, R271), the streams (R66, R67), the pool (R23), the priority
queue (R171, R173), the stack (R150, R151) and the path buffer (R134). -/

namespace Sys2Proof.Machine

open Sys2Proof

/-- How a piece of a command's body ends: with a value, with a `raise` of a cause (R14), or stopped by a fault of the
model's own. -/
inductive Res (α : Type) where
  /-- it goes on with a value and a state -/
  | ok (a : α) (s : State)
  /-- it raised an error; the state is what the body had made when it reached the `raise` (R243) -/
  | raised (c : Cause) (s : State)
  /-- it cannot go on -/
  | stuck (f : Fault)

/-- The rest of a body after a piece of it; a `raise` ends the command, none of the rest runs (R243). -/
def Res.bind {α β : Type} (r : Res α) (f : α → State → Res β) : Res β :=
  match r with
  | .ok a s => f a s
  | .raised c s => .raised c s
  | .stuck e => .stuck e

/-! ### Taking an error and returning from it -/

/-- `raise K(C)` in the command whose OPCODE is `op` (R243): ERROR and STATUS.ERR are written, everything the command
changed stays, RESULT keeps its value. The error history is the model's own (R246). -/
def raiseError (op : BitVec 8) (c : Cause) (s : State) : State :=
  { s with error := errorWord op c, err := true, errLog := s.errLog ++ [errorWord op c] }

/-- CLEAR_ERR's effect, the return from an error (R245, R231). -/
def clearError (s : State) : State :=
  { s with err := false, error := 0#32 }

/-- The end of the command whose OPCODE is `op`: its body's last state, or the error its body raised (R243). -/
def endCommand (op : BitVec 8) (r : Res Unit) : Host.Outcome State Fault Refusal :=
  match r with
  | .ok _ s => .next s
  | .raised c s => .next (raiseError op c s)
  | .stuck f => .fault f

/-- RESULT <- v (R35). -/
def setResult (v : Word) (s : State) : State := { s with result := v }

/-- Reset, by the hardware input or by SOFT_RESET (R270): every piece of HUFFCORE state takes its value in R271; IN, OUT,
the parameters and the model's own records stay. -/
def applyReset (s : State) : State :=
  { State.reset with
    cfg := s.cfg
    inBytes := s.inBytes
    inPos := s.inPos
    out := s.out
    host := s.host
    readLog := s.readLog
    errLog := s.errLog }

/-! ### The streams -/

/-- The bytes of IN not yet consumed (R66). -/
def inRest (s : State) : List Byte := s.inBytes.drop s.inPos

/-- The bytes `InRead(n)` returns: the next `min(n, len(IN_BYTES) - in_pos)` (R66). -/
def inReadBytes (n : Nat) (s : State) : List Byte := (inRest s).take n

/-- The state `InRead(n)` leaves: the position and IN_COUNT have moved by the number of bytes returned (R66). -/
def inReadState (n : Nat) (s : State) : State :=
  { s with
    inPos := s.inPos + (inReadBytes n s).length
    inCount := s.inCount + BitVec.ofNat 64 (inReadBytes n s).length }

/-- `OutWrite(xs)` (R67): OUT grows by `xs`, OUT_COUNT by their number mod 2^64. -/
def outWrite (xs : List Byte) (s : State) : State :=
  { s with out := s.out ++ xs, outCount := s.outCount + BitVec.ofNat 64 xs.length }

/-- Both byte counters to 0, at the start of ENCODE and DECODE (R38). -/
def clearCounts (s : State) : State := { s with inCount := 0#64, outCount := 0#64 }

/-- A fresh bit-writer session: `BW_BUF <- all 0; BW_COUNT <- 0` (R195, R214). -/
def clearWriter (s : State) : State := { s with bwBuf := [], bwCount := 0 }

/-- A fresh bit-reader session: `BR_BUF <- all 0; BR_VALID <- 0; BR_INDEX <- 0; EOS <- 0` (R198, R220). -/
def clearReader (s : State) : State := { s with brBuf := [], brValid := 0, brIndex := 0, eos := false }

/-! ### The tables -/

/-- `FREQ[i]` (R21). -/
def freqAt (s : State) (i : Nat) : Freq := storeRead 0#64 s.freq i

/-- `CODE[i]` (R25). -/
def codeAt (s : State) (i : Nat) : CodeEntry := storeRead CodeEntry.blank s.code i

/-- The code of symbol `i` as a bit list, root first: `CODE[i].bit[j]` for j < `CODE[i].len` (R25). -/
def codeList (e : CodeEntry) : List Bool := (List.range e.len.toNat).map (fun j => e.bits.getLsbD j)

/-- The code-table entry that holds a bit list (R132): len is its length, the bits above are 0. -/
def codeOfList (p : List Bool) : CodeEntry :=
  ⟨BitVec.ofNat 9 p.length, (BitVec.ofBoolListLE p).setWidth 256⟩

/-- `CODE[i] <- e` (R132). -/
def setCode (i : Nat) (e : CodeEntry) (s : State) : State :=
  { s with code := storeWrite CodeEntry.blank s.code i e }

/-- `DUMP[0 .. n)` (R29). -/
def dumpBytes (n : Nat) (s : State) : List Byte := storeTake 0#8 s.dump n

/-- `DUMP[k] <- b` (R152); DUMP ends at byte 766 (R29). -/
def dumpPut (k : Nat) (b : Byte) (s : State) : Res Unit :=
  if k < maxTreeSize then .ok () { s with dump := storeWrite 0#8 s.dump k b } else .stuck .bufferOverrun

/-! ### The node pool -/

/-- `node[i]` (R22). Index 511 has no entry and reads as a free one here; the walks stop before they read it. -/
def nodeAt (s : State) (i : Nat) : NodeEntry := storeRead NodeEntry.blank s.pool i

/-- `leaf(i)` (R12): both children are NIL. -/
def NodeEntry.isLeaf (e : NodeEntry) : Bool := e.left == nil && e.right == nil

/-- The lowest free pool index, if any (R23). -/
def firstFree (s : State) : Option Nat := (List.range nodeCap).find? (fun i => !(nodeAt s i).alloc)

/-- `Alloc()` and the writing of the node's fields, one step (R23). -/
def allocNode (sym : Byte) (freq : Freq) (left right : NodeIx) (s : State) : Res NodeIx :=
  match firstFree s with
  | none => .raised .poolFull s
  | some i =>
    .ok (BitVec.ofNat 9 i) { s with pool := storeWrite NodeEntry.blank s.pool i ⟨true, sym, freq, left, right⟩ }

/-- `ReleasePool()` (R23): every entry free, ROOT = NIL, LEAF_COUNT = 0, the queue and the stack empty. -/
def releasePool (s : State) : State :=
  { s with
    pool := storeMap NodeEntry.blank (fun e => { e with alloc := false }) s.pool
    root := nil
    leafCount := 0#9
    pq := []
    stack := [] }

/-! ### The priority queue -/

/-- The place R171 gives a key: the number of entries whose key is at most it. -/
def pqPlace (q : List PqEntry) (key : Freq) : Nat := q.countP (fun e => e.key ≤ key)

/-- The queue with an entry put in its place: after every entry of equal or smaller key (R171, R172). -/
def pqPut (q : List PqEntry) (e : PqEntry) : List PqEntry :=
  q.take (pqPlace q e.key) ++ e :: q.drop (pqPlace q e.key)

/-- `PQInsert(n)` (R171). -/
def pqInsertNode (n : NodeIx) (s : State) : Res Unit :=
  if s.pq.length = pqCap then .raised .pqFull s
  else .ok () { s with pq := pqPut s.pq ⟨n, (nodeAt s n.toNat).freq⟩ }

/-- `PQExtractMin()` (R173). -/
def pqExtractNode (s : State) : Res NodeIx :=
  match s.pq with
  | [] => .raised .pqEmpty s
  | e :: q => .ok e.node { s with pq := q }

/-! ### The stack and the path buffer -/

/-- `Push(i)` (R150). -/
def pushNode (i : NodeIx) (s : State) : Res Unit :=
  if s.stack.length = stackCap then .raised .stackFull s else .ok () { s with stack := i :: s.stack }

/-- `Pop()` (R151). -/
def popNode (s : State) : Res NodeIx :=
  match s.stack with
  | [] => .raised .stackEmpty s
  | i :: st => .ok i { s with stack := st }

/-- `CodePush(b)` on the path buffer (R134, R41). -/
def codePush (b : Bool) (path : List Bool) (s : State) : Res (List Bool) :=
  if path.length = maxCodeBits then .raised .codeFull s else .ok (path ++ [b]) s

/-- `CodePop()` on the path buffer (R134, R41). -/
def codePop (path : List Bool) (s : State) : Res (List Bool) :=
  match path with
  | [] => .raised .codeEmpty s
  | b :: bs => .ok (b :: bs).dropLast s

end Sys2Proof.Machine
end

