-- ==== Sys2Proof/Machine/Operands.lean ====
section
/-! DEFINITION. The operand forms of spec/30_encoding.md R91: a node index and a symbol, each a natural number with no
extension and no scaling, range-checked. The third form, `none`, has nothing to read. -/

namespace Sys2Proof.Machine

open Sys2Proof

/-- A node operand: v < NODE_CAP, or UsageError(BAD_OPERAND) (R91, R136, R175). -/
def nodeOperand (v : BitVec 16) (s : State) : Res Nat :=
  if OperandKind.node.admits v then .ok v.toNat s else .raised .badOperand s

/-- A symbol operand: v ≤ 255, or UsageError(BAD_OPERAND) (R91, R137, R193). -/
def symOperand (v : BitVec 16) (s : State) : Res Nat :=
  if OperandKind.sym.admits v then .ok v.toNat s else .raised .badOperand s

end Sys2Proof.Machine
end

