-- ==== Sys2Proof/Machine/BitIo.lean ====
section
/-! DEFINITION. The bit packer and the bit unpacker (spec/43_bit_io.md): BW_WRITE_CODE, BW_FLUSH, BW_RESET, BR_RESET,
BR_READ_BIT. -/

namespace Sys2Proof.Machine

open Sys2Proof

/-- `WriteBit(b)` (R190); its value is the number of bytes sent to OUT. -/
def writeBit (b : Bool) (s : State) : Res Nat :=
  if s.bwCount / 8 < block then
    if s.bwCount + 1 = block * 8 then
      .ok block (clearWriter (outWrite (storeTake 0#8 (bufSetBit s.bwBuf s.bwCount b) block) s))
    else .ok 0 { s with bwBuf := bufSetBit s.bwBuf s.bwCount b, bwCount := s.bwCount + 1 }
  else .stuck .bufferOverrun

/-- `Flush()` (R191); its value is the number of bytes sent to OUT. -/
def flushWriter (s : State) : Res Nat :=
  if ceilDiv s.bwCount 8 ≤ block then
    if ceilDiv s.bwCount 8 > 0 then
      .ok (ceilDiv s.bwCount 8) (clearWriter (outWrite (storeTake 0#8 s.bwBuf (ceilDiv s.bwCount 8)) s))
    else .ok 0 (clearWriter s)
  else .stuck .bufferOverrun

/-- `WriteBit` over a bit list; its value is `f` plus the number of bytes sent to OUT. -/
def writeBits : List Bool → Nat → State → Res Nat
  | [], f, s => .ok f s
  | b :: bs, f, s => (writeBit b s).bind fun k s => writeBits bs (f + k) s

/-- `WriteCode(s)` (R192): the bits of the symbol's code in order. -/
def writeCode (sym : Nat) (s : State) : Res Nat := writeBits (codeList (codeAt s sym)) 0 s

/-- BW_WRITE_CODE s (R193): BAD_OPERAND, then NO_CODE. -/
def execBwWriteCode (v : BitVec 16) (s : State) : Host.Outcome State Fault Refusal :=
  endCommand 0x30#8 ((symOperand v s).bind fun i s =>
    if (codeAt s i).len = 0#9 then .raised .noCode s
    else (writeCode i s).bind fun f s => .ok () (setResult (BitVec.ofNat 32 f) s))

/-- BW_FLUSH (R194). -/
def execBwFlush (s : State) : Host.Outcome State Fault Refusal :=
  endCommand 0x31#8 ((flushWriter s).bind fun m s => .ok () (setResult (BitVec.ofNat 32 m) s))

/-- BW_RESET (R195). -/
def execBwReset (s : State) : Host.Outcome State Fault Refusal :=
  endCommand 0x32#8 (.ok () (clearWriter s))

/-- ReadBit's refill (R197): up to BLOCK bytes of IN, placed from BR_BUF[0] up. -/
def refillReader (s : State) : State :=
  { inReadState block s with
    brBuf := storeWriteList 0#8 s.brBuf 0 (inReadBytes block s)
    brValid := (inReadBytes block s).length
    brIndex := 0 }

/-- ReadBit once the buffer has a bit to take (R197). -/
def takeBit (s : State) : Res (Option Bool) :=
  if s.brIndex / 8 < block then
    .ok (some (bufBit s.brBuf s.brIndex)) { s with brIndex := s.brIndex + 1, eos := false }
  else .stuck .bufferOverrun

/-- `ReadBit()` (R197); its value is the bit, or `none` for EOS_SIGNAL. -/
def readBit (s : State) : Res (Option Bool) :=
  if s.brIndex = s.brValid * 8 then
    if (inReadBytes block s).length = 0 then .ok none { refillReader s with eos := true }
    else takeBit (refillReader s)
  else takeBit s

/-- BR_RESET (R198). -/
def execBrReset (s : State) : Host.Outcome State Fault Refusal :=
  endCommand 0x38#8 (.ok () (clearReader s))

/-- R199's RESULT for what ReadBit returned. -/
def bitResult (r : Option Bool) : Word :=
  match r with
  | none => 0x80000000#32
  | some b => (BitVec.ofBool b).setWidth 32

/-- BR_READ_BIT (R199). -/
def execBrReadBit (s : State) : Host.Outcome State Fault Refusal :=
  endCommand 0x39#8 ((readBit s).bind fun r s => .ok () (setResult (bitResult r) s))

end Sys2Proof.Machine
end

