-- ==== Sys2Proof/Machine/Engine.lean ====
section
/-! DEFINITION. The Huffman engine (spec/40_huffman_engine.md): BUILD_TREE, BUILD_CODES, DELETE_TREE, NODE_READ, CODE_READ.
The bodies are separate from the commands because ENCODE runs them without their RESULT lines (44_container_codec.md). -/

namespace Sys2Proof.Machine

open Sys2Proof

/-- `Join(l, r)` (R130). -/
def joinNodes (l r : NodeIx) (s : State) : Res NodeIx :=
  allocNode 0x00#8 ((nodeAt s l.toNat).freq + (nodeAt s r.toNat).freq) l r s

/-- T of R131: the sum of FREQ over the alphabet, an unbounded natural. -/
def freqTotal (s : State) : Nat := ((List.range alphabet).map (fun i => (freqAt s i).toNat)).sum

/-- R131's loop over the symbols: a leaf for each nonzero FREQ entry, inserted in the queue. -/
def enqueueLeaves : List Nat → State → Res Unit
  | [], s => .ok () s
  | x :: xs, s =>
    if freqAt s x = 0#64 then enqueueLeaves xs s
    else
      (allocNode (BitVec.ofNat 8 x) (freqAt s x) nil nil s).bind fun i s =>
      (pqInsertNode i s).bind fun _ s =>
      enqueueLeaves xs { s with leafCount := s.leafCount + 1#9 }

/-- R131's `while PQ_SIZE > 1`: the first node extracted is the left child. Each turn shortens the queue by one, so
as many turns as the queue has entries are enough. -/
def joinLoop : Nat → State → Res Unit
  | 0, s => if s.pq.length > 1 then .stuck .loopBound else .ok () s
  | n + 1, s =>
    if s.pq.length > 1 then
      (pqExtractNode s).bind fun l s =>
      (pqExtractNode s).bind fun r s =>
      (joinNodes l r s).bind fun p s =>
      (pqInsertNode p s).bind fun _ s =>
      joinLoop n s
    else .ok () s

/-- R131's last step before RESULT: the one node left is the root. -/
def takeRoot (s : State) : Res Unit :=
  if s.pq.length = 1 then (pqExtractNode s).bind fun n s => .ok () { s with root := n } else .ok () s

/-- BUILD_TREE without its RESULT line (R131). -/
def buildTreeBody (s : State) : Res Unit :=
  if freqTotal s ≥ 2 ^ 64 then .raised .freqOverflow s
  else
    (enqueueLeaves (List.range alphabet) { releasePool s with codesValid := false }).bind fun _ s =>
    (joinLoop s.pq.length s).bind fun _ s =>
    takeRoot s

/-- BUILD_TREE (R131). -/
def execBuildTree (s : State) : Host.Outcome State Fault Refusal :=
  endCommand 0x10#8 ((buildTreeBody s).bind fun _ s => .ok () (setResult (s.root.setWidth 32) s))

/-- `Walk(i)` of R132 with the shared path buffer; left is bit 0, right is bit 1. The path buffer's capacity bounds the
depth before the first argument does (R134). -/
def walkCodes : Nat → NodeIx → List Bool → State → Res (List Bool)
  | 0, _, _, _ => .stuck .loopBound
  | n + 1, i, path, s =>
    if i = nil then .stuck .absentNode
    else if (nodeAt s i.toNat).isLeaf then
      .ok path (setCode (nodeAt s i.toNat).sym.toNat (codeOfList path) s)
    else
      (codePush false path s).bind fun path s =>
      (walkCodes n (nodeAt s i.toNat).left path s).bind fun path s =>
      (codePop path s).bind fun path s =>
      (codePush true path s).bind fun path s =>
      (walkCodes n (nodeAt s i.toNat).right path s).bind fun path s =>
      codePop path s

/-- R132's choice: nothing for the empty tree, the 1-bit code "0" for a root that is a leaf (R133), else the walk. -/
def codesOfTree (s : State) : Res Unit :=
  if s.root = nil then .ok () s
  else if (nodeAt s s.root.toNat).isLeaf then
    .ok () (setCode (nodeAt s s.root.toNat).sym.toNat (codeOfList [false]) s)
  else (walkCodes (maxCodeBits + 1) s.root [] s).bind fun _ s => .ok () s

/-- BUILD_CODES without its RESULT line (R132). -/
def buildCodesBody (s : State) : Res Unit :=
  (codesOfTree { s with code := [] }).bind fun _ s => .ok () { s with codesValid := true }

/-- The number of symbols that have a code (R132's RESULT). -/
def codeCount (s : State) : Nat := (List.range alphabet).countP (fun i => (codeAt s i).len ≠ 0#9)

/-- BUILD_CODES (R132). -/
def execBuildCodes (s : State) : Host.Outcome State Fault Refusal :=
  endCommand 0x11#8 ((buildCodesBody s).bind fun _ s => .ok () (setResult (BitVec.ofNat 32 (codeCount s)) s))

/-- DELETE_TREE (R135). -/
def execDeleteTree (s : State) : Host.Outcome State Fault Refusal :=
  endCommand 0x12#8 (.ok () { releasePool s with codesValid := false })

/-- NODE_SYM's value for an allocated node: SYM in [7:0], LEAF in [8], ALLOC in [9] (R136). -/
def nodeSymWord (e : NodeEntry) : Word :=
  e.sym.setWidth 32 ||| ((BitVec.ofBool e.isLeaf).setWidth 32 <<< 8) ||| (1#32 <<< 9)

/-- The node readout registers written from a pool entry; zeros for a free one (R136). -/
def readoutNode (e : NodeEntry) (s : State) : State :=
  if e.alloc then
    { s with
      nodeSym := nodeSymWord e
      nodeLeft := e.left.setWidth 32
      nodeRight := e.right.setWidth 32
      nodeFreq := e.freq }
  else { s with nodeSym := 0#32, nodeLeft := 0#32, nodeRight := 0#32, nodeFreq := 0#64 }

/-- NODE_READ v (R136). -/
def execNodeRead (v : BitVec 16) (s : State) : Host.Outcome State Fault Refusal :=
  endCommand 0x13#8 ((nodeOperand v s).bind fun i s => .ok () (readoutNode (nodeAt s i) s))

/-- The code readout registers written from a code-table entry (R137, R39). -/
def readoutCode (e : CodeEntry) (s : State) : State := { s with codeLen := e.len, codeBits := e.bits }

/-- CODE_READ s (R137). -/
def execCodeRead (v : BitVec 16) (s : State) : Host.Outcome State Fault Refusal :=
  endCommand 0x14#8 ((symOperand v s).bind fun i s =>
    .ok () (setResult ((codeAt s i).len.setWidth 32) (readoutCode (codeAt s i) s)))

end Sys2Proof.Machine
end

