-- ==== Sys2Proof/Machine/Serializer.lean ====
section
/-! DEFINITION. The tree serializer (spec/41_tree_serializer.md): SERIALIZE_TREE, REBUILD_TREE. -/

namespace Sys2Proof.Machine

open Sys2Proof

/-- `Post(i)` of R152 with the output index k as its value: left, right, self. A tree in a pool of NODE_CAP nodes is
never deeper than NODE_CAP (R24). -/
def postDump : Nat → NodeIx → Nat → State → Res Nat
  | 0, _, _, _ => .stuck .treeTooDeep
  | n + 1, i, k, s =>
    if i = nil then .stuck .absentNode
    else if (nodeAt s i.toNat).isLeaf then
      (dumpPut k s.cfg.tagLeaf s).bind fun _ s =>
      (dumpPut (k + 1) (nodeAt s i.toNat).sym s).bind fun _ s =>
      .ok (k + 2) s
    else
      (postDump n (nodeAt s i.toNat).left k s).bind fun k s =>
      (postDump n (nodeAt s i.toNat).right k s).bind fun k s =>
      (dumpPut k s.cfg.tagInterior s).bind fun _ s =>
      .ok (k + 1) s

/-- SERIALIZE_TREE without its RESULT line; its value is the dump's length (R152). -/
def serializeBody (s : State) : Res Nat :=
  (if s.root = nil then .ok 0 s else postDump nodeCap s.root 0 s).bind fun k s =>
  .ok k { s with treeSize := BitVec.ofNat 16 k }

/-- SERIALIZE_TREE (R152). -/
def execSerializeTree (s : State) : Host.Outcome State Fault Refusal :=
  endCommand 0x18#8 ((serializeBody s).bind fun k s => .ok () (setResult (BitVec.ofNat 32 k) s))

/-- One leaf record of R155's scan: a new leaf node, pushed. -/
def leafRecord (sym : Byte) (s : State) : Res Unit :=
  (allocNode sym 0#64 nil nil s).bind fun k s =>
  (pushNode k s).bind fun _ s =>
  .ok () { s with leafCount := s.leafCount + 1#9 }

/-- One interior record of R155's scan: the most recently pushed node is the right child, the next the left. -/
def interiorRecord (s : State) : Res Unit :=
  if s.stack.length < 2 then .raised .stackUnderflow s
  else
    (popNode s).bind fun r s =>
    (popNode s).bind fun l s =>
    (allocNode 0x00#8 0#64 l r s).bind fun k s =>
    pushNode k s

/-- R155's scan of the dump bytes not yet read. -/
def scanDump : List Byte → State → Res Unit
  | [], s => .ok () s
  | b :: bs, s =>
    if b = s.cfg.tagLeaf then
      match bs with
      | [] => .raised .leafRecordCut s
      | x :: xs => (leafRecord x s).bind fun _ s => scanDump xs s
    else if b = s.cfg.tagInterior then (interiorRecord s).bind fun _ s => scanDump bs s
    else .raised .badTag s

/-- R155 after the scan: the one node left is the root; none is the empty tree; more is DUMP_LEFTOVER. -/
def finishScan (s : State) : Res Unit :=
  if s.stack.length = 0 then .ok () { s with root := nil }
  else if s.stack.length = 1 then (popNode s).bind fun i s => .ok () { s with root := i }
  else .raised .dumpLeftover s

/-- `Fail(E)` of R155: the pool is released before the error is raised (R156). -/
def rollback (r : Res Unit) : Res Unit :=
  match r with
  | .ok a s => .ok a s
  | .raised c s => .raised c (releasePool s)
  | .stuck f => .stuck f

/-- REBUILD_TREE without its RESULT line (R155, R154). -/
def rebuildBody (s : State) : Res Unit :=
  if s.treeSize.toNat > maxTreeSize then .raised .treeSizeRange s
  else
    rollback ((scanDump (dumpBytes s.treeSize.toNat s) { releasePool s with codesValid := false }).bind fun _ s =>
      finishScan s)

/-- REBUILD_TREE (R155). -/
def execRebuildTree (s : State) : Host.Outcome State Fault Refusal :=
  endCommand 0x19#8 ((rebuildBody s).bind fun _ s => .ok () (setResult (s.root.setWidth 32) s))

end Sys2Proof.Machine
end

