-- ==== Sys2Proof/Machine/Codec.lean ====
section
/-! DEFINITION. The container codec (spec/44_container_codec.md): ENCODE, DECODE. -/

namespace Sys2Proof.Machine

open Sys2Proof

/-- `Header()` (R102): magic, permissions, tree size and original size, little-endian, 16 bytes. -/
def headerBytes (s : State) : List Byte :=
  leBytes 4 s.cfg.magic.toNat ++ leBytes 2 s.permissions.toNat ++ leBytes 2 s.treeSize.toNat ++
    leBytes 8 s.origSize.toNat

/-- `EncodePayload()` (R211) with the number of symbols still to write. Each turn consumes a byte of IN or ends, so one
turn more than IN has bytes left is enough. -/
def encodePayload : Nat → Nat → State → Res Unit
  | 0, _, _ => .stuck .loopBound
  | n + 1, left, s =>
    if left = 0 then .ok () s
    else
      match inReadBytes 1 s with
      | [] => .raised .inputShort (inReadState 1 s)
      | x :: _ =>
        if (codeAt s x.toNat).len = 0#9 then .raised .noCode (inReadState 1 s)
        else (writeCode x.toNat (inReadState 1 s)).bind fun _ s => encodePayload n (left - 1) s

/-- ENCODE (R214). -/
def execEncode (s : State) : Host.Outcome State Fault Refusal :=
  endCommand 0x40#8 <|
    (buildTreeBody (clearWriter (clearCounts s))).bind fun _ s =>
    (buildCodesBody s).bind fun _ s =>
    (serializeBody s).bind fun _ s =>
    (encodePayload ((inRest s).length + 1) s.origSize.toNat
      (outWrite (dumpBytes s.treeSize.toNat s) (outWrite (headerBytes s) s))).bind fun _ s =>
    (flushWriter s).bind fun _ s =>
    .ok () (setResult (s.outCount.setWidth 32) s)

/-- `DecodePayload(osize)` (R223, R224) with the number of symbols still to emit and the cursor. Each turn consumes a
payload bit or ends, so one turn more than there are bits left is enough. -/
def decodePayload : Nat → Nat → NodeIx → State → Res Unit
  | 0, _, _, _ => .stuck .loopBound
  | n + 1, left, cur, s =>
    if left = 0 then .ok () s
    else
      (readBit s).bind fun r s =>
      match r with
      | none => .raised .payloadShort s
      | some b =>
        if (nodeAt s s.root.toNat).isLeaf then
          if b then .raised .absentChild s
          else decodePayload n (left - 1) cur (outWrite [(nodeAt s s.root.toNat).sym] s)
        else
          let next := if b then (nodeAt s cur.toNat).right else (nodeAt s cur.toNat).left
          if next = nil then .raised .absentChild s
          else if (nodeAt s next.toNat).isLeaf then
            decodePayload n (left - 1) s.root (outWrite [(nodeAt s next.toNat).sym] s)
          else decodePayload n left next s

/-- The number of payload bits IN can still give a fresh reader. -/
def payloadBits (s : State) : Nat := 8 * (inRest s).length

/-- The header's fields stored by DECODE: `PERMISSIONS <- perms; TREE_SIZE <- tsize; ORIG_SIZE <- osize` (R220, R102). -/
def storeHeader (h : List Byte) (s : State) : State :=
  { s with
    permissions := BitVec.ofNat 16 (rdle ((h.drop 4).take 2))
    treeSize := BitVec.ofNat 16 (rdle ((h.drop 6).take 2))
    origSize := BitVec.ofNat 64 (rdle ((h.drop 8).take 8)) }

/-- DECODE's first part: the header (R220). -/
def decodeHeader (s : State) : Res Unit :=
  if (inReadBytes headerSize s).length < headerSize then .raised .headerShort (inReadState headerSize s)
  else if BitVec.ofNat 32 (rdle ((inReadBytes headerSize s).take 4)) ≠ s.cfg.magic then
    .raised .badMagic (inReadState headerSize s)
  else .ok () (storeHeader (inReadBytes headerSize s) (inReadState headerSize s))

/-- The state after TREE_SIZE bytes, or as many as IN has, were read into DUMP from byte 0 (R220). -/
def readDump (s : State) : State :=
  { inReadState s.treeSize.toNat s with dump := storeWriteList 0#8 s.dump 0 (inReadBytes s.treeSize.toNat s) }

/-- DECODE's second part: the tree dump, from IN into DUMP (R220). -/
def decodeDump (s : State) : Res Unit :=
  if s.treeSize.toNat > maxTreeSize then .raised .treeSizeRange s
  else if (inReadBytes s.treeSize.toNat s).length < s.treeSize.toNat then .raised .dumpShort (readDump s)
  else .ok () (readDump s)

/-- DECODE's check that there is a tree when there are symbols to emit (R220). -/
def checkTree (s : State) : Res Unit :=
  if s.origSize.toNat > 0 ∧ s.root = nil then .raised .emptyTree s else .ok () s

/-- DECODE (R220). -/
def execDecode (s : State) : Host.Outcome State Fault Refusal :=
  endCommand 0x41#8 <|
    (decodeHeader (clearReader (clearCounts s))).bind fun _ s =>
    (decodeDump s).bind fun _ s =>
    (rebuildBody s).bind fun _ s =>
    (checkTree s).bind fun _ s =>
    (decodePayload (payloadBits s + 1) s.origSize.toNat s.root s).bind fun _ s =>
    .ok () (setResult (s.outCount.setWidth 32) s)

end Sys2Proof.Machine
end

