-- ==== Sys2Proof/Machine/Control.lean ====
section
/-! DEFINITION. The control commands (spec/45_control.md): NOP, CLEAR_ERR, SOFT_RESET. -/

namespace Sys2Proof.Machine

open Sys2Proof

/-- NOP (R230): no effect. -/
def execNop (s : State) : Host.Outcome State Fault Refusal := .next s

/-- CLEAR_ERR (R231): `STATUS.ERR <- 0; ERROR <- 0`. -/
def execClearErr (s : State) : Host.Outcome State Fault Refusal := .next (clearError s)

/-- SOFT_RESET (R232): the reset of R270. -/
def execSoftReset (s : State) : Host.Outcome State Fault Refusal := .next (applyReset s)

end Sys2Proof.Machine
end

