-- ==== Sys2Proof/Machine/Queue.lean ====
section
/-! DEFINITION. The priority-queue commands (spec/42_priority_queue.md): PQ_CLEAR, PQ_INSERT, PQ_EXTRACT_MIN. -/

namespace Sys2Proof.Machine

open Sys2Proof

/-- PQ_CLEAR (R174). -/
def execPqClear (s : State) : Host.Outcome State Fault Refusal :=
  endCommand 0x20#8 (.ok () { s with pq := [] })

/-- PQ_INSERT v (R175): BAD_OPERAND, then BAD_NODE, then PQ_FULL. -/
def execPqInsert (v : BitVec 16) (s : State) : Host.Outcome State Fault Refusal :=
  endCommand 0x21#8 ((nodeOperand v s).bind fun i s =>
    if (nodeAt s i).alloc then
      (pqInsertNode (BitVec.ofNat 9 i) s).bind fun _ s =>
      .ok () (setResult (BitVec.ofNat 32 s.pq.length) s)
    else .raised .badNode s)

/-- PQ_EXTRACT_MIN (R176). -/
def execPqExtractMin (s : State) : Host.Outcome State Fault Refusal :=
  endCommand 0x22#8 ((pqExtractNode s).bind fun n s => .ok () (setResult (n.setWidth 32) s))

end Sys2Proof.Machine
end

