-- ==== Sys2Proof/Machine/Dispatch.lean ====
section
/-! DEFINITION. One arm per command: each calls the command's meaning. -/

namespace Sys2Proof.Machine

open Sys2Proof

def exec (i : Instr) (s : State) : Host.Outcome State Fault Refusal :=
  match i with
  | .nop => Sys2Proof.Machine.execNop s
  | .clearErr => Sys2Proof.Machine.execClearErr s
  | .softReset => Sys2Proof.Machine.execSoftReset s
  | .buildTree => Sys2Proof.Machine.execBuildTree s
  | .buildCodes => Sys2Proof.Machine.execBuildCodes s
  | .deleteTree => Sys2Proof.Machine.execDeleteTree s
  | .nodeRead v => Sys2Proof.Machine.execNodeRead v s
  | .codeRead v => Sys2Proof.Machine.execCodeRead v s
  | .serializeTree => Sys2Proof.Machine.execSerializeTree s
  | .rebuildTree => Sys2Proof.Machine.execRebuildTree s
  | .pqClear => Sys2Proof.Machine.execPqClear s
  | .pqInsert v => Sys2Proof.Machine.execPqInsert v s
  | .pqExtractMin => Sys2Proof.Machine.execPqExtractMin s
  | .bwWriteCode v => Sys2Proof.Machine.execBwWriteCode v s
  | .bwFlush => Sys2Proof.Machine.execBwFlush s
  | .bwReset => Sys2Proof.Machine.execBwReset s
  | .brReset => Sys2Proof.Machine.execBrReset s
  | .brReadBit => Sys2Proof.Machine.execBrReadBit s
  | .encode => Sys2Proof.Machine.execEncode s
  | .decode => Sys2Proof.Machine.execDecode s

end Sys2Proof.Machine
end

