-- ==== Sys2Proof/Machine/Flags.lean ====
section
/-! DEFINITION. The flag words: STATUS (spec/10_state.md R33) and PQ_STATUS (R40). ERR, EOS and CODES_VALID are stored;
TREE_VALID, PQ_EMPTY, PQ_FULL and BW_PENDING are live copies of other state (R43). -/

namespace Sys2Proof.Machine

open Sys2Proof

/-- TREE_VALID: ROOT ≠ NIL (R33). -/
def treeValid (s : State) : Bool := s.root ≠ nil

/-- PQ_EMPTY: PQ_SIZE = 0 (R33, R40). -/
def pqEmptyFlag (s : State) : Bool := s.pq.length = 0

/-- PQ_FULL: PQ_SIZE = PQ_CAP (R33, R40). -/
def pqFullFlag (s : State) : Bool := s.pq.length = pqCap

/-- BW_PENDING: BW_COUNT ≠ 0 (R33). -/
def bwPending (s : State) : Bool := s.bwCount ≠ 0

/-- A flag at bit `k` of a word. -/
def flagBit (k : Nat) (b : Bool) : Word := (BitVec.ofBool b).setWidth 32 <<< k

/-- STATUS (R33); bits 30:7 are reserved and BUSY, bit 31, always reads 0. -/
def statusWord (s : State) : Word :=
  flagBit 0 s.err ||| flagBit 1 s.eos ||| flagBit 2 (treeValid s) ||| flagBit 3 s.codesValid |||
    flagBit 4 (pqEmptyFlag s) ||| flagBit 5 (pqFullFlag s) ||| flagBit 6 (bwPending s)

/-- PQ_STATUS (R40): SIZE in [8:0], EMPTY in [16], FULL in [17]. -/
def pqStatusWord (s : State) : Word :=
  (BitVec.ofNat 9 s.pq.length).setWidth 32 ||| flagBit 16 (pqEmptyFlag s) ||| flagBit 17 (pqFullFlag s)

end Sys2Proof.Machine
end

