-- ==== Sys2Proof/Machine/Port.lean ====
section
/-! DEFINITION. The host register port: the register block (spec/10_state.md R30), the FREQ and DUMP windows
(spec/20_memory.md R62, R63) and what a 32-bit read or write of each does (R64). -/

namespace Sys2Proof.Machine

open Sys2Proof

/-- The registers of R30's table. -/
inductive Reg where
  | id
  | version
  | cmd
  | status
  | error
  | result
  | pqStatus
  | root
  | leafCount
  | treeSize
  | permissions
  | origSizeLo
  | origSizeHi
  | bwCount
  | brIndex
  | brValid
  | inCountLo
  | inCountHi
  | outCountLo
  | outCountHi
  | nodeSym
  | nodeLeft
  | nodeRight
  | nodeFreqLo
  | nodeFreqHi
  | codeLen
  | codeBits (k : Fin 8)
  deriving DecidableEq, Repr

/-- The offset column of R30. -/
def regOffset (r : Reg) : Nat :=
  match r with
  | .id => 0x000
  | .version => 0x004
  | .cmd => 0x008
  | .status => 0x00C
  | .error => 0x010
  | .result => 0x014
  | .pqStatus => 0x018
  | .root => 0x01C
  | .leafCount => 0x020
  | .treeSize => 0x024
  | .permissions => 0x028
  | .origSizeLo => 0x02C
  | .origSizeHi => 0x030
  | .bwCount => 0x034
  | .brIndex => 0x038
  | .brValid => 0x03C
  | .inCountLo => 0x040
  | .inCountHi => 0x044
  | .outCountLo => 0x048
  | .outCountHi => 0x04C
  | .nodeSym => 0x050
  | .nodeLeft => 0x054
  | .nodeRight => 0x058
  | .nodeFreqLo => 0x05C
  | .nodeFreqHi => 0x060
  | .codeLen => 0x064
  | .codeBits k => 0x080 + 4 * k.val

/-- Every register of R30. -/
def allRegs : List Reg := [
  .id, .version, .cmd, .status, .error, .result, .pqStatus, .root, .leafCount, .treeSize, .permissions, .origSizeLo,
  .origSizeHi, .bwCount, .brIndex, .brValid, .inCountLo, .inCountHi, .outCountLo, .outCountHi, .nodeSym, .nodeLeft,
  .nodeRight, .nodeFreqLo, .nodeFreqHi, .codeLen, .codeBits 0, .codeBits 1, .codeBits 2, .codeBits 3, .codeBits 4,
  .codeBits 5, .codeBits 6, .codeBits 7]

/-- The register at an offset; none where R30 has a reserved offset. -/
def regAt (off : Nat) : Option Reg := allRegs.find? (fun r => regOffset r == off)

/-- Bits [31:0] of a 64-bit value (R69: the LO word is at the lower offset). -/
def lowWord (v : BitVec 64) : Word := v.extractLsb' 0 32

/-- Bits [63:32] of a 64-bit value. -/
def highWord (v : BitVec 64) : Word := v.extractLsb' 32 32

/-- A 64-bit value with bits [31:0] replaced. -/
def withLow (v : BitVec 64) (w : Word) : BitVec 64 := highWord v ++ w

/-- A 64-bit value with bits [63:32] replaced. -/
def withHigh (v : BitVec 64) (w : Word) : BitVec 64 := w ++ lowWord v

/-- What a read of a register returns (R30); CMD is write-only and reads 0; reserved fields read 0. -/
def readReg (r : Reg) (s : State) : Word :=
  match r with
  | .id => 0x48554646#32
  | .version => 0x00000107#32
  | .cmd => 0#32
  | .status => statusWord s
  | .error => s.error
  | .result => s.result
  | .pqStatus => pqStatusWord s
  | .root => s.root.setWidth 32
  | .leafCount => s.leafCount.setWidth 32
  | .treeSize => s.treeSize.setWidth 32
  | .permissions => s.permissions.setWidth 32
  | .origSizeLo => lowWord s.origSize
  | .origSizeHi => highWord s.origSize
  | .bwCount => BitVec.ofNat 32 s.bwCount
  | .brIndex => BitVec.ofNat 32 s.brIndex
  | .brValid => BitVec.ofNat 32 s.brValid
  | .inCountLo => lowWord s.inCount
  | .inCountHi => highWord s.inCount
  | .outCountLo => lowWord s.outCount
  | .outCountHi => highWord s.outCount
  | .nodeSym => s.nodeSym
  | .nodeLeft => s.nodeLeft
  | .nodeRight => s.nodeRight
  | .nodeFreqLo => lowWord s.nodeFreq
  | .nodeFreqHi => highWord s.nodeFreq
  | .codeLen => s.codeLen.setWidth 32
  | .codeBits k => s.codeBits.extractLsb' (32 * k.val) 32

/-- What a write of a register stores (R30, R64): the writable fields of the RW registers; a write of an RO register is
ignored. A write of CMD stores nothing; the command it issues is Machine/Issue.lean's. -/
def writeReg (r : Reg) (v : Word) (s : State) : State :=
  match r with
  | .treeSize => { s with treeSize := v.extractLsb' 0 16 }
  | .permissions => { s with permissions := v.extractLsb' 0 16 }
  | .origSizeLo => { s with origSize := withLow s.origSize v }
  | .origSizeHi => { s with origSize := withHigh s.origSize v }
  | .id => s
  | .version => s
  | .cmd => s
  | .status => s
  | .error => s
  | .result => s
  | .pqStatus => s
  | .root => s
  | .leafCount => s
  | .bwCount => s
  | .brIndex => s
  | .brValid => s
  | .inCountLo => s
  | .inCountHi => s
  | .outCountLo => s
  | .outCountHi => s
  | .nodeSym => s
  | .nodeLeft => s
  | .nodeRight => s
  | .nodeFreqLo => s
  | .nodeFreqHi => s
  | .codeLen => s
  | .codeBits _ => s

/-- What a 32-bit word offset of the port names (R61). -/
inductive Place where
  /-- a register of the block at 0x0000 to 0x07FC -/
  | reg (r : Reg)
  /-- FREQ[i][31:0] -/
  | freqLow (i : Nat)
  /-- FREQ[i][63:32] -/
  | freqHigh (i : Nat)
  /-- DUMP[4k] to DUMP[4k+3] -/
  | dumpWord (k : Nat)
  /-- reads 0, ignores writes -/
  | reserved
  deriving DecidableEq, Repr

/-- The address map R61, R62, R63. -/
def placeOf (off : Nat) : Place :=
  if off < 0x0800 then
    match regAt off with
    | some r => .reg r
    | none => .reserved
  else if off < 0x1000 then
    if (off - 0x0800) % 8 = 0 then .freqLow ((off - 0x0800) / 8) else .freqHigh ((off - 0x0800) / 8)
  else if off < 0x1300 then .dumpWord ((off - 0x1000) / 4)
  else .reserved

/-- One byte of DUMP as the window shows it; DUMP[767] does not exist and reads 0 (R63). -/
def dumpLane (s : State) (i : Nat) : Byte := if i < maxTreeSize then storeRead 0#8 s.dump i else 0#8

/-- The four lanes of a DUMP window word, DUMP[4k+j] in bits [8j+7:8j] (R63). -/
def dumpWordRead (s : State) (k : Nat) : Word :=
  dumpLane s (4 * k + 3) ++ dumpLane s (4 * k + 2) ++ dumpLane s (4 * k + 1) ++ dumpLane s (4 * k)

/-- One lane of a DUMP window write; a write of DUMP[767] is ignored (R63). -/
def dumpLaneWrite (i : Nat) (b : Byte) (m : Memory) : Memory :=
  if i < maxTreeSize then storeWrite 0#8 m i b else m

/-- A host write of a DUMP window word changes all its lanes at once (R63). -/
def dumpWordWrite (k : Nat) (v : Word) (s : State) : State :=
  { s with
    dump :=
      dumpLaneWrite (4 * k + 3) (v.extractLsb' 24 8) <|
      dumpLaneWrite (4 * k + 2) (v.extractLsb' 16 8) <|
      dumpLaneWrite (4 * k + 1) (v.extractLsb' 8 8) <|
      dumpLaneWrite (4 * k) (v.extractLsb' 0 8) s.dump }

/-- `FREQ[i] <- f`. -/
def setFreq (i : Nat) (f : Freq) (s : State) : State := { s with freq := storeWrite 0#64 s.freq i f }

/-- `MemRead(HOST, off, 4)` (R64). -/
def portRead (off : Nat) (s : State) : Word :=
  match placeOf off with
  | .reg r => readReg r s
  | .freqLow i => lowWord (freqAt s i)
  | .freqHigh i => highWord (freqAt s i)
  | .dumpWord k => dumpWordRead s k
  | .reserved => 0#32

/-- What `MemWrite(HOST, off, 4, v)` stores (R64). -/
def portWrite (off : Nat) (v : Word) (s : State) : State :=
  match placeOf off with
  | .reg r => writeReg r v s
  | .freqLow i => setFreq i (withLow (freqAt s i) v) s
  | .freqHigh i => setFreq i (withHigh (freqAt s i) v) s
  | .dumpWord k => dumpWordWrite k v s
  | .reserved => s

end Sys2Proof.Machine
end

