-- ==== Sys2Proof/Machine/Issue.lean ====
section
/-! DEFINITION. Issuing a command (spec/30_encoding.md R93, spec/60_exceptions.md R244) and the effect of one event of
the host or the platform (spec/20_memory.md R60, R64; R270; R274). -/

namespace Sys2Proof.Machine

open Sys2Proof

/-- The three exact words the gate lets pass while ERR = 1 (R93, R244): NOP, CLEAR_ERR, SOFT_RESET. -/
def passesGate (w : Word) : Bool := w == 0x00000000#32 || w == 0x00000001#32 || w == 0x00000002#32

/-- `Issue(w)` with the gate open: R93's checks, then the command. -/
def decodeAndRun (w : Word) (s : State) : Host.Outcome State Fault Refusal :=
  match decodeWord w with
  | .error e => .next (raiseError (opcodeOf w) (decodeCause e) s)
  | .ok i => exec i s

/-- `Issue(w)` (R93): while ERR = 1 every word but the three control words is dropped with no effect (R244). -/
def issueCommand (w : Word) (s : State) : Host.Outcome State Fault Refusal :=
  if s.err && !passesGate w then .next s else decodeAndRun w s

/-- R60: the port carries 32-bit accesses at offsets that are multiples of 4 below 0x10000. -/
def accessOk (off bytes : Nat) : Bool := bytes == 4 && off % 4 == 0 && off < 0x10000

/-- A host read has no side effect on the block (R64); the model records the word it returned (log entry 3). -/
def hostRead (off bytes : Nat) (s : State) : Host.Outcome State Fault Refusal :=
  if accessOk off bytes then .next { s with readLog := s.readLog ++ [portRead off s] } else .refused .hostAccessForm

/-- A host write: at CMD it issues the command, elsewhere it stores into the writable fields (R64). -/
def hostWrite (off bytes : Nat) (v : Word) (s : State) : Host.Outcome State Fault Refusal :=
  if accessOk off bytes then
    if off = regOffset .cmd then issueCommand v s else .next (portWrite off v s)
  else .refused .hostAccessForm

/-- One event of the host or the platform (R18). -/
def runEvent (e : HostEvent) (s : State) : Host.Outcome State Fault Refusal :=
  match e with
  | .read off bytes => hostRead off bytes s
  | .write off bytes v => hostWrite off bytes v s
  | .hardwareReset => .next (applyReset s)
  | .attachIn xs => .next { s with inBytes := xs, inPos := 0 }

/-- One step per host access (R18): the next event is taken and takes its whole effect; with none pending the block
holds its state unchanged (R255). -/
def stepHost (s : State) : Host.Outcome State Fault Refusal :=
  match s.host with
  | [] => .next s
  | e :: es => runEvent e { s with host := es }

/-- The state with a CMD write of the word `w` of `nbits` bits as the host's next access (log entry 2). -/
def placeCommand (s : State) (nbits w : Nat) : State :=
  { s with host := .write (regOffset .cmd) 4 (BitVec.ofNat 32 (w % 2 ^ nbits)) :: s.host }

end Sys2Proof.Machine
end

