-- ==== Sys2Proof/Machine/Step.lean ====
section
/-! DEFINITION. The step, and where it takes its next command from. -/

namespace Sys2Proof.Machine

/-- One step: one event of the host (R18). -/
def step (s : State) : Host.Outcome State Fault Refusal := stepHost s

/-- The state whose next step issues exactly the command word `w`: HUFFCORE fetches nothing (R20), the host's next
access is the CMD write of `w` (log entry 2). -/
def State.withFetchWord (s : State) (nbits w : Nat) : State := placeCommand s nbits w

end Sys2Proof.Machine
end

