-- ==== Sys2Proof/Safety.lean ====
section
/-! DEFINITION. The terms the claims are stated in: the invariant of the state, part by part; code trees as plain trees, with
their dump, their paths, their codes and how a pool holds one; the pure Huffman construction; bits packed into bytes. -/

namespace Sys2Proof.Machine

open Sys2Proof

/-! ### Code trees -/

/-- A strict binary tree with a symbol at each leaf (R16). -/
inductive CodeTree where
  | leaf (sym : Byte)
  | node (l r : CodeTree)
  deriving DecidableEq, Repr

/-- The symbols at the leaves, left to right. -/
def CodeTree.leaves : CodeTree → List Byte
  | .leaf x => [x]
  | .node l r => l.leaves ++ r.leaves

/-- The number of edges on the longest path from the root. -/
def CodeTree.height : CodeTree → Nat
  | .leaf _ => 0
  | .node l r => max l.height r.height + 1

/-- The error a scan of dump bytes meets first, with `d` trees on the stack; none where the bytes are accepted (R155,
R247). -/
def dumpFault (c : Config) : Nat → List Byte → Option Cause
  | d, [] => if d ≤ 1 then none else some .dumpLeftover
  | d, b :: bs =>
    if b = c.tagLeaf then
      match bs with
      | [] => some .leafRecordCut
      | _ :: xs => dumpFault c (d + 1) xs
    else if b = c.tagInterior then
      if d < 2 then some .stackUnderflow else dumpFault c (d - 1) bs
    else some .badTag

/-- The tree dump of R106: post-order, a leaf is its tag and its symbol, an interior node its tag. -/
def CodeTree.dump (c : Config) : CodeTree → List Byte
  | .leaf x => [c.tagLeaf, x]
  | .node l r => l.dump c ++ r.dump c ++ [c.tagInterior]

/-- Every leaf's symbol with the path from the root to it, left to right: left is 0, right is 1 (R16). -/
def CodeTree.paths : CodeTree → List (Byte × List Bool)
  | .leaf x => [(x, [])]
  | .node l r => l.paths.map (fun p => (p.1, false :: p.2)) ++ r.paths.map (fun p => (p.1, true :: p.2))

/-- The codes of a tree: the paths, but for the lone leaf the 1-bit code 0 (R132, R133). -/
def CodeTree.codes : CodeTree → List (Byte × List Bool)
  | .leaf x => [(x, [false])]
  | .node l r => (CodeTree.node l r).paths

/-- The code of a symbol: the one of the leaf met later in the left-first walk (R132). -/
def CodeTree.codeOf (t : CodeTree) (x : Byte) : Option (List Bool) :=
  (t.codes.reverse.find? (fun p => p.1 == x)).map (fun p => p.2)

/-- How many different symbols a tree has. -/
def CodeTree.symbolCount (t : CodeTree) : Nat :=
  (List.range alphabet).countP (fun i => (t.codeOf (BitVec.ofNat 8 i)).isSome)

/-- The payload bits of a symbol sequence (R108): the codes one after the other; none where a symbol has no code. -/
def CodeTree.payload (t : CodeTree) : List Byte → Option (List Bool)
  | [] => some []
  | x :: xs =>
    match t.codeOf x, t.payload xs with
    | some p, some q => some (p ++ q)
    | _, _ => none

/-- The pure decoder of R223 and R224: from the cursor `cur`, the symbols emitted until `n` have been and the error met,
if any. -/
def CodeTree.decodeBits (t : CodeTree) : List Bool → Nat → CodeTree → List Byte × Option Cause
  | _, 0, _ => ([], none)
  | [], _ + 1, _ => ([], some .payloadShort)
  | b :: bs, n + 1, cur =>
    match t, cur with
    | .leaf x, _ =>
      if b then ([], some .absentChild)
      else (x :: (t.decodeBits bs n cur).1, (t.decodeBits bs n cur).2)
    | .node _ _, .leaf _ => ([], some .absentChild)
    | .node _ _, .node l r =>
      match if b then r else l with
      | .leaf x => (x :: (t.decodeBits bs n t).1, (t.decodeBits bs n t).2)
      | .node l' r' => t.decodeBits bs (n + 1) (.node l' r')

/-- How many of the bits `decodeBits` is given it reads: P of R222. -/
def CodeTree.bitsRead (t : CodeTree) : List Bool → Nat → CodeTree → Nat
  | _, 0, _ => 0
  | [], _ + 1, _ => 0
  | b :: bs, n + 1, cur =>
    match t, cur with
    | .leaf _, _ => if b then 1 else t.bitsRead bs n cur + 1
    | .node _ _, .leaf _ => 1
    | .node _ _, .node l r =>
      match if b then r else l with
      | .leaf _ => t.bitsRead bs n t + 1
      | .node l' r' => t.bitsRead bs (n + 1) (.node l' r') + 1

/-- The pool holds the tree at node `i`, in the nodes `ns` listed in post-order (R22, R24). -/
def poolHolds (pool : Store NodeEntry) : CodeTree → NodeIx → List NodeIx → Prop
  | .leaf x, i, ns =>
    ns = [i] ∧ i ≠ nil ∧
      (storeRead NodeEntry.blank pool i.toNat).alloc = true ∧
      (storeRead NodeEntry.blank pool i.toNat).isLeaf = true ∧
      (storeRead NodeEntry.blank pool i.toNat).sym = x
  | .node l r, i, ns =>
    ∃ nl nr, ns = nl ++ nr ++ [i] ∧ i ≠ nil ∧
      (storeRead NodeEntry.blank pool i.toNat).alloc = true ∧
      poolHolds pool l (storeRead NodeEntry.blank pool i.toNat).left nl ∧
      poolHolds pool r (storeRead NodeEntry.blank pool i.toNat).right nr

/-- No pool entry is allocated. -/
def poolFree (s : State) : Prop := ∀ i < nodeCap, (nodeAt s i).alloc = false

/-- The current tree is `t`: ROOT is its root, no node is in it twice, every allocated entry is in it (R24), LEAF_COUNT
is its number of leaves, at most 256 (R24, R158). -/
def treeIs (s : State) (t : CodeTree) : Prop :=
  ∃ ns, poolHolds s.pool t s.root ns ∧ ns.Nodup ∧
    (∀ i < nodeCap, (nodeAt s i).alloc = true → BitVec.ofNat 9 i ∈ ns) ∧
    s.leafCount.toNat = t.leaves.length ∧ t.leaves.length ≤ alphabet

/-- The current tree is empty (R17: ROOT = NIL). -/
def treeEmpty (s : State) : Prop := s.root = nil ∧ s.leafCount = 0#9 ∧ poolFree s

/-- The leaf BUILD_TREE makes for symbol `i` (R131). -/
def leafEntry (s : State) (i : Nat) : NodeEntry := ⟨true, BitVec.ofNat 8 i, freqAt s i, nil, nil⟩

/-- Node `j` is an interior node that Join made of two earlier nodes (R130): symbol 0x00, and their frequencies' sum. -/
def joinedAt (s : State) (j : Nat) : Prop :=
  ∃ l r : NodeIx, l.toNat < j ∧ r.toNat < j ∧
    nodeAt s j = ⟨true, 0x00#8, (nodeAt s l.toNat).freq + (nodeAt s r.toNat).freq, l, r⟩

/-- The pool's allocated entries are the first `k`. -/
def poolPrefix (s : State) (k : Nat) : Prop := ∀ i < nodeCap, (nodeAt s i).alloc = true ↔ i < k

/-- A code-table entry holds a code, or holds none (R25, R132): its length, its bits, and 0 above them. -/
def codeIs (e : CodeEntry) (p : Option (List Bool)) : Prop :=
  match p with
  | none => e = CodeEntry.blank
  | some p => e.len.toNat = p.length ∧ ∀ j, e.bits.getLsbD j = p.getD j false

/-- The code table holds the codes of a tree, and no other code (R132, R133). -/
def codesAre (s : State) (t : CodeTree) : Prop := ∀ x : Byte, codeIs (codeAt s x.toNat) (t.codeOf x)

/-- The code table holds no code. -/
def codesNone (s : State) : Prop := ∀ x : Byte, codeAt s x.toNat = CodeEntry.blank

/-! ### The pure Huffman construction -/

/-- A tree with its frequency. -/
abbrev Weighted : Type := Nat × CodeTree

/-- A tree put after every tree of equal or smaller frequency (R171, R172). -/
def putTree (e : Weighted) : List Weighted → List Weighted
  | [] => [e]
  | f :: q => if f.1 ≤ e.1 then f :: putTree e q else e :: f :: q

/-- The leaves of a frequency table, in ascending symbol order, each put in its place (R131). -/
def leafQueue (s : State) : List Weighted :=
  ((List.range alphabet).filter (fun i => freqAt s i ≠ 0#64)).foldl
    (fun q i => putTree ((freqAt s i).toNat, .leaf (BitVec.ofNat 8 i)) q) []

/-- The two trees of lowest frequency joined, the first on the left, until one is left (R131); `n` bounds the turns. -/
def mergeTrees : Nat → List Weighted → List Weighted
  | 0, q => q
  | n + 1, a :: b :: q => mergeTrees n (putTree (a.1 + b.1, .node a.2 b.2) q)
  | _ + 1, q => q

/-- The Huffman tree of FREQ; none when every entry is 0. -/
def huffmanTree (s : State) : Option CodeTree :=
  ((mergeTrees alphabet (leafQueue s)).head?).map (fun e => e.2)

/-- The symbols with a nonzero FREQ entry, ascending. -/
def freqSymbols (s : State) : List Nat := (List.range alphabet).filter (fun i => freqAt s i ≠ 0#64)

/-! ### Bits and bytes -/

/-- The byte whose bit j is the j-th of a bit list, 0 above its end (R70). -/
def packByte (bs : List Bool) : Byte := (BitVec.ofBoolListLE (bs.take 8)).setWidth 8

/-- Bits packed LSB-first, the last byte zero-padded (R108). -/
def packBits (bs : List Bool) : List Byte :=
  (List.range (ceilDiv bs.length 8)).map (fun i => packByte (bs.drop (8 * i)))

/-- The bits of a byte sequence, LSB-first (R70). -/
def unpackBits (xs : List Byte) : List Bool :=
  xs.flatMap (fun x => (List.range 8).map (fun j => x.getLsbD j))

/-- The pending bits of the bit writer (R31). -/
def writerBits (s : State) : List Bool := (List.range s.bwCount).map (fun k => bufBit s.bwBuf k)

/-- The bits the bit reader has still to return: the rest of its buffer, then the rest of IN (R32, R66). -/
def readerBits (s : State) : List Bool :=
  ((List.range (s.brValid * 8)).map (fun k => bufBit s.brBuf k)).drop s.brIndex ++ unpackBits (inRest s)

/-! ### Containers -/

/-- The dump of a tree that may be empty (R106, R153). -/
def dumpBytesOf (c : Config) (t : Option CodeTree) : List Byte :=
  match t with
  | none => []
  | some t => t.dump c

/-- The payload bits of a symbol sequence under a tree that may be empty (R108). -/
def payloadOf (t : Option CodeTree) (xs : List Byte) : Option (List Bool) :=
  match t with
  | none => if xs = [] then some [] else none
  | some t => t.payload xs

/-- What a decoder makes of payload bits under a tree that may be empty (R223): the symbols emitted and the error met. -/
def decodeWith (t : Option CodeTree) (bits : List Bool) (n : Nat) : List Byte × Option Cause :=
  match t with
  | none => ([], none)
  | some t => t.decodeBits bits n t

/-- How many payload bits a decoder reads under a tree that may be empty (R222). -/
def bitsReadWith (t : Option CodeTree) (bits : List Bool) (n : Nat) : Nat :=
  match t with
  | none => 0
  | some t => t.bitsRead bits n t

/-- The container of R100 up to its payload: header and tree dump. -/
def containerHead (c : Config) (perms : BitVec 16) (n : Nat) (t : Option CodeTree) : List Byte :=
  leBytes 4 c.magic.toNat ++ leBytes 2 perms.toNat ++ leBytes 2 (dumpBytesOf c t).length ++ leBytes 8 n ++
    dumpBytesOf c t

/-- The current tree, empty or not. -/
def treeHeld (s : State) (t : Option CodeTree) : Prop :=
  match t with
  | none => treeEmpty s
  | some t => treeIs s t

/-- `n` ReadBit calls one after the other, and what each returned (R197). -/
def readRun : Nat → State → Res (List (Option Bool))
  | 0, s => .ok [] s
  | n + 1, s => (readBit s).bind fun r s => (readRun n s).bind fun rs s => .ok (r :: rs) s

/-! ### Errors and frames -/

/-- The state after a `raise` of the ERROR word `w`: nothing else changes (R243). -/
def withError (w : Word) (s : State) : State := { s with err := true, error := w, errLog := s.errLog ++ [w] }

/-- The ERROR word of a UsageError of a command word (R93, R243). -/
def usageWord (op : BitVec 8) (cause : Word) : Word := 4#32 ||| (cause <<< 8) ||| (op.setWidth 32 <<< 16)

/-- The OPCODE values of no command, as R94 lists them. -/
def opcodeIllegal (n : Nat) : Prop :=
  (0x03 ≤ n ∧ n ≤ 0x0F) ∨ (0x15 ≤ n ∧ n ≤ 0x17) ∨ (0x1A ≤ n ∧ n ≤ 0x1F) ∨ (0x23 ≤ n ∧ n ≤ 0x2F) ∨
    (0x33 ≤ n ∧ n ≤ 0x37) ∨ (0x3A ≤ n ∧ n ≤ 0x3F) ∨ 0x42 ≤ n

/-- The OPCODE values of the commands with a node operand (R92). -/
def opcodeTakesNode (n : Nat) : Prop := n = 0x13 ∨ n = 0x21

/-- The OPCODE values of the commands with a symbol operand (R92). -/
def opcodeTakesSym (n : Nat) : Prop := n = 0x14 ∨ n = 0x30

/-- A state that differs from `s` at most in the named fields, each taken from `t`: what the engine commands may write
(R77), RESULT and the error state aside. -/
def engineFrame (i : Instr) (s t : State) : Prop :=
  match i with
  | .buildTree =>
    t = { s with pool := t.pool, root := t.root, leafCount := t.leafCount, pq := t.pq, stack := t.stack,
                 codesValid := t.codesValid, result := t.result, err := t.err, error := t.error, errLog := t.errLog }
  | .buildCodes =>
    t = { s with code := t.code, codesValid := t.codesValid, result := t.result, err := t.err, error := t.error,
                 errLog := t.errLog }
  | .deleteTree =>
    t = { s with pool := t.pool, root := t.root, leafCount := t.leafCount, pq := t.pq, stack := t.stack,
                 codesValid := t.codesValid }
  | .nodeRead _ =>
    t = { s with nodeSym := t.nodeSym, nodeLeft := t.nodeLeft, nodeRight := t.nodeRight, nodeFreq := t.nodeFreq,
                 err := t.err, error := t.error, errLog := t.errLog }
  | .codeRead _ =>
    t = { s with codeLen := t.codeLen, codeBits := t.codeBits, result := t.result, err := t.err, error := t.error,
                 errLog := t.errLog }
  | _ => True

/-- What the serializer commands may write (R77). -/
def serializerFrame (i : Instr) (s t : State) : Prop :=
  match i with
  | .serializeTree =>
    t = { s with dump := t.dump, treeSize := t.treeSize, result := t.result, err := t.err, error := t.error,
                 errLog := t.errLog }
  | .rebuildTree =>
    t = { s with pool := t.pool, root := t.root, leafCount := t.leafCount, pq := t.pq, stack := t.stack,
                 codesValid := t.codesValid, result := t.result, err := t.err, error := t.error, errLog := t.errLog }
  | _ => True

/-- What the queue commands and the bit commands may write (R77). -/
def queueBitFrame (i : Instr) (s t : State) : Prop :=
  match i with
  | .pqClear => t = { s with pq := t.pq }
  | .pqInsert _ =>
    t = { s with pq := t.pq, result := t.result, err := t.err, error := t.error, errLog := t.errLog }
  | .pqExtractMin =>
    t = { s with pq := t.pq, result := t.result, err := t.err, error := t.error, errLog := t.errLog }
  | .bwWriteCode _ =>
    t = { s with bwBuf := t.bwBuf, bwCount := t.bwCount, out := t.out, outCount := t.outCount, result := t.result,
                 err := t.err, error := t.error, errLog := t.errLog }
  | .bwFlush =>
    t = { s with bwBuf := t.bwBuf, bwCount := t.bwCount, out := t.out, outCount := t.outCount, result := t.result }
  | .bwReset => t = { s with bwBuf := t.bwBuf, bwCount := t.bwCount }
  | .brReset => t = { s with brBuf := t.brBuf, brValid := t.brValid, brIndex := t.brIndex, eos := t.eos }
  | .brReadBit =>
    t = { s with brBuf := t.brBuf, brValid := t.brValid, brIndex := t.brIndex, eos := t.eos, inPos := t.inPos,
                 inCount := t.inCount, result := t.result }
  | _ => True

/-- What ENCODE and DECODE may write (R77). -/
def codecFrame (i : Instr) (s t : State) : Prop :=
  match i with
  | .encode =>
    t = { s with pool := t.pool, root := t.root, leafCount := t.leafCount, pq := t.pq, stack := t.stack, code := t.code,
                 codesValid := t.codesValid, dump := t.dump, treeSize := t.treeSize, bwBuf := t.bwBuf,
                 bwCount := t.bwCount, inPos := t.inPos, inCount := t.inCount, out := t.out, outCount := t.outCount,
                 result := t.result, err := t.err, error := t.error, errLog := t.errLog }
  | .decode =>
    t = { s with permissions := t.permissions, treeSize := t.treeSize, origSize := t.origSize, dump := t.dump,
                 pool := t.pool, root := t.root, leafCount := t.leafCount, pq := t.pq, stack := t.stack,
                 codesValid := t.codesValid, brBuf := t.brBuf, brValid := t.brValid, brIndex := t.brIndex, eos := t.eos,
                 inPos := t.inPos, inCount := t.inCount, out := t.out, outCount := t.outCount, result := t.result,
                 err := t.err, error := t.error, errLog := t.errLog }
  | _ => True

/-! ### The invariant -/

/-- Every memory is in canonical form within its size (R21, R22, R25, R29, R31, R32). -/
def memoriesOk (s : State) : Prop :=
  storeWf 0#64 alphabet s.freq ∧ storeWf NodeEntry.blank nodeCap s.pool ∧ storeWf CodeEntry.blank alphabet s.code ∧
    Memory.wf maxTreeSize s.dump ∧ Memory.wf block s.bwBuf ∧ Memory.wf block s.brBuf

/-- R31: BW_COUNT is below BLOCK·8, and every buffer bit at a position k ≥ BW_COUNT is 0. -/
def writerOk (s : State) : Prop :=
  s.bwCount < block * 8 ∧ ∀ k, s.bwCount ≤ k → bufBit s.bwBuf k = false

/-- R32: BR_VALID is at most BLOCK and BR_INDEX at most BR_VALID·8. -/
def readerOk (s : State) : Prop := s.brValid ≤ block ∧ s.brIndex ≤ s.brValid * 8

/-- R27, R170: at most PQ_CAP entries, keys ascending, each entry an allocated node with that node's frequency. -/
def queueOk (s : State) : Prop :=
  s.pq.length ≤ pqCap ∧ s.pq.Pairwise (fun a b => a.key ≤ b.key) ∧
    ∀ e ∈ s.pq, (nodeAt s e.node.toNat).alloc = true ∧ e.key = (nodeAt s e.node.toNat).freq

/-- R25: a code has at most 256 bits, and the bits at positions j ≥ len are 0. -/
def codesOk (s : State) : Prop :=
  ∀ i, (codeAt s i).len.toNat ≤ maxCodeBits ∧ ∀ j, (codeAt s i).len.toNat ≤ j → (codeAt s i).bits.getLsbD j = false

/-- R33, R34: ERR is set exactly when ERROR is not 0, and ERROR then holds a cause of R241 with its kind. -/
def errorOk (s : State) : Prop :=
  (s.err = false ∧ s.error = 0#32) ∨ (s.err = true ∧ ∃ op c, s.error = errorWord op c)

/-- R24: between commands the tree is empty or a strict binary tree that holds every allocated node once. -/
def treeOk (s : State) : Prop := treeEmpty s ∨ ∃ t, treeIs s t

/-- The invariant of the state between steps (R273). -/
structure Inv (s : State) : Prop where
  /-- R107: the two tags differ -/
  config : s.cfg.wf
  memories : memoriesOk s
  writer : writerOk s
  reader : readerOk s
  queue : queueOk s
  /-- R28: the stack is empty between commands -/
  stack : s.stack = []
  codes : codesOk s
  error : errorOk s
  tree : treeOk s
  /-- R66: IN's position is within IN -/
  input : s.inPos ≤ s.inBytes.length

end Sys2Proof.Machine
end

