-- ==== Sys2Proof/Certificates/Slice0/Obligations.lean ====
section
/-! DEFINITION. The statements about HUFFCORE that are to be proved. Each docstring names the rules of spec/ it formalises. -/

open Sys2Proof Sys2Proof.Machine

/-! ### Encoding -/

/-- R90, R91, R92: for every well-formed command, with every operand, the decoder reads back what the encoder wrote. -/
def Obligations.DecodeOfEncode : Prop := ∀ i : Instr, i.wf = true → decodeWord (encode i) = .ok i

/-- R90, R93: a word the decoder accepts is the encoding of a well-formed command, so no two words name one command and no
bit of a word is ignored. -/
def Obligations.DecodedWordEncodesBack : Prop :=
  ∀ (w : Word) (i : Instr), decodeWord w = .ok i → i.wf = true ∧ encode i = w

/-- R92 (Selection) and R93's last sentence: the decoder and a decoder built from spec/opcode_table.json by mask and
pattern agree on every word, on the command and on the error. -/
def Obligations.DecoderAgreesWithOpcodeTable : Prop :=
  ∀ w : Word,
    (∀ i, decodeWord w = .ok i →
      ∃ r, selectRow w = .ok r ∧ r ∈ opcodeTable ∧ r.mnemonic = mnemonic i ∧ r.pattern = (opcode i).setWidth 32) ∧
    (∀ e, decodeWord w = .error e → selectRow w = .error e)

/-- R91, R93, R94: what a CMD write of any word does. While ERR = 1 only the three exact control words run. While ERR = 0
the checks are made in the order OPCODE, RSVD, OPERAND, a word that fails one raises that check's UsageError and changes
nothing else, and every other word runs its command. -/
def Obligations.CommandWordChecks : Prop :=
  ∀ (w : Word) (s : State),
    (s.err = true →
      (w = 0x00000000#32 → issueCommand w s = exec .nop s) ∧
      (w = 0x00000001#32 → issueCommand w s = exec .clearErr s) ∧
      (w = 0x00000002#32 → issueCommand w s = exec .softReset s) ∧
      (w ≠ 0x00000000#32 ∧ w ≠ 0x00000001#32 ∧ w ≠ 0x00000002#32 → issueCommand w s = .next s)) ∧
    (s.err = false →
      (opcodeIllegal (opcodeOf w).toNat →
        issueCommand w s = .next (withError (usageWord (opcodeOf w) 0x30#32) s)) ∧
      (¬ opcodeIllegal (opcodeOf w).toNat → rsvdOf w ≠ 0#8 →
        issueCommand w s = .next (withError (usageWord (opcodeOf w) 0x31#32) s)) ∧
      (¬ opcodeIllegal (opcodeOf w).toNat → rsvdOf w = 0#8 →
        (¬ opcodeTakesNode (opcodeOf w).toNat → ¬ opcodeTakesSym (opcodeOf w).toNat → operandOf w ≠ 0#16 →
          issueCommand w s = .next (withError (usageWord (opcodeOf w) 0x31#32) s)) ∧
        (opcodeTakesNode (opcodeOf w).toNat → 511 ≤ (operandOf w).toNat →
          issueCommand w s = .next (withError (usageWord (opcodeOf w) 0x32#32) s)) ∧
        (opcodeTakesSym (opcodeOf w).toNat → 256 ≤ (operandOf w).toNat →
          issueCommand w s = .next (withError (usageWord (opcodeOf w) 0x32#32) s)) ∧
        ((¬ opcodeTakesNode (opcodeOf w).toNat → ¬ opcodeTakesSym (opcodeOf w).toNat → operandOf w = 0#16) →
          (opcodeTakesNode (opcodeOf w).toNat → (operandOf w).toNat < 511) →
          (opcodeTakesSym (opcodeOf w).toNat → (operandOf w).toNat < 256) →
          ∃ i : Instr, opcode i = opcodeOf w ∧ operand i = operandOf w ∧ issueCommand w s = exec i s)))

/-- R92 and the examples of the command rules: words written out from the spec, and the command each stands for. -/
def Obligations.SampleWordsDecode : Prop :=
  decodeWord 0x00000000#32 = .ok .nop ∧ decodeWord 0x00000002#32 = .ok .softReset ∧
    decodeWord 0x00000010#32 = .ok .buildTree ∧ decodeWord 0x00000011#32 = .ok .buildCodes ∧
    decodeWord 0x00020013#32 = .ok (.nodeRead 2#16) ∧ decodeWord 0x00410014#32 = .ok (.codeRead 0x41#16) ∧
    decodeWord 0x00000018#32 = .ok .serializeTree ∧ decodeWord 0x00000019#32 = .ok .rebuildTree ∧
    decodeWord 0x01FE0021#32 = .ok (.pqInsert 510#16) ∧ decodeWord 0x00000022#32 = .ok .pqExtractMin ∧
    decodeWord 0x00FF0030#32 = .ok (.bwWriteCode 255#16) ∧ decodeWord 0x00000031#32 = .ok .bwFlush ∧
    decodeWord 0x00000039#32 = .ok .brReadBit ∧ decodeWord 0x00000040#32 = .ok .encode ∧
    decodeWord 0x00000041#32 = .ok .decode

/-! ### Issue and errors -/

/-- R18, R64, R90: when the host's next access is a CMD write of a word that decodes to a command, and the gate is open,
the step is that command at the state with the access taken. The model's own placing of a word (log entry 2) runs it next.
-/
def Obligations.StepRunsDecodedCommand : Prop :=
  (∀ (s : State) (es : List HostEvent) (w : Word) (i : Instr), s.host = .write 0x008 4 w :: es → s.err = false →
    decodeWord w = .ok i → step s = exec i { s with host := es }) ∧
  (∀ (s : State) (w : Word) (i : Instr), s.err = false → decodeWord w = .ok i →
    step (s.withFetchWord 32 w.toNat) = exec i s)

/-- R244: while ERR = 1 a CMD write of any other word than the three is dropped and changes no state of the block;
register and window accesses are not gated. That an access leaves the list of accesses to come (log entry 2) and that a
read joins the record of what reads returned (log entry 3) is the model's own. -/
def Obligations.GateDropsCommands : Prop :=
  (∀ (s : State) (es : List HostEvent) (w : Word), s.host = .write 0x008 4 w :: es → s.err = true →
    (w ≠ 0x00000000#32 → w ≠ 0x00000001#32 → w ≠ 0x00000002#32 → step s = .next { s with host := es }) ∧
    (w = 0x00000000#32 → step s = exec .nop { s with host := es }) ∧
    (w = 0x00000001#32 → step s = exec .clearErr { s with host := es }) ∧
    (w = 0x00000002#32 → step s = exec .softReset { s with host := es })) ∧
  (∀ (s : State) (es : List HostEvent) (off : Nat) (v : Word), off % 4 = 0 → off < 0x10000 → s.err = true →
    (s.host = .read off 4 :: es →
      step s = .next { s with host := es, readLog := s.readLog ++ [portRead off s] }) ∧
    (s.host = .write off 4 v :: es → off ≠ 0x008 → step s = .next (portWrite off v { s with host := es })))

/-- R243, R35, R247: a command that raises writes ERROR with a cause of R241, its kind and the command's own OPCODE, sets
ERR, leaves RESULT as it was, and raises once. The error history is the model's own (log entry 3). -/
def Obligations.RaiseRecordsOwnCommand : Prop :=
  ∀ (i : Instr) (s t : State), s.err = false → exec i s = .next t →
    (t.err = false ∧ t.errLog = s.errLog) ∨
      ∃ c : Cause, t.err = true ∧ t.error = errorWord (opcode i) c ∧ t.result = s.result ∧
        t.errLog = s.errLog ++ [errorWord (opcode i) c]

/-- R240, R241: the KIND and CAUSE each cause puts in ERROR, and the places of R34's fields. -/
def Obligations.CauseCodes : Prop :=
  ∀ op : BitVec 8,
    errorWord op .badMagic = 0x0101#32 ||| (op.setWidth 32 <<< 16) ∧
    errorWord op .badTag = 0x0201#32 ||| (op.setWidth 32 <<< 16) ∧
    errorWord op .stackUnderflow = 0x0301#32 ||| (op.setWidth 32 <<< 16) ∧
    errorWord op .dumpLeftover = 0x0401#32 ||| (op.setWidth 32 <<< 16) ∧
    errorWord op .treeSizeRange = 0x0501#32 ||| (op.setWidth 32 <<< 16) ∧
    errorWord op .leafRecordCut = 0x0601#32 ||| (op.setWidth 32 <<< 16) ∧
    errorWord op .emptyTree = 0x0701#32 ||| (op.setWidth 32 <<< 16) ∧
    errorWord op .headerShort = 0x1002#32 ||| (op.setWidth 32 <<< 16) ∧
    errorWord op .dumpShort = 0x1102#32 ||| (op.setWidth 32 <<< 16) ∧
    errorWord op .payloadShort = 0x1202#32 ||| (op.setWidth 32 <<< 16) ∧
    errorWord op .absentChild = 0x1302#32 ||| (op.setWidth 32 <<< 16) ∧
    errorWord op .inputShort = 0x1402#32 ||| (op.setWidth 32 <<< 16) ∧
    errorWord op .pqFull = 0x2003#32 ||| (op.setWidth 32 <<< 16) ∧
    errorWord op .pqEmpty = 0x2103#32 ||| (op.setWidth 32 <<< 16) ∧
    errorWord op .stackFull = 0x2203#32 ||| (op.setWidth 32 <<< 16) ∧
    errorWord op .stackEmpty = 0x2303#32 ||| (op.setWidth 32 <<< 16) ∧
    errorWord op .poolFull = 0x2403#32 ||| (op.setWidth 32 <<< 16) ∧
    errorWord op .codeFull = 0x2503#32 ||| (op.setWidth 32 <<< 16) ∧
    errorWord op .codeEmpty = 0x2603#32 ||| (op.setWidth 32 <<< 16) ∧
    errorWord op .freqOverflow = 0x2703#32 ||| (op.setWidth 32 <<< 16) ∧
    errorWord op .illegalOpcode = 0x3004#32 ||| (op.setWidth 32 <<< 16) ∧
    errorWord op .reservedField = 0x3104#32 ||| (op.setWidth 32 <<< 16) ∧
    errorWord op .badOperand = 0x3204#32 ||| (op.setWidth 32 <<< 16) ∧
    errorWord op .badNode = 0x3304#32 ||| (op.setWidth 32 <<< 16) ∧
    errorWord op .noCode = 0x3404#32 ||| (op.setWidth 32 <<< 16)

/-- R34: in every state that keeps the error invariant, ERROR's reserved fields read 0, KIND is at most 4, and KIND is 0
exactly when ERR is 0. -/
def Obligations.ErrorRegisterFields : Prop :=
  ∀ s : State, errorOk s →
    (portRead 0x010 s).extractLsb' 4 4 = 0#4 ∧ (portRead 0x010 s).extractLsb' 24 8 = 0#8 ∧
      ((portRead 0x010 s).extractLsb' 0 4).toNat ≤ 4 ∧
      ((portRead 0x010 s).extractLsb' 0 4 = 0#4 ↔ s.err = false)

/-- R245, R34, and R246 (the spec marks it as its own inference): while ERR = 1 no step raises an error; ERROR is kept
until CLEAR_ERR, SOFT_RESET or reset clears both. -/
def Obligations.FirstErrorIsKept : Prop :=
  ∀ s t : State, s.err = true → step s = .next t →
    t.errLog = s.errLog ∧
      ((t.err = true ∧ t.error = s.error) ∨
        (t.err = false ∧ t.error = 0#32 ∧
          ∃ es, s.host = .write 0x008 4 0x00000001#32 :: es ∨ s.host = .write 0x008 4 0x00000002#32 :: es ∨
            s.host = .hardwareReset :: es))

/-- R246's error history (the model's own, log entry 3): no step forgets an error, and a step adds one exactly when it
raises one. -/
def Obligations.ErrorHistoryIsKept : Prop :=
  ∀ s t : State, step s = .next t →
    (t.errLog = s.errLog ∧ (t.err = true → s.err = true)) ∨
      (s.err = false ∧ t.err = true ∧ t.errLog = s.errLog ++ [t.error])

/-! ### The host port -/

/-- R30: the register block. What a read of each register returns, what a write of each writable register stores, that
every other write is ignored, and that unlisted offsets read 0. -/
def Obligations.RegisterBlock : Prop :=
  ∀ s : State,
    portRead 0x000 s = 0x48554646#32 ∧ portRead 0x004 s = 0x00000107#32 ∧ portRead 0x008 s = 0#32 ∧
    portRead 0x00C s = statusWord s ∧ portRead 0x010 s = s.error ∧ portRead 0x014 s = s.result ∧
    portRead 0x018 s = pqStatusWord s ∧ portRead 0x01C s = s.root.setWidth 32 ∧
    portRead 0x020 s = s.leafCount.setWidth 32 ∧ portRead 0x024 s = s.treeSize.setWidth 32 ∧
    portRead 0x028 s = s.permissions.setWidth 32 ∧ portRead 0x02C s = s.origSize.extractLsb' 0 32 ∧
    portRead 0x030 s = s.origSize.extractLsb' 32 32 ∧ portRead 0x034 s = BitVec.ofNat 32 s.bwCount ∧
    portRead 0x038 s = BitVec.ofNat 32 s.brIndex ∧ portRead 0x03C s = BitVec.ofNat 32 s.brValid ∧
    portRead 0x040 s = s.inCount.extractLsb' 0 32 ∧ portRead 0x044 s = s.inCount.extractLsb' 32 32 ∧
    portRead 0x048 s = s.outCount.extractLsb' 0 32 ∧ portRead 0x04C s = s.outCount.extractLsb' 32 32 ∧
    portRead 0x050 s = s.nodeSym ∧ portRead 0x054 s = s.nodeLeft ∧ portRead 0x058 s = s.nodeRight ∧
    portRead 0x05C s = s.nodeFreq.extractLsb' 0 32 ∧ portRead 0x060 s = s.nodeFreq.extractLsb' 32 32 ∧
    portRead 0x064 s = s.codeLen.setWidth 32 ∧
    (∀ k < 8, portRead (0x080 + 4 * k) s = s.codeBits.extractLsb' (32 * k) 32) ∧
    (∀ off, off % 4 = 0 → (0x068 ≤ off ∧ off ≤ 0x07C) ∨ (0x0A0 ≤ off ∧ off ≤ 0x7FC) → portRead off s = 0#32) ∧
    (∀ v : Word,
      portWrite 0x024 v s = { s with treeSize := v.extractLsb' 0 16 } ∧
      portWrite 0x028 v s = { s with permissions := v.extractLsb' 0 16 } ∧
      portWrite 0x02C v s = { s with origSize := s.origSize.extractLsb' 32 32 ++ v } ∧
      portWrite 0x030 v s = { s with origSize := v ++ s.origSize.extractLsb' 0 32 } ∧
      (∀ off, off % 4 = 0 → off < 0x800 → off ≠ 0x024 → off ≠ 0x028 → off ≠ 0x02C → off ≠ 0x030 →
        portWrite off v s = s))

/-- R62: the FREQ window. Each word of an entry reads its half, a write of one word changes only those 32 bits of that
entry, and nothing else of the state changes. -/
def Obligations.FreqWindow : Prop :=
  ∀ (s : State) (v : Word) (i : Nat), i < 256 →
    portRead (0x800 + 8 * i) s = (freqAt s i).extractLsb' 0 32 ∧
    portRead (0x804 + 8 * i) s = (freqAt s i).extractLsb' 32 32 ∧
    (∃ t, portWrite (0x800 + 8 * i) v s = t ∧ t = { s with freq := t.freq } ∧
      freqAt t i = (freqAt s i).extractLsb' 32 32 ++ v ∧ ∀ j, j ≠ i → freqAt t j = freqAt s j) ∧
    (∃ t, portWrite (0x804 + 8 * i) v s = t ∧ t = { s with freq := t.freq } ∧
      freqAt t i = v ++ (freqAt s i).extractLsb' 0 32 ∧ ∀ j, j ≠ i → freqAt t j = freqAt s j)

/-- R63: the DUMP window. Word k shows DUMP[4k+j] in lane j, and a write changes exactly those bytes; the lane of
DUMP[767], which does not exist, reads 0 and ignores writes. -/
def Obligations.DumpWindow : Prop :=
  ∀ (s : State) (v : Word) (k j : Nat), k < 192 → j < 4 →
    (4 * k + j < 767 → (portRead (0x1000 + 4 * k) s).extractLsb' (8 * j) 8 = storeRead 0#8 s.dump (4 * k + j)) ∧
    (4 * k + j = 767 → (portRead (0x1000 + 4 * k) s).extractLsb' (8 * j) 8 = 0#8) ∧
    ∃ t, portWrite (0x1000 + 4 * k) v s = t ∧ t = { s with dump := t.dump } ∧
      (4 * k + j < 767 → storeRead 0#8 t.dump (4 * k + j) = v.extractLsb' (8 * j) 8) ∧
      (4 * k + j = 767 → storeRead 0#8 t.dump (4 * k + j) = storeRead 0#8 s.dump (4 * k + j)) ∧
      ∀ a, a < 4 * k ∨ 4 * k + 4 ≤ a → storeRead 0#8 t.dump a = storeRead 0#8 s.dump a

/-- R60: the port admits exactly the 32-bit accesses at offsets that are multiples of 4 below 0x10000 and refuses any
other. -/
def Obligations.PortAccessForm : Prop :=
  ∀ (s : State) (es : List HostEvent) (off bytes : Nat) (v : Word),
    (s.host = .read off bytes :: es →
      (step s = .refused .hostAccessForm ↔ ¬ (bytes = 4 ∧ off % 4 = 0 ∧ off < 0x10000))) ∧
    (s.host = .write off bytes v :: es →
      (step s = .refused .hostAccessForm ↔ ¬ (bytes = 4 ∧ off % 4 = 0 ∧ off < 0x10000)))

/-- R61, R64: reserved offsets read 0 and ignore writes; a host read changes no state of the block; a CMD write stores
nothing and issues the command; any other write stores into what its offset names. The record of reads is the model's own
(log entry 3). -/
def Obligations.HostAccessEffect : Prop :=
  (∀ (s : State) (off : Nat) (v : Word), 0x1300 ≤ off → portRead off s = 0#32 ∧ portWrite off v s = s) ∧
  (∀ (s : State) (es : List HostEvent) (off : Nat) (v : Word), off % 4 = 0 → off < 0x10000 →
    (s.host = .read off 4 :: es →
      step s = .next { s with host := es, readLog := s.readLog ++ [portRead off s] }) ∧
    (s.host = .write 0x008 4 v :: es → step s = issueCommand v { s with host := es }) ∧
    (s.host = .write off 4 v :: es → off ≠ 0x008 → step s = .next (portWrite off v { s with host := es })))

/-- R33: STATUS. Each flag at its bit, with what it is a copy of; bits 30:7 and BUSY read 0. -/
def Obligations.StatusFlags : Prop :=
  ∀ s : State,
    (portRead 0x00C s).getLsbD 0 = s.err ∧ (portRead 0x00C s).getLsbD 1 = s.eos ∧
    ((portRead 0x00C s).getLsbD 2 = true ↔ s.root ≠ nil) ∧ (portRead 0x00C s).getLsbD 3 = s.codesValid ∧
    ((portRead 0x00C s).getLsbD 4 = true ↔ s.pq.length = 0) ∧
    ((portRead 0x00C s).getLsbD 5 = true ↔ s.pq.length = 256) ∧
    ((portRead 0x00C s).getLsbD 6 = true ↔ s.bwCount ≠ 0) ∧
    ∀ k, 7 ≤ k → (portRead 0x00C s).getLsbD k = false

/-- R40: PQ_STATUS. SIZE, EMPTY and FULL are live copies of the queue; every other bit reads 0; after reset it is
0x00010000. -/
def Obligations.PqStatusFields : Prop :=
  (∀ s : State, s.pq.length ≤ 256 →
    ((portRead 0x018 s).extractLsb' 0 9).toNat = s.pq.length ∧
    ((portRead 0x018 s).getLsbD 16 = true ↔ s.pq.length = 0) ∧
    ((portRead 0x018 s).getLsbD 17 = true ↔ s.pq.length = 256) ∧
    ∀ k, (9 ≤ k ∧ k < 16) ∨ 18 ≤ k → (portRead 0x018 s).getLsbD k = false) ∧
  portRead 0x018 State.reset = 0x00010000#32

/-! ### Reset -/

/-- R271: every reset value, from any state, with IN's position, OUT's contents and the parameters unchanged. -/
def Obligations.ResetValues : Prop :=
  ∀ (s : State) (es : List HostEvent), s.host = .hardwareReset :: es →
    ∃ t, step s = .next t ∧
      (∀ i, freqAt t i = 0#64) ∧ (∀ i, nodeAt t i = ⟨false, 0#8, 0#64, 0#9, 0#9⟩) ∧ t.root = 0x1FF#9 ∧
      t.leafCount = 0#9 ∧ (∀ i, codeAt t i = ⟨0#9, 0#256⟩) ∧ t.codesValid = false ∧ t.pq = [] ∧
      portRead 0x018 t = 0x00010000#32 ∧ t.stack = [] ∧ (∀ a, storeRead 0#8 t.dump a = 0#8) ∧ t.treeSize = 0#16 ∧
      portRead 0x000 t = 0x48554646#32 ∧ portRead 0x004 t = 0x00000107#32 ∧
      (∀ a, storeRead 0#8 t.bwBuf a = 0#8) ∧ t.bwCount = 0 ∧ (∀ a, storeRead 0#8 t.brBuf a = 0#8) ∧ t.brValid = 0 ∧
      t.brIndex = 0 ∧ t.eos = false ∧ portRead 0x00C t = 0x00000010#32 ∧ t.err = false ∧ t.error = 0#32 ∧
      t.result = 0#32 ∧ t.permissions = 0#16 ∧ t.origSize = 0#64 ∧ t.nodeSym = 0#32 ∧ t.nodeLeft = 0#32 ∧
      t.nodeRight = 0#32 ∧ t.nodeFreq = 0#64 ∧ t.inCount = 0#64 ∧ t.outCount = 0#64 ∧ t.codeLen = 0#9 ∧
      t.codeBits = 0#256 ∧ t.inBytes = s.inBytes ∧ t.inPos = s.inPos ∧ t.out = s.out ∧ t.cfg = s.cfg

/-- R270: the two ways to reset have the same effect, whatever ERR says; neither can raise an error; IN and OUT are not
touched. -/
def Obligations.ResetTwoWays : Prop :=
  ∀ (s : State) (es : List HostEvent), ∃ t,
    step { s with host := .hardwareReset :: es } = .next t ∧
    step { s with host := .write 0x008 4 0x00000002#32 :: es } = .next t ∧ exec .softReset { s with host := es } = .next t ∧
    t.err = false ∧ t.errLog = s.errLog ∧ t.inBytes = s.inBytes ∧ t.inPos = s.inPos ∧ t.out = s.out

/-- R273 (the spec marks it as its own inference): the state after reset satisfies every invariant: the tree, the queue,
the stack and both bit buffers are empty, and ERR = 0. -/
def Obligations.ResetMeetsInvariant : Prop :=
  Inv State.reset ∧
    ∀ s : State, s.cfg.wf → s.inPos ≤ s.inBytes.length →
      Inv (applyReset s) ∧ treeEmpty (applyReset s) ∧ (applyReset s).pq = [] ∧ (applyReset s).stack = [] ∧
        writerBits (applyReset s) = [] ∧ (applyReset s).brValid = 0 ∧ (applyReset s).err = false

/-- R230, R231, R232: NOP changes nothing, CLEAR_ERR clears ERR and ERROR alone, SOFT_RESET is the reset of R270; each
answers a next state from every state. -/
def Obligations.ControlCommands : Prop :=
  ∀ s : State,
    exec .nop s = .next s ∧ exec .clearErr s = .next { s with err := false, error := 0#32 } ∧
      exec .softReset s = .next { State.reset with cfg := s.cfg, inBytes := s.inBytes, inPos := s.inPos, out := s.out,
                                                   host := s.host, readLog := s.readLog, errLog := s.errLog }

/-! ### The Huffman engine -/

/-- R131: BUILD_TREE. A table whose sum is at least 2^64 raises FREQ_OVERFLOW and changes nothing else. Any other table
gives its Huffman tree: the leaves are nodes 0 to n-1 in symbol order, the joined nodes n to 2n-2, ROOT is 2n-2, RESULT is
ROOT; with every entry 0 the tree is empty. Only the named state changes. -/
def Obligations.BuildTreeMakesHuffmanTree : Prop :=
  ∀ s : State,
    (2 ^ 64 ≤ freqTotal s → exec .buildTree s = .next (withError 0x00102703#32 s)) ∧
    (freqTotal s < 2 ^ 64 → ∃ t, exec .buildTree s = .next t ∧
      t = { s with pool := t.pool, root := t.root, leafCount := BitVec.ofNat 9 (freqSymbols s).length,
                   codesValid := false, pq := [], stack := [], result := t.root.setWidth 32 } ∧
      poolPrefix t (2 * (freqSymbols s).length - 1) ∧
      (∀ j (hj : j < (freqSymbols s).length), nodeAt t j = leafEntry s ((freqSymbols s)[j])) ∧
      (∀ j, (freqSymbols s).length ≤ j → j < 2 * (freqSymbols s).length - 1 → joinedAt t j) ∧
      (((freqSymbols s).length = 0 ∧ t.root = nil ∧ treeHeld t none ∧ huffmanTree s = none) ∨
        (0 < (freqSymbols s).length ∧ t.root = BitVec.ofNat 9 (2 * (freqSymbols s).length - 2) ∧
          ∃ tr, huffmanTree s = some tr ∧ treeHeld t (some tr) ∧ tr.leaves.length = (freqSymbols s).length)))

/-- R132, R133: BUILD_CODES. Every symbol at a leaf has the path to it as its code (the later leaf's, left first), the
lone leaf has the code 0, every other symbol has none; RESULT counts the symbols that have one; only the named state
changes. -/
def Obligations.BuildCodesAssignsPaths : Prop :=
  ∀ s : State,
    (∀ tr, treeIs s tr → ∃ t, exec .buildCodes s = .next t ∧
      t = { s with code := t.code, codesValid := true, result := BitVec.ofNat 32 tr.symbolCount } ∧ codesAre t tr) ∧
    (s.root = nil → ∃ t, exec .buildCodes s = .next t ∧
      t = { s with code := t.code, codesValid := true, result := 0#32 } ∧ codesNone t)

/-- R139: in a tree of two leaves or more no code is a prefix of another symbol's; and no tree that BUILD_TREE makes has a
symbol in two leaves (the rule marks its last sentence as the spec's own inference). -/
def Obligations.CodesArePrefixFree : Prop :=
  (∀ (s t : State) (tr : CodeTree), treeIs s tr → 2 ≤ tr.leaves.length → exec .buildCodes s = .next t →
    ∀ x y : Byte, x ≠ y → (codeAt t x.toNat).len ≠ 0#9 → (codeAt t y.toNat).len ≠ 0#9 →
      ¬ codeList (codeAt t x.toNat) <+: codeList (codeAt t y.toNat)) ∧
  (∀ (s t : State) (tr : CodeTree), freqTotal s < 2 ^ 64 → exec .buildTree s = .next t → treeIs t tr → tr.leaves.Nodup)

/-- R138: the codes of BUILD_TREE and BUILD_CODES are optimal. They are prefix-free, and no prefix-free choice of bit
lists for the present symbols has a smaller sum of frequency times length; with one present symbol that sum is its
frequency. -/
def Obligations.HuffmanCodesAreOptimal : Prop :=
  ∀ s t u : State, freqTotal s < 2 ^ 64 → exec .buildTree s = .next t → exec .buildCodes t = .next u →
    (2 ≤ (freqSymbols s).length →
      (∀ i ∈ freqSymbols s, ∀ j ∈ freqSymbols s, i ≠ j → ¬ codeList (codeAt u i) <+: codeList (codeAt u j)) ∧
      ∀ c : Nat → List Bool, (∀ i ∈ freqSymbols s, ∀ j ∈ freqSymbols s, i ≠ j → ¬ c i <+: c j) →
        ((List.range 256).map (fun i => (freqAt s i).toNat * (codeAt u i).len.toNat)).sum ≤
          ((freqSymbols s).map (fun i => (freqAt s i).toNat * (c i).length)).sum) ∧
    ((freqSymbols s).length = 1 →
      ((List.range 256).map (fun i => (freqAt s i).toNat * (codeAt u i).len.toNat)).sum = freqTotal s)

/-- R135: DELETE_TREE frees every node, empties ROOT, LEAF_COUNT, the queue and the stack and clears CODES_VALID; nothing
else changes, RESULT and CODE among it; issued twice it is the same as once. -/
def Obligations.DeleteTreeReleasesPool : Prop :=
  ∀ s : State, ∃ t, exec .deleteTree s = .next t ∧
    t = { s with pool := t.pool, root := nil, leafCount := 0#9, pq := [], stack := [], codesValid := false } ∧
    poolFree t ∧ exec .deleteTree t = .next t

/-- R136: NODE_READ copies an allocated entry into the node readout registers, zeros for a free one; an operand of 511 or
more raises BAD_OPERAND. Nothing else changes. -/
def Obligations.NodeReadCopiesEntry : Prop :=
  ∀ (v : BitVec 16) (s : State),
    (511 ≤ v.toNat → exec (.nodeRead v) s = .next (withError 0x00133204#32 s)) ∧
    (v.toNat < 511 → (nodeAt s v.toNat).alloc = true → ∃ w : Word,
      exec (.nodeRead v) s = .next { s with nodeSym := w, nodeLeft := (nodeAt s v.toNat).left.setWidth 32,
                                            nodeRight := (nodeAt s v.toNat).right.setWidth 32,
                                            nodeFreq := (nodeAt s v.toNat).freq } ∧
      w.extractLsb' 0 8 = (nodeAt s v.toNat).sym ∧
      (w.getLsbD 8 = true ↔ (nodeAt s v.toNat).left = nil ∧ (nodeAt s v.toNat).right = nil) ∧ w.getLsbD 9 = true ∧
      ∀ k, 10 ≤ k → w.getLsbD k = false) ∧
    (v.toNat < 511 → (nodeAt s v.toNat).alloc = false →
      exec (.nodeRead v) s = .next { s with nodeSym := 0#32, nodeLeft := 0#32, nodeRight := 0#32, nodeFreq := 0#64 })

/-- R137, R39: CODE_READ copies a code-table entry into CODE_LEN and CODE_BITS0 to 7 and its length into RESULT, whatever
CODES_VALID says; a symbol with no code reads all zeros; an operand of 256 or more raises BAD_OPERAND. -/
def Obligations.CodeReadCopiesEntry : Prop :=
  ∀ (v : BitVec 16) (s : State),
    (256 ≤ v.toNat → exec (.codeRead v) s = .next (withError 0x00143204#32 s)) ∧
    (v.toNat < 256 → ∃ t, exec (.codeRead v) s = .next t ∧
      t = { s with codeLen := (codeAt s v.toNat).len, codeBits := t.codeBits,
                   result := (codeAt s v.toNat).len.setWidth 32 } ∧
      (∀ k < 8, ∀ i < 32, (portRead (0x080 + 4 * k) t).getLsbD i = (codeAt s v.toNat).bits.getLsbD (32 * k + i)) ∧
      (codesOk s → (codeAt s v.toNat).len = 0#9 → t.codeBits = 0#256))

/-! ### The tree serializer -/

/-- R152, and R153 (the spec marks it as its own inference): SERIALIZE_TREE writes the post-order dump of a tree of n
leaves, 3n - 1 bytes, from DUMP[0] up; TREE_SIZE and RESULT are its length; the bytes above keep their values; the empty
tree writes nothing. -/
def Obligations.SerializeTreeWritesDump : Prop :=
  ∀ s : State,
    (∀ tr, treeIs s tr → ∃ t, exec .serializeTree s = .next t ∧
      t = { s with dump := t.dump, treeSize := BitVec.ofNat 16 (3 * tr.leaves.length - 1),
                   result := BitVec.ofNat 32 (3 * tr.leaves.length - 1) } ∧
      dumpBytes (3 * tr.leaves.length - 1) t = tr.dump s.cfg ∧
      ∀ a, 3 * tr.leaves.length - 1 ≤ a → storeRead 0#8 t.dump a = storeRead 0#8 s.dump a) ∧
    (s.root = nil → exec .serializeTree s = .next { s with treeSize := 0#16, result := 0#32 })

/-- R155, R160, and R158 (the spec marks it as its own inference): REBUILD_TREE of the dump of a tree gives that tree. The
k-th record becomes node k, so the nodes are 0 to 2n - 2 in post-order and ROOT is 2n - 2; every node's frequency is 0;
DUMP and TREE_SIZE are not changed. -/
def Obligations.RebuildOfDump : Prop :=
  ∀ (s : State) (tr : CodeTree), s.cfg.wf → s.treeSize.toNat ≤ 767 →
    dumpBytes s.treeSize.toNat s = tr.dump s.cfg → ∃ t, exec .rebuildTree s = .next t ∧
      t = { s with pool := t.pool, root := t.root, leafCount := t.leafCount, codesValid := false, pq := [], stack := [],
                   result := t.root.setWidth 32 } ∧
      treeIs t tr ∧ t.root = BitVec.ofNat 9 (2 * tr.leaves.length - 2) ∧ t.leafCount.toNat = tr.leaves.length ∧
      poolPrefix t (2 * tr.leaves.length - 1) ∧
      poolHolds t.pool tr t.root ((List.range (2 * tr.leaves.length - 1)).map (BitVec.ofNat 9)) ∧
      ∀ j < 2 * tr.leaves.length - 1, (nodeAt t j).freq = 0#64

/-- R156, R157: when REBUILD_TREE raises any error after its size check, the pool is released, ROOT = NIL, LEAF_COUNT = 0
and the stack and the queue are empty. -/
def Obligations.RebuildRollsBack : Prop :=
  ∀ s t : State, s.err = false → s.treeSize.toNat ≤ 767 → exec .rebuildTree s = .next t → t.err = true →
    poolFree t ∧ t.root = nil ∧ t.leafCount = 0#9 ∧ t.stack = [] ∧ t.pq = [] ∧ t.codesValid = false ∧
      t.result = s.result ∧ t.dump = s.dump

/-- R154: a TREE_SIZE above 767 raises TREE_SIZE_RANGE before REBUILD_TREE changes anything. -/
def Obligations.RebuildChecksSize : Prop :=
  ∀ s : State, 767 < s.treeSize.toNat → exec .rebuildTree s = .next (withError 0x00190501#32 s)

/-- R155, R107, R161, R247: REBUILD_TREE succeeds exactly on the bytes that are the dump of a tree, or on no bytes; a
symbol byte is never taken for a tag and symbols may repeat. On any other bytes it raises one of the four FormatErrors of
its scan, the first that the scan meets. -/
def Obligations.RebuildAcceptsExactlyDumps : Prop :=
  ∀ s : State, s.cfg.wf → s.err = false → s.treeSize.toNat ≤ 767 → ∃ t, exec .rebuildTree s = .next t ∧
    (t.err = false ↔ s.treeSize = 0#16 ∨ ∃ tr : CodeTree, tr.dump s.cfg = dumpBytes s.treeSize.toNat s) ∧
    (t.err = true → t.error = 0x00190201#32 ∨ t.error = 0x00190301#32 ∨ t.error = 0x00190401#32 ∨
      t.error = 0x00190601#32) ∧
    (dumpFault s.cfg 0 (dumpBytes s.treeSize.toNat s) = none → t.err = false) ∧
    (∀ c, dumpFault s.cfg 0 (dumpBytes s.treeSize.toNat s) = some c → t.err = true ∧ t.error = errorWord 0x19#8 c) ∧
    (t.err = false → s.treeSize = 0#16 → treeEmpty t)

/-- R159: SERIALIZE_TREE and then REBUILD_TREE gives the same tree, and BUILD_CODES on it the same code table as on the
tree it came from; the empty tree gives the empty tree. -/
def Obligations.DumpIsIdempotent : Prop :=
  (∀ (s : State) (tr : CodeTree), s.cfg.wf → treeIs s tr → ∃ t u v w, exec .serializeTree s = .next t ∧
    exec .rebuildTree t = .next u ∧ treeIs u tr ∧ exec .buildCodes u = .next v ∧ exec .buildCodes s = .next w ∧
    ∀ i < 256, codeAt v i = codeAt w i) ∧
  (∀ s : State, treeEmpty s → ∃ t u, exec .serializeTree s = .next t ∧ exec .rebuildTree t = .next u ∧ treeEmpty u)

/-! ### The priority queue -/

/-- R174: PQ_CLEAR empties the queue and changes nothing else; PQ_STATUS then reads 0x00010000. -/
def Obligations.PqClearEmptiesQueue : Prop :=
  ∀ s : State, ∃ t, exec .pqClear s = .next t ∧ t = { s with pq := [] } ∧ portRead 0x018 t = 0x00010000#32

/-- R171, R172, R175: PQ_INSERT. The errors BAD_OPERAND, BAD_NODE and PQ_FULL in that order, each leaving the queue
unchanged; otherwise the node goes behind every entry of equal or smaller key with its frequency as key, and RESULT is the
new size. On a sorted queue everything before it has a key at most its own and everything behind it a greater one. -/
def Obligations.PqInsertPlacesNode : Prop :=
  ∀ (v : BitVec 16) (s : State),
    (511 ≤ v.toNat → exec (.pqInsert v) s = .next (withError 0x00213204#32 s)) ∧
    (v.toNat < 511 → (nodeAt s v.toNat).alloc = false → exec (.pqInsert v) s = .next (withError 0x00213304#32 s)) ∧
    (v.toNat < 511 → (nodeAt s v.toNat).alloc = true → s.pq.length = 256 →
      exec (.pqInsert v) s = .next (withError 0x00212003#32 s)) ∧
    (v.toNat < 511 → (nodeAt s v.toNat).alloc = true → s.pq.length ≠ 256 → ∃ a b : List PqEntry, s.pq = a ++ b ∧
      a.length = s.pq.countP (fun e => e.key ≤ (nodeAt s v.toNat).freq) ∧
      exec (.pqInsert v) s = .next { s with pq := a ++ ⟨BitVec.ofNat 9 v.toNat, (nodeAt s v.toNat).freq⟩ :: b,
                                            result := BitVec.ofNat 32 (s.pq.length + 1) } ∧
      (s.pq.Pairwise (fun x y => x.key ≤ y.key) →
        (∀ e ∈ a, e.key ≤ (nodeAt s v.toNat).freq) ∧ ∀ e ∈ b, (nodeAt s v.toNat).freq < e.key))

/-- R173, R176: PQ_EXTRACT_MIN removes the head, returns its node in RESULT and frees nothing; on a sorted queue the head
has a minimum key; the empty queue raises PQ_EMPTY with the queue and RESULT unchanged. -/
def Obligations.PqExtractMinTakesHead : Prop :=
  ∀ s : State,
    (s.pq = [] → exec .pqExtractMin s = .next (withError 0x00222103#32 s)) ∧
    (∀ e q, s.pq = e :: q → exec .pqExtractMin s = .next { s with pq := q, result := e.node.setWidth 32 } ∧
      (s.pq.Pairwise (fun x y => x.key ≤ y.key) → ∀ x ∈ s.pq, e.key ≤ x.key))

/-! ### Bit-level I/O -/

/-- R192, R193: BW_WRITE_CODE. BAD_OPERAND and NO_CODE change nothing else; otherwise the symbol's code joins the pending
bits, full blocks go to OUT, RESULT is the number of bytes sent, and only the named state changes. -/
def Obligations.BwWriteCodeAppendsCode : Prop :=
  ∀ (v : BitVec 16) (s : State),
    (256 ≤ v.toNat → exec (.bwWriteCode v) s = .next (withError 0x00303204#32 s)) ∧
    (v.toNat < 256 → (codeAt s v.toNat).len = 0#9 → exec (.bwWriteCode v) s = .next (withError 0x00303404#32 s)) ∧
    (v.toNat < 256 → (codeAt s v.toNat).len ≠ 0#9 → writerOk s → ∃ t ys, exec (.bwWriteCode v) s = .next t ∧
      t = { s with bwBuf := t.bwBuf, bwCount := t.bwCount, out := s.out ++ ys,
                   outCount := s.outCount + BitVec.ofNat 64 ys.length, result := BitVec.ofNat 32 ys.length } ∧
      writerOk t ∧ unpackBits ys ++ writerBits t = writerBits s ++ codeList (codeAt s v.toNat) ∧
      (ys.length = 0 ∨ ys.length = 4096))

/-- R191, R194: BW_FLUSH sends the pending bits to OUT, zero-padded to whole bytes, empties the writer and puts the number
of bytes in RESULT; with nothing pending it writes nothing. -/
def Obligations.BwFlushSendsPendingBits : Prop :=
  ∀ s : State, writerOk s → ∃ t, exec .bwFlush s = .next t ∧
    t = { s with bwBuf := t.bwBuf, bwCount := 0, out := s.out ++ packBits (writerBits s),
                 outCount := s.outCount + BitVec.ofNat 64 (ceilDiv s.bwCount 8),
                 result := BitVec.ofNat 32 (ceilDiv s.bwCount 8) } ∧
    (∀ a, storeRead 0#8 t.bwBuf a = 0#8) ∧ (s.bwCount = 0 → t.out = s.out)

/-- R195, R198: BW_RESET and BR_RESET clear their buffer and its counters (EOS too) and change nothing else: RESULT, IN
and OUT stay. -/
def Obligations.BitBufferResets : Prop :=
  ∀ s : State,
    (∃ t, exec .bwReset s = .next t ∧ t = { s with bwBuf := t.bwBuf, bwCount := 0 } ∧
      ∀ a, storeRead 0#8 t.bwBuf a = 0#8) ∧
    (∃ t, exec .brReset s = .next t ∧ t = { s with brBuf := t.brBuf, brValid := 0, brIndex := 0, eos := false } ∧
      ∀ a, storeRead 0#8 t.brBuf a = 0#8)

/-- R196 (the spec marks it as its own inference): the bit-writer law. From an empty writer, any bits written and then
flushed reach OUT as ceil(B / 8) bytes, bit j of byte i being bit 8i + j where there is one and 0 elsewhere, in whole
blocks and one final group. -/
def Obligations.BitWriterLaw : Prop :=
  ∀ (bs : List Bool) (s : State), writerOk s → s.bwCount = 0 → ∃ u t f m ys, writeBits bs 0 s = .ok f u ∧
    flushWriter u = .ok m t ∧ t.out = s.out ++ ys ∧ ys.length = ceilDiv bs.length 8 ∧
    (∀ i (hi : i < ys.length), ∀ j < 8, (ys[i]).getLsbD j = bs.getD (8 * i + j) false) ∧
    f = 4096 * (bs.length / 32768) ∧ m = ceilDiv (bs.length % 32768) 8 ∧ t.bwCount = 0

/-- R197, R199: BR_READ_BIT. It returns the next bit still to come in RESULT and clears EOS, or 0x80000000 with EOS set
when there is none; it raises nothing and only the named state changes. -/
def Obligations.BrReadBitReturnsNextBit : Prop :=
  ∀ s : State, readerOk s → ∃ t, exec .brReadBit s = .next t ∧
    t = { s with brBuf := t.brBuf, brValid := t.brValid, brIndex := t.brIndex, eos := t.eos, inPos := t.inPos,
                 inCount := t.inCount, result := t.result } ∧
    readerOk t ∧
    (∀ b bs, readerBits s = b :: bs → t.result = (BitVec.ofBool b).setWidth 32 ∧ t.eos = false ∧ readerBits t = bs) ∧
    (readerBits s = [] → t.result = 0x80000000#32 ∧ t.eos = true ∧ readerBits t = []) ∧
    (s.brIndex < s.brValid * 8 → t.inPos = s.inPos ∧ t.inCount = s.inCount)

/-- R200 (the spec marks it as its own inference): the bit-reader law. From an empty reader with bytes y left on IN,
successive ReadBit calls return the bits of y, least significant first, then the end of stream for ever; after the j-th
bit IN_COUNT has grown by min(M, BLOCK * ceil(j / (8 * BLOCK))). -/
def Obligations.BitReaderLaw : Prop :=
  ∀ (n : Nat) (s : State), s.brValid = 0 → s.brIndex = 0 → ∃ t rs, readRun n s = .ok rs t ∧ rs.length = n ∧
    (∀ j (hj : j < rs.length), rs[j] =
      if j < 8 * (inRest s).length then some (((inRest s).getD (j / 8) 0#8).getLsbD (j % 8)) else none) ∧
    (n ≤ 8 * (inRest s).length →
      t.inCount = s.inCount + BitVec.ofNat 64 (min (inRest s).length (4096 * ceilDiv n 32768)))

/-! ### The container codec -/

/-- R214, R100, R102, R108, R210, R211: ENCODE succeeds when the table does not overflow, IN has ORIG_SIZE bytes and each
of them has a nonzero FREQ entry; OUT then gains exactly the container of those bytes under the table's Huffman tree. It
reads no byte beyond them, and leaves the tree, its codes and its dump in place. -/
def Obligations.EncodeWritesContainer : Prop :=
  ∀ s : State, freqTotal s < 2 ^ 64 → s.origSize.toNat ≤ (inRest s).length →
    (∀ x ∈ (inRest s).take s.origSize.toNat, freqAt s x.toNat ≠ 0#64) →
    ∃ t bits, payloadOf (huffmanTree s) ((inRest s).take s.origSize.toNat) = some bits ∧ exec .encode s = .next t ∧
      t.out = s.out ++ (containerHead s.cfg s.permissions s.origSize.toNat (huffmanTree s) ++ packBits bits) ∧
      t = { s with pool := t.pool, root := t.root, leafCount := t.leafCount, pq := [], stack := [], code := t.code,
                   codesValid := true, dump := t.dump, treeSize := t.treeSize, bwBuf := t.bwBuf, bwCount := 0,
                   inPos := s.inPos + s.origSize.toNat, inCount := s.origSize, out := t.out, outCount := t.outCount,
                   result := t.outCount.setWidth 32 } ∧
      t.outCount = BitVec.ofNat 64 (containerHead s.cfg s.permissions s.origSize.toNat (huffmanTree s) ++
        packBits bits).length ∧
      treeHeld t (huffmanTree s) ∧ (∀ tr, huffmanTree s = some tr → codesAre t tr) ∧
      (huffmanTree s = none → codesNone t) ∧
      t.treeSize.toNat = (dumpBytesOf s.cfg (huffmanTree s)).length ∧
      dumpBytes (dumpBytesOf s.cfg (huffmanTree s)).length t = dumpBytesOf s.cfg (huffmanTree s) ∧
      (∀ a, (dumpBytesOf s.cfg (huffmanTree s)).length ≤ a → storeRead 0#8 t.dump a = storeRead 0#8 s.dump a)

/-- R214, R211, R216, R243: ENCODE's errors. FREQ_OVERFLOW is raised before anything is written. Otherwise INPUT_SHORT or
NO_CODE is raised, after the header and the dump are on OUT, for the first input byte that is missing or has a FREQ entry
of 0; the whole blocks sent to OUT and the bits still in the writer together are the codes of the n bytes before it, and
the tree, its codes, its dump and TREE_SIZE stay. -/
def Obligations.EncodeErrors : Prop :=
  ∀ s : State, s.err = false →
    (2 ^ 64 ≤ freqTotal s → ∃ t, exec .encode s = .next t ∧ t.err = true ∧ t.error = 0x00402703#32 ∧ t.out = s.out ∧
      t.pool = s.pool ∧ t.root = s.root ∧ t.code = s.code ∧ t.dump = s.dump ∧ t.inPos = s.inPos ∧ t.inCount = 0#64 ∧
      t.outCount = 0#64 ∧ t.bwCount = 0 ∧ t.result = s.result ∧
      t = { s with inCount := 0#64, outCount := 0#64, bwBuf := t.bwBuf, bwCount := 0, err := true, error := t.error,
                   errLog := t.errLog }) ∧
    (∀ n, freqTotal s < 2 ^ 64 → n < s.origSize.toNat → n ≤ (inRest s).length →
      (∀ x ∈ (inRest s).take n, freqAt s x.toNat ≠ 0#64) →
      (n = (inRest s).length ∨ ∃ x, (inRest s)[n]? = some x ∧ freqAt s x.toNat = 0#64) →
      ∃ t bits ys, payloadOf (huffmanTree s) ((inRest s).take n) = some bits ∧ exec .encode s = .next t ∧
        t.err = true ∧ t.result = s.result ∧
        (n = (inRest s).length → t.error = 0x00401402#32 ∧ t.inPos = s.inPos + n ∧ t.inCount = BitVec.ofNat 64 n) ∧
        (n < (inRest s).length →
          t.error = 0x00403404#32 ∧ t.inPos = s.inPos + n + 1 ∧ t.inCount = BitVec.ofNat 64 (n + 1)) ∧
        t.out = s.out ++ (containerHead s.cfg s.permissions s.origSize.toNat (huffmanTree s) ++ ys) ∧
        t.outCount = BitVec.ofNat 64
          (containerHead s.cfg s.permissions s.origSize.toNat (huffmanTree s) ++ ys).length ∧
        writerOk t ∧ ys.length % 4096 = 0 ∧ unpackBits ys ++ writerBits t = bits ∧
        t = { s with pool := t.pool, root := t.root, leafCount := t.leafCount, pq := [], stack := [], code := t.code,
                     codesValid := true, dump := t.dump, treeSize := t.treeSize, bwBuf := t.bwBuf,
                     bwCount := t.bwCount, inPos := t.inPos, inCount := t.inCount, out := t.out,
                     outCount := t.outCount, err := true, error := t.error, errLog := t.errLog } ∧
        treeHeld t (huffmanTree s) ∧ (∀ tr, huffmanTree s = some tr → codesAre t tr) ∧
        (huffmanTree s = none → codesNone t) ∧
        t.treeSize.toNat = (dumpBytesOf s.cfg (huffmanTree s)).length ∧
        dumpBytes (dumpBytesOf s.cfg (huffmanTree s)).length t = dumpBytesOf s.cfg (huffmanTree s) ∧
        (∀ a, (dumpBytesOf s.cfg (huffmanTree s)).length ≤ a → storeRead 0#8 t.dump a = storeRead 0#8 s.dump a))

/-- R215 (the spec marks it as its own inference): the container size law. After an ENCODE that succeeds on N bytes with n
present symbols, OUT_COUNT is 16 + (3n - 1) + ceil(sum of the code lengths / 8), or 16 for n = 0, and IN_COUNT is N; where
FREQ is the histogram of the bytes, the sum is that of FREQ times length. -/
def Obligations.ContainerSizeLaw : Prop :=
  ∀ s t : State, s.err = false → exec .encode s = .next t → t.err = false →
    t.inCount = s.origSize ∧
    (0 < (freqSymbols s).length →
      t.outCount = BitVec.ofNat 64 (16 + (3 * (freqSymbols s).length - 1) +
        ceilDiv (((inRest s).take s.origSize.toNat).map (fun x => (codeAt t x.toNat).len.toNat)).sum 8)) ∧
    ((freqSymbols s).length = 0 → t.outCount = 16#64) ∧
    ((∀ i < 256, (freqAt s i).toNat = ((inRest s).take s.origSize.toNat).count (BitVec.ofNat 8 i)) →
      (((inRest s).take s.origSize.toNat).map (fun x => (codeAt t x.toNat).len.toNat)).sum =
        ((List.range 256).map (fun i => (freqAt s i).toNat * (codeAt t i).len.toNat)).sum)

/-- R220, R223, R224, R225, and R222 (the spec marks it as its own inference): DECODE of a well-formed header and dump,
with any payload bytes. The symbols the payload's bits lead to reach OUT; the command ends with RESULT = OUT_COUNT[31:0]
once ORIG_SIZE symbols are out, or raises PAYLOAD_SHORT or ABSENT_CHILD after those it could decode. After P payload bits
IN_COUNT is 16 + tsize + min(R, BLOCK * ceil(P / (8 * BLOCK))), R being the bytes after the dump, and IN's position has
moved as far; EOS is set exactly when the payload ran out. Padding bits and bytes after the payload are not checked. -/
def Obligations.DecodeOfContainer : Prop :=
  ∀ (s : State) (perms : BitVec 16) (n : Nat) (tr : Option CodeTree) (payload : List Byte), s.cfg.wf → s.err = false →
    n < 2 ^ 64 → (n = 0 ∨ tr ≠ none) → (dumpBytesOf s.cfg tr).length ≤ 767 →
    inRest s = containerHead s.cfg perms n tr ++ payload →
    ∃ t, exec .decode s = .next t ∧ codecFrame .decode s t ∧
      t.out = s.out ++ (decodeWith tr (unpackBits payload) n).1 ∧
      t.outCount = BitVec.ofNat 64 (decodeWith tr (unpackBits payload) n).1.length ∧ t.permissions = perms ∧
      t.origSize = BitVec.ofNat 64 n ∧ t.treeSize.toNat = (dumpBytesOf s.cfg tr).length ∧ treeHeld t tr ∧
      t.codesValid = false ∧ t.pq = [] ∧
      t.inCount = BitVec.ofNat 64 (16 + (dumpBytesOf s.cfg tr).length +
        min payload.length (4096 * ceilDiv (bitsReadWith tr (unpackBits payload) n) 32768)) ∧
      t.inPos = s.inPos + (16 + (dumpBytesOf s.cfg tr).length +
        min payload.length (4096 * ceilDiv (bitsReadWith tr (unpackBits payload) n) 32768)) ∧
      (t.eos = true ↔ (decodeWith tr (unpackBits payload) n).2 = some .payloadShort) ∧
      dumpBytes (dumpBytesOf s.cfg tr).length t = dumpBytesOf s.cfg tr ∧
      (∀ a, (dumpBytesOf s.cfg tr).length ≤ a → storeRead 0#8 t.dump a = storeRead 0#8 s.dump a) ∧
      ((decodeWith tr (unpackBits payload) n).2 = none → t.err = false ∧ t.result = t.outCount.setWidth 32) ∧
      (∀ c, (decodeWith tr (unpackBits payload) n).2 = some c →
        t.err = true ∧ t.error = errorWord 0x41#8 c ∧ t.result = s.result)

/-- R220, R221, R226: DECODE's errors before the payload, in the order checked, each before any byte reaches OUT:
HEADER_SHORT and BAD_MAGIC leave PERMISSIONS, TREE_SIZE and ORIG_SIZE unchanged; then TREE_SIZE_RANGE, DUMP_SHORT, the
FormatErrors of the dump's scan with the pool released, the one raised being the first the scan meets (R155, R247), and
EMPTY_TREE. -/
def Obligations.DecodeErrorsBeforeOutput : Prop :=
  ∀ s : State, s.err = false → s.cfg.wf →
    ((inRest s).length < 16 → ∃ t, exec .decode s = .next t ∧ t.err = true ∧ t.error = 0x00411002#32 ∧ t.out = s.out ∧
      t.permissions = s.permissions ∧ t.treeSize = s.treeSize ∧ t.origSize = s.origSize ∧ t.result = s.result) ∧
    (16 ≤ (inRest s).length → BitVec.ofNat 32 (rdle ((inRest s).take 4)) ≠ s.cfg.magic →
      ∃ t, exec .decode s = .next t ∧ t.err = true ∧ t.error = 0x00410101#32 ∧ t.out = s.out ∧
        t.inPos = s.inPos + 16 ∧ t.permissions = s.permissions ∧ t.treeSize = s.treeSize ∧ t.origSize = s.origSize ∧
        t.result = s.result) ∧
    (∀ (perms sz : BitVec 16) (n : BitVec 64) (rest : List Byte),
      inRest s = leBytes 4 s.cfg.magic.toNat ++ leBytes 2 perms.toNat ++ leBytes 2 sz.toNat ++ leBytes 8 n.toNat ++ rest →
      (767 < sz.toNat → ∃ t, exec .decode s = .next t ∧ t.err = true ∧ t.error = 0x00410501#32 ∧ t.out = s.out ∧
        t.permissions = perms ∧ t.treeSize = sz ∧ t.origSize = n ∧ t.result = s.result ∧ t.pool = s.pool) ∧
      (sz.toNat ≤ 767 → rest.length < sz.toNat → ∃ t, exec .decode s = .next t ∧ t.err = true ∧
        t.error = 0x00411102#32 ∧ t.out = s.out ∧ t.result = s.result ∧ dumpBytes rest.length t = rest ∧
        t.pool = s.pool) ∧
      (sz.toNat ≤ 767 → sz.toNat ≤ rest.length → 0 < sz.toNat →
        (¬ ∃ tr : CodeTree, tr.dump s.cfg = rest.take sz.toNat) → ∃ t, exec .decode s = .next t ∧ t.err = true ∧
        (t.error = 0x00410201#32 ∨ t.error = 0x00410301#32 ∨ t.error = 0x00410401#32 ∨ t.error = 0x00410601#32) ∧
        t.out = s.out ∧ t.result = s.result ∧ treeEmpty t) ∧
      (sz.toNat ≤ 767 → sz.toNat ≤ rest.length → ∀ c, dumpFault s.cfg 0 (rest.take sz.toNat) = some c →
        ∃ t, exec .decode s = .next t ∧ t.err = true ∧ t.error = errorWord 0x41#8 c ∧ t.out = s.out ∧
          t.result = s.result ∧ treeEmpty t ∧ t.permissions = perms ∧ t.treeSize = sz ∧ t.origSize = n ∧
          dumpBytes sz.toNat t = rest.take sz.toNat) ∧
      (sz = 0#16 → 0 < n.toNat → ∃ t, exec .decode s = .next t ∧ t.err = true ∧ t.error = 0x00410701#32 ∧
        t.out = s.out ∧ t.result = s.result ∧ treeEmpty t))

/-- R227 (the spec marks it as its own inference): the round trip. Where ENCODE succeeds on a state's input with the bytes
C reaching OUT, DECODE of a state with the same parameters whose IN is C, in any state of the rest but with ERR = 0,
succeeds and sends exactly the input to OUT. -/
def Obligations.RoundTrip : Prop :=
  ∀ (s t u : State) (container : List Byte), s.cfg.wf → s.err = false → exec .encode s = .next t → t.err = false →
    t.out = s.out ++ container → u.cfg = s.cfg → u.err = false → inRest u = container →
    ∃ v, exec .decode u = .next v ∧ v.err = false ∧ v.out = u.out ++ (inRest s).take s.origSize.toNat ∧
      v.permissions = s.permissions ∧ v.origSize = s.origSize

/-! ### The whole machine -/

/-- R21, R22, R25, R29, R31, R32: every step keeps every memory in its canonical form within its size. -/
def Obligations.StepKeepsMemories : Prop :=
  ∀ s t : State, memoriesOk s → step s = .next t → memoriesOk t

/-- R273, R24, R25, R27, R28, R31, R32, R34: every step keeps the whole invariant: the memories, the bit buffers, the
sorted queue of allocated nodes, the empty stack, the code table, the error register and the strict binary tree. -/
def Obligations.StepKeepsInvariant : Prop :=
  ∀ s t : State, Inv s → step s = .next t → Inv t

/-- R18: from every state that keeps the invariant every command completes in a next state, and the only step that is
refused is one whose host access is out of form (R60). None of the model's own faults (log entry 6) is reached. -/
def Obligations.CommandsComplete : Prop :=
  (∀ (i : Instr) (s : State), Inv s → ∃ t, exec i s = .next t) ∧
  (∀ s : State, Inv s → (∃ t, step s = .next t) ∨ step s = .refused .hostAccessForm)

/-- R242 (the spec marks it as its own inference): from every state that keeps the invariant, no command raises
STACK_FULL, STACK_EMPTY, POOL_FULL, CODE_FULL or CODE_EMPTY, and only PQ_INSERT raises PQ_FULL and only PQ_EXTRACT_MIN
raises PQ_EMPTY. -/
def Obligations.UnreachableCauses : Prop :=
  ∀ (i : Instr) (s t : State), Inv s → s.err = false → exec i s = .next t → t.err = true →
    t.error.extractLsb' 8 8 ≠ 0x22#8 ∧ t.error.extractLsb' 8 8 ≠ 0x23#8 ∧ t.error.extractLsb' 8 8 ≠ 0x24#8 ∧
    t.error.extractLsb' 8 8 ≠ 0x25#8 ∧ t.error.extractLsb' 8 8 ≠ 0x26#8 ∧
    (t.error.extractLsb' 8 8 = 0x20#8 → ∃ v, i = .pqInsert v) ∧
    (t.error.extractLsb' 8 8 = 0x21#8 → i = .pqExtractMin)

/-- R77, R37, R39: what BUILD_TREE, BUILD_CODES, DELETE_TREE, NODE_READ and CODE_READ leave unchanged in every state: all
but the named registers and tables; DUMP, FREQ and the bit buffers among it. -/
def Obligations.EngineFrame : Prop :=
  ∀ (i : Instr) (s t : State), exec i s = .next t → engineFrame i s t

/-- R77, R152: what SERIALIZE_TREE and REBUILD_TREE leave unchanged in every state; SERIALIZE_TREE leaves every DUMP byte
from TREE_SIZE up as it was. -/
def Obligations.SerializerFrame : Prop :=
  (∀ (i : Instr) (s t : State), exec i s = .next t → serializerFrame i s t) ∧
  (∀ (s t : State) (a : Nat), exec .serializeTree s = .next t → t.treeSize.toNat ≤ a →
    storeRead 0#8 t.dump a = storeRead 0#8 s.dump a)

/-- R77: what the queue commands and the bit commands leave unchanged in every state; BR_READ_BIT never writes to OUT and
the bit writer never reads IN. -/
def Obligations.QueueAndBitFrame : Prop :=
  ∀ (i : Instr) (s t : State), exec i s = .next t → queueBitFrame i s t

/-- R77: what ENCODE and DECODE leave unchanged in every state. FREQ is written by neither, the readout registers by
neither; DECODE leaves every DUMP byte beyond the header's tree size as it was, ENCODE every DUMP byte from TREE_SIZE up,
whether it raises or not. -/
def Obligations.CodecFrame : Prop :=
  (∀ (i : Instr) (s t : State), exec i s = .next t → codecFrame i s t) ∧
  (∀ (s t : State) (a : Nat), exec .decode s = .next t →
    (rdle (((inRest s).drop 6).take 2) ≤ a ∨ 767 < rdle (((inRest s).drop 6).take 2)) →
    storeRead 0#8 t.dump a = storeRead 0#8 s.dump a) ∧
  (∀ (s t : State) (a : Nat), exec .encode s = .next t → t.treeSize.toNat ≤ a →
    storeRead 0#8 t.dump a = storeRead 0#8 s.dump a)

/-- R42, R67, R270, R8: OUT only grows, whatever the step; the parameters never change; IN's bytes change only when the
platform attaches a source, and its position never moves back otherwise. -/
def Obligations.OutOnlyGrows : Prop :=
  ∀ s t : State, step s = .next t →
    s.out <+: t.out ∧ t.cfg = s.cfg ∧
      ((∃ xs es, s.host = .attachIn xs :: es ∧ t.inBytes = xs ∧ t.inPos = 0 ∧ t.out = s.out) ∨
        (t.inBytes = s.inBytes ∧ s.inPos ≤ t.inPos))
end

