-- ==== Sys2Proof/Laws/State.lean ====
section
/-! SUPPORT. One lemma per field of State per named update, so that no later proof unfolds a record update. -/

namespace Sys2Proof.Machine

open Sys2Proof

variable (s : State)

/-! ### raiseError -/

@[simp] theorem raiseError_cfg (op : BitVec 8) (c : Cause) : (raiseError op c s).cfg = s.cfg := rfl
@[simp] theorem raiseError_freq (op : BitVec 8) (c : Cause) : (raiseError op c s).freq = s.freq := rfl
@[simp] theorem raiseError_pool (op : BitVec 8) (c : Cause) : (raiseError op c s).pool = s.pool := rfl
@[simp] theorem raiseError_root (op : BitVec 8) (c : Cause) : (raiseError op c s).root = s.root := rfl
@[simp] theorem raiseError_leafCount (op : BitVec 8) (c : Cause) : (raiseError op c s).leafCount = s.leafCount := rfl
@[simp] theorem raiseError_code (op : BitVec 8) (c : Cause) : (raiseError op c s).code = s.code := rfl
@[simp] theorem raiseError_codesValid (op : BitVec 8) (c : Cause) : (raiseError op c s).codesValid = s.codesValid := rfl
@[simp] theorem raiseError_pq (op : BitVec 8) (c : Cause) : (raiseError op c s).pq = s.pq := rfl
@[simp] theorem raiseError_stack (op : BitVec 8) (c : Cause) : (raiseError op c s).stack = s.stack := rfl
@[simp] theorem raiseError_dump (op : BitVec 8) (c : Cause) : (raiseError op c s).dump = s.dump := rfl
@[simp] theorem raiseError_treeSize (op : BitVec 8) (c : Cause) : (raiseError op c s).treeSize = s.treeSize := rfl
@[simp] theorem raiseError_bwBuf (op : BitVec 8) (c : Cause) : (raiseError op c s).bwBuf = s.bwBuf := rfl
@[simp] theorem raiseError_bwCount (op : BitVec 8) (c : Cause) : (raiseError op c s).bwCount = s.bwCount := rfl
@[simp] theorem raiseError_brBuf (op : BitVec 8) (c : Cause) : (raiseError op c s).brBuf = s.brBuf := rfl
@[simp] theorem raiseError_brValid (op : BitVec 8) (c : Cause) : (raiseError op c s).brValid = s.brValid := rfl
@[simp] theorem raiseError_brIndex (op : BitVec 8) (c : Cause) : (raiseError op c s).brIndex = s.brIndex := rfl
@[simp] theorem raiseError_eos (op : BitVec 8) (c : Cause) : (raiseError op c s).eos = s.eos := rfl
@[simp] theorem raiseError_err (op : BitVec 8) (c : Cause) : (raiseError op c s).err = true := rfl
@[simp] theorem raiseError_error (op : BitVec 8) (c : Cause) : (raiseError op c s).error = errorWord op c := rfl
@[simp] theorem raiseError_result (op : BitVec 8) (c : Cause) : (raiseError op c s).result = s.result := rfl
@[simp] theorem raiseError_permissions (op : BitVec 8) (c : Cause) : (raiseError op c s).permissions = s.permissions := rfl
@[simp] theorem raiseError_origSize (op : BitVec 8) (c : Cause) : (raiseError op c s).origSize = s.origSize := rfl
@[simp] theorem raiseError_nodeSym (op : BitVec 8) (c : Cause) : (raiseError op c s).nodeSym = s.nodeSym := rfl
@[simp] theorem raiseError_nodeLeft (op : BitVec 8) (c : Cause) : (raiseError op c s).nodeLeft = s.nodeLeft := rfl
@[simp] theorem raiseError_nodeRight (op : BitVec 8) (c : Cause) : (raiseError op c s).nodeRight = s.nodeRight := rfl
@[simp] theorem raiseError_nodeFreq (op : BitVec 8) (c : Cause) : (raiseError op c s).nodeFreq = s.nodeFreq := rfl
@[simp] theorem raiseError_codeLen (op : BitVec 8) (c : Cause) : (raiseError op c s).codeLen = s.codeLen := rfl
@[simp] theorem raiseError_codeBits (op : BitVec 8) (c : Cause) : (raiseError op c s).codeBits = s.codeBits := rfl
@[simp] theorem raiseError_inCount (op : BitVec 8) (c : Cause) : (raiseError op c s).inCount = s.inCount := rfl
@[simp] theorem raiseError_outCount (op : BitVec 8) (c : Cause) : (raiseError op c s).outCount = s.outCount := rfl
@[simp] theorem raiseError_inBytes (op : BitVec 8) (c : Cause) : (raiseError op c s).inBytes = s.inBytes := rfl
@[simp] theorem raiseError_inPos (op : BitVec 8) (c : Cause) : (raiseError op c s).inPos = s.inPos := rfl
@[simp] theorem raiseError_out (op : BitVec 8) (c : Cause) : (raiseError op c s).out = s.out := rfl
@[simp] theorem raiseError_host (op : BitVec 8) (c : Cause) : (raiseError op c s).host = s.host := rfl
@[simp] theorem raiseError_readLog (op : BitVec 8) (c : Cause) : (raiseError op c s).readLog = s.readLog := rfl
@[simp] theorem raiseError_errLog (op : BitVec 8) (c : Cause) : (raiseError op c s).errLog = s.errLog ++ [errorWord op c] := rfl

/-! ### clearError -/

@[simp] theorem clearError_cfg : (clearError s).cfg = s.cfg := rfl
@[simp] theorem clearError_freq : (clearError s).freq = s.freq := rfl
@[simp] theorem clearError_pool : (clearError s).pool = s.pool := rfl
@[simp] theorem clearError_root : (clearError s).root = s.root := rfl
@[simp] theorem clearError_leafCount : (clearError s).leafCount = s.leafCount := rfl
@[simp] theorem clearError_code : (clearError s).code = s.code := rfl
@[simp] theorem clearError_codesValid : (clearError s).codesValid = s.codesValid := rfl
@[simp] theorem clearError_pq : (clearError s).pq = s.pq := rfl
@[simp] theorem clearError_stack : (clearError s).stack = s.stack := rfl
@[simp] theorem clearError_dump : (clearError s).dump = s.dump := rfl
@[simp] theorem clearError_treeSize : (clearError s).treeSize = s.treeSize := rfl
@[simp] theorem clearError_bwBuf : (clearError s).bwBuf = s.bwBuf := rfl
@[simp] theorem clearError_bwCount : (clearError s).bwCount = s.bwCount := rfl
@[simp] theorem clearError_brBuf : (clearError s).brBuf = s.brBuf := rfl
@[simp] theorem clearError_brValid : (clearError s).brValid = s.brValid := rfl
@[simp] theorem clearError_brIndex : (clearError s).brIndex = s.brIndex := rfl
@[simp] theorem clearError_eos : (clearError s).eos = s.eos := rfl
@[simp] theorem clearError_err : (clearError s).err = false := rfl
@[simp] theorem clearError_error : (clearError s).error = 0#32 := rfl
@[simp] theorem clearError_result : (clearError s).result = s.result := rfl
@[simp] theorem clearError_permissions : (clearError s).permissions = s.permissions := rfl
@[simp] theorem clearError_origSize : (clearError s).origSize = s.origSize := rfl
@[simp] theorem clearError_nodeSym : (clearError s).nodeSym = s.nodeSym := rfl
@[simp] theorem clearError_nodeLeft : (clearError s).nodeLeft = s.nodeLeft := rfl
@[simp] theorem clearError_nodeRight : (clearError s).nodeRight = s.nodeRight := rfl
@[simp] theorem clearError_nodeFreq : (clearError s).nodeFreq = s.nodeFreq := rfl
@[simp] theorem clearError_codeLen : (clearError s).codeLen = s.codeLen := rfl
@[simp] theorem clearError_codeBits : (clearError s).codeBits = s.codeBits := rfl
@[simp] theorem clearError_inCount : (clearError s).inCount = s.inCount := rfl
@[simp] theorem clearError_outCount : (clearError s).outCount = s.outCount := rfl
@[simp] theorem clearError_inBytes : (clearError s).inBytes = s.inBytes := rfl
@[simp] theorem clearError_inPos : (clearError s).inPos = s.inPos := rfl
@[simp] theorem clearError_out : (clearError s).out = s.out := rfl
@[simp] theorem clearError_host : (clearError s).host = s.host := rfl
@[simp] theorem clearError_readLog : (clearError s).readLog = s.readLog := rfl
@[simp] theorem clearError_errLog : (clearError s).errLog = s.errLog := rfl

/-! ### setResult -/

@[simp] theorem setResult_cfg (v : Word) : (setResult v s).cfg = s.cfg := rfl
@[simp] theorem setResult_freq (v : Word) : (setResult v s).freq = s.freq := rfl
@[simp] theorem setResult_pool (v : Word) : (setResult v s).pool = s.pool := rfl
@[simp] theorem setResult_root (v : Word) : (setResult v s).root = s.root := rfl
@[simp] theorem setResult_leafCount (v : Word) : (setResult v s).leafCount = s.leafCount := rfl
@[simp] theorem setResult_code (v : Word) : (setResult v s).code = s.code := rfl
@[simp] theorem setResult_codesValid (v : Word) : (setResult v s).codesValid = s.codesValid := rfl
@[simp] theorem setResult_pq (v : Word) : (setResult v s).pq = s.pq := rfl
@[simp] theorem setResult_stack (v : Word) : (setResult v s).stack = s.stack := rfl
@[simp] theorem setResult_dump (v : Word) : (setResult v s).dump = s.dump := rfl
@[simp] theorem setResult_treeSize (v : Word) : (setResult v s).treeSize = s.treeSize := rfl
@[simp] theorem setResult_bwBuf (v : Word) : (setResult v s).bwBuf = s.bwBuf := rfl
@[simp] theorem setResult_bwCount (v : Word) : (setResult v s).bwCount = s.bwCount := rfl
@[simp] theorem setResult_brBuf (v : Word) : (setResult v s).brBuf = s.brBuf := rfl
@[simp] theorem setResult_brValid (v : Word) : (setResult v s).brValid = s.brValid := rfl
@[simp] theorem setResult_brIndex (v : Word) : (setResult v s).brIndex = s.brIndex := rfl
@[simp] theorem setResult_eos (v : Word) : (setResult v s).eos = s.eos := rfl
@[simp] theorem setResult_err (v : Word) : (setResult v s).err = s.err := rfl
@[simp] theorem setResult_error (v : Word) : (setResult v s).error = s.error := rfl
@[simp] theorem setResult_result (v : Word) : (setResult v s).result = v := rfl
@[simp] theorem setResult_permissions (v : Word) : (setResult v s).permissions = s.permissions := rfl
@[simp] theorem setResult_origSize (v : Word) : (setResult v s).origSize = s.origSize := rfl
@[simp] theorem setResult_nodeSym (v : Word) : (setResult v s).nodeSym = s.nodeSym := rfl
@[simp] theorem setResult_nodeLeft (v : Word) : (setResult v s).nodeLeft = s.nodeLeft := rfl
@[simp] theorem setResult_nodeRight (v : Word) : (setResult v s).nodeRight = s.nodeRight := rfl
@[simp] theorem setResult_nodeFreq (v : Word) : (setResult v s).nodeFreq = s.nodeFreq := rfl
@[simp] theorem setResult_codeLen (v : Word) : (setResult v s).codeLen = s.codeLen := rfl
@[simp] theorem setResult_codeBits (v : Word) : (setResult v s).codeBits = s.codeBits := rfl
@[simp] theorem setResult_inCount (v : Word) : (setResult v s).inCount = s.inCount := rfl
@[simp] theorem setResult_outCount (v : Word) : (setResult v s).outCount = s.outCount := rfl
@[simp] theorem setResult_inBytes (v : Word) : (setResult v s).inBytes = s.inBytes := rfl
@[simp] theorem setResult_inPos (v : Word) : (setResult v s).inPos = s.inPos := rfl
@[simp] theorem setResult_out (v : Word) : (setResult v s).out = s.out := rfl
@[simp] theorem setResult_host (v : Word) : (setResult v s).host = s.host := rfl
@[simp] theorem setResult_readLog (v : Word) : (setResult v s).readLog = s.readLog := rfl
@[simp] theorem setResult_errLog (v : Word) : (setResult v s).errLog = s.errLog := rfl

/-! ### inReadState -/

@[simp] theorem inReadState_cfg (n : Nat) : (inReadState n s).cfg = s.cfg := rfl
@[simp] theorem inReadState_freq (n : Nat) : (inReadState n s).freq = s.freq := rfl
@[simp] theorem inReadState_pool (n : Nat) : (inReadState n s).pool = s.pool := rfl
@[simp] theorem inReadState_root (n : Nat) : (inReadState n s).root = s.root := rfl
@[simp] theorem inReadState_leafCount (n : Nat) : (inReadState n s).leafCount = s.leafCount := rfl
@[simp] theorem inReadState_code (n : Nat) : (inReadState n s).code = s.code := rfl
@[simp] theorem inReadState_codesValid (n : Nat) : (inReadState n s).codesValid = s.codesValid := rfl
@[simp] theorem inReadState_pq (n : Nat) : (inReadState n s).pq = s.pq := rfl
@[simp] theorem inReadState_stack (n : Nat) : (inReadState n s).stack = s.stack := rfl
@[simp] theorem inReadState_dump (n : Nat) : (inReadState n s).dump = s.dump := rfl
@[simp] theorem inReadState_treeSize (n : Nat) : (inReadState n s).treeSize = s.treeSize := rfl
@[simp] theorem inReadState_bwBuf (n : Nat) : (inReadState n s).bwBuf = s.bwBuf := rfl
@[simp] theorem inReadState_bwCount (n : Nat) : (inReadState n s).bwCount = s.bwCount := rfl
@[simp] theorem inReadState_brBuf (n : Nat) : (inReadState n s).brBuf = s.brBuf := rfl
@[simp] theorem inReadState_brValid (n : Nat) : (inReadState n s).brValid = s.brValid := rfl
@[simp] theorem inReadState_brIndex (n : Nat) : (inReadState n s).brIndex = s.brIndex := rfl
@[simp] theorem inReadState_eos (n : Nat) : (inReadState n s).eos = s.eos := rfl
@[simp] theorem inReadState_err (n : Nat) : (inReadState n s).err = s.err := rfl
@[simp] theorem inReadState_error (n : Nat) : (inReadState n s).error = s.error := rfl
@[simp] theorem inReadState_result (n : Nat) : (inReadState n s).result = s.result := rfl
@[simp] theorem inReadState_permissions (n : Nat) : (inReadState n s).permissions = s.permissions := rfl
@[simp] theorem inReadState_origSize (n : Nat) : (inReadState n s).origSize = s.origSize := rfl
@[simp] theorem inReadState_nodeSym (n : Nat) : (inReadState n s).nodeSym = s.nodeSym := rfl
@[simp] theorem inReadState_nodeLeft (n : Nat) : (inReadState n s).nodeLeft = s.nodeLeft := rfl
@[simp] theorem inReadState_nodeRight (n : Nat) : (inReadState n s).nodeRight = s.nodeRight := rfl
@[simp] theorem inReadState_nodeFreq (n : Nat) : (inReadState n s).nodeFreq = s.nodeFreq := rfl
@[simp] theorem inReadState_codeLen (n : Nat) : (inReadState n s).codeLen = s.codeLen := rfl
@[simp] theorem inReadState_codeBits (n : Nat) : (inReadState n s).codeBits = s.codeBits := rfl
@[simp] theorem inReadState_inCount (n : Nat) : (inReadState n s).inCount = s.inCount + BitVec.ofNat 64 (inReadBytes n s).length := rfl
@[simp] theorem inReadState_outCount (n : Nat) : (inReadState n s).outCount = s.outCount := rfl
@[simp] theorem inReadState_inBytes (n : Nat) : (inReadState n s).inBytes = s.inBytes := rfl
@[simp] theorem inReadState_inPos (n : Nat) : (inReadState n s).inPos = s.inPos + (inReadBytes n s).length := rfl
@[simp] theorem inReadState_out (n : Nat) : (inReadState n s).out = s.out := rfl
@[simp] theorem inReadState_host (n : Nat) : (inReadState n s).host = s.host := rfl
@[simp] theorem inReadState_readLog (n : Nat) : (inReadState n s).readLog = s.readLog := rfl
@[simp] theorem inReadState_errLog (n : Nat) : (inReadState n s).errLog = s.errLog := rfl

/-! ### outWrite -/

@[simp] theorem outWrite_cfg (xs : List Byte) : (outWrite xs s).cfg = s.cfg := rfl
@[simp] theorem outWrite_freq (xs : List Byte) : (outWrite xs s).freq = s.freq := rfl
@[simp] theorem outWrite_pool (xs : List Byte) : (outWrite xs s).pool = s.pool := rfl
@[simp] theorem outWrite_root (xs : List Byte) : (outWrite xs s).root = s.root := rfl
@[simp] theorem outWrite_leafCount (xs : List Byte) : (outWrite xs s).leafCount = s.leafCount := rfl
@[simp] theorem outWrite_code (xs : List Byte) : (outWrite xs s).code = s.code := rfl
@[simp] theorem outWrite_codesValid (xs : List Byte) : (outWrite xs s).codesValid = s.codesValid := rfl
@[simp] theorem outWrite_pq (xs : List Byte) : (outWrite xs s).pq = s.pq := rfl
@[simp] theorem outWrite_stack (xs : List Byte) : (outWrite xs s).stack = s.stack := rfl
@[simp] theorem outWrite_dump (xs : List Byte) : (outWrite xs s).dump = s.dump := rfl
@[simp] theorem outWrite_treeSize (xs : List Byte) : (outWrite xs s).treeSize = s.treeSize := rfl
@[simp] theorem outWrite_bwBuf (xs : List Byte) : (outWrite xs s).bwBuf = s.bwBuf := rfl
@[simp] theorem outWrite_bwCount (xs : List Byte) : (outWrite xs s).bwCount = s.bwCount := rfl
@[simp] theorem outWrite_brBuf (xs : List Byte) : (outWrite xs s).brBuf = s.brBuf := rfl
@[simp] theorem outWrite_brValid (xs : List Byte) : (outWrite xs s).brValid = s.brValid := rfl
@[simp] theorem outWrite_brIndex (xs : List Byte) : (outWrite xs s).brIndex = s.brIndex := rfl
@[simp] theorem outWrite_eos (xs : List Byte) : (outWrite xs s).eos = s.eos := rfl
@[simp] theorem outWrite_err (xs : List Byte) : (outWrite xs s).err = s.err := rfl
@[simp] theorem outWrite_error (xs : List Byte) : (outWrite xs s).error = s.error := rfl
@[simp] theorem outWrite_result (xs : List Byte) : (outWrite xs s).result = s.result := rfl
@[simp] theorem outWrite_permissions (xs : List Byte) : (outWrite xs s).permissions = s.permissions := rfl
@[simp] theorem outWrite_origSize (xs : List Byte) : (outWrite xs s).origSize = s.origSize := rfl
@[simp] theorem outWrite_nodeSym (xs : List Byte) : (outWrite xs s).nodeSym = s.nodeSym := rfl
@[simp] theorem outWrite_nodeLeft (xs : List Byte) : (outWrite xs s).nodeLeft = s.nodeLeft := rfl
@[simp] theorem outWrite_nodeRight (xs : List Byte) : (outWrite xs s).nodeRight = s.nodeRight := rfl
@[simp] theorem outWrite_nodeFreq (xs : List Byte) : (outWrite xs s).nodeFreq = s.nodeFreq := rfl
@[simp] theorem outWrite_codeLen (xs : List Byte) : (outWrite xs s).codeLen = s.codeLen := rfl
@[simp] theorem outWrite_codeBits (xs : List Byte) : (outWrite xs s).codeBits = s.codeBits := rfl
@[simp] theorem outWrite_inCount (xs : List Byte) : (outWrite xs s).inCount = s.inCount := rfl
@[simp] theorem outWrite_outCount (xs : List Byte) : (outWrite xs s).outCount = s.outCount + BitVec.ofNat 64 xs.length := rfl
@[simp] theorem outWrite_inBytes (xs : List Byte) : (outWrite xs s).inBytes = s.inBytes := rfl
@[simp] theorem outWrite_inPos (xs : List Byte) : (outWrite xs s).inPos = s.inPos := rfl
@[simp] theorem outWrite_out (xs : List Byte) : (outWrite xs s).out = s.out ++ xs := rfl
@[simp] theorem outWrite_host (xs : List Byte) : (outWrite xs s).host = s.host := rfl
@[simp] theorem outWrite_readLog (xs : List Byte) : (outWrite xs s).readLog = s.readLog := rfl
@[simp] theorem outWrite_errLog (xs : List Byte) : (outWrite xs s).errLog = s.errLog := rfl

/-! ### clearCounts -/

@[simp] theorem clearCounts_cfg : (clearCounts s).cfg = s.cfg := rfl
@[simp] theorem clearCounts_freq : (clearCounts s).freq = s.freq := rfl
@[simp] theorem clearCounts_pool : (clearCounts s).pool = s.pool := rfl
@[simp] theorem clearCounts_root : (clearCounts s).root = s.root := rfl
@[simp] theorem clearCounts_leafCount : (clearCounts s).leafCount = s.leafCount := rfl
@[simp] theorem clearCounts_code : (clearCounts s).code = s.code := rfl
@[simp] theorem clearCounts_codesValid : (clearCounts s).codesValid = s.codesValid := rfl
@[simp] theorem clearCounts_pq : (clearCounts s).pq = s.pq := rfl
@[simp] theorem clearCounts_stack : (clearCounts s).stack = s.stack := rfl
@[simp] theorem clearCounts_dump : (clearCounts s).dump = s.dump := rfl
@[simp] theorem clearCounts_treeSize : (clearCounts s).treeSize = s.treeSize := rfl
@[simp] theorem clearCounts_bwBuf : (clearCounts s).bwBuf = s.bwBuf := rfl
@[simp] theorem clearCounts_bwCount : (clearCounts s).bwCount = s.bwCount := rfl
@[simp] theorem clearCounts_brBuf : (clearCounts s).brBuf = s.brBuf := rfl
@[simp] theorem clearCounts_brValid : (clearCounts s).brValid = s.brValid := rfl
@[simp] theorem clearCounts_brIndex : (clearCounts s).brIndex = s.brIndex := rfl
@[simp] theorem clearCounts_eos : (clearCounts s).eos = s.eos := rfl
@[simp] theorem clearCounts_err : (clearCounts s).err = s.err := rfl
@[simp] theorem clearCounts_error : (clearCounts s).error = s.error := rfl
@[simp] theorem clearCounts_result : (clearCounts s).result = s.result := rfl
@[simp] theorem clearCounts_permissions : (clearCounts s).permissions = s.permissions := rfl
@[simp] theorem clearCounts_origSize : (clearCounts s).origSize = s.origSize := rfl
@[simp] theorem clearCounts_nodeSym : (clearCounts s).nodeSym = s.nodeSym := rfl
@[simp] theorem clearCounts_nodeLeft : (clearCounts s).nodeLeft = s.nodeLeft := rfl
@[simp] theorem clearCounts_nodeRight : (clearCounts s).nodeRight = s.nodeRight := rfl
@[simp] theorem clearCounts_nodeFreq : (clearCounts s).nodeFreq = s.nodeFreq := rfl
@[simp] theorem clearCounts_codeLen : (clearCounts s).codeLen = s.codeLen := rfl
@[simp] theorem clearCounts_codeBits : (clearCounts s).codeBits = s.codeBits := rfl
@[simp] theorem clearCounts_inCount : (clearCounts s).inCount = 0#64 := rfl
@[simp] theorem clearCounts_outCount : (clearCounts s).outCount = 0#64 := rfl
@[simp] theorem clearCounts_inBytes : (clearCounts s).inBytes = s.inBytes := rfl
@[simp] theorem clearCounts_inPos : (clearCounts s).inPos = s.inPos := rfl
@[simp] theorem clearCounts_out : (clearCounts s).out = s.out := rfl
@[simp] theorem clearCounts_host : (clearCounts s).host = s.host := rfl
@[simp] theorem clearCounts_readLog : (clearCounts s).readLog = s.readLog := rfl
@[simp] theorem clearCounts_errLog : (clearCounts s).errLog = s.errLog := rfl

/-! ### clearWriter -/

@[simp] theorem clearWriter_cfg : (clearWriter s).cfg = s.cfg := rfl
@[simp] theorem clearWriter_freq : (clearWriter s).freq = s.freq := rfl
@[simp] theorem clearWriter_pool : (clearWriter s).pool = s.pool := rfl
@[simp] theorem clearWriter_root : (clearWriter s).root = s.root := rfl
@[simp] theorem clearWriter_leafCount : (clearWriter s).leafCount = s.leafCount := rfl
@[simp] theorem clearWriter_code : (clearWriter s).code = s.code := rfl
@[simp] theorem clearWriter_codesValid : (clearWriter s).codesValid = s.codesValid := rfl
@[simp] theorem clearWriter_pq : (clearWriter s).pq = s.pq := rfl
@[simp] theorem clearWriter_stack : (clearWriter s).stack = s.stack := rfl
@[simp] theorem clearWriter_dump : (clearWriter s).dump = s.dump := rfl
@[simp] theorem clearWriter_treeSize : (clearWriter s).treeSize = s.treeSize := rfl
@[simp] theorem clearWriter_bwBuf : (clearWriter s).bwBuf = [] := rfl
@[simp] theorem clearWriter_bwCount : (clearWriter s).bwCount = 0 := rfl
@[simp] theorem clearWriter_brBuf : (clearWriter s).brBuf = s.brBuf := rfl
@[simp] theorem clearWriter_brValid : (clearWriter s).brValid = s.brValid := rfl
@[simp] theorem clearWriter_brIndex : (clearWriter s).brIndex = s.brIndex := rfl
@[simp] theorem clearWriter_eos : (clearWriter s).eos = s.eos := rfl
@[simp] theorem clearWriter_err : (clearWriter s).err = s.err := rfl
@[simp] theorem clearWriter_error : (clearWriter s).error = s.error := rfl
@[simp] theorem clearWriter_result : (clearWriter s).result = s.result := rfl
@[simp] theorem clearWriter_permissions : (clearWriter s).permissions = s.permissions := rfl
@[simp] theorem clearWriter_origSize : (clearWriter s).origSize = s.origSize := rfl
@[simp] theorem clearWriter_nodeSym : (clearWriter s).nodeSym = s.nodeSym := rfl
@[simp] theorem clearWriter_nodeLeft : (clearWriter s).nodeLeft = s.nodeLeft := rfl
@[simp] theorem clearWriter_nodeRight : (clearWriter s).nodeRight = s.nodeRight := rfl
@[simp] theorem clearWriter_nodeFreq : (clearWriter s).nodeFreq = s.nodeFreq := rfl
@[simp] theorem clearWriter_codeLen : (clearWriter s).codeLen = s.codeLen := rfl
@[simp] theorem clearWriter_codeBits : (clearWriter s).codeBits = s.codeBits := rfl
@[simp] theorem clearWriter_inCount : (clearWriter s).inCount = s.inCount := rfl
@[simp] theorem clearWriter_outCount : (clearWriter s).outCount = s.outCount := rfl
@[simp] theorem clearWriter_inBytes : (clearWriter s).inBytes = s.inBytes := rfl
@[simp] theorem clearWriter_inPos : (clearWriter s).inPos = s.inPos := rfl
@[simp] theorem clearWriter_out : (clearWriter s).out = s.out := rfl
@[simp] theorem clearWriter_host : (clearWriter s).host = s.host := rfl
@[simp] theorem clearWriter_readLog : (clearWriter s).readLog = s.readLog := rfl
@[simp] theorem clearWriter_errLog : (clearWriter s).errLog = s.errLog := rfl

/-! ### clearReader -/

@[simp] theorem clearReader_cfg : (clearReader s).cfg = s.cfg := rfl
@[simp] theorem clearReader_freq : (clearReader s).freq = s.freq := rfl
@[simp] theorem clearReader_pool : (clearReader s).pool = s.pool := rfl
@[simp] theorem clearReader_root : (clearReader s).root = s.root := rfl
@[simp] theorem clearReader_leafCount : (clearReader s).leafCount = s.leafCount := rfl
@[simp] theorem clearReader_code : (clearReader s).code = s.code := rfl
@[simp] theorem clearReader_codesValid : (clearReader s).codesValid = s.codesValid := rfl
@[simp] theorem clearReader_pq : (clearReader s).pq = s.pq := rfl
@[simp] theorem clearReader_stack : (clearReader s).stack = s.stack := rfl
@[simp] theorem clearReader_dump : (clearReader s).dump = s.dump := rfl
@[simp] theorem clearReader_treeSize : (clearReader s).treeSize = s.treeSize := rfl
@[simp] theorem clearReader_bwBuf : (clearReader s).bwBuf = s.bwBuf := rfl
@[simp] theorem clearReader_bwCount : (clearReader s).bwCount = s.bwCount := rfl
@[simp] theorem clearReader_brBuf : (clearReader s).brBuf = [] := rfl
@[simp] theorem clearReader_brValid : (clearReader s).brValid = 0 := rfl
@[simp] theorem clearReader_brIndex : (clearReader s).brIndex = 0 := rfl
@[simp] theorem clearReader_eos : (clearReader s).eos = false := rfl
@[simp] theorem clearReader_err : (clearReader s).err = s.err := rfl
@[simp] theorem clearReader_error : (clearReader s).error = s.error := rfl
@[simp] theorem clearReader_result : (clearReader s).result = s.result := rfl
@[simp] theorem clearReader_permissions : (clearReader s).permissions = s.permissions := rfl
@[simp] theorem clearReader_origSize : (clearReader s).origSize = s.origSize := rfl
@[simp] theorem clearReader_nodeSym : (clearReader s).nodeSym = s.nodeSym := rfl
@[simp] theorem clearReader_nodeLeft : (clearReader s).nodeLeft = s.nodeLeft := rfl
@[simp] theorem clearReader_nodeRight : (clearReader s).nodeRight = s.nodeRight := rfl
@[simp] theorem clearReader_nodeFreq : (clearReader s).nodeFreq = s.nodeFreq := rfl
@[simp] theorem clearReader_codeLen : (clearReader s).codeLen = s.codeLen := rfl
@[simp] theorem clearReader_codeBits : (clearReader s).codeBits = s.codeBits := rfl
@[simp] theorem clearReader_inCount : (clearReader s).inCount = s.inCount := rfl
@[simp] theorem clearReader_outCount : (clearReader s).outCount = s.outCount := rfl
@[simp] theorem clearReader_inBytes : (clearReader s).inBytes = s.inBytes := rfl
@[simp] theorem clearReader_inPos : (clearReader s).inPos = s.inPos := rfl
@[simp] theorem clearReader_out : (clearReader s).out = s.out := rfl
@[simp] theorem clearReader_host : (clearReader s).host = s.host := rfl
@[simp] theorem clearReader_readLog : (clearReader s).readLog = s.readLog := rfl
@[simp] theorem clearReader_errLog : (clearReader s).errLog = s.errLog := rfl

/-! ### setCode -/

@[simp] theorem setCode_cfg (i : Nat) (e : CodeEntry) : (setCode i e s).cfg = s.cfg := rfl
@[simp] theorem setCode_freq (i : Nat) (e : CodeEntry) : (setCode i e s).freq = s.freq := rfl
@[simp] theorem setCode_pool (i : Nat) (e : CodeEntry) : (setCode i e s).pool = s.pool := rfl
@[simp] theorem setCode_root (i : Nat) (e : CodeEntry) : (setCode i e s).root = s.root := rfl
@[simp] theorem setCode_leafCount (i : Nat) (e : CodeEntry) : (setCode i e s).leafCount = s.leafCount := rfl
@[simp] theorem setCode_code (i : Nat) (e : CodeEntry) : (setCode i e s).code = storeWrite CodeEntry.blank s.code i e := rfl
@[simp] theorem setCode_codesValid (i : Nat) (e : CodeEntry) : (setCode i e s).codesValid = s.codesValid := rfl
@[simp] theorem setCode_pq (i : Nat) (e : CodeEntry) : (setCode i e s).pq = s.pq := rfl
@[simp] theorem setCode_stack (i : Nat) (e : CodeEntry) : (setCode i e s).stack = s.stack := rfl
@[simp] theorem setCode_dump (i : Nat) (e : CodeEntry) : (setCode i e s).dump = s.dump := rfl
@[simp] theorem setCode_treeSize (i : Nat) (e : CodeEntry) : (setCode i e s).treeSize = s.treeSize := rfl
@[simp] theorem setCode_bwBuf (i : Nat) (e : CodeEntry) : (setCode i e s).bwBuf = s.bwBuf := rfl
@[simp] theorem setCode_bwCount (i : Nat) (e : CodeEntry) : (setCode i e s).bwCount = s.bwCount := rfl
@[simp] theorem setCode_brBuf (i : Nat) (e : CodeEntry) : (setCode i e s).brBuf = s.brBuf := rfl
@[simp] theorem setCode_brValid (i : Nat) (e : CodeEntry) : (setCode i e s).brValid = s.brValid := rfl
@[simp] theorem setCode_brIndex (i : Nat) (e : CodeEntry) : (setCode i e s).brIndex = s.brIndex := rfl
@[simp] theorem setCode_eos (i : Nat) (e : CodeEntry) : (setCode i e s).eos = s.eos := rfl
@[simp] theorem setCode_err (i : Nat) (e : CodeEntry) : (setCode i e s).err = s.err := rfl
@[simp] theorem setCode_error (i : Nat) (e : CodeEntry) : (setCode i e s).error = s.error := rfl
@[simp] theorem setCode_result (i : Nat) (e : CodeEntry) : (setCode i e s).result = s.result := rfl
@[simp] theorem setCode_permissions (i : Nat) (e : CodeEntry) : (setCode i e s).permissions = s.permissions := rfl
@[simp] theorem setCode_origSize (i : Nat) (e : CodeEntry) : (setCode i e s).origSize = s.origSize := rfl
@[simp] theorem setCode_nodeSym (i : Nat) (e : CodeEntry) : (setCode i e s).nodeSym = s.nodeSym := rfl
@[simp] theorem setCode_nodeLeft (i : Nat) (e : CodeEntry) : (setCode i e s).nodeLeft = s.nodeLeft := rfl
@[simp] theorem setCode_nodeRight (i : Nat) (e : CodeEntry) : (setCode i e s).nodeRight = s.nodeRight := rfl
@[simp] theorem setCode_nodeFreq (i : Nat) (e : CodeEntry) : (setCode i e s).nodeFreq = s.nodeFreq := rfl
@[simp] theorem setCode_codeLen (i : Nat) (e : CodeEntry) : (setCode i e s).codeLen = s.codeLen := rfl
@[simp] theorem setCode_codeBits (i : Nat) (e : CodeEntry) : (setCode i e s).codeBits = s.codeBits := rfl
@[simp] theorem setCode_inCount (i : Nat) (e : CodeEntry) : (setCode i e s).inCount = s.inCount := rfl
@[simp] theorem setCode_outCount (i : Nat) (e : CodeEntry) : (setCode i e s).outCount = s.outCount := rfl
@[simp] theorem setCode_inBytes (i : Nat) (e : CodeEntry) : (setCode i e s).inBytes = s.inBytes := rfl
@[simp] theorem setCode_inPos (i : Nat) (e : CodeEntry) : (setCode i e s).inPos = s.inPos := rfl
@[simp] theorem setCode_out (i : Nat) (e : CodeEntry) : (setCode i e s).out = s.out := rfl
@[simp] theorem setCode_host (i : Nat) (e : CodeEntry) : (setCode i e s).host = s.host := rfl
@[simp] theorem setCode_readLog (i : Nat) (e : CodeEntry) : (setCode i e s).readLog = s.readLog := rfl
@[simp] theorem setCode_errLog (i : Nat) (e : CodeEntry) : (setCode i e s).errLog = s.errLog := rfl

/-! ### releasePool -/

@[simp] theorem releasePool_cfg : (releasePool s).cfg = s.cfg := rfl
@[simp] theorem releasePool_freq : (releasePool s).freq = s.freq := rfl
@[simp] theorem releasePool_pool : (releasePool s).pool = storeMap NodeEntry.blank (fun e => { e with alloc := false }) s.pool := rfl
@[simp] theorem releasePool_root : (releasePool s).root = nil := rfl
@[simp] theorem releasePool_leafCount : (releasePool s).leafCount = 0#9 := rfl
@[simp] theorem releasePool_code : (releasePool s).code = s.code := rfl
@[simp] theorem releasePool_codesValid : (releasePool s).codesValid = s.codesValid := rfl
@[simp] theorem releasePool_pq : (releasePool s).pq = [] := rfl
@[simp] theorem releasePool_stack : (releasePool s).stack = [] := rfl
@[simp] theorem releasePool_dump : (releasePool s).dump = s.dump := rfl
@[simp] theorem releasePool_treeSize : (releasePool s).treeSize = s.treeSize := rfl
@[simp] theorem releasePool_bwBuf : (releasePool s).bwBuf = s.bwBuf := rfl
@[simp] theorem releasePool_bwCount : (releasePool s).bwCount = s.bwCount := rfl
@[simp] theorem releasePool_brBuf : (releasePool s).brBuf = s.brBuf := rfl
@[simp] theorem releasePool_brValid : (releasePool s).brValid = s.brValid := rfl
@[simp] theorem releasePool_brIndex : (releasePool s).brIndex = s.brIndex := rfl
@[simp] theorem releasePool_eos : (releasePool s).eos = s.eos := rfl
@[simp] theorem releasePool_err : (releasePool s).err = s.err := rfl
@[simp] theorem releasePool_error : (releasePool s).error = s.error := rfl
@[simp] theorem releasePool_result : (releasePool s).result = s.result := rfl
@[simp] theorem releasePool_permissions : (releasePool s).permissions = s.permissions := rfl
@[simp] theorem releasePool_origSize : (releasePool s).origSize = s.origSize := rfl
@[simp] theorem releasePool_nodeSym : (releasePool s).nodeSym = s.nodeSym := rfl
@[simp] theorem releasePool_nodeLeft : (releasePool s).nodeLeft = s.nodeLeft := rfl
@[simp] theorem releasePool_nodeRight : (releasePool s).nodeRight = s.nodeRight := rfl
@[simp] theorem releasePool_nodeFreq : (releasePool s).nodeFreq = s.nodeFreq := rfl
@[simp] theorem releasePool_codeLen : (releasePool s).codeLen = s.codeLen := rfl
@[simp] theorem releasePool_codeBits : (releasePool s).codeBits = s.codeBits := rfl
@[simp] theorem releasePool_inCount : (releasePool s).inCount = s.inCount := rfl
@[simp] theorem releasePool_outCount : (releasePool s).outCount = s.outCount := rfl
@[simp] theorem releasePool_inBytes : (releasePool s).inBytes = s.inBytes := rfl
@[simp] theorem releasePool_inPos : (releasePool s).inPos = s.inPos := rfl
@[simp] theorem releasePool_out : (releasePool s).out = s.out := rfl
@[simp] theorem releasePool_host : (releasePool s).host = s.host := rfl
@[simp] theorem releasePool_readLog : (releasePool s).readLog = s.readLog := rfl
@[simp] theorem releasePool_errLog : (releasePool s).errLog = s.errLog := rfl

/-! ### readoutCode -/

@[simp] theorem readoutCode_cfg (e : CodeEntry) : (readoutCode e s).cfg = s.cfg := rfl
@[simp] theorem readoutCode_freq (e : CodeEntry) : (readoutCode e s).freq = s.freq := rfl
@[simp] theorem readoutCode_pool (e : CodeEntry) : (readoutCode e s).pool = s.pool := rfl
@[simp] theorem readoutCode_root (e : CodeEntry) : (readoutCode e s).root = s.root := rfl
@[simp] theorem readoutCode_leafCount (e : CodeEntry) : (readoutCode e s).leafCount = s.leafCount := rfl
@[simp] theorem readoutCode_code (e : CodeEntry) : (readoutCode e s).code = s.code := rfl
@[simp] theorem readoutCode_codesValid (e : CodeEntry) : (readoutCode e s).codesValid = s.codesValid := rfl
@[simp] theorem readoutCode_pq (e : CodeEntry) : (readoutCode e s).pq = s.pq := rfl
@[simp] theorem readoutCode_stack (e : CodeEntry) : (readoutCode e s).stack = s.stack := rfl
@[simp] theorem readoutCode_dump (e : CodeEntry) : (readoutCode e s).dump = s.dump := rfl
@[simp] theorem readoutCode_treeSize (e : CodeEntry) : (readoutCode e s).treeSize = s.treeSize := rfl
@[simp] theorem readoutCode_bwBuf (e : CodeEntry) : (readoutCode e s).bwBuf = s.bwBuf := rfl
@[simp] theorem readoutCode_bwCount (e : CodeEntry) : (readoutCode e s).bwCount = s.bwCount := rfl
@[simp] theorem readoutCode_brBuf (e : CodeEntry) : (readoutCode e s).brBuf = s.brBuf := rfl
@[simp] theorem readoutCode_brValid (e : CodeEntry) : (readoutCode e s).brValid = s.brValid := rfl
@[simp] theorem readoutCode_brIndex (e : CodeEntry) : (readoutCode e s).brIndex = s.brIndex := rfl
@[simp] theorem readoutCode_eos (e : CodeEntry) : (readoutCode e s).eos = s.eos := rfl
@[simp] theorem readoutCode_err (e : CodeEntry) : (readoutCode e s).err = s.err := rfl
@[simp] theorem readoutCode_error (e : CodeEntry) : (readoutCode e s).error = s.error := rfl
@[simp] theorem readoutCode_result (e : CodeEntry) : (readoutCode e s).result = s.result := rfl
@[simp] theorem readoutCode_permissions (e : CodeEntry) : (readoutCode e s).permissions = s.permissions := rfl
@[simp] theorem readoutCode_origSize (e : CodeEntry) : (readoutCode e s).origSize = s.origSize := rfl
@[simp] theorem readoutCode_nodeSym (e : CodeEntry) : (readoutCode e s).nodeSym = s.nodeSym := rfl
@[simp] theorem readoutCode_nodeLeft (e : CodeEntry) : (readoutCode e s).nodeLeft = s.nodeLeft := rfl
@[simp] theorem readoutCode_nodeRight (e : CodeEntry) : (readoutCode e s).nodeRight = s.nodeRight := rfl
@[simp] theorem readoutCode_nodeFreq (e : CodeEntry) : (readoutCode e s).nodeFreq = s.nodeFreq := rfl
@[simp] theorem readoutCode_codeLen (e : CodeEntry) : (readoutCode e s).codeLen = e.len := rfl
@[simp] theorem readoutCode_codeBits (e : CodeEntry) : (readoutCode e s).codeBits = e.bits := rfl
@[simp] theorem readoutCode_inCount (e : CodeEntry) : (readoutCode e s).inCount = s.inCount := rfl
@[simp] theorem readoutCode_outCount (e : CodeEntry) : (readoutCode e s).outCount = s.outCount := rfl
@[simp] theorem readoutCode_inBytes (e : CodeEntry) : (readoutCode e s).inBytes = s.inBytes := rfl
@[simp] theorem readoutCode_inPos (e : CodeEntry) : (readoutCode e s).inPos = s.inPos := rfl
@[simp] theorem readoutCode_out (e : CodeEntry) : (readoutCode e s).out = s.out := rfl
@[simp] theorem readoutCode_host (e : CodeEntry) : (readoutCode e s).host = s.host := rfl
@[simp] theorem readoutCode_readLog (e : CodeEntry) : (readoutCode e s).readLog = s.readLog := rfl
@[simp] theorem readoutCode_errLog (e : CodeEntry) : (readoutCode e s).errLog = s.errLog := rfl

/-! ### refillReader -/

@[simp] theorem refillReader_cfg : (refillReader s).cfg = s.cfg := rfl
@[simp] theorem refillReader_freq : (refillReader s).freq = s.freq := rfl
@[simp] theorem refillReader_pool : (refillReader s).pool = s.pool := rfl
@[simp] theorem refillReader_root : (refillReader s).root = s.root := rfl
@[simp] theorem refillReader_leafCount : (refillReader s).leafCount = s.leafCount := rfl
@[simp] theorem refillReader_code : (refillReader s).code = s.code := rfl
@[simp] theorem refillReader_codesValid : (refillReader s).codesValid = s.codesValid := rfl
@[simp] theorem refillReader_pq : (refillReader s).pq = s.pq := rfl
@[simp] theorem refillReader_stack : (refillReader s).stack = s.stack := rfl
@[simp] theorem refillReader_dump : (refillReader s).dump = s.dump := rfl
@[simp] theorem refillReader_treeSize : (refillReader s).treeSize = s.treeSize := rfl
@[simp] theorem refillReader_bwBuf : (refillReader s).bwBuf = s.bwBuf := rfl
@[simp] theorem refillReader_bwCount : (refillReader s).bwCount = s.bwCount := rfl
@[simp] theorem refillReader_brBuf : (refillReader s).brBuf = storeWriteList 0#8 s.brBuf 0 (inReadBytes block s) := rfl
@[simp] theorem refillReader_brValid : (refillReader s).brValid = (inReadBytes block s).length := rfl
@[simp] theorem refillReader_brIndex : (refillReader s).brIndex = 0 := rfl
@[simp] theorem refillReader_eos : (refillReader s).eos = s.eos := rfl
@[simp] theorem refillReader_err : (refillReader s).err = s.err := rfl
@[simp] theorem refillReader_error : (refillReader s).error = s.error := rfl
@[simp] theorem refillReader_result : (refillReader s).result = s.result := rfl
@[simp] theorem refillReader_permissions : (refillReader s).permissions = s.permissions := rfl
@[simp] theorem refillReader_origSize : (refillReader s).origSize = s.origSize := rfl
@[simp] theorem refillReader_nodeSym : (refillReader s).nodeSym = s.nodeSym := rfl
@[simp] theorem refillReader_nodeLeft : (refillReader s).nodeLeft = s.nodeLeft := rfl
@[simp] theorem refillReader_nodeRight : (refillReader s).nodeRight = s.nodeRight := rfl
@[simp] theorem refillReader_nodeFreq : (refillReader s).nodeFreq = s.nodeFreq := rfl
@[simp] theorem refillReader_codeLen : (refillReader s).codeLen = s.codeLen := rfl
@[simp] theorem refillReader_codeBits : (refillReader s).codeBits = s.codeBits := rfl
@[simp] theorem refillReader_inCount : (refillReader s).inCount = s.inCount + BitVec.ofNat 64 (inReadBytes block s).length := rfl
@[simp] theorem refillReader_outCount : (refillReader s).outCount = s.outCount := rfl
@[simp] theorem refillReader_inBytes : (refillReader s).inBytes = s.inBytes := rfl
@[simp] theorem refillReader_inPos : (refillReader s).inPos = s.inPos + (inReadBytes block s).length := rfl
@[simp] theorem refillReader_out : (refillReader s).out = s.out := rfl
@[simp] theorem refillReader_host : (refillReader s).host = s.host := rfl
@[simp] theorem refillReader_readLog : (refillReader s).readLog = s.readLog := rfl
@[simp] theorem refillReader_errLog : (refillReader s).errLog = s.errLog := rfl

/-! ### storeHeader -/

@[simp] theorem storeHeader_cfg (h : List Byte) : (storeHeader h s).cfg = s.cfg := rfl
@[simp] theorem storeHeader_freq (h : List Byte) : (storeHeader h s).freq = s.freq := rfl
@[simp] theorem storeHeader_pool (h : List Byte) : (storeHeader h s).pool = s.pool := rfl
@[simp] theorem storeHeader_root (h : List Byte) : (storeHeader h s).root = s.root := rfl
@[simp] theorem storeHeader_leafCount (h : List Byte) : (storeHeader h s).leafCount = s.leafCount := rfl
@[simp] theorem storeHeader_code (h : List Byte) : (storeHeader h s).code = s.code := rfl
@[simp] theorem storeHeader_codesValid (h : List Byte) : (storeHeader h s).codesValid = s.codesValid := rfl
@[simp] theorem storeHeader_pq (h : List Byte) : (storeHeader h s).pq = s.pq := rfl
@[simp] theorem storeHeader_stack (h : List Byte) : (storeHeader h s).stack = s.stack := rfl
@[simp] theorem storeHeader_dump (h : List Byte) : (storeHeader h s).dump = s.dump := rfl
@[simp] theorem storeHeader_treeSize (h : List Byte) : (storeHeader h s).treeSize = BitVec.ofNat 16 (rdle ((h.drop 6).take 2)) := rfl
@[simp] theorem storeHeader_bwBuf (h : List Byte) : (storeHeader h s).bwBuf = s.bwBuf := rfl
@[simp] theorem storeHeader_bwCount (h : List Byte) : (storeHeader h s).bwCount = s.bwCount := rfl
@[simp] theorem storeHeader_brBuf (h : List Byte) : (storeHeader h s).brBuf = s.brBuf := rfl
@[simp] theorem storeHeader_brValid (h : List Byte) : (storeHeader h s).brValid = s.brValid := rfl
@[simp] theorem storeHeader_brIndex (h : List Byte) : (storeHeader h s).brIndex = s.brIndex := rfl
@[simp] theorem storeHeader_eos (h : List Byte) : (storeHeader h s).eos = s.eos := rfl
@[simp] theorem storeHeader_err (h : List Byte) : (storeHeader h s).err = s.err := rfl
@[simp] theorem storeHeader_error (h : List Byte) : (storeHeader h s).error = s.error := rfl
@[simp] theorem storeHeader_result (h : List Byte) : (storeHeader h s).result = s.result := rfl
@[simp] theorem storeHeader_permissions (h : List Byte) : (storeHeader h s).permissions = BitVec.ofNat 16 (rdle ((h.drop 4).take 2)) := rfl
@[simp] theorem storeHeader_origSize (h : List Byte) : (storeHeader h s).origSize = BitVec.ofNat 64 (rdle ((h.drop 8).take 8)) := rfl
@[simp] theorem storeHeader_nodeSym (h : List Byte) : (storeHeader h s).nodeSym = s.nodeSym := rfl
@[simp] theorem storeHeader_nodeLeft (h : List Byte) : (storeHeader h s).nodeLeft = s.nodeLeft := rfl
@[simp] theorem storeHeader_nodeRight (h : List Byte) : (storeHeader h s).nodeRight = s.nodeRight := rfl
@[simp] theorem storeHeader_nodeFreq (h : List Byte) : (storeHeader h s).nodeFreq = s.nodeFreq := rfl
@[simp] theorem storeHeader_codeLen (h : List Byte) : (storeHeader h s).codeLen = s.codeLen := rfl
@[simp] theorem storeHeader_codeBits (h : List Byte) : (storeHeader h s).codeBits = s.codeBits := rfl
@[simp] theorem storeHeader_inCount (h : List Byte) : (storeHeader h s).inCount = s.inCount := rfl
@[simp] theorem storeHeader_outCount (h : List Byte) : (storeHeader h s).outCount = s.outCount := rfl
@[simp] theorem storeHeader_inBytes (h : List Byte) : (storeHeader h s).inBytes = s.inBytes := rfl
@[simp] theorem storeHeader_inPos (h : List Byte) : (storeHeader h s).inPos = s.inPos := rfl
@[simp] theorem storeHeader_out (h : List Byte) : (storeHeader h s).out = s.out := rfl
@[simp] theorem storeHeader_host (h : List Byte) : (storeHeader h s).host = s.host := rfl
@[simp] theorem storeHeader_readLog (h : List Byte) : (storeHeader h s).readLog = s.readLog := rfl
@[simp] theorem storeHeader_errLog (h : List Byte) : (storeHeader h s).errLog = s.errLog := rfl

/-! ### readDump -/

@[simp] theorem readDump_cfg : (readDump s).cfg = s.cfg := rfl
@[simp] theorem readDump_freq : (readDump s).freq = s.freq := rfl
@[simp] theorem readDump_pool : (readDump s).pool = s.pool := rfl
@[simp] theorem readDump_root : (readDump s).root = s.root := rfl
@[simp] theorem readDump_leafCount : (readDump s).leafCount = s.leafCount := rfl
@[simp] theorem readDump_code : (readDump s).code = s.code := rfl
@[simp] theorem readDump_codesValid : (readDump s).codesValid = s.codesValid := rfl
@[simp] theorem readDump_pq : (readDump s).pq = s.pq := rfl
@[simp] theorem readDump_stack : (readDump s).stack = s.stack := rfl
@[simp] theorem readDump_dump : (readDump s).dump = storeWriteList 0#8 s.dump 0 (inReadBytes s.treeSize.toNat s) := rfl
@[simp] theorem readDump_treeSize : (readDump s).treeSize = s.treeSize := rfl
@[simp] theorem readDump_bwBuf : (readDump s).bwBuf = s.bwBuf := rfl
@[simp] theorem readDump_bwCount : (readDump s).bwCount = s.bwCount := rfl
@[simp] theorem readDump_brBuf : (readDump s).brBuf = s.brBuf := rfl
@[simp] theorem readDump_brValid : (readDump s).brValid = s.brValid := rfl
@[simp] theorem readDump_brIndex : (readDump s).brIndex = s.brIndex := rfl
@[simp] theorem readDump_eos : (readDump s).eos = s.eos := rfl
@[simp] theorem readDump_err : (readDump s).err = s.err := rfl
@[simp] theorem readDump_error : (readDump s).error = s.error := rfl
@[simp] theorem readDump_result : (readDump s).result = s.result := rfl
@[simp] theorem readDump_permissions : (readDump s).permissions = s.permissions := rfl
@[simp] theorem readDump_origSize : (readDump s).origSize = s.origSize := rfl
@[simp] theorem readDump_nodeSym : (readDump s).nodeSym = s.nodeSym := rfl
@[simp] theorem readDump_nodeLeft : (readDump s).nodeLeft = s.nodeLeft := rfl
@[simp] theorem readDump_nodeRight : (readDump s).nodeRight = s.nodeRight := rfl
@[simp] theorem readDump_nodeFreq : (readDump s).nodeFreq = s.nodeFreq := rfl
@[simp] theorem readDump_codeLen : (readDump s).codeLen = s.codeLen := rfl
@[simp] theorem readDump_codeBits : (readDump s).codeBits = s.codeBits := rfl
@[simp] theorem readDump_inCount : (readDump s).inCount = s.inCount + BitVec.ofNat 64 (inReadBytes s.treeSize.toNat s).length := rfl
@[simp] theorem readDump_outCount : (readDump s).outCount = s.outCount := rfl
@[simp] theorem readDump_inBytes : (readDump s).inBytes = s.inBytes := rfl
@[simp] theorem readDump_inPos : (readDump s).inPos = s.inPos + (inReadBytes s.treeSize.toNat s).length := rfl
@[simp] theorem readDump_out : (readDump s).out = s.out := rfl
@[simp] theorem readDump_host : (readDump s).host = s.host := rfl
@[simp] theorem readDump_readLog : (readDump s).readLog = s.readLog := rfl
@[simp] theorem readDump_errLog : (readDump s).errLog = s.errLog := rfl

/-! ### setFreq -/

@[simp] theorem setFreq_cfg (i : Nat) (f : Freq) : (setFreq i f s).cfg = s.cfg := rfl
@[simp] theorem setFreq_freq (i : Nat) (f : Freq) : (setFreq i f s).freq = storeWrite 0#64 s.freq i f := rfl
@[simp] theorem setFreq_pool (i : Nat) (f : Freq) : (setFreq i f s).pool = s.pool := rfl
@[simp] theorem setFreq_root (i : Nat) (f : Freq) : (setFreq i f s).root = s.root := rfl
@[simp] theorem setFreq_leafCount (i : Nat) (f : Freq) : (setFreq i f s).leafCount = s.leafCount := rfl
@[simp] theorem setFreq_code (i : Nat) (f : Freq) : (setFreq i f s).code = s.code := rfl
@[simp] theorem setFreq_codesValid (i : Nat) (f : Freq) : (setFreq i f s).codesValid = s.codesValid := rfl
@[simp] theorem setFreq_pq (i : Nat) (f : Freq) : (setFreq i f s).pq = s.pq := rfl
@[simp] theorem setFreq_stack (i : Nat) (f : Freq) : (setFreq i f s).stack = s.stack := rfl
@[simp] theorem setFreq_dump (i : Nat) (f : Freq) : (setFreq i f s).dump = s.dump := rfl
@[simp] theorem setFreq_treeSize (i : Nat) (f : Freq) : (setFreq i f s).treeSize = s.treeSize := rfl
@[simp] theorem setFreq_bwBuf (i : Nat) (f : Freq) : (setFreq i f s).bwBuf = s.bwBuf := rfl
@[simp] theorem setFreq_bwCount (i : Nat) (f : Freq) : (setFreq i f s).bwCount = s.bwCount := rfl
@[simp] theorem setFreq_brBuf (i : Nat) (f : Freq) : (setFreq i f s).brBuf = s.brBuf := rfl
@[simp] theorem setFreq_brValid (i : Nat) (f : Freq) : (setFreq i f s).brValid = s.brValid := rfl
@[simp] theorem setFreq_brIndex (i : Nat) (f : Freq) : (setFreq i f s).brIndex = s.brIndex := rfl
@[simp] theorem setFreq_eos (i : Nat) (f : Freq) : (setFreq i f s).eos = s.eos := rfl
@[simp] theorem setFreq_err (i : Nat) (f : Freq) : (setFreq i f s).err = s.err := rfl
@[simp] theorem setFreq_error (i : Nat) (f : Freq) : (setFreq i f s).error = s.error := rfl
@[simp] theorem setFreq_result (i : Nat) (f : Freq) : (setFreq i f s).result = s.result := rfl
@[simp] theorem setFreq_permissions (i : Nat) (f : Freq) : (setFreq i f s).permissions = s.permissions := rfl
@[simp] theorem setFreq_origSize (i : Nat) (f : Freq) : (setFreq i f s).origSize = s.origSize := rfl
@[simp] theorem setFreq_nodeSym (i : Nat) (f : Freq) : (setFreq i f s).nodeSym = s.nodeSym := rfl
@[simp] theorem setFreq_nodeLeft (i : Nat) (f : Freq) : (setFreq i f s).nodeLeft = s.nodeLeft := rfl
@[simp] theorem setFreq_nodeRight (i : Nat) (f : Freq) : (setFreq i f s).nodeRight = s.nodeRight := rfl
@[simp] theorem setFreq_nodeFreq (i : Nat) (f : Freq) : (setFreq i f s).nodeFreq = s.nodeFreq := rfl
@[simp] theorem setFreq_codeLen (i : Nat) (f : Freq) : (setFreq i f s).codeLen = s.codeLen := rfl
@[simp] theorem setFreq_codeBits (i : Nat) (f : Freq) : (setFreq i f s).codeBits = s.codeBits := rfl
@[simp] theorem setFreq_inCount (i : Nat) (f : Freq) : (setFreq i f s).inCount = s.inCount := rfl
@[simp] theorem setFreq_outCount (i : Nat) (f : Freq) : (setFreq i f s).outCount = s.outCount := rfl
@[simp] theorem setFreq_inBytes (i : Nat) (f : Freq) : (setFreq i f s).inBytes = s.inBytes := rfl
@[simp] theorem setFreq_inPos (i : Nat) (f : Freq) : (setFreq i f s).inPos = s.inPos := rfl
@[simp] theorem setFreq_out (i : Nat) (f : Freq) : (setFreq i f s).out = s.out := rfl
@[simp] theorem setFreq_host (i : Nat) (f : Freq) : (setFreq i f s).host = s.host := rfl
@[simp] theorem setFreq_readLog (i : Nat) (f : Freq) : (setFreq i f s).readLog = s.readLog := rfl
@[simp] theorem setFreq_errLog (i : Nat) (f : Freq) : (setFreq i f s).errLog = s.errLog := rfl

/-! ### applyReset -/

@[simp] theorem applyReset_cfg : (applyReset s).cfg = s.cfg := rfl
@[simp] theorem applyReset_freq : (applyReset s).freq = [] := rfl
@[simp] theorem applyReset_pool : (applyReset s).pool = [] := rfl
@[simp] theorem applyReset_root : (applyReset s).root = nil := rfl
@[simp] theorem applyReset_leafCount : (applyReset s).leafCount = 0#9 := rfl
@[simp] theorem applyReset_code : (applyReset s).code = [] := rfl
@[simp] theorem applyReset_codesValid : (applyReset s).codesValid = false := rfl
@[simp] theorem applyReset_pq : (applyReset s).pq = [] := rfl
@[simp] theorem applyReset_stack : (applyReset s).stack = [] := rfl
@[simp] theorem applyReset_dump : (applyReset s).dump = [] := rfl
@[simp] theorem applyReset_treeSize : (applyReset s).treeSize = 0#16 := rfl
@[simp] theorem applyReset_bwBuf : (applyReset s).bwBuf = [] := rfl
@[simp] theorem applyReset_bwCount : (applyReset s).bwCount = 0 := rfl
@[simp] theorem applyReset_brBuf : (applyReset s).brBuf = [] := rfl
@[simp] theorem applyReset_brValid : (applyReset s).brValid = 0 := rfl
@[simp] theorem applyReset_brIndex : (applyReset s).brIndex = 0 := rfl
@[simp] theorem applyReset_eos : (applyReset s).eos = false := rfl
@[simp] theorem applyReset_err : (applyReset s).err = false := rfl
@[simp] theorem applyReset_error : (applyReset s).error = 0#32 := rfl
@[simp] theorem applyReset_result : (applyReset s).result = 0#32 := rfl
@[simp] theorem applyReset_permissions : (applyReset s).permissions = 0#16 := rfl
@[simp] theorem applyReset_origSize : (applyReset s).origSize = 0#64 := rfl
@[simp] theorem applyReset_nodeSym : (applyReset s).nodeSym = 0#32 := rfl
@[simp] theorem applyReset_nodeLeft : (applyReset s).nodeLeft = 0#32 := rfl
@[simp] theorem applyReset_nodeRight : (applyReset s).nodeRight = 0#32 := rfl
@[simp] theorem applyReset_nodeFreq : (applyReset s).nodeFreq = 0#64 := rfl
@[simp] theorem applyReset_codeLen : (applyReset s).codeLen = 0#9 := rfl
@[simp] theorem applyReset_codeBits : (applyReset s).codeBits = 0#256 := rfl
@[simp] theorem applyReset_inCount : (applyReset s).inCount = 0#64 := rfl
@[simp] theorem applyReset_outCount : (applyReset s).outCount = 0#64 := rfl
@[simp] theorem applyReset_inBytes : (applyReset s).inBytes = s.inBytes := rfl
@[simp] theorem applyReset_inPos : (applyReset s).inPos = s.inPos := rfl
@[simp] theorem applyReset_out : (applyReset s).out = s.out := rfl
@[simp] theorem applyReset_host : (applyReset s).host = s.host := rfl
@[simp] theorem applyReset_readLog : (applyReset s).readLog = s.readLog := rfl
@[simp] theorem applyReset_errLog : (applyReset s).errLog = s.errLog := rfl

end Sys2Proof.Machine
end

