-- ==== Sys2Proof/Laws/Store.lean ====
section
/-! SUPPORT. The laws of the memories: a read after a write, the canonical form is kept by every memory operation, and
what the list operations read and write. -/

namespace Sys2Proof.Machine

open Sys2Proof

variable {α : Type}

@[simp] theorem storeRead_nil (d : α) (a : Nat) : storeRead d [] a = d := rfl

theorem storeRead_erase (d : α) (m : Store α) (a b : Nat) :
    storeRead d (storeErase m a) b = if b = a then d else storeRead d m b := by
  induction m with
  | nil => simp [storeErase]
  | cons p m ih =>
    obtain ⟨c, u⟩ := p
    simp only [storeErase] at ih ⊢
    by_cases hc : c = a
    · subst hc
      simp only [ne_eq, List.filter_cons, not_true_eq_false, decide_false, Bool.false_eq_true, ↓reduceIte, ih, storeRead]
      by_cases hb : b = c <;> simp [hb]
    · simp only [ne_eq, List.filter_cons, hc, not_false_eq_true, decide_true, ↓reduceIte, storeRead, ih]
      by_cases hb : b = c
      · subst hb; simp [hc]
      · simp [hb]

theorem storeRead_insert (d : α) (m : Store α) (a b : Nat) (v : α) (h : ∀ p ∈ m, p.1 ≠ a) :
    storeRead d (storeInsert m a v) b = if b = a then v else storeRead d m b := by
  induction m with
  | nil => simp [storeInsert, storeRead]
  | cons p m ih =>
    obtain ⟨c, u⟩ := p
    have hc : c ≠ a := h (c, u) (by simp)
    have ih := ih (fun p hp => h p (by simp [hp]))
    simp only [storeInsert]
    split
    · simp [storeRead]
    · simp only [storeRead, ih]
      by_cases hb : b = c
      · subst hb; simp [hc]
      · simp [hb]

theorem storeErase_ne (m : Store α) (a : Nat) : ∀ p ∈ storeErase m a, p.1 ≠ a := by
  intro p hp
  simpa using (List.mem_filter.mp hp).2

/-- What a memory reads as after a write, at every index. -/
theorem storeRead_write [DecidableEq α] (d : α) (m : Store α) (a b : Nat) (v : α) :
    storeRead d (storeWrite d m a v) b = if b = a then v else storeRead d m b := by
  unfold storeWrite
  split
  · next h => rw [storeRead_erase, h]
  · rw [storeRead_insert _ _ _ _ _ (storeErase_ne m a), storeRead_erase]
    by_cases hb : b = a <;> simp [hb]

@[simp] theorem storeRead_write_same [DecidableEq α] (d : α) (m : Store α) (a : Nat) (v : α) :
    storeRead d (storeWrite d m a v) a = v := by simp [storeRead_write]

theorem storeRead_write_ne [DecidableEq α] (d : α) (m : Store α) {a b : Nat} (v : α) (h : b ≠ a) :
    storeRead d (storeWrite d m a v) b = storeRead d m b := by simp [storeRead_write, h]

/-! ### The canonical form -/

theorem storeWf_nil (d : α) (n : Nat) : storeWf d n [] := ⟨.nil, fun _ h => nomatch h⟩

theorem storeErase_wf (d : α) (n : Nat) (m : Store α) (a : Nat) (h : storeWf d n m) :
    storeWf d n (storeErase m a) :=
  ⟨h.1.sublist List.filter_sublist, fun p hp => h.2 p (List.mem_filter.mp hp).1⟩

theorem mem_storeInsert (m : Store α) (a : Nat) (v : α) (p : Nat × α) :
    p ∈ storeInsert m a v → p = (a, v) ∨ p ∈ m := by
  induction m with
  | nil => simp [storeInsert]
  | cons q m ih =>
    obtain ⟨b, u⟩ := q
    simp only [storeInsert]
    split
    · simp
    · intro h
      rcases List.mem_cons.mp h with h | h
      · simp [h]
      · rcases ih h with h | h <;> simp [h]

theorem storeInsert_wf (d : α) (n : Nat) (m : Store α) (a : Nat) (v : α) (h : storeWf d n m)
    (hne : ∀ p ∈ m, p.1 ≠ a) (hv : v ≠ d) (ha : a < n) : storeWf d n (storeInsert m a v) := by
  refine ⟨?_, fun p hp => ?_⟩
  · have hp := h.1
    clear h
    induction m with
    | nil => simp [storeInsert]
    | cons q m ih =>
      obtain ⟨b, u⟩ := q
      have hb : b ≠ a := hne (b, u) (by simp)
      have hne' : ∀ p ∈ m, p.1 ≠ a := fun p hp => hne p (by simp [hp])
      rw [List.pairwise_cons] at hp
      simp only [storeInsert]
      split
      · next hlt =>
        rw [List.pairwise_cons]
        refine ⟨fun p hp' => ?_, List.pairwise_cons.mpr hp⟩
        rcases List.mem_cons.mp hp' with rfl | hm
        · exact hlt
        · exact lt_trans hlt (hp.1 p hm)
      · next hlt =>
        rw [List.pairwise_cons]
        refine ⟨fun p hp' => ?_, ih hne' hp.2⟩
        rcases mem_storeInsert m a v p hp' with rfl | hm
        · simp; omega
        · exact hp.1 p hm
  · rcases mem_storeInsert m a v p hp with rfl | hm
    · exact ⟨hv, ha⟩
    · exact h.2 p hm

/-- A write within the memory's size keeps the canonical form. -/
theorem storeWrite_wf [DecidableEq α] (d : α) (n : Nat) (m : Store α) (a : Nat) (v : α) (h : storeWf d n m)
    (ha : a < n) : storeWf d n (storeWrite d m a v) := by
  unfold storeWrite
  split
  · exact storeErase_wf d n m a h
  · next hv => exact storeInsert_wf d n _ a v (storeErase_wf d n m a h) (storeErase_ne m a) hv ha

theorem storeMap_wf [DecidableEq α] (d : α) (f : α → α) (n : Nat) (m : Store α) (h : storeWf d n m) :
    storeWf d n (storeMap d f m) := by
  unfold storeMap
  refine ⟨List.Pairwise.sublist List.filter_sublist ?_, fun p hp => ?_⟩
  · rw [List.pairwise_map]
    exact h.1
  · have h1 := List.mem_filter.mp hp
    obtain ⟨q, hq, rfl⟩ := List.mem_map.mp h1.1
    exact ⟨by simpa using h1.2, (h.2 q hq).2⟩

theorem storeWriteList_wf [DecidableEq α] (d : α) (n : Nat) (vs : List α) :
    ∀ (m : Store α) (a : Nat), storeWf d n m → a + vs.length ≤ n → storeWf d n (storeWriteList d m a vs) := by
  induction vs with
  | nil => intro m a h _; exact h
  | cons v vs ih =>
    intro m a h hle
    simp only [List.length_cons] at hle
    exact ih _ _ (storeWrite_wf d n m a v h (by omega)) (by omega)

/-! ### Lists of values -/

/-- What a memory reads as after a list of values was written from `a` up. -/
theorem storeRead_writeList [DecidableEq α] (d : α) (vs : List α) :
    ∀ (m : Store α) (a b : Nat), storeRead d (storeWriteList d m a vs) b =
      if a ≤ b ∧ b < a + vs.length then vs.getD (b - a) d else storeRead d m b := by
  induction vs with
  | nil => intro m a b; simp [storeWriteList]
  | cons v vs ih =>
    intro m a b
    rw [storeWriteList, ih, storeRead_write]
    by_cases hb : b = a
    · subst hb
      simp
    · by_cases h : a ≤ b ∧ b < a + (v :: vs).length
      · have h2 : a + 1 ≤ b ∧ b < a + 1 + vs.length := by simp at h; omega
        rw [if_pos h2, if_pos h]
        obtain ⟨k, rfl⟩ : ∃ k, b = a + 1 + k := ⟨b - (a + 1), by omega⟩
        have : a + 1 + k - a = k + 1 := by omega
        simp [this]
      · have h2 : ¬(a + 1 ≤ b ∧ b < a + 1 + vs.length) := by simp at h; omega
        rw [if_neg h2, if_neg h, if_neg hb]

theorem storeWriteList_append [DecidableEq α] (d : α) (us vs : List α) :
    ∀ (m : Store α) (a : Nat),
      storeWriteList d m a (us ++ vs) = storeWriteList d (storeWriteList d m a us) (a + us.length) vs := by
  induction us with
  | nil => intro m a; simp [storeWriteList]
  | cons u us ih =>
    intro m a
    simp only [List.cons_append, storeWriteList, ih, List.length_cons]
    congr 1
    omega

@[simp] theorem storeTake_length (d : α) (m : Store α) (n : Nat) : (storeTake d m n).length = n := by
  simp [storeTake]

theorem storeTake_writeList [DecidableEq α] (d : α) (m : Store α) (vs : List α) :
    storeTake d (storeWriteList d m 0 vs) vs.length = vs := by
  apply List.ext_getElem
  · simp
  · intro i h1 h2
    simp only [storeTake, List.getElem_map, List.getElem_range, storeRead_writeList]
    simp [h2]

/-- A mapped memory reads as `f` of the entry or, for an `f` of the given property, has that property everywhere. -/
theorem storeRead_map_of [DecidableEq α] (d : α) (f : α → α) (P : α → Prop) (hd : P d) (hf : ∀ x, P (f x))
    (m : Store α) (a : Nat) : P (storeRead d (storeMap d f m) a) := by
  unfold storeMap
  induction m with
  | nil => exact hd
  | cons p m ih =>
    simp only [List.map_cons, List.filter_cons]
    split
    · simp only [storeRead]
      split
      · exact hf _
      · exact ih
    · exact ih

/-! ### Bits in bytes -/

theorem byteSetBit_getLsbD (x : Byte) (k : Nat) (b : Bool) (j : Nat) (hk : k < 8) :
    (byteSetBit x k b).getLsbD j = if j = k then b else x.getLsbD j := by
  unfold byteSetBit
  by_cases hj : j = k
  · subst hj
    cases b <;> simp [hk]
  · cases b
    · simp only [Bool.false_eq_true, ↓reduceIte, hj, BitVec.getLsbD_and, BitVec.getLsbD_not,
        BitVec.getLsbD_shiftLeft]
      by_cases h8 : j < 8
      · have : (1#8).getLsbD (j - k) = decide (j - k = 0) := by simp
        by_cases hlt : j < k
        · simp [h8, hlt]
        · have : j - k ≠ 0 := by omega
          simp [h8, this]
      · simp [h8, BitVec.getLsbD_of_ge x j (by omega)]
    · simp only [↓reduceIte, hj, BitVec.getLsbD_or, BitVec.getLsbD_shiftLeft]
      by_cases hlt : j < k
      · simp [hlt]
      · have : j - k ≠ 0 := by omega
        simp [this]

/-- R70: setting bit `i` of a buffer changes that bit and no other. -/
theorem bufBit_setBit (m : Memory) (i : Nat) (b : Bool) (k : Nat) :
    bufBit (bufSetBit m i b) k = if k = i then b else bufBit m k := by
  unfold bufBit bufSetBit
  rw [storeRead_write]
  by_cases h : k / 8 = i / 8
  · rw [if_pos h, byteSetBit_getLsbD _ _ _ _ (Nat.mod_lt _ (by decide)), h]
    by_cases hk : k = i
    · simp [hk]
    · have : k % 8 ≠ i % 8 := by omega
      simp [hk, this]
  · rw [if_neg h]
    have : k ≠ i := fun hk => h (by rw [hk])
    simp [this]

theorem bufSetBit_wf (m : Memory) (i n : Nat) (b : Bool) (h : Memory.wf n m) (hi : i / 8 < n) :
    Memory.wf n (bufSetBit m i b) :=
  storeWrite_wf _ n m _ _ h hi

@[simp] theorem bufBit_nil (k : Nat) : bufBit [] k = false := by simp [bufBit]

end Sys2Proof.Machine
end

