-- ==== Sys2Proof/Laws/Ops.lean ====
section
/-! SUPPORT. What each shared operation can do, once: how bodies end, the tables, the pool, the priority queue, the stack and
the path buffer. -/

namespace Sys2Proof.Machine

open Sys2Proof

/-! ### How a body ends -/

@[simp] theorem bind_ok {α β : Type} (a : α) (s : State) (f : α → State → Res β) : (Res.ok a s).bind f = f a s := rfl

@[simp] theorem bind_raised {α β : Type} (c : Cause) (s : State) (f : α → State → Res β) :
    (Res.raised c s : Res α).bind f = .raised c s := rfl

@[simp] theorem bind_stuck {α β : Type} (e : Fault) (f : α → State → Res β) :
    (Res.stuck e : Res α).bind f = .stuck e := rfl

theorem bind_eq_ok {α β : Type} {r : Res α} {f : α → State → Res β} {b : β} {t : State} :
    r.bind f = .ok b t ↔ ∃ a s, r = .ok a s ∧ f a s = .ok b t := by
  cases r <;> simp

theorem bind_eq_raised {α β : Type} {r : Res α} {f : α → State → Res β} {c : Cause} {t : State} :
    r.bind f = .raised c t ↔ r = .raised c t ∨ ∃ a s, r = .ok a s ∧ f a s = .raised c t := by
  cases r <;> simp

theorem bind_eq_stuck {α β : Type} {r : Res α} {f : α → State → Res β} {e : Fault} :
    r.bind f = .stuck e ↔ r = .stuck e ∨ ∃ a s, r = .ok a s ∧ f a s = .stuck e := by
  cases r <;> simp

theorem bind_assoc {α β γ : Type} (r : Res α) (f : α → State → Res β) (g : β → State → Res γ) :
    (r.bind f).bind g = r.bind (fun a s => (f a s).bind g) := by
  cases r <;> rfl

@[simp] theorem endCommand_ok (op : BitVec 8) (a : Unit) (s : State) : endCommand op (.ok a s) = .next s := rfl

@[simp] theorem endCommand_raised (op : BitVec 8) (c : Cause) (s : State) :
    endCommand op (.raised c s) = .next (raiseError op c s) := rfl

@[simp] theorem endCommand_stuck (op : BitVec 8) (e : Fault) : endCommand op (.stuck e) = .fault e := rfl

/-- A command ends in a next state exactly when its body ends or raises. -/
theorem endCommand_eq_next {op : BitVec 8} {r : Res Unit} {t : State} :
    endCommand op r = .next t ↔ r = .ok () t ∨ ∃ c s, r = .raised c s ∧ t = raiseError op c s := by
  cases r with
  | ok a s => simp
  | raised c s => simp [eq_comm]
  | stuck e => simp

theorem endCommand_eq_fault {op : BitVec 8} {r : Res Unit} {e : Fault} :
    endCommand op r = .fault e ↔ r = .stuck e := by
  cases r <;> simp

theorem endCommand_ne_refused {op : BitVec 8} {r : Res Unit} {e : Refusal} :
    endCommand op r ≠ .refused e := by
  cases r <;> simp

/-! ### Reset -/

theorem applyReset_eq (s : State) : applyReset s =
    { State.reset with cfg := s.cfg, inBytes := s.inBytes, inPos := s.inPos, out := s.out, host := s.host,
                       readLog := s.readLog, errLog := s.errLog } := rfl

/-! ### The streams -/

theorem inReadBytes_length (n : Nat) (s : State) : (inReadBytes n s).length = min n (inRest s).length := by
  simp [inReadBytes]

theorem inRest_inReadState (n : Nat) (s : State) : inRest (inReadState n s) = (inRest s).drop n := by
  simp only [inRest, inReadState_inBytes, inReadState_inPos, List.drop_drop, inReadBytes_length]
  by_cases h : n ≤ (s.inBytes.drop s.inPos).length
  · rw [min_eq_left h]
  · rw [min_eq_right (by omega), List.drop_eq_nil_of_le, List.drop_eq_nil_of_le]
    · simp at h ⊢; omega
    · simp; omega

theorem inReadBytes_append (n : Nat) (s : State) : inReadBytes n s ++ inRest (inReadState n s) = inRest s := by
  rw [inRest_inReadState]; exact List.take_append_drop n _

theorem inReadState_pos_le (n : Nat) (s : State) (h : s.inPos ≤ s.inBytes.length) :
    (inReadState n s).inPos ≤ (inReadState n s).inBytes.length := by
  simp [inReadBytes_length, inRest]; omega

@[simp] theorem inRest_congr {s t : State} (h1 : s.inBytes = t.inBytes) (h2 : s.inPos = t.inPos) :
    inRest s = inRest t := by simp [inRest, h1, h2]

theorem outWrite_outWrite (xs ys : List Byte) (s : State) :
    outWrite ys (outWrite xs s) = outWrite (xs ++ ys) s := by
  simp [outWrite, BitVec.add_assoc, BitVec.ofNat_add]

@[simp] theorem outWrite_nil (s : State) : outWrite [] s = s := by simp [outWrite]

/-! ### The tables -/

theorem freqAt_setFreq (i : Nat) (f : Freq) (s : State) (j : Nat) :
    freqAt (setFreq i f s) j = if j = i then f else freqAt s j := by simp [freqAt, storeRead_write]

theorem codeAt_setCode (i : Nat) (e : CodeEntry) (s : State) (j : Nat) :
    codeAt (setCode i e s) j = if j = i then e else codeAt s j := by simp [codeAt, storeRead_write]

theorem codeOfList_len (p : List Bool) (h : p.length ≤ maxCodeBits) : (codeOfList p).len.toNat = p.length := by
  simp only [codeOfList, BitVec.toNat_ofNat]
  exact Nat.mod_eq_of_lt (lt_of_le_of_lt h (by decide))

/-- A code of at most 256 bits is stored and read back whole (R25, R132). -/
theorem codeList_codeOfList (p : List Bool) (h : p.length ≤ maxCodeBits) : codeList (codeOfList p) = p := by
  have hl := codeOfList_len p h
  apply List.ext_getElem
  · simp [codeList, hl]
  · intro i h1 h2
    simp only [codeList, List.getElem_map, List.getElem_range, codeOfList, BitVec.getLsbD_setWidth,
      BitVec.getLsbD_ofBoolListLE]
    have : i < 256 := lt_of_lt_of_le h2 h
    simp [this, h2]

theorem codeOfList_high (p : List Bool) (j : Nat) (h : p.length ≤ j) : (codeOfList p).bits.getLsbD j = false := by
  simp [codeOfList, h]

theorem dumpPut_eq_ok {k : Nat} {b : Byte} {s t : State} {u : Unit} :
    dumpPut k b s = .ok u t ↔ k < maxTreeSize ∧ t = { s with dump := storeWrite 0#8 s.dump k b } := by
  unfold dumpPut
  split <;> simp_all [eq_comm]

/-! ### The node pool -/

theorem nodeAt_releasePool (s : State) (i : Nat) : (nodeAt (releasePool s) i).alloc = false :=
  storeRead_map_of NodeEntry.blank (fun e => { e with alloc := false }) (fun e => e.alloc = false) rfl (fun _ => rfl)
    s.pool i

theorem poolPrefix_zero (s : State) (h : poolFree s) : poolPrefix s 0 := by
  intro i hi; simp [h i hi]

theorem poolFree_of_prefix {s : State} (h : poolPrefix s 0) : poolFree s := by
  intro i hi; simpa using h i hi

theorem poolFree_releasePool (s : State) : poolFree (releasePool s) := fun i _ => nodeAt_releasePool s i

theorem firstFree_of_prefix (s : State) (k : Nat) (hk : k < nodeCap) (h : poolPrefix s k) : firstFree s = some k := by
  unfold firstFree
  rw [List.find?_range_eq_some]
  refine ⟨?_, by simpa using hk, ?_⟩
  · have := h k hk
    simp only [lt_irrefl, iff_false, Bool.not_eq_true] at this
    simp [this]
  · intro j hj
    have := (h j (by omega)).mpr hj
    simp [this]

theorem firstFree_lt {s : State} {i : Nat} (h : firstFree s = some i) :
    i < nodeCap ∧ (nodeAt s i).alloc = false := by
  unfold firstFree at h
  rw [List.find?_range_eq_some] at h
  exact ⟨by simpa using h.2.1, by simpa using h.1⟩

/-- The pool after a node was written at `i`. -/
abbrev withNode (i : Nat) (e : NodeEntry) (s : State) : State :=
  { s with pool := storeWrite NodeEntry.blank s.pool i e }

theorem nodeAt_withNode (i : Nat) (e : NodeEntry) (s : State) (j : Nat) :
    nodeAt (withNode i e s) j = if j = i then e else nodeAt s j := by simp [nodeAt, storeRead_write]

theorem nodeAt_of_pool {s t : State} {k : Nat} {e : NodeEntry}
    (h : t.pool = storeWrite NodeEntry.blank s.pool k e) (j : Nat) : nodeAt t j = if j = k then e else nodeAt s j := by
  unfold nodeAt
  rw [h, storeRead_write]

theorem poolPrefix_withNode (s : State) (k : Nat) (e : NodeEntry) (he : e.alloc = true) (h : poolPrefix s k) :
    poolPrefix (withNode k e s) (k + 1) := by
  intro i hi
  rw [nodeAt_withNode]
  split
  · next heq => simp [he, heq]
  · next hne => rw [h i hi]; omega

/-- Alloc, when the first `k` entries are the allocated ones: node `k` is written. -/
theorem allocNode_prefix (sym : Byte) (freq : Freq) (l r : NodeIx) (s : State) (k : Nat) (hk : k < nodeCap)
    (h : poolPrefix s k) :
    allocNode sym freq l r s = .ok (BitVec.ofNat 9 k) (withNode k ⟨true, sym, freq, l, r⟩ s) := by
  unfold allocNode
  rw [firstFree_of_prefix s k hk h]

/-- Everything Alloc can do. -/
theorem allocNode_cases (sym : Byte) (freq : Freq) (l r : NodeIx) (s : State) :
    allocNode sym freq l r s = .raised .poolFull s ∨
      ∃ i, i < nodeCap ∧ (nodeAt s i).alloc = false ∧
        allocNode sym freq l r s = .ok (BitVec.ofNat 9 i) (withNode i ⟨true, sym, freq, l, r⟩ s) := by
  unfold allocNode
  cases h : firstFree s with
  | none => left; rfl
  | some i => right; exact ⟨i, (firstFree_lt h).1, (firstFree_lt h).2, rfl⟩

/-! ### The priority queue -/

/-- The queue with an entry put after every entry of equal or smaller key, one entry at a time. -/
def putBy {β : Type} (key : β → Nat) (x : β) : List β → List β
  | [] => [x]
  | y :: q => if key y ≤ key x then y :: putBy key x q else x :: y :: q

theorem putBy_map {β γ : Type} (kb : β → Nat) (kc : γ → Nat) (f : β → γ) (x : β) (q : List β)
    (hx : kc (f x) = kb x) (hf : ∀ b ∈ q, kc (f b) = kb b) :
    (putBy kb x q).map f = putBy kc (f x) (q.map f) := by
  induction q with
  | nil => rfl
  | cons y q ih =>
    have ih := ih (fun b hb => hf b (by simp [hb]))
    simp only [putBy, List.map_cons, hf y (by simp), hx]
    split <;> simp [ih]

theorem putBy_perm {β : Type} (key : β → Nat) (x : β) (q : List β) : (putBy key x q).Perm (x :: q) := by
  induction q with
  | nil => exact List.Perm.refl _
  | cons y q ih =>
    simp only [putBy]
    split
    · exact (List.Perm.cons y ih).trans (List.Perm.swap x y q)
    · exact List.Perm.refl _

theorem putBy_length {β : Type} (key : β → Nat) (x : β) (q : List β) : (putBy key x q).length = q.length + 1 := by
  simpa using (putBy_perm key x q).length_eq

theorem putBy_sorted {β : Type} (key : β → Nat) (x : β) (q : List β)
    (h : q.Pairwise (fun a b => key a ≤ key b)) : (putBy key x q).Pairwise (fun a b => key a ≤ key b) := by
  induction q with
  | nil => simp [putBy]
  | cons y q ih =>
    rw [List.pairwise_cons] at h
    simp only [putBy]
    split
    · next hle =>
      rw [List.pairwise_cons]
      refine ⟨fun z hz => ?_, ih h.2⟩
      rcases List.mem_cons.mp ((putBy_perm key x q).mem_iff.mp hz) with rfl | hz
      · exact hle
      · exact h.1 z hz
    · next hle =>
      rw [List.pairwise_cons]
      refine ⟨fun z hz => ?_, List.pairwise_cons.mpr h⟩
      rcases List.mem_cons.mp hz with rfl | hz
      · omega
      · exact le_trans (by omega) (h.1 z hz)

/-- On a sorted queue R171's place is after every entry of equal or smaller key. -/
theorem pqPut_eq_putBy (q : List PqEntry) (e : PqEntry) (h : q.Pairwise (fun a b => a.key ≤ b.key)) :
    pqPut q e = putBy (fun x => x.key.toNat) e q := by
  induction q with
  | nil => rfl
  | cons y q ih =>
    rw [List.pairwise_cons] at h
    have ih := ih h.2
    simp only [pqPut, pqPlace, putBy, BitVec.le_def] at ih ⊢
    by_cases hle : y.key.toNat ≤ e.key.toNat
    · rw [List.countP_cons_of_pos (by simpa using hle), if_pos hle, ← ih]
      simp
    · have h0 : q.countP (fun x => decide (x.key.toNat ≤ e.key.toNat)) = 0 := by
        rw [List.countP_eq_zero]
        intro z hz
        have := h.1 z hz
        simp only [BitVec.le_def] at this
        simp; omega
      rw [List.countP_cons_of_neg (by simpa using hle), if_neg hle, h0]
      simp

theorem pqPut_length (q : List PqEntry) (e : PqEntry) : (pqPut q e).length = q.length + 1 := by
  simp [pqPut]; omega

theorem pqPut_perm (q : List PqEntry) (e : PqEntry) : (pqPut q e).Perm (e :: q) := by
  unfold pqPut
  exact List.perm_middle.trans (by rw [List.take_append_drop])

theorem pqPut_sorted (q : List PqEntry) (e : PqEntry) (h : q.Pairwise (fun a b => a.key ≤ b.key)) :
    (pqPut q e).Pairwise (fun a b => a.key ≤ b.key) := by
  rw [pqPut_eq_putBy q e h]
  simp only [BitVec.le_def] at h ⊢
  exact putBy_sorted (fun x : PqEntry => x.key.toNat) e q h

/-- Everything PQInsert can do (R171). -/
theorem pqInsertNode_cases (n : NodeIx) (s : State) :
    (s.pq.length = pqCap ∧ pqInsertNode n s = .raised .pqFull s) ∨
      (s.pq.length ≠ pqCap ∧
        pqInsertNode n s = .ok () { s with pq := pqPut s.pq ⟨n, (nodeAt s n.toNat).freq⟩ }) := by
  unfold pqInsertNode
  split <;> simp_all

/-- Everything PQExtractMin can do (R173). -/
theorem pqExtractNode_cases (s : State) :
    (s.pq = [] ∧ pqExtractNode s = .raised .pqEmpty s) ∨
      ∃ e q, s.pq = e :: q ∧ pqExtractNode s = .ok e.node { s with pq := q } := by
  unfold pqExtractNode
  cases h : s.pq with
  | nil => left; simp
  | cons e q => right; exact ⟨e, q, rfl, rfl⟩

/-! ### The stack and the path buffer -/

/-- Everything Push can do (R150). -/
theorem pushNode_cases (i : NodeIx) (s : State) :
    (s.stack.length = stackCap ∧ pushNode i s = .raised .stackFull s) ∨
      (s.stack.length ≠ stackCap ∧ pushNode i s = .ok () { s with stack := i :: s.stack }) := by
  unfold pushNode
  split <;> simp_all

/-- Everything Pop can do (R151). -/
theorem popNode_cases (s : State) :
    (s.stack = [] ∧ popNode s = .raised .stackEmpty s) ∨
      ∃ i st, s.stack = i :: st ∧ popNode s = .ok i { s with stack := st } := by
  unfold popNode
  cases h : s.stack with
  | nil => left; simp
  | cons i st => right; exact ⟨i, st, rfl, rfl⟩

theorem codePush_ok (b : Bool) (path : List Bool) (s : State) (h : path.length < maxCodeBits) :
    codePush b path s = .ok (path ++ [b]) s := by
  unfold codePush
  rw [if_neg (by omega)]

@[simp] theorem codePop_append (b : Bool) (path : List Bool) (s : State) :
    codePop (path ++ [b]) s = .ok path s := by
  unfold codePop
  split
  · next h => simp at h
  · next b' bs h => rw [← h]; simp

end Sys2Proof.Machine
end

