-- ==== Sys2Proof/Laws/BitIo.lean ====
section
/-! SUPPORT. Bits and bytes, the bit writer and the bit reader: what WriteBit, Flush and ReadBit do, said by the pending bits of
the writer and the bits the reader has still to return. -/

namespace Sys2Proof.Machine

open Sys2Proof

/-! ### Packing -/

theorem ceilDiv_eight (n : Nat) : ceilDiv n 8 = (n + 7) / 8 := rfl

@[simp] theorem unpackBits_nil : unpackBits [] = [] := rfl

theorem unpackBits_cons (x : Byte) (xs : List Byte) :
    unpackBits (x :: xs) = (List.range 8).map (fun j => x.getLsbD j) ++ unpackBits xs := rfl

theorem unpackBits_append (xs ys : List Byte) : unpackBits (xs ++ ys) = unpackBits xs ++ unpackBits ys := by
  simp [unpackBits]

theorem unpackBits_length (xs : List Byte) : (unpackBits xs).length = 8 * xs.length := by
  induction xs with
  | nil => rfl
  | cons x xs ih => rw [unpackBits_cons, List.length_append, ih]; simp; omega

theorem packBits_length (bs : List Bool) : (packBits bs).length = ceilDiv bs.length 8 := by simp [packBits]

theorem packByte_getLsbD (bs : List Bool) (j : Nat) :
    (packByte bs).getLsbD j = (decide (j < 8) && bs.getD j false) := by
  simp only [packByte, BitVec.getLsbD_setWidth, BitVec.getLsbD_ofBoolListLE]
  by_cases h : j < 8
  · simp [h, List.getD_eq_getElem?_getD]
  · simp [h]

theorem packByte_unpack (x : Byte) (bs : List Bool) :
    packByte ((List.range 8).map (fun j => x.getLsbD j) ++ bs) = x := by
  apply BitVec.eq_of_getLsbD_eq
  intro j hj
  rw [packByte_getLsbD]
  simp [hj, List.getD_eq_getElem?_getD, List.getElem?_append]

/-- Packing gives back whole bytes that were unpacked. -/
theorem packBits_unpack_append (xs : List Byte) (bs : List Bool) :
    packBits (unpackBits xs ++ bs) = xs ++ packBits bs := by
  induction xs with
  | nil => rfl
  | cons x xs ih =>
    rw [unpackBits_cons, List.append_assoc, List.cons_append, ← ih]
    have hp := packByte_unpack x (unpackBits xs ++ bs)
    have h8 : ((List.range 8).map (fun j => x.getLsbD j)).length = 8 := by simp
    generalize (List.range 8).map (fun j => x.getLsbD j) = l at hp h8 ⊢
    generalize unpackBits xs ++ bs = r at hp ⊢
    have hl : ceilDiv (l ++ r).length 8 = ceilDiv r.length 8 + 1 := by
      rw [List.length_append, h8]; simp only [ceilDiv_eight]; omega
    unfold packBits
    rw [hl, List.range_succ_eq_map, List.map_cons, Nat.mul_zero, List.drop_zero, hp, List.map_map]
    congr 1
    apply List.map_congr_left
    intro i _
    have : 8 * Nat.succ i = l.length + 8 * i := by rw [h8]; omega
    simp only [Function.comp, this, List.drop_append]
    rw [List.drop_eq_nil_of_le (by omega)]
    simp

theorem packBits_unpackBits (xs : List Byte) : packBits (unpackBits xs) = xs := by
  simpa [packBits, ceilDiv] using packBits_unpack_append xs []

/-- The bits packed bytes hold: the packed bits, then zeros up to a whole byte (R108). -/
theorem unpackBits_packBits (bs : List Bool) :
    unpackBits (packBits bs) = bs ++ List.replicate (8 * ceilDiv bs.length 8 - bs.length) false := by
  apply List.ext_getElem
  · rw [unpackBits_length, packBits_length]
    simp [ceilDiv_eight]; omega
  · intro k h1 h2
    have hk : k < 8 * ceilDiv bs.length 8 := by rwa [unpackBits_length, packBits_length] at h1
    have key : ∀ (xs : List Byte) (k : Nat) (h : k < (unpackBits xs).length) (h' : k / 8 < xs.length),
        (unpackBits xs)[k] = (xs[k / 8]).getLsbD (k % 8) := by
      intro xs
      induction xs with
      | nil => intro k h; simp at h
      | cons x xs ih =>
        intro k h h'
        simp only [unpackBits_cons]
        by_cases hk8 : k < 8
        · rw [List.getElem_append_left (by simpa using hk8)]
          have : k / 8 = 0 := by omega
          have : k % 8 = k := by omega
          simp [*]
        · rw [List.getElem_append_right (by simp; omega)]
          simp only [List.length_map, List.length_range]
          rw [ih (k - 8) _ (by simp at h'; omega)]
          have e1 : k / 8 = (k - 8) / 8 + 1 := by omega
          have e2 : (k - 8) % 8 = k % 8 := by omega
          simp [e1, e2]
    rw [key _ _ _ (by rw [packBits_length]; omega)]
    simp only [packBits, List.getElem_map, List.getElem_range, packByte_getLsbD]
    have : k % 8 < 8 := Nat.mod_lt _ (by decide)
    have e : 8 * (k / 8) + k % 8 = k := by omega
    simp only [this, decide_true, Bool.true_and, List.getD_eq_getElem?_getD, List.getElem?_drop, e]
    by_cases hb : k < bs.length
    · simp [hb]
    · rw [List.getElem?_eq_none (by omega), List.getElem_append_right (by omega)]
      simp

theorem unpackBits_storeTake (m : Memory) (n : Nat) :
    unpackBits (storeTake 0#8 m n) = (List.range (8 * n)).map (fun k => bufBit m k) := by
  induction n with
  | zero => rfl
  | succ n ih =>
    have : storeTake 0#8 m (n + 1) = storeTake 0#8 m n ++ [storeRead 0#8 m n] := by
      simp [storeTake, List.range_succ]
    rw [this, unpackBits_append, ih, unpackBits_cons, unpackBits_nil, List.append_nil,
      show 8 * (n + 1) = 8 * n + 8 by omega, List.range_add, List.map_append, List.map_map]
    congr 1
    apply List.map_congr_left
    intro j hj
    have hj : j < 8 := by simpa using hj
    have e1 : (8 * n + j) / 8 = n := by omega
    have e2 : (8 * n + j) % 8 = j := by omega
    simp [bufBit, e1, e2]

/-- A buffer whose bits from `n` on are 0 is, in its first bytes, its first `n` bits packed (R191). -/
theorem storeTake_eq_packBits (m : Memory) (n : Nat) (h : ∀ k, n ≤ k → bufBit m k = false) :
    storeTake 0#8 m (ceilDiv n 8) = packBits ((List.range n).map (fun k => bufBit m k)) := by
  rw [← packBits_unpackBits (storeTake 0#8 m (ceilDiv n 8)), unpackBits_storeTake]
  have hle : n ≤ 8 * ceilDiv n 8 := by rw [ceilDiv_eight]; omega
  obtain ⟨d, hd⟩ : ∃ d, 8 * ceilDiv n 8 = n + d := ⟨8 * ceilDiv n 8 - n, by omega⟩
  have hz : (List.range (8 * ceilDiv n 8)).map (fun k => bufBit m k) =
      (List.range n).map (fun k => bufBit m k) ++ List.replicate d false := by
    rw [hd, List.range_add, List.map_append, List.map_map]
    congr 1
    rw [List.eq_replicate_iff]
    refine ⟨by simp, fun b hb => ?_⟩
    obtain ⟨k, _, rfl⟩ := List.mem_map.mp hb
    exact h _ (by simp)
  rw [hz]
  apply List.ext_getElem
  · simp only [packBits_length, List.length_append, List.length_map, List.length_range, List.length_replicate,
      ceilDiv_eight] at hd ⊢
    omega
  · intro i h1 h2
    apply BitVec.eq_of_getLsbD_eq
    intro j hj
    simp only [packBits, List.getElem_map, List.getElem_range, packByte_getLsbD, List.getD_eq_getElem?_getD,
      List.getElem?_drop, List.getElem?_append, List.length_map, List.length_range]
    by_cases hn : 8 * i + j < n
    · simp [hn]
    · have hge : (List.range n)[8 * i + j]? = none := List.getElem?_eq_none (by simp; omega)
      simp only [hn, List.getElem?_replicate, if_false]
      by_cases hd' : 8 * i + j - n < d <;> simp [hd', hge]

/-! ### The bit writer -/

@[simp] theorem writerBits_length (s : State) : (writerBits s).length = s.bwCount := by simp [writerBits]

/-- What the bit writer may change. -/
def writerFrame (s t : State) (ys : List Byte) : Prop :=
  t = { s with bwBuf := t.bwBuf, bwCount := t.bwCount, out := s.out ++ ys,
               outCount := s.outCount + BitVec.ofNat 64 ys.length }

theorem writerFrame_refl (s : State) : writerFrame s s [] := by simp [writerFrame]

theorem writerFrame_trans {s t u : State} {xs ys : List Byte} (h1 : writerFrame s t xs) (h2 : writerFrame t u ys) :
    writerFrame s u (xs ++ ys) := by
  unfold writerFrame at *
  rw [h2, h1]
  simp [BitVec.add_assoc, BitVec.ofNat_add]

theorem clearWriter_ok (s : State) : writerOk (clearWriter s) := by simp [writerOk]

@[simp] theorem clearWriter_bits (s : State) : writerBits (clearWriter s) = [] := by simp [writerBits]

/-- WriteBit (R190): the bit joins the pending bits; when they fill a block, the block goes to OUT. -/
theorem writeBit_spec (b : Bool) (s : State) (h : writerOk s) :
    ∃ t ys, writeBit b s = .ok ys.length t ∧ writerFrame s t ys ∧ writerOk t ∧
      unpackBits ys ++ writerBits t = writerBits s ++ [b] ∧ (ys = [] ∨ ys.length = block) := by
  obtain ⟨hc, hz⟩ := h
  have hblock : block = 4096 := rfl
  have hb : s.bwCount / 8 < block := by omega
  have hbits : ∀ n, s.bwCount + 1 = n →
      (List.range n).map (fun k => bufBit (bufSetBit s.bwBuf s.bwCount b) k) = writerBits s ++ [b] := by
    rintro n rfl
    rw [List.range_succ, List.map_append]
    congr 1
    · apply List.map_congr_left
      intro k hk
      have : k ≠ s.bwCount := by have := List.mem_range.mp hk; omega
      simp [bufBit_setBit, this]
    · simp [bufBit_setBit]
  unfold writeBit
  rw [if_pos hb]
  split
  · next hfull =>
    refine ⟨_, storeTake 0#8 (bufSetBit s.bwBuf s.bwCount b) block, by rw [storeTake_length], ?_, clearWriter_ok _,
      ?_, .inr (by simp)⟩
    · simp [writerFrame, clearWriter, outWrite]
    · rw [clearWriter_bits, List.append_nil, unpackBits_storeTake]
      exact hbits _ (by omega)
  · next hfull =>
    refine ⟨_, [], rfl, ?_, ⟨?_, fun k hk => ?_⟩, ?_, .inl rfl⟩
    · simp [writerFrame]
    · simp only; omega
    · simp only at hk ⊢
      rw [bufBit_setBit, if_neg (by omega)]
      exact hz k (by omega)
    · simpa [writerBits] using hbits _ rfl

/-- WriteBit over a bit list: the bits sent to OUT and then the pending ones are the old pending ones and the list. -/
theorem writeBits_spec (bs : List Bool) : ∀ (f : Nat) (s : State), writerOk s →
    ∃ t ys, writeBits bs f s = .ok (f + ys.length) t ∧ writerFrame s t ys ∧ writerOk t ∧
      unpackBits ys ++ writerBits t = writerBits s ++ bs ∧ ys.length % block = 0 := by
  induction bs with
  | nil => intro f s h; exact ⟨s, [], by simp [writeBits], writerFrame_refl s, h, by simp, rfl⟩
  | cons b bs ih =>
    intro f s h
    obtain ⟨t, ys, h1, h2, h3, h4, h5⟩ := writeBit_spec b s h
    obtain ⟨u, zs, g1, g2, g3, g4, g5⟩ := ih (f + ys.length) t h3
    refine ⟨u, ys ++ zs, ?_, writerFrame_trans h2 g2, g3, ?_, ?_⟩
    · simp [writeBits, h1, g1]; omega
    · rw [unpackBits_append, List.append_assoc, g4, ← List.append_assoc, h4]; simp
    · rcases h5 with rfl | h5
      · simpa using g5
      · rw [List.length_append, h5, Nat.add_mod, g5]; rfl

/-- Flush (R191): the pending bits go to OUT, packed. -/
theorem flushWriter_spec (s : State) (h : writerOk s) :
    flushWriter s = .ok (packBits (writerBits s)).length (clearWriter (outWrite (packBits (writerBits s)) s)) := by
  obtain ⟨hc, hz⟩ := h
  have hblock : block = 4096 := rfl
  have hle : ceilDiv s.bwCount 8 ≤ block := by rw [ceilDiv_eight]; omega
  have hp := storeTake_eq_packBits s.bwBuf s.bwCount hz
  have hl : (packBits (writerBits s)).length = ceilDiv s.bwCount 8 := by rw [packBits_length, writerBits_length]
  unfold flushWriter
  rw [if_pos hle, hl]
  split
  · rw [hp]; rfl
  · next h0 =>
    have : packBits (writerBits s) = [] := List.length_eq_zero_iff.mp (by omega)
    rw [this, outWrite_nil]
    congr 1
    omega

/-- R196: bits written and then flushed reach OUT packed. -/
theorem writeBits_flush (bs : List Bool) (s t : State) (ys : List Byte) (h : writerFrame s t ys)
    (hb : unpackBits ys ++ writerBits t = writerBits s ++ bs) :
    outWrite (packBits (writerBits t)) t =
      { s with bwBuf := t.bwBuf, bwCount := t.bwCount, out := s.out ++ packBits (writerBits s ++ bs),
               outCount := s.outCount + BitVec.ofNat 64 (packBits (writerBits s ++ bs)).length } := by
  have e : packBits (writerBits s ++ bs) = ys ++ packBits (writerBits t) := by
    rw [← hb, packBits_unpack_append]
  rw [e]
  unfold writerFrame at h
  generalize writerBits t = w at *
  rw [h]
  simp [outWrite, BitVec.add_assoc, BitVec.ofNat_add]

/-! ### The bit reader -/

theorem clearReader_ok (s : State) : readerOk (clearReader s) := by simp [readerOk]

theorem clearReader_bits (s : State) : readerBits (clearReader s) = unpackBits (inRest s) := by
  simp [readerBits, inRest]

/-- What the bit reader may change. -/
def readerFrame (s t : State) : Prop :=
  t = { s with brBuf := t.brBuf, brValid := t.brValid, brIndex := t.brIndex, eos := t.eos, inPos := t.inPos,
               inCount := t.inCount }

theorem readerFrame_refl (s : State) : readerFrame s s := rfl

theorem readerFrame_trans {s t u : State} (h1 : readerFrame s t) (h2 : readerFrame t u) : readerFrame s u := by
  unfold readerFrame at *
  rw [h2, h1]

theorem refillReader_ok (s : State) : readerOk (refillReader s) := by
  refine ⟨?_, by simp⟩
  rw [refillReader_brValid, inReadBytes_length]
  exact min_le_left _ _

theorem refillReader_bits (s : State) : readerBits (refillReader s) = unpackBits (inRest s) := by
  have h1 : inRest (refillReader s) = inRest (inReadState block s) := rfl
  rw [readerBits, h1, ← inReadBytes_append block s, unpackBits_append]
  congr 1
  simp only [refillReader_brIndex, List.drop_zero, refillReader_brValid, refillReader_brBuf]
  rw [Nat.mul_comm, ← unpackBits_storeTake, storeTake_writeList]

theorem readerFrame_refill (s : State) : readerFrame s (refillReader s) := rfl

theorem takeBit_spec (s : State) (h : readerOk s) (hi : s.brIndex < s.brValid * 8) :
    ∃ t b, takeBit s = .ok (some b) t ∧ readerFrame s t ∧ readerOk t ∧ readerBits s = b :: readerBits t ∧
      t.eos = false ∧ t.inPos = s.inPos ∧ t.inCount = s.inCount := by
  obtain ⟨hv, hle⟩ := h
  have hblock : block = 4096 := rfl
  unfold takeBit
  rw [if_pos (by omega)]
  refine ⟨_, _, rfl, rfl, ⟨hv, ?_⟩, ?_, rfl, rfl, rfl⟩
  · simp only; omega
  · unfold readerBits
    rw [List.drop_eq_getElem_cons (by simpa using hi)]
    simp [inRest]

/-- ReadBit (R197): the next of the bits still to come, or EOS_SIGNAL when there is none. -/
theorem readBit_spec (s : State) (h : readerOk s) :
    (∃ t b, readBit s = .ok (some b) t ∧ readerFrame s t ∧ readerOk t ∧ readerBits s = b :: readerBits t ∧
      t.eos = false) ∨
    (∃ t, readBit s = .ok none t ∧ readerFrame s t ∧ readerOk t ∧ readerBits s = [] ∧ readerBits t = [] ∧
      t.eos = true) := by
  unfold readBit
  have h' := h
  obtain ⟨hv, hle⟩ := h'
  split
  · next heq =>
    have hbits : readerBits s = unpackBits (inRest s) := by
      unfold readerBits
      rw [List.drop_eq_nil_of_le (by simp [heq])]
      rfl
    split
    · next h0 =>
      right
      have hrest : inRest s = [] := by
        rw [inReadBytes_length] at h0
        have hblock : block = 4096 := rfl
        exact List.length_eq_zero_iff.mp (by omega)
      refine ⟨_, rfl, rfl, refillReader_ok s, by rw [hbits, hrest]; rfl, ?_, rfl⟩
      have : readerBits { refillReader s with eos := true } = readerBits (refillReader s) := rfl
      rw [this, refillReader_bits, hrest]; rfl
    · next h0 =>
      left
      obtain ⟨t, b, h1, h2, h3, h4, h5, _, _⟩ := takeBit_spec (refillReader s) (refillReader_ok s)
        (by simp only [refillReader_brIndex, refillReader_brValid]; omega)
      exact ⟨t, b, h1, readerFrame_trans (readerFrame_refill s) h2, h3, by rw [hbits, ← refillReader_bits, h4], h5⟩
  · next hne =>
    left
    obtain ⟨t, b, h1, h2, h3, h4, h5, _, _⟩ := takeBit_spec s h (by omega)
    exact ⟨t, b, h1, h2, h3, h4, h5⟩

/-! ### A reader that started empty -/

theorem readerBits_length (s : State) :
    (readerBits s).length = s.brValid * 8 - s.brIndex + 8 * (inRest s).length := by
  simp [readerBits, unpackBits_length]

/-- Where a reader that was empty at `s` is after `j` ReadBit calls: what it has still to return, and how much of IN its
refills have taken (R200, R222). -/
structure ReadAt (s : State) (j : Nat) (t : State) : Prop where
  ok : readerOk t
  bits : readerBits t = (unpackBits (inRest s)).drop j
  bytes : t.inBytes = s.inBytes
  pos : t.inPos = s.inPos + min (inRest s).length (4096 * ceilDiv j 32768)
  count : t.inCount = s.inCount + BitVec.ofNat 64 (min (inRest s).length (4096 * ceilDiv j 32768))

theorem ReadAt.start {s : State} (h1 : s.brValid = 0) (h2 : s.brIndex = 0) : ReadAt s 0 s := by
  refine ⟨by unfold readerOk; rw [h1, h2]; decide, by simp [readerBits, h1], rfl, ?_, ?_⟩ <;> simp [ceilDiv]

theorem ReadAt.rest {s t : State} {j : Nat} (h : ReadAt s j t) :
    inRest t = (inRest s).drop (min (inRest s).length (4096 * ceilDiv j 32768)) := by
  unfold inRest
  rw [h.bytes, h.pos, List.drop_drop]
  rfl

/-- Sending to OUT moves no reader. -/
theorem ReadAt.out {s t : State} {j : Nat} (h : ReadAt s j t) (xs : List Byte) : ReadAt s j (outWrite xs t) :=
  ⟨h.ok, h.bits, h.bytes, h.pos, h.count⟩

/-- At the end of IN a call more moves nothing. -/
theorem ReadAt.ended {s t : State} {j : Nat} (hj : 8 * (inRest s).length ≤ j) (h : ReadAt s (j + 1) t) :
    ReadAt s j t := by
  have e : min (inRest s).length (4096 * ceilDiv j 32768) = min (inRest s).length (4096 * ceilDiv (j + 1) 32768) := by
    unfold ceilDiv; omega
  refine ⟨h.ok, ?_, h.bytes, by rw [e]; exact h.pos, by rw [e]; exact h.count⟩
  rw [h.bits, List.drop_eq_nil_of_le (by rw [unpackBits_length]; omega),
    List.drop_eq_nil_of_le (by rw [unpackBits_length]; omega)]

/-- One ReadBit call after `j` others (R197, R200): the next bit of IN, or the end of the stream with EOS set. -/
theorem readAt_step {s t : State} {j : Nat} (h : ReadAt s j t) :
    ∃ u, readBit t = .ok ((unpackBits (inRest s))[j]?) u ∧ ReadAt s (j + 1) u ∧ readerFrame t u ∧
      u.eos = ((unpackBits (inRest s))[j]?).isNone := by
  have hl := congrArg List.length h.bits
  rw [readerBits_length, List.length_drop, unpackBits_length] at hl
  have hc := congrArg List.length h.rest
  rw [List.length_drop] at hc
  have hblock : block = 4096 := rfl
  have hok := h.ok
  have taken : ∀ {v u : State} {b : Bool}, readerBits v = readerBits t → readerBits v = b :: readerBits u →
      (unpackBits (inRest s))[j]? = some b ∧ readerBits u = (unpackBits (inRest s)).drop (j + 1) := by
    intro v u b h1 h2
    rw [h1, h.bits] at h2
    have e1 := congrArg (fun l => l[0]?) h2
    have e2 := congrArg List.tail h2
    simp only [List.getElem?_drop, Nat.add_zero, List.getElem?_cons_zero, List.tail_drop, List.tail_cons] at e1 e2
    exact ⟨e1, e2.symm⟩
  unfold readBit
  by_cases hi : t.brIndex = t.brValid * 8
  · rw [if_pos hi]
    have hn := inReadBytes_length block t
    have hrb : readerBits (refillReader t) = readerBits t := by
      rw [refillReader_bits]
      unfold readerBits
      rw [List.drop_eq_nil_of_le (by simp [hi])]
      rfl
    have hpos : t.inPos + (inReadBytes block t).length =
        s.inPos + min (inRest s).length (4096 * ceilDiv (j + 1) 32768) := by
      rw [h.pos, hn]
      unfold ceilDiv at *; omega
    have hcount : t.inCount + BitVec.ofNat 64 (inReadBytes block t).length =
        s.inCount + BitVec.ofNat 64 (min (inRest s).length (4096 * ceilDiv (j + 1) 32768)) := by
      rw [h.count, BitVec.add_assoc, ← BitVec.ofNat_add, hn]
      congr 2
      unfold ceilDiv at *; omega
    by_cases h0 : (inReadBytes block t).length = 0
    · rw [if_pos h0]
      have hlen : (unpackBits (inRest s)).length ≤ j := by rw [unpackBits_length]; omega
      have hnone := List.getElem?_eq_none hlen
      refine ⟨{ refillReader t with eos := true }, by rw [hnone], ⟨refillReader_ok t, ?_, h.bytes, hpos, hcount⟩, rfl,
        by rw [hnone]; rfl⟩
      have e : readerBits { refillReader t with eos := true } = readerBits (refillReader t) := rfl
      rw [e, hrb, h.bits, List.drop_eq_nil_of_le hlen, List.drop_eq_nil_of_le (by omega)]
    · rw [if_neg h0]
      obtain ⟨u, b, e, f, k, g, eos, hp, hic⟩ := takeBit_spec (refillReader t) (refillReader_ok t)
        (by simp only [refillReader_brIndex, refillReader_brValid]; omega)
      obtain ⟨t1, t2⟩ := taken hrb g
      refine ⟨u, by rw [e, t1], ⟨k, t2, ?_, hp.trans hpos, hic.trans hcount⟩,
        readerFrame_trans (readerFrame_refill t) f, by rw [t1, eos]; rfl⟩
      unfold readerFrame at f
      rw [f]
      exact h.bytes
  · rw [if_neg hi]
    obtain ⟨u, b, e, f, k, g, eos, hp, hic⟩ := takeBit_spec t hok (by have := hok.2; omega)
    obtain ⟨t1, t2⟩ := taken rfl g
    have hlt := hok.2
    have hmin : min (inRest s).length (4096 * ceilDiv (j + 1) 32768) =
        min (inRest s).length (4096 * ceilDiv j 32768) := by
      unfold ceilDiv at *; omega
    refine ⟨u, by rw [e, t1], ⟨k, t2, ?_, ?_, ?_⟩, f, by rw [t1, eos]; rfl⟩
    · unfold readerFrame at f
      rw [f]
      exact h.bytes
    · rw [hmin, hp]
      exact h.pos
    · rw [hmin, hic]
      exact h.count

end Sys2Proof.Machine
end

