-- ==== Sys2Proof/Laws/Tree.lean ====
section
/-! SUPPORT. Code trees in the pool: what a pool that holds a tree looks like, and the forest that BUILD_TREE and REBUILD_TREE
grow node by node. -/

namespace Sys2Proof.Machine

open Sys2Proof

/-! ### Trees -/

theorem leaves_pos (t : CodeTree) : 0 < t.leaves.length := by
  induction t with
  | leaf x => simp [CodeTree.leaves]
  | node l r ihl ihr => simp [CodeTree.leaves]; omega

/-- A tree with n leaves is at most n - 1 deep. -/
theorem height_lt_leaves (t : CodeTree) : t.height < t.leaves.length := by
  induction t with
  | leaf x => simp [CodeTree.leaves, CodeTree.height]
  | node l r ihl ihr =>
    simp only [CodeTree.leaves, CodeTree.height, List.length_append]
    have := leaves_pos l
    have := leaves_pos r
    omega

/-- R153: a tree with n leaves has a dump of 3n - 1 bytes. -/
theorem dump_length (c : Config) (t : CodeTree) : (t.dump c).length + 1 = 3 * t.leaves.length := by
  induction t with
  | leaf x => simp [CodeTree.dump, CodeTree.leaves]
  | node l r ihl ihr => simp only [CodeTree.dump, CodeTree.leaves, List.length_append, List.length_singleton]; omega

theorem paths_length_le (t : CodeTree) : ∀ p ∈ t.paths, p.2.length ≤ t.height := by
  induction t with
  | leaf x => simp [CodeTree.paths, CodeTree.height]
  | node l r ihl ihr =>
    intro p hp
    simp only [CodeTree.paths, List.mem_append, List.mem_map] at hp
    simp only [CodeTree.height]
    rcases hp with ⟨q, hq, rfl⟩ | ⟨q, hq, rfl⟩
    · have := ihl q hq; simp; omega
    · have := ihr q hq; simp; omega

/-- No code of a tree the block can hold has more bits than the path buffer (R109). -/
theorem codes_length_le (t : CodeTree) (h : t.leaves.length ≤ alphabet) :
    ∀ p ∈ t.codes, 0 < p.2.length ∧ p.2.length ≤ maxCodeBits := by
  have hh := height_lt_leaves t
  have e1 : alphabet = 256 := rfl
  have e2 : maxCodeBits = 256 := rfl
  cases t with
  | leaf x => simp [CodeTree.codes]
  | node l r =>
    intro p hp
    have := paths_length_le _ p hp
    refine ⟨?_, by omega⟩
    simp only [CodeTree.codes, CodeTree.paths, List.mem_append, List.mem_map] at hp
    rcases hp with ⟨q, _, rfl⟩ | ⟨q, _, rfl⟩ <;> simp

/-! ### A tree in the pool -/

theorem poolHolds_mem {pool : Store NodeEntry} {t : CodeTree} {i : NodeIx} {ns : List NodeIx}
    (h : poolHolds pool t i ns) : i ∈ ns := by
  cases t with
  | leaf x => simp [h.1]
  | node l r => obtain ⟨nl, nr, rfl, _⟩ := h; simp

theorem poolHolds_ne_nil {pool : Store NodeEntry} {t : CodeTree} {i : NodeIx} {ns : List NodeIx}
    (h : poolHolds pool t i ns) : i ≠ nil := by
  cases t with
  | leaf x => exact h.2.1
  | node l r => obtain ⟨_, _, _, h, _⟩ := h; exact h

theorem poolHolds_alloc {pool : Store NodeEntry} {t : CodeTree} {i : NodeIx} {ns : List NodeIx}
    (h : poolHolds pool t i ns) : (storeRead NodeEntry.blank pool i.toNat).alloc = true := by
  cases t with
  | leaf x => exact h.2.2.1
  | node l r => obtain ⟨_, _, _, _, h, _⟩ := h; exact h

theorem poolHolds_length {pool : Store NodeEntry} : ∀ {t : CodeTree} {i : NodeIx} {ns : List NodeIx},
    poolHolds pool t i ns → ns.length + 1 = 2 * t.leaves.length := by
  intro t
  induction t with
  | leaf x => intro i ns h; simp [h.1, CodeTree.leaves]
  | node l r ihl ihr =>
    intro i ns h
    obtain ⟨nl, nr, rfl, _, _, hl, hr⟩ := h
    have := ihl hl
    have := ihr hr
    simp only [CodeTree.leaves, List.length_append, List.length_singleton]
    omega

/-- An interior node of a held tree is no leaf. -/
theorem poolHolds_not_leaf {pool : Store NodeEntry} {l r : CodeTree} {i : NodeIx} {ns : List NodeIx}
    (h : poolHolds pool (.node l r) i ns) : (storeRead NodeEntry.blank pool i.toNat).isLeaf = false := by
  obtain ⟨_, _, _, _, _, hl, _⟩ := h
  have := poolHolds_ne_nil hl
  simp [NodeEntry.isLeaf, this]

theorem poolHolds_is_leaf {pool : Store NodeEntry} {x : Byte} {i : NodeIx} {ns : List NodeIx}
    (h : poolHolds pool (.leaf x) i ns) : (storeRead NodeEntry.blank pool i.toNat).isLeaf = true := h.2.2.2.1

/-- A tree stays held while its nodes' entries stay the same. -/
theorem poolHolds_congr {pool pool' : Store NodeEntry} : ∀ {t : CodeTree} {i : NodeIx} {ns : List NodeIx},
    (∀ j ∈ ns, storeRead NodeEntry.blank pool' j.toNat = storeRead NodeEntry.blank pool j.toNat) →
    poolHolds pool t i ns → poolHolds pool' t i ns := by
  intro t
  induction t with
  | leaf x =>
    intro i ns he h
    have := he i (poolHolds_mem h)
    unfold poolHolds at h ⊢
    rwa [this]
  | node l r ihl ihr =>
    intro i ns he h
    have hi := he i (poolHolds_mem h)
    obtain ⟨nl, nr, rfl, h1, h2, hl, hr⟩ := h
    refine ⟨nl, nr, rfl, h1, by rwa [hi], ?_, ?_⟩
    · rw [hi]; exact ihl (fun j hj => he j (by simp [hj])) hl
    · rw [hi]; exact ihr (fun j hj => he j (by simp [hj])) hr

/-- A pool holds at most one tree at a node. -/
theorem poolHolds_unique {pool : Store NodeEntry} : ∀ {t u : CodeTree} {i : NodeIx} {ns ms : List NodeIx},
    poolHolds pool t i ns → poolHolds pool u i ms → t = u ∧ ns = ms := by
  intro t
  induction t with
  | leaf x =>
    intro u i ns ms h g
    cases u with
    | leaf y => exact ⟨by rw [← h.2.2.2.2, ← g.2.2.2.2], by rw [h.1, g.1]⟩
    | node l r => have := poolHolds_not_leaf g; rw [poolHolds_is_leaf h] at this; simp at this
  | node l r ihl ihr =>
    intro u i ns ms h g
    cases u with
    | leaf y => have := poolHolds_not_leaf h; rw [poolHolds_is_leaf g] at this; simp at this
    | node l' r' =>
      obtain ⟨nl, nr, rfl, _, _, hl, hr⟩ := h
      obtain ⟨ml, mr, rfl, _, _, gl, gr⟩ := g
      obtain ⟨rfl, rfl⟩ := ihl hl gl
      obtain ⟨rfl, rfl⟩ := ihr hr gr
      exact ⟨rfl, rfl⟩

/-! ### The forest -/

/-- A tree under construction: its root's node, its frequency, the tree, and its nodes in post-order. -/
structure Item where
  node : NodeIx
  weight : Nat
  tree : CodeTree
  nodes : List NodeIx

/-- The queue entry of an item. -/
def Item.entry (x : Item) : PqEntry := ⟨x.node, BitVec.ofNat 64 x.weight⟩

/-- The item without its nodes. -/
def Item.weighted (x : Item) : Weighted := (x.weight, x.tree)

/-- How many leaves a list of items has. -/
def leafSum (L : List Item) : Nat := (L.map (fun x => x.tree.leaves.length)).sum

/-- The sum of the frequencies of a list of items. -/
def weightSum (L : List Item) : Nat := (L.map (fun x => x.weight)).sum

/-- The pool's allocated entries are nodes 0 to k-1, and they are the nodes of the items' trees, each in one. -/
structure Forest (s : State) (k : Nat) (L : List Item) : Prop where
  allocated : poolPrefix s k
  bound : k ≤ nodeCap
  items : ∀ x ∈ L, poolHolds s.pool x.tree x.node x.nodes ∧
    (nodeAt s x.node.toNat).freq = BitVec.ofNat 64 x.weight ∧ x.weight < 2 ^ 64
  nodes : (L.flatMap Item.nodes).Perm ((List.range k).map (BitVec.ofNat 9))

theorem toNat_ofNat_nine {k : Nat} (h : k < 512) : (BitVec.ofNat 9 k).toNat = k := by
  rw [BitVec.toNat_ofNat]; exact Nat.mod_eq_of_lt h

theorem Forest.node_lt {s : State} {k : Nat} {L : List Item} (h : Forest s k L) {x : Item} (hx : x ∈ L) {j : NodeIx}
    (hj : j ∈ x.nodes) : j.toNat < k := by
  have hm : j ∈ L.flatMap Item.nodes := List.mem_flatMap.mpr ⟨x, hx, hj⟩
  have := h.nodes.mem_iff.mp hm
  obtain ⟨m, hm', rfl⟩ := List.mem_map.mp this
  have hlt := List.mem_range.mp hm'
  have hb := h.bound
  have e : nodeCap = 511 := rfl
  rw [toNat_ofNat_nine (by omega)]
  exact hlt

theorem Forest.empty {s : State} (h : poolFree s) : Forest s 0 [] :=
  ⟨poolPrefix_zero s h, Nat.zero_le _, by simp, by simp⟩

/-- The forest depends on the pool alone. -/
theorem Forest.congr {s t : State} {k : Nat} {L : List Item} (h : Forest s k L) (hp : t.pool = s.pool) :
    Forest t k L := by
  have hn : ∀ i, nodeAt t i = nodeAt s i := fun i => by simp [nodeAt, hp]
  refine ⟨fun i hi => ?_, h.bound, fun x hx => ?_, h.nodes⟩
  · rw [hn]; exact h.allocated i hi
  · rw [hn, hp]; exact h.items x hx

theorem Forest.perm {s : State} {k : Nat} {L L' : List Item} (h : Forest s k L) (hp : L'.Perm L) : Forest s k L' :=
  ⟨h.allocated, h.bound, fun x hx => h.items x (hp.mem_iff.mp hx), (List.Perm.flatMap_right _ hp).trans h.nodes⟩

theorem leafSum_perm {L L' : List Item} (h : L'.Perm L) : leafSum L' = leafSum L := (h.map _).sum_eq

theorem weightSum_perm {L L' : List Item} (h : L'.Perm L) : weightSum L' = weightSum L := (h.map _).sum_eq

/-- The state after the node `e` was made at index `k`: held trees stay held. -/
theorem Forest.keep {s : State} {k : Nat} {L : List Item} (h : Forest s k L) (e : NodeEntry) {x : Item} (hx : x ∈ L) :
    poolHolds (withNode k e s).pool x.tree x.node x.nodes ∧
      (nodeAt (withNode k e s) x.node.toNat).freq = BitVec.ofNat 64 x.weight ∧ x.weight < 2 ^ 64 := by
  obtain ⟨h1, h2, h3⟩ := h.items x hx
  refine ⟨poolHolds_congr (fun j hj => ?_) h1, ?_, h3⟩
  · exact storeRead_write_ne _ _ _ (by have := h.node_lt hx hj; omega)
  · have := h.node_lt hx (poolHolds_mem h1)
    rw [nodeAt_withNode, if_neg (by omega)]
    exact h2

theorem range_succ_perm (k : Nat) :
    (BitVec.ofNat 9 k :: (List.range k).map (BitVec.ofNat 9)).Perm ((List.range (k + 1)).map (BitVec.ofNat 9)) := by
  rw [List.range_succ, List.map_append]
  exact (List.perm_append_singleton _ _).symm

theorem ofNat_nine_ne_nil {k : Nat} (hk : k < nodeCap) : BitVec.ofNat 9 k ≠ nil := by
  intro h
  have := congrArg BitVec.toNat h
  have e : nodeCap = 511 := rfl
  rw [toNat_ofNat_nine (by omega)] at this
  simp at this
  omega

/-- A new leaf joins the forest. -/
theorem Forest.addLeaf {s : State} {k : Nat} {L : List Item} (h : Forest s k L) (hk : k < nodeCap) (sym : Byte)
    (freq : Freq) :
    Forest (withNode k ⟨true, sym, freq, nil, nil⟩ s) (k + 1)
      (⟨BitVec.ofNat 9 k, freq.toNat, .leaf sym, [BitVec.ofNat 9 k]⟩ :: L) := by
  have e : nodeCap = 511 := rfl
  refine ⟨poolPrefix_withNode s k _ rfl h.allocated, hk, ?_, ?_⟩
  · intro x hx
    rcases List.mem_cons.mp hx with rfl | hx
    · have hr : nodeAt (withNode k ⟨true, sym, freq, nil, nil⟩ s) (BitVec.ofNat 9 k).toNat =
          ⟨true, sym, freq, nil, nil⟩ := by
        rw [toNat_ofNat_nine (by omega), nodeAt_withNode, if_pos rfl]
      refine ⟨⟨rfl, ofNat_nine_ne_nil hk, ?_, ?_, ?_⟩, ?_, freq.isLt⟩
      · exact congrArg NodeEntry.alloc hr
      · exact congrArg NodeEntry.isLeaf hr
      · exact congrArg NodeEntry.sym hr
      · rw [hr]; simp
    · exact h.keep _ hx
  · simp only [List.flatMap_cons]
    exact (List.Perm.cons _ h.nodes).trans (range_succ_perm k)

/-- Two trees of the forest are joined under a new node. -/
theorem Forest.join {s : State} {k : Nat} {a b : Item} {L : List Item} (h : Forest s k (a :: b :: L))
    (hk : k < nodeCap) (sym : Byte) (w : Nat) (hw : w < 2 ^ 64) :
    Forest (withNode k ⟨true, sym, BitVec.ofNat 64 w, a.node, b.node⟩ s) (k + 1)
      (⟨BitVec.ofNat 9 k, w, .node a.tree b.tree, a.nodes ++ b.nodes ++ [BitVec.ofNat 9 k]⟩ :: L) := by
  have e : nodeCap = 511 := rfl
  refine ⟨poolPrefix_withNode s k _ rfl h.allocated, hk, ?_, ?_⟩
  · intro x hx
    rcases List.mem_cons.mp hx with rfl | hx
    · have hr : nodeAt (withNode k ⟨true, sym, BitVec.ofNat 64 w, a.node, b.node⟩ s) (BitVec.ofNat 9 k).toNat =
          ⟨true, sym, BitVec.ofNat 64 w, a.node, b.node⟩ := by
        rw [toNat_ofNat_nine (by omega), nodeAt_withNode, if_pos rfl]
      refine ⟨⟨a.nodes, b.nodes, rfl, ofNat_nine_ne_nil hk, congrArg NodeEntry.alloc hr, ?_, ?_⟩, ?_, hw⟩
      · have hl : (nodeAt _ (BitVec.ofNat 9 k).toNat).left = a.node := congrArg NodeEntry.left hr
        unfold nodeAt at hl
        rw [hl]
        exact (h.keep _ (by simp)).1
      · have hl : (nodeAt _ (BitVec.ofNat 9 k).toNat).right = b.node := congrArg NodeEntry.right hr
        unfold nodeAt at hl
        rw [hl]
        exact (h.keep _ (by simp)).1
      · rw [hr]
    · exact h.keep _ (by simp [hx])
  · have := h.nodes
    simp only [List.flatMap_cons] at this ⊢
    refine List.Perm.trans ?_ ((List.Perm.cons (BitVec.ofNat 9 k) this).trans (range_succ_perm k))
    simp only [List.append_assoc, List.singleton_append]
    rw [← List.append_assoc, ← List.append_assoc]
    exact List.perm_middle

/-- A forest of one tree is the current tree, once ROOT names it and LEAF_COUNT counts its leaves. -/
theorem Forest.treeIs {s : State} {k : Nat} {x : Item} (h : Forest s k [x]) (hr : s.root = x.node)
    (hc : s.leafCount.toNat = x.tree.leaves.length) (hl : x.tree.leaves.length ≤ alphabet) : treeIs s x.tree := by
  have e : nodeCap = 511 := rfl
  have hn := h.nodes
  simp only [List.flatMap_cons, List.flatMap_nil, List.append_nil] at hn
  refine ⟨x.nodes, by rw [hr]; exact (h.items x (by simp)).1, ?_, ?_, hc, hl⟩
  · rw [hn.nodup_iff, List.nodup_map_iff_inj_on List.nodup_range]
    intro i hi j hj hij
    have hb := h.bound
    have hi := List.mem_range.mp hi
    have hj := List.mem_range.mp hj
    have := congrArg BitVec.toNat hij
    rwa [toNat_ofNat_nine (by omega), toNat_ofNat_nine (by omega)] at this
  · intro i hi ha
    rw [hn.mem_iff]
    exact List.mem_map.mpr ⟨i, List.mem_range.mpr ((h.allocated i hi).mp ha), rfl⟩

end Sys2Proof.Machine
end

