-- ==== Sys2Proof/Laws/Engine.lean ====
section
/-! SUPPORT. The Huffman engine: what BUILD_TREE's loops do to the pool and the queue, against the pure construction of
Sys2Proof/Safety.lean; what BUILD_CODES' walk writes; and that every body ends. -/

namespace Sys2Proof.Machine

open Sys2Proof

/-! ### The pure construction -/

theorem putTree_eq_putBy (e : Weighted) (q : List Weighted) : putTree e q = putBy Prod.fst e q := by
  induction q with
  | nil => rfl
  | cons f q ih => simp only [putTree, putBy, ih]

theorem putTree_length (e : Weighted) (q : List Weighted) : (putTree e q).length = q.length + 1 := by
  rw [putTree_eq_putBy, putBy_length]

/-- As many turns as there are trees are enough to join them all. -/
theorem mergeTrees_fuel : ∀ (n m : Nat) (q : List Weighted), q.length ≤ n → q.length ≤ m →
    mergeTrees n q = mergeTrees m q := by
  intro n
  induction n with
  | zero =>
    intro m q h _
    have : q = [] := List.length_eq_zero_iff.mp (by omega)
    subst this
    cases m <;> rfl
  | succ n ih =>
    intro m q h h'
    match q, m with
    | [], 0 => rfl
    | [], _ + 1 => rfl
    | [_], 0 => simp at h'
    | [_], _ + 1 => rfl
    | _ :: _ :: _, 0 => simp at h'
    | a :: b :: q, m + 1 =>
      simp only [mergeTrees]
      simp only [List.length_cons] at h h'
      exact ih m _ (by rw [putTree_length]; omega) (by rw [putTree_length]; omega)

/-! ### The queue while a tree is built -/

/-- The pool holds the items' trees, and the queue holds the items in order of frequency. -/
structure Building (s : State) (k : Nat) (L : List Item) : Prop where
  forest : Forest s k L
  queue : s.pq = L.map Item.entry
  sorted : L.Pairwise (fun a b => a.weight ≤ b.weight)

theorem entry_key {x : Item} (h : x.weight < 2 ^ 64) : x.entry.key.toNat = x.weight := by
  simp only [Item.entry, BitVec.toNat_ofNat]
  exact Nat.mod_eq_of_lt h

theorem Building.keys {s : State} {k : Nat} {L : List Item} (h : Building s k L) :
    s.pq.Pairwise (fun a b => a.key ≤ b.key) := by
  rw [h.queue, List.pairwise_map]
  refine List.Pairwise.imp_of_mem ?_ h.sorted
  intro a b ha hb hab
  rw [BitVec.le_def, entry_key (h.forest.items a ha).2.2, entry_key (h.forest.items b hb).2.2]
  exact hab

/-- A node whose tree joined the forest takes its place in the queue. -/
theorem Building.insert {s t : State} {k k' : Nat} {L : List Item} {x : Item} (h : Building s k L)
    (hf : Forest t k' (x :: L)) (hq : t.pq = s.pq) (hl : L.length < pqCap) :
    pqInsertNode x.node t = .ok () { t with pq := (putBy Item.weight x L).map Item.entry } ∧
      Building { t with pq := (putBy Item.weight x L).map Item.entry } k' (putBy Item.weight x L) := by
  obtain ⟨_, hfreq, hw⟩ := hf.items x (by simp)
  refine ⟨?_, (hf.perm (putBy_perm _ _ _)).congr rfl, rfl, putBy_sorted _ _ _ h.sorted⟩
  have hput : pqPut t.pq ⟨x.node, (nodeAt t x.node.toNat).freq⟩ = (putBy Item.weight x L).map Item.entry := by
    have hk := h.keys
    rw [hfreq, hq, pqPut_eq_putBy _ _ hk, h.queue]
    symm
    exact putBy_map Item.weight (fun e : PqEntry => e.key.toNat) Item.entry x L (entry_key hw)
      (fun b hb => entry_key (hf.items b (by simp [hb])).2.2)
  have hlen : t.pq.length ≠ pqCap := by rw [hq, h.queue, List.length_map]; omega
  unfold pqInsertNode
  rw [if_neg hlen, hput]

theorem putBy_weighted (x : Item) (L : List Item) :
    (putBy Item.weight x L).map Item.weighted = putTree x.weighted (L.map Item.weighted) := by
  rw [putTree_eq_putBy]
  exact putBy_map Item.weight Prod.fst Item.weighted x L rfl (fun _ _ => rfl)

theorem putBy_leafSum (x : Item) (L : List Item) :
    leafSum (putBy Item.weight x L) = x.tree.leaves.length + leafSum L := by
  rw [leafSum_perm (putBy_perm _ _ _)]; rfl

theorem putBy_weightSum (x : Item) (L : List Item) :
    weightSum (putBy Item.weight x L) = x.weight + weightSum L := by
  rw [weightSum_perm (putBy_perm _ _ _)]; rfl

/-! ### The leaves -/

/-- What BUILD_TREE's loops may change. -/
def buildFrame (s t : State) : Prop := t = { s with pool := t.pool, pq := t.pq, leafCount := t.leafCount }

theorem buildFrame_refl (s : State) : buildFrame s s := rfl

theorem buildFrame_trans {s t u : State} (h1 : buildFrame s t) (h2 : buildFrame t u) : buildFrame s u := by
  unfold buildFrame at *
  rw [h2, h1]

/-- The symbols of a list that have a nonzero FREQ entry. -/
def present (s : State) (xs : List Nat) : List Nat := xs.filter (fun i => freqAt s i ≠ 0#64)

/-- One turn of R131's loop over the symbols, for a symbol with a nonzero FREQ entry. -/
theorem enqueueLeaf (y : Nat) (ys : List Nat) (s : State) (k : Nat) (L : List Item) (h : Building s k L)
    (hl : L.length = k) (hk : k < pqCap) (hy : freqAt s y ≠ 0#64) :
    ∃ u, enqueueLeaves (y :: ys) s = enqueueLeaves ys u ∧ buildFrame s u ∧
      Building u (k + 1) (putBy Item.weight
        ⟨BitVec.ofNat 9 k, (freqAt s y).toNat, .leaf (BitVec.ofNat 8 y), [BitVec.ofNat 9 k]⟩ L) ∧
      u.leafCount = s.leafCount + 1#9 ∧ nodeAt u k = leafEntry s y ∧ ∀ j, j ≠ k → nodeAt u j = nodeAt s j := by
  have ecap : pqCap = 256 := rfl
  have encap : nodeCap = 511 := rfl
  have hk' : k < nodeCap := by omega
  have ha := allocNode_prefix (BitVec.ofNat 8 y) (freqAt s y) nil nil s k hk' h.forest.allocated
  have hf := h.forest.addLeaf hk' (BitVec.ofNat 8 y) (freqAt s y)
  obtain ⟨hins, hB⟩ := h.insert hf rfl (by omega)
  refine ⟨{ s with
      pool := storeWrite NodeEntry.blank s.pool k ⟨true, BitVec.ofNat 8 y, freqAt s y, nil, nil⟩
      pq := (putBy Item.weight ⟨BitVec.ofNat 9 k, (freqAt s y).toNat, .leaf (BitVec.ofNat 8 y),
        [BitVec.ofNat 9 k]⟩ L).map Item.entry
      leafCount := s.leafCount + 1#9 }, ?_, rfl, ⟨hB.forest.congr rfl, hB.queue, hB.sorted⟩, rfl, ?_, fun j hj => ?_⟩
  · simp only [enqueueLeaves, if_neg hy, ha, bind_ok]
    rw [hins]
    rfl
  · exact (nodeAt_of_pool (e := leafEntry s y) rfl k).trans (if_pos rfl)
  · exact (nodeAt_of_pool (e := leafEntry s y) rfl j).trans (if_neg hj)

/-- R131's loop over the symbols: the present symbols' leaves are nodes k, k + 1, … in order, each put in its place in
the queue. -/
theorem enqueueLeaves_spec : ∀ (xs : List Nat) (s : State) (k : Nat) (L : List Item), Building s k L →
    L.length = k → leafSum L = k → s.leafCount = BitVec.ofNat 9 k → k + xs.length ≤ pqCap →
    ∃ t L', enqueueLeaves xs s = .ok () t ∧ buildFrame s t ∧ Building t (k + (present s xs).length) L' ∧
      L'.length = k + (present s xs).length ∧ leafSum L' = k + (present s xs).length ∧
      t.leafCount = BitVec.ofNat 9 (k + (present s xs).length) ∧
      weightSum L' = weightSum L + ((present s xs).map (fun i => (freqAt s i).toNat)).sum ∧
      L'.map Item.weighted = (present s xs).foldl
        (fun q i => putTree ((freqAt s i).toNat, .leaf (BitVec.ofNat 8 i)) q) (L.map Item.weighted) ∧
      (∀ j < k, nodeAt t j = nodeAt s j) ∧
      (∀ j (hj : j < (present s xs).length), nodeAt t (k + j) = leafEntry s ((present s xs)[j])) := by
  intro xs
  induction xs with
  | nil =>
    intro s k L h h1 h2 h3 h4
    exact ⟨s, L, rfl, buildFrame_refl s, h, h1, h2, h3, rfl, rfl, fun _ _ => rfl, fun j hj => by simp [present] at hj⟩
  | cons y ys ih =>
    intro s k L h h1 h2 h3 h4
    simp only [List.length_cons] at h4
    by_cases hy : freqAt s y = 0#64
    · have hp : present s (y :: ys) = present s ys := by simp [present, hy]
      rw [hp]
      simp only [enqueueLeaves, if_pos hy]
      exact ih s k L h h1 h2 h3 (by omega)
    · have hp : present s (y :: ys) = y :: present s ys := by simp [present, hy]
      obtain ⟨u, e1, e2, e3, e4, e5, e6⟩ := enqueueLeaf y ys s k L h h1 (by omega) hy
      obtain ⟨t, L', g1, g2, g3, g4, g5, g6, g7, g8, g9, g10⟩ := ih u (k + 1) _ e3 (by rw [putBy_length, h1])
        (by rw [putBy_leafSum, h2]; simp [CodeTree.leaves]; omega)
        (by rw [e4, h3]; apply BitVec.eq_of_toNat_eq; simp) (by omega)
      have hfr : ∀ i, freqAt u i = freqAt s i := fun i => by rw [e2]; rfl
      have hpres : present u ys = present s ys := by simp only [present, hfr]
      have hleaf : ∀ i, leafEntry u i = leafEntry s i := fun i => by simp only [leafEntry, hfr]
      have hlen : k + 1 + (present s ys).length = k + (y :: present s ys).length := by simp; omega
      simp only [hpres, hfr, hleaf, hlen] at g3 g4 g5 g6 g7 g8 g10
      refine ⟨t, L', e1.trans g1, buildFrame_trans e2 g2, by rwa [hp], by rwa [hp], by rwa [hp], by rwa [hp], ?_, ?_,
        fun j hj => (g9 j (by omega)).trans (e6 j (by omega)), ?_⟩
      · rw [hp, g7, putBy_weightSum]
        simp only [List.map_cons, List.sum_cons]
        omega
      · rw [hp, g8, putBy_weighted]
        rfl
      · intro j hj
        simp only [hp, List.length_cons] at hj ⊢
        cases j with
        | zero => exact (g9 k (by omega)).trans e5
        | succ j =>
          rw [show k + (j + 1) = k + 1 + j by omega, g10 j (by omega)]
          rfl

/-! ### The joins -/

/-- One turn of R131's second loop. -/
theorem joinTurn (n : Nat) (s : State) (k : Nat) (a b : Item) (L : List Item) (h : Building s k (a :: b :: L))
    (hk : k < nodeCap) (hl : L.length + 2 ≤ pqCap) (hw : a.weight + b.weight < 2 ^ 64) :
    ∃ u, joinLoop (n + 1) s = joinLoop n u ∧ buildFrame s u ∧ u.leafCount = s.leafCount ∧
      Building u (k + 1) (putBy Item.weight ⟨BitVec.ofNat 9 k, a.weight + b.weight, .node a.tree b.tree,
        a.nodes ++ b.nodes ++ [BitVec.ofNat 9 k]⟩ L) ∧
      nodeAt u k = ⟨true, 0x00#8, (nodeAt s a.node.toNat).freq + (nodeAt s b.node.toNat).freq, a.node, b.node⟩ ∧
      ∀ j, j ≠ k → nodeAt u j = nodeAt s j := by
  obtain ⟨_, ha, _⟩ := h.forest.items a (by simp)
  obtain ⟨_, hb, _⟩ := h.forest.items b (by simp)
  have hsum : (nodeAt s a.node.toNat).freq + (nodeAt s b.node.toNat).freq = BitVec.ofNat 64 (a.weight + b.weight) := by
    rw [ha, hb, BitVec.ofNat_add]
  have hq := h.queue
  simp only [List.map_cons] at hq
  have hs : L.Pairwise (fun a b => a.weight ≤ b.weight) := (List.pairwise_cons.mp (List.pairwise_cons.mp h.sorted).2).2
  have hF0 : Forest { s with pq := L.map Item.entry } k (a :: b :: L) := h.forest.congr rfl
  have halloc := allocNode_prefix 0x00#8 (BitVec.ofNat 64 (a.weight + b.weight)) a.node b.node
    { s with pq := L.map Item.entry } k hk hF0.allocated
  have hj : Forest _ (k + 1) _ := hF0.join hk 0x00#8 (a.weight + b.weight) hw
  have hput : (putBy Item.weight (⟨BitVec.ofNat 9 k, a.weight + b.weight, .node a.tree b.tree,
      a.nodes ++ b.nodes ++ [BitVec.ofNat 9 k]⟩ : Item) L).map Item.entry =
      pqPut (L.map Item.entry) ⟨BitVec.ofNat 9 k, BitVec.ofNat 64 (a.weight + b.weight)⟩ := by
    have hk' := h.keys
    rw [h.queue] at hk'
    rw [pqPut_eq_putBy _ _ (List.pairwise_cons.mp (List.pairwise_cons.mp hk').2).2]
    exact putBy_map Item.weight (fun e : PqEntry => e.key.toNat) Item.entry _ L (entry_key hw)
      (fun b hb => entry_key (h.forest.items b (by simp [hb])).2.2)
  have hfreq := (hj.items _ List.mem_cons_self).2.1
  dsimp only at hfreq
  refine ⟨{ s with
      pool := storeWrite NodeEntry.blank s.pool k
        ⟨true, 0x00#8, BitVec.ofNat 64 (a.weight + b.weight), a.node, b.node⟩
      pq := pqPut (L.map Item.entry) ⟨BitVec.ofNat 9 k, BitVec.ofNat 64 (a.weight + b.weight)⟩ }, ?_, rfl, rfl,
    ⟨(hj.perm (putBy_perm _ _ _)).congr rfl, hput.symm, putBy_sorted _ _ _ hs⟩, ?_, fun j hj => ?_⟩
  · have e1 : pqExtractNode s = .ok a.node { s with pq := b.entry :: L.map Item.entry } := by
      unfold pqExtractNode; rw [hq]; rfl
    have e2 : pqExtractNode { s with pq := b.entry :: L.map Item.entry } = .ok b.node { s with pq := L.map Item.entry } :=
      rfl
    have e3 : joinNodes a.node b.node { s with pq := L.map Item.entry } =
        .ok (BitVec.ofNat 9 k) (withNode k ⟨true, 0x00#8, BitVec.ofNat 64 (a.weight + b.weight), a.node, b.node⟩
          { s with pq := L.map Item.entry }) := by
      unfold joinNodes
      have : (nodeAt { s with pq := L.map Item.entry } a.node.toNat).freq +
        (nodeAt { s with pq := L.map Item.entry } b.node.toNat).freq = BitVec.ofNat 64 (a.weight + b.weight) := hsum
      rw [this]
      exact halloc
    have e4 : pqInsertNode (BitVec.ofNat 9 k)
        (withNode k ⟨true, 0x00#8, BitVec.ofNat 64 (a.weight + b.weight), a.node, b.node⟩
          { s with pq := L.map Item.entry }) = .ok () { s with
            pool := storeWrite NodeEntry.blank s.pool k
              ⟨true, 0x00#8, BitVec.ofNat 64 (a.weight + b.weight), a.node, b.node⟩
            pq := pqPut (L.map Item.entry) ⟨BitVec.ofNat 9 k, BitVec.ofNat 64 (a.weight + b.weight)⟩ } := by
      unfold pqInsertNode
      rw [if_neg (by simp; omega), hfreq]
    have hlen : s.pq.length > 1 := by rw [hq]; simp
    simp only [joinLoop, if_pos hlen]
    rw [e1, bind_ok, e2, bind_ok, e3, bind_ok, e4, bind_ok]
  · rw [hsum]
    exact (nodeAt_of_pool (e := ⟨true, 0x00#8, BitVec.ofNat 64 (a.weight + b.weight), a.node, b.node⟩) rfl k).trans
      (if_pos rfl)
  · exact (nodeAt_of_pool (e := ⟨true, 0x00#8, BitVec.ofNat 64 (a.weight + b.weight), a.node, b.node⟩) rfl j).trans
      (if_neg hj)

theorem joinedAt_congr {s t : State} {j : Nat} (h : joinedAt s j) (he : ∀ i ≤ j, nodeAt t i = nodeAt s i) :
    joinedAt t j := by
  obtain ⟨l, r, hl, hr, hn⟩ := h
  exact ⟨l, r, hl, hr, by rw [he j le_rfl, he _ hl.le, he _ hr.le, hn]⟩

/-- R131's second loop: the queue's trees are joined until one is left, each new node at the next index. -/
theorem joinLoop_spec : ∀ (n : Nat) (s : State) (k : Nat) (L : List Item), Building s k L → L.length ≤ n →
    k + L.length ≤ nodeCap + 1 → L.length ≤ pqCap → weightSum L < 2 ^ 64 →
    ∃ t L', joinLoop n s = .ok () t ∧ buildFrame s t ∧ t.leafCount = s.leafCount ∧
      Building t (k + (L.length - 1)) L' ∧ L'.length = min L.length 1 ∧ leafSum L' = leafSum L ∧
      L'.map Item.weighted = mergeTrees n (L.map Item.weighted) ∧ (∀ j < k, nodeAt t j = nodeAt s j) ∧
      (∀ j, k ≤ j → j < k + (L.length - 1) → joinedAt t j) ∧
      (L' = L ∨ ∀ x, L' = [x] → x.node = BitVec.ofNat 9 (k + (L.length - 1) - 1)) := by
  intro n
  induction n with
  | zero =>
    intro s k L h hn _ _ _
    have : L = [] := List.length_eq_zero_iff.mp (by omega)
    subst this
    have hq : ¬ s.pq.length > 1 := by rw [h.queue]; simp
    exact ⟨s, [], by simp only [joinLoop, if_neg hq], rfl, rfl, h, rfl, rfl, rfl, fun _ _ => rfl,
      fun j h1 h2 => by simp at h2; omega, .inl rfl⟩
  | succ n ih =>
    intro s k L h hn hk hp hw
    match L, h, hn, hk, hp, hw with
    | [], h, _, _, _, _ =>
      have hq : ¬ s.pq.length > 1 := by rw [h.queue]; simp
      exact ⟨s, [], by simp only [joinLoop, if_neg hq], rfl, rfl, h, rfl, rfl, rfl, fun _ _ => rfl,
        fun j h1 h2 => by simp at h2; omega, .inl rfl⟩
    | [x], h, _, _, _, _ =>
      have hq : ¬ s.pq.length > 1 := by rw [h.queue]; simp
      exact ⟨s, [x], by simp only [joinLoop, if_neg hq], rfl, rfl, h, rfl, rfl, rfl, fun _ _ => rfl,
        fun j h1 h2 => by simp at h2; omega, .inl rfl⟩
    | a :: b :: L, h, hn, hk, hp, hw =>
      simp only [List.length_cons] at hn hk hp
      have hwab : a.weight + b.weight < 2 ^ 64 := by
        simp only [weightSum, List.map_cons, List.sum_cons] at hw; omega
      obtain ⟨u, e1, e2, e3, e4, e5, e6⟩ := joinTurn n s k a b L h (by omega) (by omega) hwab
      obtain ⟨t, L', g1, g2, g3, g4, g5, g6, g7, g8, g9, g10⟩ := ih u (k + 1) _ e4 (by rw [putBy_length]; omega)
        (by rw [putBy_length]; omega) (by rw [putBy_length]; omega)
        (by rw [putBy_weightSum]; simp only [weightSum, List.map_cons, List.sum_cons] at hw ⊢; omega)
      rw [putBy_length] at g4 g5 g9 g10
      have hlen : k + 1 + (L.length + 1 - 1) = k + ((a :: b :: L).length - 1) := by simp; omega
      rw [hlen] at g4 g9 g10
      have hlt : a.node.toNat < k ∧ b.node.toNat < k :=
        ⟨h.forest.node_lt (by simp) (poolHolds_mem (h.forest.items a (by simp)).1),
          h.forest.node_lt (by simp) (poolHolds_mem (h.forest.items b (by simp)).1)⟩
      have hjk : joinedAt t k := by
        refine ⟨a.node, b.node, hlt.1, hlt.2, ?_⟩
        have ea : nodeAt t a.node.toNat = nodeAt s a.node.toNat := (g8 _ (by omega)).trans (e6 _ (by omega))
        have eb : nodeAt t b.node.toNat = nodeAt s b.node.toNat := (g8 _ (by omega)).trans (e6 _ (by omega))
        rw [ea, eb, g8 k (by omega), e5]
      refine ⟨t, L', e1.trans g1, buildFrame_trans e2 g2, g3.trans e3, g4, ?_, ?_, ?_,
        fun j hj => (g8 j (by omega)).trans (e6 j (by omega)), ?_, ?_⟩
      · rw [g5]; simp
      · rw [g6, putBy_leafSum]
        simp only [leafSum, CodeTree.leaves, List.map_cons, List.sum_cons, List.length_append]
        omega
      · rw [g7, putBy_weighted]; rfl
      · intro j h1 h2
        rcases Nat.eq_or_lt_of_le h1 with rfl | h1
        · exact hjk
        · exact g9 j (by omega) h2
      · right
        intro x hx
        rcases g10 with g10 | g10
        · have hl := congrArg List.length g10
          rw [hx, putBy_length] at hl
          have hL : L = [] := List.length_eq_zero_iff.mp (by simpa using hl)
          subst hL
          rw [hx] at g10
          simp only [putBy, List.cons.injEq, and_true] at g10
          rw [g10]
          simp
        · exact g10 x hx

/-! ### BUILD_TREE -/

theorem sum_present (s : State) (xs : List Nat) :
    ((present s xs).map (fun i => (freqAt s i).toNat)).sum = (xs.map (fun i => (freqAt s i).toNat)).sum := by
  induction xs with
  | nil => rfl
  | cons x xs ih =>
    by_cases h : freqAt s x = 0#64
    · have hp : present s (x :: xs) = present s xs := by simp [present, h]
      rw [hp, ih]; simp [h]
    · have hp : present s (x :: xs) = x :: present s xs := by simp [present, h]
      rw [hp]; simp [ih]

theorem freqSymbols_length_le (s : State) : (freqSymbols s).length ≤ alphabet := by
  have := List.length_filter_le (fun i => decide (freqAt s i ≠ 0#64)) (List.range alphabet)
  simpa [freqSymbols] using this

theorem building_start (s : State) (h : poolFree s) (hq : s.pq = []) : Building s 0 [] :=
  ⟨Forest.empty h, hq, List.Pairwise.nil⟩

/-- BUILD_TREE's body (R131), for a frequency table whose sum is below 2^64: it ends with the Huffman tree of the table
in the pool, leaves first in symbol order, then the joined nodes in order. -/
theorem buildTreeBody_spec (s : State) (h : freqTotal s < 2 ^ 64) :
    ∃ t, buildTreeBody s = .ok () t ∧
      t = { s with pool := t.pool, root := t.root, leafCount := BitVec.ofNat 9 (freqSymbols s).length,
                   codesValid := false, pq := [], stack := [] } ∧
      poolPrefix t (2 * (freqSymbols s).length - 1) ∧
      (∀ j (hj : j < (freqSymbols s).length), nodeAt t j = leafEntry s ((freqSymbols s)[j])) ∧
      (∀ j, (freqSymbols s).length ≤ j → j < 2 * (freqSymbols s).length - 1 → joinedAt t j) ∧
      (((freqSymbols s).length = 0 ∧ huffmanTree s = none ∧ treeEmpty t) ∨
        (0 < (freqSymbols s).length ∧ t.root = BitVec.ofNat 9 (2 * (freqSymbols s).length - 2) ∧
          ∃ tr, huffmanTree s = some tr ∧ treeIs t tr ∧ tr.leaves.length = (freqSymbols s).length)) := by
  have ecap : pqCap = 256 := rfl
  have encap : nodeCap = 511 := rfl
  have ealph : alphabet = 256 := rfl
  have hn := freqSymbols_length_le s
  have hstart : Building { releasePool s with codesValid := false } 0 [] :=
    building_start _ (poolFree_releasePool s) rfl
  obtain ⟨u, L, a1, a2, a3, a4, a5, a6, a7, a8, a9, a10⟩ := enqueueLeaves_spec (List.range alphabet) _ 0 [] hstart rfl rfl
    rfl (by simp)
  have e1 : present { releasePool s with codesValid := false } (List.range alphabet) = freqSymbols s := rfl
  have e2 : ∀ i, freqAt { releasePool s with codesValid := false } i = freqAt s i := fun _ => rfl
  have e3 : ∀ i, leafEntry { releasePool s with codesValid := false } i = leafEntry s i := fun _ => rfl
  simp only [e1, e2, e3, Nat.zero_add] at a3 a4 a5 a6 a7 a8 a10
  have hw : weightSum L = freqTotal s := by
    rw [a7]
    have := sum_present s (List.range alphabet)
    simp only [weightSum, List.map_nil, List.sum_nil, Nat.zero_add]
    exact this
  have hq : L.map Item.weighted = leafQueue s := a8
  obtain ⟨v, M, b1, b2, b3, b4, b5, b6, b7, b8, b9, b10⟩ := joinLoop_spec u.pq.length u _ L a3
    (by rw [a3.queue]; simp) (by omega) (by omega) (by omega)
  have hlen : u.pq.length = (freqSymbols s).length := by rw [a3.queue, List.length_map, a4]
  have hk : (freqSymbols s).length + (L.length - 1) = 2 * (freqSymbols s).length - 1 := by omega
  rw [hk] at b4 b9 b10
  have hm : M.map Item.weighted = mergeTrees alphabet (leafQueue s) := by
    rw [b7, hq]
    refine mergeTrees_fuel _ _ _ ?_ ?_ <;> rw [← hq, List.length_map] <;> omega
  have hbody : buildTreeBody s = takeRoot v := by
    unfold buildTreeBody
    rw [if_neg (by omega), a1, bind_ok, b1, bind_ok]
  have hv : v = { s with pool := v.pool, pq := v.pq, root := nil, codesValid := false, stack := [],
                         leafCount := BitVec.ofNat 9 (freqSymbols s).length } := by
    unfold buildFrame at a2 b2
    rw [b2, b3, a6, a2]
    rfl
  rcases Nat.eq_zero_or_pos (freqSymbols s).length with h0 | h0
  · have hM : M = [] := List.length_eq_zero_iff.mp (by omega)
    have hpq : v.pq = [] := by rw [b4.queue, hM]; rfl
    have ht : takeRoot v = .ok () v := by unfold takeRoot; rw [if_neg (by simp [hpq])]
    have hroot : v.root = nil := by rw [hv]
    have hfree := b4.forest.allocated
    rw [h0] at hfree
    refine ⟨v, hbody.trans ht, ?_, b4.forest.allocated, fun j hj => by omega, fun j _ hj => by omega,
      .inl ⟨h0, ?_, hroot, by rw [hv, h0], poolFree_of_prefix hfree⟩⟩
    · rw [hpq] at hv
      rw [hroot]
      exact hv
    · rw [hM] at hm; unfold huffmanTree; rw [← hm]; rfl
  · obtain ⟨x, hM⟩ : ∃ x, M = [x] := List.length_eq_one_iff.mp (by omega)
    have hpq : v.pq = [x.entry] := by rw [b4.queue, hM]; rfl
    have ht : takeRoot v = .ok () { v with pq := [], root := x.node } := by
      unfold takeRoot; rw [if_pos (by simp [hpq])]; unfold pqExtractNode; rw [hpq]; rfl
    have hf := b4.forest
    rw [hM] at hf
    have hlast : x.node = BitVec.ofNat 9 (2 * (freqSymbols s).length - 2) := by
      rcases Nat.lt_or_ge 1 (freqSymbols s).length with h1 | h1
      · rcases b10 with b10 | b10
        · have := congrArg List.length b10; omega
        · have := b10 x hM
          rwa [show 2 * (freqSymbols s).length - 1 - 1 = 2 * (freqSymbols s).length - 2 by omega] at this
      · have h1 : (freqSymbols s).length = 1 := by omega
        have hp := hf.nodes
        rw [h1] at hp
        have hmem := poolHolds_mem (hf.items x (by simp)).1
        have := hp.mem_iff.mp (List.mem_flatMap.mpr ⟨x, by simp, hmem⟩)
        simpa [h1] using this
    have hleaves : x.tree.leaves.length = (freqSymbols s).length := by
      rw [hM] at b6
      simp only [leafSum, List.map_cons, List.map_nil, List.sum_cons, List.sum_nil] at b6
      simp only [leafSum] at a5
      omega
    have hjoin : ∀ j, (freqSymbols s).length ≤ j → j < 2 * (freqSymbols s).length - 1 →
        joinedAt { v with pq := [], root := x.node } j :=
      fun j h1 h2 => joinedAt_congr (b9 j h1 h2) (fun _ _ => rfl)
    refine ⟨_, hbody.trans ht, ?_, b4.forest.allocated, ?_, hjoin, .inr ⟨h0, hlast, x.tree, ?_, ?_, hleaves⟩⟩
    · rw [hv]
    · intro j hj
      exact (b8 j hj).trans (a10 j hj)
    · rw [hM] at hm; unfold huffmanTree; rw [← hm]; rfl
    · refine (hf.congr (t := { v with pq := [], root := x.node }) rfl).treeIs rfl ?_ (by omega)
      have hlc : v.leafCount = BitVec.ofNat 9 (freqSymbols s).length := by rw [hv]
      simp only [hlc, hleaves, toNat_ofNat_nine (show (freqSymbols s).length < 512 by omega)]

/-! ### BUILD_CODES -/

/-- The code table after the codes of a list were stored in order, each behind a path (R132). -/
def storeCodes (path : List Bool) (qs : List (Byte × List Bool)) (s : State) : State :=
  qs.foldl (fun s q => setCode q.1.toNat (codeOfList (path ++ q.2)) s) s

theorem storeCodes_append (path : List Bool) (qs rs : List (Byte × List Bool)) (s : State) :
    storeCodes path (qs ++ rs) s = storeCodes path rs (storeCodes path qs s) := by simp [storeCodes]

theorem storeCodes_map (path : List Bool) (b : Bool) (qs : List (Byte × List Bool)) (s : State) :
    storeCodes path (qs.map (fun q => (q.1, b :: q.2))) s = storeCodes (path ++ [b]) qs s := by
  simp [storeCodes, List.foldl_map]

theorem storeCodes_frame (path : List Bool) (qs : List (Byte × List Bool)) (s : State) :
    storeCodes path qs s = { s with code := (storeCodes path qs s).code } := by
  induction qs generalizing s with
  | nil => rfl
  | cons q qs ih =>
    have : storeCodes path (q :: qs) s = storeCodes path qs (setCode q.1.toNat (codeOfList (path ++ q.2)) s) := rfl
    rw [this, ih]
    rfl

theorem storeCodes_pool (path : List Bool) (qs : List (Byte × List Bool)) (s : State) :
    (storeCodes path qs s).pool = s.pool := by rw [storeCodes_frame]

theorem storeCodes_nodeAt (path : List Bool) (qs : List (Byte × List Bool)) (s : State) (i : Nat) :
    nodeAt (storeCodes path qs s) i = nodeAt s i := by unfold nodeAt; rw [storeCodes_pool]

/-- The walk over a tree the pool holds stores the code of every leaf, left first (R132); the path buffer is deep enough. -/
theorem walkCodes_spec : ∀ (t : CodeTree) (n : Nat) (i : NodeIx) (ns : List NodeIx) (path : List Bool) (s : State),
    poolHolds s.pool t i ns → t.height < n → path.length + t.height ≤ maxCodeBits →
    walkCodes n i path s = .ok path (storeCodes path t.paths s) := by
  intro t
  induction t with
  | leaf x =>
    intro n i ns path s h hn _
    obtain ⟨n, rfl⟩ : ∃ m, n = m + 1 := ⟨n - 1, by omega⟩
    have hl : (nodeAt s i.toNat).isLeaf = true := h.2.2.2.1
    have hx : (nodeAt s i.toNat).sym = x := h.2.2.2.2
    simp only [walkCodes, if_neg (poolHolds_ne_nil h), hl, if_true, hx]
    simp [storeCodes, CodeTree.paths]
  | node l r ihl ihr =>
    intro n i ns path s h hn hp
    obtain ⟨n, rfl⟩ : ∃ m, n = m + 1 := ⟨n - 1, by omega⟩
    have hl : (nodeAt s i.toNat).isLeaf = false := poolHolds_not_leaf h
    have hne := poolHolds_ne_nil h
    obtain ⟨nl, nr, _, _, _, gl, gr⟩ := h
    simp only [CodeTree.height] at hn hp
    have hpush : ∀ (b : Bool) (s : State), codePush b path s = .ok (path ++ [b]) s :=
      fun b s => codePush_ok b path s (by omega)
    have h1 := ihl n (nodeAt s i.toNat).left nl (path ++ [false]) s gl (by omega) (by simp; omega)
    have h2 := ihr n (nodeAt s i.toNat).right nr (path ++ [true]) (storeCodes (path ++ [false]) l.paths s)
      (by rw [storeCodes_pool]; exact gr) (by omega) (by simp; omega)
    have hw : walkCodes (n + 1) i path s = ((codePush false path s).bind fun path s =>
      (walkCodes n (nodeAt s i.toNat).left path s).bind fun path s =>
      (codePop path s).bind fun path s =>
      (codePush true path s).bind fun path s =>
      (walkCodes n (nodeAt s i.toNat).right path s).bind fun path s =>
      codePop path s) := by
      simp only [walkCodes, if_neg hne, hl, Bool.false_eq_true, if_false]
    rw [hw, hpush, bind_ok, h1, bind_ok, codePop_append, bind_ok, hpush, bind_ok, storeCodes_nodeAt, h2, bind_ok,
      codePop_append]
    simp only [CodeTree.paths, storeCodes_append, storeCodes_map]

theorem storeCodes_codeAt (qs : List (Byte × List Bool)) (s : State) (x : Byte) :
    codeAt (storeCodes [] qs s) x.toNat =
      match (qs.reverse.find? (fun p => p.1 == x)).map (fun p => p.2) with
      | some p => codeOfList p
      | none => codeAt s x.toNat := by
  induction qs generalizing s with
  | nil => rfl
  | cons q qs ih =>
    have e : storeCodes [] (q :: qs) s = storeCodes [] qs (setCode q.1.toNat (codeOfList q.2) s) := rfl
    rw [e, ih, List.reverse_cons, List.find?_append]
    cases hf : qs.reverse.find? (fun p => p.1 == x) with
    | some p => simp
    | none =>
      simp only [Option.map_none, Option.none_or, List.find?_cons, List.find?_nil, codeAt_setCode]
      by_cases hx : q.1 = x
      · subst hx; simp
      · have : x.toNat ≠ q.1.toNat := fun h => hx (BitVec.eq_of_toNat_eq h.symm)
        have hb : (q.1 == x) = false := by simpa using hx
        simp [hb, this]

/-- An entry holds a code of at most 256 bits exactly when it is that code's entry (R132). -/
theorem codeIs_codeOfList {p : List Bool} (h : p.length ≤ maxCodeBits) : codeIs (codeOfList p) (some p) := by
  refine ⟨codeOfList_len p h, fun j => ?_⟩
  have e : maxCodeBits = 256 := rfl
  simp only [codeOfList, BitVec.getLsbD_setWidth, BitVec.getLsbD_ofBoolListLE, List.getD_eq_getElem?_getD]
  by_cases hj : j < p.length
  · have : j < 256 := by omega
    simp [this]
  · simp [hj]

theorem codeIs_list {e : CodeEntry} {p : List Bool} (h : codeIs e (some p)) : codeList e = p := by
  obtain ⟨h1, h2⟩ := h
  apply List.ext_getElem
  · simp [codeList, h1]
  · intro i h3 h4
    simp only [codeList, List.getElem_map, List.getElem_range, h2, List.getD_eq_getElem?_getD]
    simp [h4]

theorem codeOf_length {t : CodeTree} (hl : t.leaves.length ≤ alphabet) {x : Byte} {p : List Bool}
    (h : t.codeOf x = some p) : 0 < p.length ∧ p.length ≤ maxCodeBits := by
  simp only [CodeTree.codeOf, Option.map_eq_some_iff] at h
  obtain ⟨q, hq, rfl⟩ := h
  have hm := List.mem_of_find?_eq_some hq
  exact codes_length_le t hl q (by simpa using hm)

theorem codesOfTree_spec (s : State) (t : CodeTree) (h : treeIs s t) :
    codesOfTree s = .ok () (storeCodes [] t.codes s) := by
  obtain ⟨ns, h, _, _, _, hl⟩ := h
  have hne := poolHolds_ne_nil h
  have e1 : alphabet = 256 := rfl
  have e2 : maxCodeBits = 256 := rfl
  unfold codesOfTree
  rw [if_neg hne]
  cases t with
  | leaf x =>
    have h1 : (nodeAt s s.root.toNat).isLeaf = true := h.2.2.2.1
    have h2 : (nodeAt s s.root.toNat).sym = x := h.2.2.2.2
    rw [if_pos h1, h2]
    rfl
  | node l r =>
    have h1 : (nodeAt s s.root.toNat).isLeaf = false := poolHolds_not_leaf h
    have hh := height_lt_leaves (.node l r)
    rw [if_neg (by simp [h1]), walkCodes_spec _ _ _ _ _ _ h (by omega) (by simp only [List.length_nil]; omega)]
    rfl

/-- BUILD_CODES' body (R132): only the code table and CODES_VALID change, and the table holds the tree's codes. -/
theorem buildCodesBody_spec (s : State) (t : CodeTree) (h : treeIs s t) :
    ∃ u, buildCodesBody s = .ok () u ∧ u = { s with code := u.code, codesValid := true } ∧ codesAre u t := by
  have h' : treeIs { s with code := [] } t := h
  refine ⟨{ storeCodes [] t.codes { s with code := [] } with codesValid := true }, ?_, ?_, ?_⟩
  · unfold buildCodesBody
    rw [codesOfTree_spec _ t h', bind_ok]
  · rw [storeCodes_frame]
  · intro x
    have hx := storeCodes_codeAt t.codes { s with code := [] } x
    change codeIs (codeAt (storeCodes [] t.codes { s with code := [] }) x.toNat) (t.codeOf x)
    rw [hx]
    change codeIs (match t.codeOf x with | some p => codeOfList p | none => CodeEntry.blank) (t.codeOf x)
    cases hc : t.codeOf x with
    | none => rfl
    | some p => exact codeIs_codeOfList (codeOf_length h.choose_spec.2.2.2.2 hc).2

theorem buildCodesBody_empty (s : State) (h : s.root = nil) :
    buildCodesBody s = .ok () { s with code := [], codesValid := true } := by
  unfold buildCodesBody codesOfTree
  simp [h]

theorem codesAre_length {s : State} {t : CodeTree} (h : codesAre s t) (hl : t.leaves.length ≤ alphabet) (x : Byte) :
    (codeAt s x.toNat).len = 0#9 ↔ t.codeOf x = none := by
  have h := h x
  cases hc : t.codeOf x with
  | none => rw [hc] at h; simp only [codeIs] at h; simp [h, CodeEntry.blank]
  | some p =>
    rw [hc] at h
    obtain ⟨h1, _⟩ := codeOf_length hl hc
    simp only [reduceCtorEq, iff_false]
    intro h0
    have e := h.1
    rw [h0] at e
    simp at e
    omega

theorem codesAre_list {s : State} {t : CodeTree} (h : codesAre s t) {x : Byte} {p : List Bool}
    (hc : t.codeOf x = some p) : codeList (codeAt s x.toNat) = p := by
  have h := h x
  rw [hc] at h
  exact codeIs_list h

theorem codeCount_eq {s : State} {t : CodeTree} (h : codesAre s t) (hl : t.leaves.length ≤ alphabet) :
    codeCount s = t.symbolCount := by
  unfold codeCount CodeTree.symbolCount
  apply List.countP_congr
  intro i hi
  have hi : i < 256 := List.mem_range.mp hi
  have e : (BitVec.ofNat 8 i).toNat = i := by rw [BitVec.toNat_ofNat]; exact Nat.mod_eq_of_lt hi
  have := codesAre_length h hl (BitVec.ofNat 8 i)
  rw [e] at this
  simp [this, Option.isSome_iff_ne_none]

/-- R25: a code table that holds a tree's codes is in form, given every entry beyond the alphabet is blank. -/
theorem codesAre_ok {s : State} {t : CodeTree} (h : codesAre s t) (hl : t.leaves.length ≤ alphabet)
    (hb : ∀ i, alphabet ≤ i → codeAt s i = CodeEntry.blank) : codesOk s := by
  intro i
  rcases Nat.lt_or_ge i alphabet with hi | hi
  · have hi' : i < 256 := hi
    have e : (BitVec.ofNat 8 i).toNat = i := by rw [BitVec.toNat_ofNat]; exact Nat.mod_eq_of_lt hi'
    have h := h (BitVec.ofNat 8 i)
    rw [e] at h
    cases hc : t.codeOf (BitVec.ofNat 8 i) with
    | none => rw [hc] at h; simp only [codeIs] at h; simp [h, CodeEntry.blank]
    | some p =>
      rw [hc] at h
      obtain ⟨h1, h2⟩ := codeOf_length hl hc
      refine ⟨by rw [h.1]; exact h2, fun j hj => ?_⟩
      have := h.1
      rw [h.2 j, List.getD_eq_getElem?_getD, List.getElem?_eq_none (by omega)]
      rfl
  · rw [hb i hi]; simp [CodeEntry.blank]

end Sys2Proof.Machine
end

