-- ==== Sys2Proof/Laws/Serializer.lean ====
section
/-! SUPPORT. The tree serializer: what SERIALIZE_TREE writes for a tree the pool holds, and everything REBUILD_TREE's scan can
do with any bytes. -/

namespace Sys2Proof.Machine

open Sys2Proof

/-! ### SERIALIZE_TREE -/

/-- The post-order walk over a held tree writes the tree's dump from `k` up (R106, R152). -/
theorem postDump_spec : ∀ (t : CodeTree) (n : Nat) (i : NodeIx) (ns : List NodeIx) (k : Nat) (s : State),
    poolHolds s.pool t i ns → t.height < n → k + (t.dump s.cfg).length ≤ maxTreeSize →
    postDump n i k s =
      .ok (k + (t.dump s.cfg).length) { s with dump := storeWriteList 0#8 s.dump k (t.dump s.cfg) } := by
  intro t
  induction t with
  | leaf x =>
    intro n i ns k s h hn hk
    obtain ⟨n, rfl⟩ : ∃ m, n = m + 1 := ⟨n - 1, by omega⟩
    have hl : (nodeAt s i.toNat).isLeaf = true := h.2.2.2.1
    have hx : (nodeAt s i.toNat).sym = x := h.2.2.2.2
    simp only [CodeTree.dump, List.length_cons, List.length_nil] at hk ⊢
    simp only [postDump, if_neg (poolHolds_ne_nil h), hl, if_true, dumpPut]
    rw [if_pos (by omega), bind_ok, if_pos (by omega), bind_ok]
    have hx' : (nodeAt { s with dump := storeWrite 0#8 s.dump k s.cfg.tagLeaf } i.toNat).sym = x := hx
    rw [hx']
    rfl
  | node l r ihl ihr =>
    intro n i ns k s h hn hk
    obtain ⟨n, rfl⟩ : ∃ m, n = m + 1 := ⟨n - 1, by omega⟩
    have hl : (nodeAt s i.toNat).isLeaf = false := poolHolds_not_leaf h
    have hne := poolHolds_ne_nil h
    obtain ⟨nl, nr, _, _, _, gl, gr⟩ := h
    simp only [CodeTree.height] at hn
    simp only [CodeTree.dump, List.length_append, List.length_cons, List.length_nil] at hk ⊢
    have h1 := ihl n (nodeAt s i.toNat).left nl k s gl (by omega) (by omega)
    have h2 := ihr n (nodeAt s i.toNat).right nr (k + (l.dump s.cfg).length)
      { s with dump := storeWriteList 0#8 s.dump k (l.dump s.cfg) } gr (by omega) (by simp only; omega)
    simp only [postDump, if_neg hne, hl, Bool.false_eq_true, if_false]
    have h2' : postDump n (nodeAt { s with dump := storeWriteList 0#8 s.dump k (l.dump s.cfg) } i.toNat).right
        (k + (l.dump s.cfg).length) { s with dump := storeWriteList 0#8 s.dump k (l.dump s.cfg) } = _ := h2
    rw [h1, bind_ok, h2', bind_ok]
    unfold dumpPut
    rw [if_pos (by simp only; omega), bind_ok]
    simp only [storeWriteList_append, storeWriteList, List.length_append]
    congr 1 <;> first | omega | (congr 2; omega)

/-- SERIALIZE_TREE's body on a tree (R152, R153): its dump is in DUMP from byte 0, its length is the value and TREE_SIZE. -/
theorem serializeBody_spec (s : State) (t : CodeTree) (h : treeIs s t) :
    serializeBody s = .ok (t.dump s.cfg).length { s with dump := storeWriteList 0#8 s.dump 0 (t.dump s.cfg),
                                                         treeSize := BitVec.ofNat 16 (t.dump s.cfg).length } := by
  obtain ⟨ns, h, _, _, _, hl⟩ := h
  have hd := dump_length s.cfg t
  have hh := height_lt_leaves t
  have e1 : alphabet = 256 := rfl
  have e2 : nodeCap = 511 := rfl
  have e3 : maxTreeSize = 767 := rfl
  unfold serializeBody
  rw [if_neg (poolHolds_ne_nil h), postDump_spec t nodeCap s.root ns 0 s h (by omega) (by omega), bind_ok]
  simp

theorem serializeBody_empty (s : State) (h : s.root = nil) :
    serializeBody s = .ok 0 { s with treeSize := 0#16 } := by
  unfold serializeBody
  rw [if_pos h]
  rfl

/-! ### The scan -/

/-- What the scan may change. -/
def scanFrame (s t : State) : Prop := t = { s with pool := t.pool, stack := t.stack, leafCount := t.leafCount }

theorem scanFrame_refl (s : State) : scanFrame s s := rfl

theorem scanFrame_trans {s t u : State} (h1 : scanFrame s t) (h2 : scanFrame t u) : scanFrame s u := by
  unfold scanFrame at *
  rw [h2, h1]

/-- The dump bytes that the trees on the stack came from. -/
def dumpOf (c : Config) (L : List Item) : List Byte := L.reverse.flatMap (fun x => x.tree.dump c)

theorem dumpOf_cons (c : Config) (x : Item) (L : List Item) : dumpOf c (x :: L) = dumpOf c L ++ x.tree.dump c := by
  simp [dumpOf]

theorem dumpOf_length (c : Config) (L : List Item) : (dumpOf c L).length + L.length = 3 * leafSum L := by
  induction L with
  | nil => rfl
  | cons x L ih =>
    have := dump_length c x.tree
    rw [dumpOf_cons, List.length_append]
    simp only [leafSum, List.map_cons, List.sum_cons, List.length_cons] at ih ⊢
    omega

/-- Every tree of a forest has twice as many nodes as leaves, less one. -/
theorem Forest.count {s : State} {k : Nat} {L : List Item} (h : Forest s k L) : k + L.length = 2 * leafSum L := by
  have hlen := h.nodes.length_eq
  simp only [List.length_map, List.length_range] at hlen
  rw [← hlen]
  have : ∀ M : List Item, (∀ x ∈ M, x ∈ L) → (M.flatMap Item.nodes).length + M.length = 2 * leafSum M := by
    intro M
    induction M with
    | nil => intro _; rfl
    | cons x M ih =>
      intro hM
      have h1 := poolHolds_length (h.items x (hM x (by simp))).1
      have h2 := ih (fun y hy => hM y (by simp [hy]))
      simp only [List.flatMap_cons, List.length_append, List.length_cons, leafSum, List.map_cons, List.sum_cons] at h2 ⊢
      omega
  exact this L (fun _ hx => hx)

theorem length_le_leafSum (L : List Item) : L.length ≤ leafSum L := by
  induction L with
  | nil => exact Nat.zero_le _
  | cons x L ih =>
    have := leaves_pos x.tree
    simp only [leafSum, List.map_cons, List.sum_cons, List.length_cons] at ih ⊢
    omega

/-- The scan's state: the trees built so far are on the stack, the last one first. -/
structure Scanning (s : State) (k : Nat) (L : List Item) : Prop where
  forest : Forest s k L
  stack : s.stack = L.map Item.node
  count : s.leafCount.toNat = leafSum L

theorem bv9_succ {v : BitVec 9} {n : Nat} (h : v.toNat = n) (hn : n + 1 < 512) : (v + 1#9).toNat = n + 1 := by
  rw [BitVec.toNat_add, h]
  exact Nat.mod_eq_of_lt hn

/-- A leaf record: one more tree on the stack, in the next node. -/
theorem leafRecord_spec (sym : Byte) (s : State) (k : Nat) (L : List Item) (h : Scanning s k L)
    (hb : 3 * leafSum L + 2 ≤ maxTreeSize + L.length) :
    ∃ u, leafRecord sym s = .ok () u ∧ scanFrame s u ∧
      Scanning u (k + 1) (⟨BitVec.ofNat 9 k, 0, .leaf sym, [BitVec.ofNat 9 k]⟩ :: L) := by
  have e1 : maxTreeSize = 767 := rfl
  have e2 : nodeCap = 511 := rfl
  have e3 : stackCap = 767 := rfl
  have hc := h.forest.count
  have hle := length_le_leafSum L
  have hk : k < nodeCap := by omega
  have ha := allocNode_prefix sym 0#64 nil nil s k hk h.forest.allocated
  have hf := h.forest.addLeaf hk sym 0#64
  refine ⟨{ s with pool := storeWrite NodeEntry.blank s.pool k ⟨true, sym, 0#64, nil, nil⟩,
                   stack := BitVec.ofNat 9 k :: s.stack, leafCount := s.leafCount + 1#9 }, ?_, rfl, hf.congr rfl, ?_, ?_⟩
  · unfold leafRecord
    rw [ha, bind_ok]
    unfold pushNode
    have : s.stack.length ≠ stackCap := by rw [h.stack, List.length_map]; omega
    rw [if_neg this, bind_ok]
  · simp only [h.stack, List.map_cons]
  · simp only [leafSum, List.map_cons, List.sum_cons, CodeTree.leaves, List.length_singleton]
    rw [bv9_succ h.count (by omega), Nat.add_comm]
    rfl

/-- An interior record with two trees on the stack: they are joined in the next node, the lower one on the left. -/
theorem interiorRecord_spec (s : State) (k : Nat) (r l : Item) (L : List Item) (h : Scanning s k (r :: l :: L))
    (hb : 3 * leafSum (r :: l :: L) + 1 ≤ maxTreeSize + (r :: l :: L).length) :
    ∃ u, interiorRecord s = .ok () u ∧ scanFrame s u ∧
      Scanning u (k + 1) (⟨BitVec.ofNat 9 k, 0, .node l.tree r.tree, l.nodes ++ r.nodes ++ [BitVec.ofNat 9 k]⟩ :: L) := by
  have e1 : maxTreeSize = 767 := rfl
  have e2 : nodeCap = 511 := rfl
  have e3 : stackCap = 767 := rfl
  have hc := h.forest.count
  have hle := length_le_leafSum (r :: l :: L)
  simp only [List.length_cons] at hb hc hle
  have hk : k < nodeCap := by omega
  have hst := h.stack
  simp only [List.map_cons] at hst
  have hF : Forest s k (l :: r :: L) := h.forest.perm (List.Perm.swap r l L)
  have hf := hF.join hk 0x00#8 0 (by decide)
  refine ⟨{ s with pool := storeWrite NodeEntry.blank s.pool k ⟨true, 0x00#8, 0#64, l.node, r.node⟩,
                   stack := BitVec.ofNat 9 k :: L.map Item.node }, ?_, rfl, hf.congr rfl, rfl, ?_⟩
  · unfold interiorRecord
    rw [if_neg (by rw [hst]; simp)]
    have p1 : popNode s = .ok r.node { s with stack := l.node :: L.map Item.node } := by unfold popNode; rw [hst]
    have p2 : popNode { s with stack := l.node :: L.map Item.node } = .ok l.node { s with stack := L.map Item.node } :=
      rfl
    have hpre : poolPrefix { s with stack := L.map Item.node } k := h.forest.allocated
    have ha := allocNode_prefix 0x00#8 0#64 l.node r.node { s with stack := L.map Item.node } k hk hpre
    rw [p1, bind_ok, p2, bind_ok, ha, bind_ok]
    unfold pushNode
    rw [if_neg (by simp only [List.length_map]; omega)]
  · have := h.count
    simp only [leafSum, List.map_cons, List.sum_cons, CodeTree.leaves, List.length_append] at this ⊢
    omega

theorem dumpFault_nil (c : Config) (d : Nat) : dumpFault c d [] = if d ≤ 1 then none else some .dumpLeftover := by
  unfold dumpFault; rfl

theorem dumpFault_cut (c : Config) (d : Nat) : dumpFault c d [c.tagLeaf] = some .leafRecordCut := by
  unfold dumpFault; rw [if_pos rfl]

theorem dumpFault_leaf (c : Config) (d : Nat) (x : Byte) (xs : List Byte) :
    dumpFault c d (c.tagLeaf :: x :: xs) = dumpFault c (d + 1) xs := by
  conv => lhs; unfold dumpFault
  rw [if_pos rfl]

theorem dumpFault_interior {c : Config} (d : Nat) {b : Byte} (bs : List Byte) (h1 : b ≠ c.tagLeaf)
    (h2 : b = c.tagInterior) :
    dumpFault c d (b :: bs) = if d < 2 then some .stackUnderflow else dumpFault c (d - 1) bs := by
  conv => lhs; unfold dumpFault
  rw [if_neg h1, if_pos h2]

theorem dumpFault_badTag {c : Config} (d : Nat) {b : Byte} (bs : List Byte) (h1 : b ≠ c.tagLeaf)
    (h2 : b ≠ c.tagInterior) : dumpFault c d (b :: bs) = some .badTag := by
  unfold dumpFault
  rw [if_neg h1, if_neg h2]

/-- Everything the scan can do with any bytes that fit DUMP: it ends with the trees of exactly those bytes on the stack, or it
raises the error its bytes meet first, one of three causes (R155, R242, R247). -/
theorem scanDump_spec (n : Nat) : ∀ (bs : List Byte) (s : State) (k : Nat) (L : List Item), bs.length ≤ n →
    Scanning s k L → 3 * leafSum L + bs.length ≤ maxTreeSize + L.length →
    (∃ t k' L', scanDump bs s = .ok () t ∧ scanFrame s t ∧ Scanning t k' L' ∧
      dumpOf s.cfg L' = dumpOf s.cfg L ++ bs ∧ dumpFault s.cfg L.length bs = dumpFault s.cfg L'.length []) ∨
    (∃ c t, scanDump bs s = .raised c t ∧ scanFrame s t ∧
      (c = .badTag ∨ c = .stackUnderflow ∨ c = .leafRecordCut) ∧ dumpFault s.cfg L.length bs = some c) := by
  induction n with
  | zero =>
    intro bs s k L hn h _
    have : bs = [] := List.length_eq_zero_iff.mp (by omega)
    subst this
    exact .inl ⟨s, k, L, by unfold scanDump; rfl, rfl, h, by simp, rfl⟩
  | succ n ih =>
    intro bs s k L hn h hb
    match bs, hn, hb with
    | [], _, _ => exact .inl ⟨s, k, L, by unfold scanDump; rfl, rfl, h, by simp, rfl⟩
    | b :: bs, hn, hb =>
      simp only [List.length_cons] at hn hb
      by_cases h1 : b = s.cfg.tagLeaf
      · match bs, hn, hb with
        | [], _, _ => exact .inr ⟨.leafRecordCut, s, by unfold scanDump; rw [if_pos h1], rfl, by simp, by rw [h1, dumpFault_cut]⟩
        | x :: xs, hn, hb =>
          simp only [List.length_cons] at hn hb
          obtain ⟨u, g1, g2, g3⟩ := leafRecord_spec x s k L h (by omega)
          have e : scanDump (b :: x :: xs) s = scanDump xs u := by
            conv => lhs; unfold scanDump
            rw [if_pos h1]
            simp only [g1, bind_ok]
          have hcfg : u.cfg = s.cfg := by rw [g2]
          have hd : dumpOf s.cfg (⟨BitVec.ofNat 9 k, 0, .leaf x, [BitVec.ofNat 9 k]⟩ :: L) = dumpOf s.cfg L ++ [b, x] := by
            rw [dumpOf_cons, h1]; rfl
          have hft : dumpFault s.cfg L.length (b :: x :: xs) = dumpFault s.cfg (L.length + 1) xs := by
            rw [h1, dumpFault_leaf]
          rcases ih xs u _ _ (by omega) g3 (by
            simp only [leafSum, List.map_cons, List.sum_cons, CodeTree.leaves, List.length_cons, List.length_nil] at hb ⊢
            omega) with
            ⟨t, k', L', q1, q2, q3, q4, q5⟩ | ⟨c, t, q1, q2, q3, q5⟩
          · rw [hcfg, hd] at q4
            rw [hcfg] at q5
            exact .inl ⟨t, k', L', e.trans q1, scanFrame_trans g2 q2, q3, by rw [q4]; simp, hft.trans q5⟩
          · rw [hcfg] at q5
            exact .inr ⟨c, t, e.trans q1, scanFrame_trans g2 q2, q3, hft.trans q5⟩
      · by_cases h2 : b = s.cfg.tagInterior
        · have e0 : scanDump (b :: bs) s = (interiorRecord s).bind fun _ s => scanDump bs s := by
            conv => lhs; unfold scanDump
            rw [if_neg h1, if_pos h2]
          match L, h, hb with
          | [], h, _ =>
            refine .inr ⟨.stackUnderflow, s, ?_, rfl, by simp, dumpFault_interior _ _ h1 h2⟩
            rw [e0]; unfold interiorRecord; rw [if_pos (by rw [h.stack]; simp)]; rfl
          | [y], h, _ =>
            refine .inr ⟨.stackUnderflow, s, ?_, rfl, by simp, dumpFault_interior _ _ h1 h2⟩
            rw [e0]; unfold interiorRecord; rw [if_pos (by rw [h.stack]; simp)]; rfl
          | r :: l :: L, h, hb =>
            obtain ⟨u, g1, g2, g3⟩ := interiorRecord_spec s k r l L h (by omega)
            have hcfg : u.cfg = s.cfg := by rw [g2]
            rw [g1, bind_ok] at e0
            have hd : dumpOf s.cfg (⟨BitVec.ofNat 9 k, 0, .node l.tree r.tree,
                l.nodes ++ r.nodes ++ [BitVec.ofNat 9 k]⟩ :: L) = dumpOf s.cfg (r :: l :: L) ++ [b] := by
              simp only [dumpOf_cons, CodeTree.dump, h2, List.append_assoc]
            have hft : dumpFault s.cfg (r :: l :: L).length (b :: bs) = dumpFault s.cfg (L.length + 1) bs := by
              rw [dumpFault_interior _ _ h1 h2, if_neg (by simp)]
              rfl
            rcases ih bs u _ _ (by omega) g3 (by
              simp only [leafSum, List.map_cons, List.sum_cons, CodeTree.leaves, List.length_cons, List.length_append]
                at hb ⊢
              omega) with
              ⟨t, k', L', q1, q2, q3, q4, q5⟩ | ⟨c, t, q1, q2, q3, q5⟩
            · rw [hcfg, hd] at q4
              rw [hcfg] at q5
              exact .inl ⟨t, k', L', e0.trans q1, scanFrame_trans g2 q2, q3, by rw [q4]; simp, hft.trans q5⟩
            · rw [hcfg] at q5
              exact .inr ⟨c, t, e0.trans q1, scanFrame_trans g2 q2, q3, hft.trans q5⟩
        · exact .inr ⟨.badTag, s, by unfold scanDump; rw [if_neg h1, if_neg h2], rfl, by simp, dumpFault_badTag _ _ h1 h2⟩

/-- The scan of a tree's dump puts that tree on the stack, in the next nodes in post-order (R158). -/
theorem scanDump_dump : ∀ (tr : CodeTree) (rest : List Byte) (s : State) (k : Nat) (L : List Item), s.cfg.wf →
    Scanning s k L → 3 * leafSum L + (tr.dump s.cfg).length ≤ maxTreeSize + L.length →
    ∃ u, scanDump (tr.dump s.cfg ++ rest) s = scanDump rest u ∧ scanFrame s u ∧
      Scanning u (k + (2 * tr.leaves.length - 1)) (⟨BitVec.ofNat 9 (k + (2 * tr.leaves.length - 2)), 0, tr,
        (List.range' k (2 * tr.leaves.length - 1)).map (BitVec.ofNat 9)⟩ :: L) := by
  intro tr
  induction tr with
  | leaf x =>
    intro rest s k L hc h hb
    obtain ⟨u, g1, g2, g3⟩ := leafRecord_spec x s k L h (by simpa [CodeTree.dump] using hb)
    refine ⟨u, ?_, g2, g3⟩
    simp only [CodeTree.dump, List.cons_append, List.nil_append]
    conv => lhs; unfold scanDump
    simp only [if_true, g1, bind_ok]
  | node l r ihl ihr =>
    intro rest s k L hc h hb
    have hl0 := leaves_pos l
    have hr0 := leaves_pos r
    have dl := dump_length s.cfg l
    have dr := dump_length s.cfg r
    simp only [CodeTree.dump, List.length_append, List.length_singleton] at hb
    obtain ⟨u, a1, a2, a3⟩ := ihl (r.dump s.cfg ++ ([s.cfg.tagInterior] ++ rest)) s k L hc h (by omega)
    have cu : u.cfg = s.cfg := by rw [a2]
    obtain ⟨v, b1, b2, b3⟩ := ihr ([s.cfg.tagInterior] ++ rest) u _ _ (by rw [cu]; exact hc) a3 (by
      rw [cu]
      simp only [leafSum, List.map_cons, List.sum_cons, List.length_cons] at hb ⊢
      omega)
    have cv : v.cfg = s.cfg := by rw [b2]; exact cu
    rw [cu] at b1
    obtain ⟨w, c1, c2, c3⟩ := interiorRecord_spec v _ _ _ _ b3 (by
      simp only [leafSum, List.map_cons, List.sum_cons, List.length_cons] at hb ⊢
      omega)
    refine ⟨w, ?_, scanFrame_trans (scanFrame_trans a2 b2) c2, ?_⟩
    · simp only [CodeTree.dump, List.append_assoc]
      rw [a1, b1]
      simp only [List.cons_append, List.nil_append]
      conv => lhs; unfold scanDump
      rw [cv, if_neg hc.symm, if_pos rfl, c1, bind_ok]
    · have e1 : k + (2 * l.leaves.length - 1) + (2 * r.leaves.length - 1) + 1 =
          k + (2 * (CodeTree.node l r).leaves.length - 1) := by simp [CodeTree.leaves]; omega
      have e2 : k + (2 * l.leaves.length - 1) + (2 * r.leaves.length - 1) =
          k + (2 * (CodeTree.node l r).leaves.length - 2) := by simp [CodeTree.leaves]; omega
      have e3 : List.map (BitVec.ofNat 9) (List.range' k (2 * l.leaves.length - 1)) ++
          List.map (BitVec.ofNat 9) (List.range' (k + (2 * l.leaves.length - 1)) (2 * r.leaves.length - 1)) ++
          [BitVec.ofNat 9 (k + (2 * (CodeTree.node l r).leaves.length - 2))] =
          (List.range' k (2 * (CodeTree.node l r).leaves.length - 1)).map (BitVec.ofNat 9) := by
        rw [← List.map_append, List.range'_append_1]
        have : 2 * (CodeTree.node l r).leaves.length - 1 =
          (2 * l.leaves.length - 1 + (2 * r.leaves.length - 1)) + 1 := by simp [CodeTree.leaves]; omega
        rw [this, List.range'_concat, List.map_append, ← e2]
        simp
        congr 1
        omega
      dsimp only at c3
      rw [e1, e2, e3] at c3
      exact c3

/-! ### REBUILD_TREE -/

theorem dumpBytes_length (n : Nat) (s : State) : (dumpBytes n s).length = n := by simp [dumpBytes]

theorem scanning_start (s : State) : Scanning { releasePool s with codesValid := false } 0 [] :=
  ⟨Forest.empty (poolFree_releasePool s), rfl, rfl⟩

/-- What REBUILD_TREE's body may change. -/
def rebuildFrame (s t : State) : Prop :=
  t = { s with pool := t.pool, root := t.root, leafCount := t.leafCount, codesValid := false, pq := [], stack := [] }

theorem rollback_ok_iff {r : Res Unit} {t : State} : rollback r = .ok () t ↔ r = .ok () t := by
  cases r <;> simp [rollback]

/-- Everything REBUILD_TREE's body can do with a dump that fits (R155, R156, R242, R247): the tree whose dump the bytes are,
the empty tree for no bytes, or the first error of the scan, one of four causes, with the pool released. -/
theorem rebuildBody_spec (s : State) (h : s.treeSize.toNat ≤ maxTreeSize) :
    (∃ t tr, rebuildBody s = .ok () t ∧ rebuildFrame s t ∧ treeIs t tr ∧
      tr.dump s.cfg = dumpBytes s.treeSize.toNat s ∧ dumpFault s.cfg 0 (dumpBytes s.treeSize.toNat s) = none) ∨
    (∃ t, s.treeSize.toNat = 0 ∧ rebuildBody s = .ok () t ∧ rebuildFrame s t ∧ treeEmpty t) ∨
    (∃ c t, rebuildBody s = .raised c t ∧ rebuildFrame s t ∧ treeEmpty t ∧
      (c = .badTag ∨ c = .stackUnderflow ∨ c = .leafRecordCut ∨ c = .dumpLeftover) ∧
      dumpFault s.cfg 0 (dumpBytes s.treeSize.toNat s) = some c) := by
  have e1 : maxTreeSize = 767 := rfl
  have ealph : alphabet = 256 := rfl
  have hbody : ∀ r, scanDump (dumpBytes s.treeSize.toNat s) { releasePool s with codesValid := false } = r →
      rebuildBody s = rollback (r.bind fun _ s => finishScan s) := by
    rintro r rfl
    unfold rebuildBody
    rw [if_neg (by omega)]
  rcases scanDump_spec _ (dumpBytes s.treeSize.toNat s) _ 0 [] le_rfl (scanning_start s)
    (by simp only [dumpBytes_length, leafSum]; simp; omega) with
    ⟨t, k, L, g1, g2, g3, g4, g5⟩ | ⟨c, t, g1, g2, g3, g5⟩
  · have hb := hbody _ g1
    rw [bind_ok] at hb
    have hd : dumpOf s.cfg L = dumpBytes s.treeSize.toNat s := by simpa [dumpOf] using g4
    have hlen := congrArg List.length hd
    rw [dumpBytes_length] at hlen
    have hdl := dumpOf_length s.cfg L
    unfold scanFrame at g2
    match L, g3, hd, hdl, hlen, g5 with
    | [], g3, hd, _, hlen, _ =>
      right; left
      have hst : t.stack = [] := g3.stack
      have hf : finishScan t = .ok () { t with root := nil } := by unfold finishScan; rw [if_pos (by simp [hst])]
      rw [hf] at hb
      have hk : k = 0 := by simpa [leafSum] using g3.forest.count
      refine ⟨_, ?_, hb, ?_, rfl, ?_, ?_⟩
      · simpa [dumpOf] using hlen.symm
      · have hpq : t.pq = [] := by rw [g2]; rfl
        unfold rebuildFrame
        rw [g2]
        simp only [hst]
        rfl
      · exact BitVec.eq_of_toNat_eq (by simpa [leafSum] using g3.count)
      · have := g3.forest.allocated
        rw [hk] at this
        exact poolFree_of_prefix this
    | [x], g3, hd, hdl, hlen, g5 =>
      left
      have hst : t.stack = [x.node] := g3.stack
      have hf : finishScan t = .ok () { t with root := x.node, stack := [] } := by
        unfold finishScan; rw [if_neg (by simp [hst]), if_pos (by simp [hst])]; unfold popNode; rw [hst]; rfl
      rw [hf] at hb
      have hxd : x.tree.dump s.cfg = dumpBytes s.treeSize.toNat s := by simpa [dumpOf] using hd
      have hl : x.tree.leaves.length ≤ alphabet := by
        have h1 := dump_length s.cfg x.tree
        have h2 := congrArg List.length hxd
        rw [dumpBytes_length] at h2
        omega
      refine ⟨_, x.tree, hb, ?_, ?_, hxd, g5.trans (dumpFault_nil _ _)⟩
      · unfold rebuildFrame
        rw [g2]
        rfl
      · refine (g3.forest.congr (t := { t with root := x.node, stack := [] }) rfl).treeIs rfl ?_ hl
        have := g3.count
        simpa [leafSum] using this
    | x :: y :: L, g3, _, _, _, g5 =>
      right; right
      have hst : t.stack = x.node :: y.node :: L.map Item.node := g3.stack
      have hf : finishScan t = .raised .dumpLeftover t := by
        unfold finishScan; rw [if_neg (by simp [hst]), if_neg (by simp [hst])]
      rw [hf] at hb
      refine ⟨_, _, hb, ?_, ⟨rfl, rfl, poolFree_releasePool t⟩, by simp, g5.trans ?_⟩; swap; · rw [dumpFault_nil, if_neg (by simp)]
      unfold rebuildFrame
      rw [g2]
      rfl
  · right; right
    have hb := hbody _ g1
    unfold scanFrame at g2
    refine ⟨c, _, hb, ?_, ⟨rfl, rfl, poolFree_releasePool t⟩, by rcases g3 with h | h | h <;> simp [h], g5⟩
    unfold rebuildFrame
    rw [g2]
    rfl

/-- REBUILD_TREE's body on a tree's dump (R155, R158): that tree, its nodes 0, 1, … in post-order. -/
theorem rebuildBody_dump (s : State) (tr : CodeTree) (hc : s.cfg.wf)
    (hd : dumpBytes s.treeSize.toNat s = tr.dump s.cfg) (h : s.treeSize.toNat ≤ maxTreeSize) :
    ∃ t, rebuildBody s = .ok () t ∧ rebuildFrame s t ∧ treeIs t tr ∧
      t.root = BitVec.ofNat 9 (2 * tr.leaves.length - 2) ∧ poolPrefix t (2 * tr.leaves.length - 1) ∧
      poolHolds t.pool tr t.root ((List.range (2 * tr.leaves.length - 1)).map (BitVec.ofNat 9)) ∧
      t.leafCount.toNat = tr.leaves.length := by
  have e1 : maxTreeSize = 767 := rfl
  have ealph : alphabet = 256 := rfl
  have hlen := congrArg List.length hd
  rw [dumpBytes_length] at hlen
  have hdl := dump_length s.cfg tr
  obtain ⟨u, g1, g2, g3⟩ := scanDump_dump tr [] { releasePool s with codesValid := false } 0 [] hc (scanning_start s)
    (by
      have : (tr.dump ({ releasePool s with codesValid := false } : State).cfg).length = (tr.dump s.cfg).length := rfl
      rw [this]; simp only [leafSum]; simp; omega)
  have g1' : scanDump (dumpBytes s.treeSize.toNat s) { releasePool s with codesValid := false } = .ok () u := by
    rw [List.append_nil] at g1
    rw [hd]
    refine g1.trans ?_
    unfold scanDump; rfl
  have hst : u.stack = [BitVec.ofNat 9 (2 * tr.leaves.length - 2)] := by
    have := g3.stack
    simpa using this
  have hf : finishScan u = .ok () { u with root := BitVec.ofNat 9 (2 * tr.leaves.length - 2), stack := [] } := by
    unfold finishScan; rw [if_neg (by simp [hst]), if_pos (by simp [hst])]; unfold popNode; rw [hst]; rfl
  have hb : rebuildBody s = .ok () { u with root := BitVec.ofNat 9 (2 * tr.leaves.length - 2), stack := [] } := by
    unfold rebuildBody
    rw [if_neg (by omega), g1', bind_ok, hf]
    rfl
  have hcount : u.leafCount.toNat = tr.leaves.length := by
    have := g3.count
    simpa [leafSum] using this
  have hF := g3.forest.congr (t := { u with root := BitVec.ofNat 9 (2 * tr.leaves.length - 2), stack := [] }) rfl
  refine ⟨_, hb, ?_, ?_, rfl, ?_, ?_, hcount⟩
  · unfold scanFrame at g2
    unfold rebuildFrame
    rw [g2]
    rfl
  · refine hF.treeIs ?_ hcount (by simp only; omega)
    simp
  · have := hF.allocated
    simpa using this
  · have := (hF.items _ List.mem_cons_self).1
    simpa [List.range_eq_range'] using this

end Sys2Proof.Machine
end

