-- ==== Sys2Proof/Laws/Codec.lean ====
section
/-! SUPPORT. The container codec: the header's bytes, the payload of ENCODE against the tree's codes, the payload of DECODE
against the pure decoder, and the symbols of the Huffman tree. -/

namespace Sys2Proof.Machine

open Sys2Proof

/-! ### Little-endian numbers -/

theorem leBytes_length (n v : Nat) : (leBytes n v).length = n := by simp [leBytes]

theorem leBytes_succ (n v : Nat) : leBytes (n + 1) v = BitVec.ofNat 8 v :: leBytes n (v / 256) := by
  unfold leBytes
  rw [List.range_succ_eq_map]
  simp only [List.map_cons, List.map_map, pow_zero, Nat.div_one]
  congr 1
  apply List.map_congr_left
  intro i _
  simp only [Function.comp, Nat.succ_eq_add_one, pow_succ]
  rw [Nat.div_div_eq_div_mul, Nat.mul_comm]

/-- R11: reading a little-endian number back gives it, modulo its size. -/
theorem rdle_leBytes (n : Nat) : ∀ v, rdle (leBytes n v) = v % 256 ^ n := by
  induction n with
  | zero => intro v; simp [leBytes, rdle, Nat.mod_one]
  | succ n ih =>
    intro v
    have e : 256 ^ (n + 1) = 256 * 256 ^ n := by rw [pow_succ, Nat.mul_comm]
    rw [leBytes_succ, rdle, ih, BitVec.toNat_ofNat, e, Nat.mod_mul]

theorem headerBytes_length (s : State) : (headerBytes s).length = headerSize := by
  simp [headerBytes, leBytes_length]

/-- DECODE's header step on a header ENCODE wrote (R102, R220). -/
theorem decodeHeader_header (s t : State) (rest : List Byte) (h : inRest s = headerBytes t ++ rest)
    (hc : s.cfg = t.cfg) :
    ∃ u, decodeHeader s = .ok () u ∧ inRest u = rest ∧
      u = { s with inPos := s.inPos + 16, inCount := s.inCount + 16#64, permissions := t.permissions,
                   treeSize := t.treeSize, origSize := t.origSize } := by
  have hl := headerBytes_length t
  have hb : inReadBytes headerSize s = headerBytes t := by
    unfold inReadBytes
    rw [h, List.take_left' hl]
  have e4 := leBytes_length 4 t.cfg.magic.toNat
  have e2 := leBytes_length 2 t.permissions.toNat
  have e2' := leBytes_length 2 t.treeSize.toNat
  have e8 := leBytes_length 8 t.origSize.toNat
  have t4 : (headerBytes t).take 4 = leBytes 4 t.cfg.magic.toNat := by
    unfold headerBytes; simp only [List.append_assoc]; exact List.take_left' e4
  have d4 : (headerBytes t).drop 4 = leBytes 2 t.permissions.toNat ++ (leBytes 2 t.treeSize.toNat ++
      leBytes 8 t.origSize.toNat) := by
    unfold headerBytes; simp only [List.append_assoc]; exact List.drop_left' e4
  have d6 : (headerBytes t).drop 6 = leBytes 2 t.treeSize.toNat ++ leBytes 8 t.origSize.toNat := by
    have : (headerBytes t).drop 6 = ((headerBytes t).drop 4).drop 2 := by rw [List.drop_drop]
    rw [this, d4]; exact List.drop_left' e2
  have d8 : (headerBytes t).drop 8 = leBytes 8 t.origSize.toNat := by
    have : (headerBytes t).drop 8 = ((headerBytes t).drop 6).drop 2 := by rw [List.drop_drop]
    rw [this, d6]; exact List.drop_left' e2'
  refine ⟨storeHeader (headerBytes t) (inReadState headerSize s), ?_, ?_, ?_⟩
  · unfold decodeHeader
    simp only [hb, hl, lt_irrefl, if_false, t4, rdle_leBytes]
    have hm : BitVec.ofNat 32 (t.cfg.magic.toNat % 256 ^ 4) = t.cfg.magic := by
      apply BitVec.eq_of_toNat_eq
      have := t.cfg.magic.isLt
      rw [BitVec.toNat_ofNat]
      omega
    have hm' : ¬ BitVec.ofNat 32 (t.cfg.magic.toNat % 256 ^ 4) ≠ s.cfg.magic := by
      rw [hm, hc]; simp
    rw [if_neg hm']
  · have : inRest (storeHeader (headerBytes t) (inReadState headerSize s)) = inRest (inReadState headerSize s) := rfl
    rw [this, inRest_inReadState, h]
    exact List.drop_left' hl
  · unfold storeHeader inReadState
    rw [hb, hl]
    simp only [d4, d6, d8]
    rw [List.take_left' e2, List.take_left' e2', List.take_of_length_le (by omega)]
    simp only [rdle_leBytes]
    have p1 : BitVec.ofNat 16 (t.permissions.toNat % 256 ^ 2) = t.permissions := by
      apply BitVec.eq_of_toNat_eq; have := t.permissions.isLt; rw [BitVec.toNat_ofNat]; omega
    have p2 : BitVec.ofNat 16 (t.treeSize.toNat % 256 ^ 2) = t.treeSize := by
      apply BitVec.eq_of_toNat_eq; have := t.treeSize.isLt; rw [BitVec.toNat_ofNat]; omega
    have p3 : BitVec.ofNat 64 (t.origSize.toNat % 256 ^ 8) = t.origSize := by
      apply BitVec.eq_of_toNat_eq; have := t.origSize.isLt; rw [BitVec.toNat_ofNat]; omega
    rw [p1, p2, p3]

/-- Everything DECODE's header step can do (R220). -/
theorem decodeHeader_cases (s : State) :
    ((inRest s).length < headerSize ∧ decodeHeader s = .raised .headerShort (inReadState headerSize s)) ∨
    (headerSize ≤ (inRest s).length ∧ BitVec.ofNat 32 (rdle ((inRest s).take 4)) ≠ s.cfg.magic ∧
      decodeHeader s = .raised .badMagic (inReadState headerSize s)) ∨
    (headerSize ≤ (inRest s).length ∧ BitVec.ofNat 32 (rdle ((inRest s).take 4)) = s.cfg.magic ∧
      decodeHeader s = .ok () (storeHeader (inReadBytes headerSize s) (inReadState headerSize s))) := by
  have hlen := inReadBytes_length headerSize s
  have e : headerSize = 16 := rfl
  have ht : (inReadBytes headerSize s).take 4 = (inRest s).take 4 := by
    unfold inReadBytes; rw [List.take_take]; rfl
  unfold decodeHeader
  simp only [ht]
  by_cases h1 : (inRest s).length < headerSize
  · left
    refine ⟨h1, ?_⟩
    rw [if_pos (by omega)]
  · right
    rw [if_neg (by omega)]
    by_cases h2 : BitVec.ofNat 32 (rdle ((inRest s).take 4)) = s.cfg.magic
    · right
      refine ⟨by omega, h2, ?_⟩
      rw [if_neg (by simpa using h2)]
    · left
      refine ⟨by omega, h2, ?_⟩
      rw [if_pos (by simpa using h2)]

/-- Everything DECODE's dump step can do (R220). -/
theorem decodeDump_cases (s : State) :
    (maxTreeSize < s.treeSize.toNat ∧ decodeDump s = .raised .treeSizeRange s) ∨
    (s.treeSize.toNat ≤ maxTreeSize ∧ ∃ u, u = { s with
        inPos := s.inPos + (inReadBytes s.treeSize.toNat s).length,
        inCount := s.inCount + BitVec.ofNat 64 (inReadBytes s.treeSize.toNat s).length,
        dump := storeWriteList 0#8 s.dump 0 ((inRest s).take s.treeSize.toNat) } ∧
      inRest u = (inRest s).drop s.treeSize.toNat ∧
      (((inRest s).length < s.treeSize.toNat ∧ decodeDump s = .raised .dumpShort u) ∨
        (s.treeSize.toNat ≤ (inRest s).length ∧ decodeDump s = .ok () u ∧
          dumpBytes s.treeSize.toNat u = (inRest s).take s.treeSize.toNat))) := by
  unfold decodeDump
  by_cases h1 : s.treeSize.toNat > maxTreeSize
  · left; exact ⟨h1, by rw [if_pos h1]⟩
  · right
    refine ⟨by omega, _, rfl, inRest_inReadState _ s, ?_⟩
    rw [if_neg h1]
    have hlen := inReadBytes_length s.treeSize.toNat s
    by_cases h2 : (inRest s).length < s.treeSize.toNat
    · left
      have hc : (inReadBytes s.treeSize.toNat s).length < s.treeSize.toNat := by omega
      refine ⟨h2, ?_⟩
      rw [if_pos hc]
      rfl
    · right
      have hc : ¬ (inReadBytes s.treeSize.toNat s).length < s.treeSize.toNat := by omega
      refine ⟨by omega, ?_, ?_⟩
      · rw [if_neg hc]
        rfl
      · have hl : ((inRest s).take s.treeSize.toNat).length = s.treeSize.toNat := by
          rw [List.length_take]; omega
        have := storeTake_writeList 0#8 s.dump ((inRest s).take s.treeSize.toNat)
        rw [hl] at this
        exact this

/-! ### The pure decoder -/

theorem decodeBits_zero (t : CodeTree) (bs : List Bool) (cur : CodeTree) : t.decodeBits bs 0 cur = ([], none) := by
  unfold CodeTree.decodeBits; rfl

theorem decodeBits_nil (t : CodeTree) (n : Nat) (cur : CodeTree) :
    t.decodeBits [] (n + 1) cur = ([], some .payloadShort) := by
  unfold CodeTree.decodeBits; rfl

theorem decodeBits_leaf (x : Byte) (b : Bool) (bs : List Bool) (n : Nat) (cur : CodeTree) :
    (CodeTree.leaf x).decodeBits (b :: bs) (n + 1) cur =
      if b then ([], some .absentChild)
      else (x :: ((CodeTree.leaf x).decodeBits bs n cur).1, ((CodeTree.leaf x).decodeBits bs n cur).2) := by
  conv => lhs; unfold CodeTree.decodeBits

/-- What the pure decoder does at the child it has come to. -/
def decodeAt (t : CodeTree) (bs : List Bool) (n : Nat) (sub : CodeTree) : List Byte × Option Cause :=
  match sub with
  | .leaf x => (x :: (t.decodeBits bs n t).1, (t.decodeBits bs n t).2)
  | .node l r => t.decodeBits bs (n + 1) (.node l r)

theorem decodeBits_node (l r : CodeTree) (b : Bool) (bs : List Bool) (n : Nat) (cl cr : CodeTree) :
    (CodeTree.node l r).decodeBits (b :: bs) (n + 1) (.node cl cr) =
      decodeAt (.node l r) bs n (if b then cr else cl) := by
  conv => lhs; unfold CodeTree.decodeBits
  rfl

theorem bitsRead_zero (t : CodeTree) (bs : List Bool) (cur : CodeTree) : t.bitsRead bs 0 cur = 0 := by
  unfold CodeTree.bitsRead; rfl

theorem bitsRead_nil (t : CodeTree) (n : Nat) (cur : CodeTree) : t.bitsRead [] n cur = 0 := by
  cases n <;> (unfold CodeTree.bitsRead; rfl)

theorem bitsRead_leaf (x : Byte) (b : Bool) (bs : List Bool) (n : Nat) (cur : CodeTree) :
    (CodeTree.leaf x).bitsRead (b :: bs) (n + 1) cur =
      if b then 1 else (CodeTree.leaf x).bitsRead bs n cur + 1 := by
  conv => lhs; unfold CodeTree.bitsRead

/-- How many bits the pure decoder reads from the child it has come to. -/
def bitsAt (t : CodeTree) (bs : List Bool) (n : Nat) (sub : CodeTree) : Nat :=
  match sub with
  | .leaf _ => t.bitsRead bs n t
  | .node l r => t.bitsRead bs (n + 1) (.node l r)

theorem bitsRead_node (l r : CodeTree) (b : Bool) (bs : List Bool) (n : Nat) (cl cr : CodeTree) :
    (CodeTree.node l r).bitsRead (b :: bs) (n + 1) (.node cl cr) =
      bitsAt (.node l r) bs n (if b then cr else cl) + 1 := by
  conv => lhs; unfold CodeTree.bitsRead
  cases b <;> simp only [Bool.false_eq_true, if_false, if_true] <;> unfold bitsAt
  · cases cl <;> rfl
  · cases cr <;> rfl

/-- The pure decoder never reads more bits than it is given. -/
theorem bitsRead_le (t : CodeTree) : ∀ (bs : List Bool) (n : Nat) (cur : CodeTree), t.bitsRead bs n cur ≤ bs.length := by
  intro bs
  induction bs with
  | nil => intro n cur; rw [bitsRead_nil]; exact Nat.zero_le _
  | cons b bs ih =>
    intro n cur
    cases n with
    | zero => rw [bitsRead_zero]; exact Nat.zero_le _
    | succ n =>
      rw [List.length_cons]
      cases t with
      | leaf x =>
        rw [bitsRead_leaf]
        have := ih n cur
        split <;> omega
      | node l r =>
        cases cur with
        | leaf x => simp only [CodeTree.bitsRead]; omega
        | node cl cr =>
          rw [bitsRead_node]
          have h : bitsAt (.node l r) bs n (if b then cr else cl) ≤ bs.length := by unfold bitsAt; split <;> exact ih _ _
          omega

/-- From a subtree, the path to one of its leaves is decoded to that leaf's symbol (R139, R223). -/
theorem decodeBits_path (l r : CodeTree) (rest : List Bool) (n : Nat) : ∀ (cur : CodeTree) (x : Byte) (p : List Bool),
    (x, p) ∈ cur.paths → p ≠ [] →
    (CodeTree.node l r).decodeBits (p ++ rest) (n + 1) cur =
      (x :: ((CodeTree.node l r).decodeBits rest n (.node l r)).1,
        ((CodeTree.node l r).decodeBits rest n (.node l r)).2) := by
  intro cur
  induction cur with
  | leaf y =>
    intro x p h hp
    simp only [CodeTree.paths, List.mem_singleton, Prod.mk.injEq] at h
    exact absurd h.2 hp
  | node a b iha ihb =>
    intro x p h _
    simp only [CodeTree.paths, List.mem_append, List.mem_map] at h
    rcases h with ⟨⟨y, q⟩, hq, he⟩ | ⟨⟨y, q⟩, hq, he⟩ <;> simp only [Prod.mk.injEq] at he <;> obtain ⟨rfl, rfl⟩ := he
    · cases a with
      | leaf z =>
        simp only [CodeTree.paths, List.mem_singleton, Prod.mk.injEq] at hq
        obtain ⟨rfl, rfl⟩ := hq
        rw [List.cons_append, decodeBits_node]; rfl
      | node a1 a2 =>
        have hne : q ≠ [] := by
          rintro rfl
          simp [CodeTree.paths] at hq
        rw [List.cons_append, decodeBits_node]
        exact iha y q hq hne
    · cases b with
      | leaf z =>
        simp only [CodeTree.paths, List.mem_singleton, Prod.mk.injEq] at hq
        obtain ⟨rfl, rfl⟩ := hq
        rw [List.cons_append, decodeBits_node]; rfl
      | node b1 b2 =>
        have hne : q ≠ [] := by
          rintro rfl
          simp [CodeTree.paths] at hq
        rw [List.cons_append, decodeBits_node]
        exact ihb y q hq hne

theorem codeOf_mem {t : CodeTree} {x : Byte} {p : List Bool} (h : t.codeOf x = some p) : (x, p) ∈ t.codes := by
  simp only [CodeTree.codeOf, Option.map_eq_some_iff] at h
  obtain ⟨⟨y, q⟩, hq, rfl⟩ := h
  have h1 := List.find?_some hq
  have h2 := List.mem_of_find?_eq_some hq
  simp only [beq_iff_eq] at h1
  subst h1
  simpa using h2

/-- One symbol's code is decoded to that symbol. -/
theorem decodeBits_code {t : CodeTree} {x : Byte} {p : List Bool} (h : t.codeOf x = some p) (rest : List Bool) (n : Nat) :
    t.decodeBits (p ++ rest) (n + 1) t = (x :: (t.decodeBits rest n t).1, (t.decodeBits rest n t).2) := by
  have hm := codeOf_mem h
  cases t with
  | leaf y =>
    simp only [CodeTree.codes, List.mem_singleton, Prod.mk.injEq] at hm
    obtain ⟨rfl, rfl⟩ := hm
    rw [List.cons_append, decodeBits_leaf]; rfl
  | node l r =>
    refine decodeBits_path l r rest n (.node l r) x p hm ?_
    rintro rfl
    simp [CodeTree.codes, CodeTree.paths] at hm

/-- R227: decoding the payload bits of a symbol sequence gives the sequence, whatever bits follow. -/
theorem decodeBits_payload {t : CodeTree} : ∀ (xs : List Byte) (bits rest : List Bool), t.payload xs = some bits →
    t.decodeBits (bits ++ rest) xs.length t = (xs, none) := by
  intro xs
  induction xs with
  | nil => intro bits rest _; exact decodeBits_zero _ _ _
  | cons x xs ih =>
    intro bits rest h
    simp only [CodeTree.payload] at h
    cases hc : t.codeOf x with
    | none => simp [hc] at h
    | some p =>
      cases hp : t.payload xs with
      | none => simp [hc, hp] at h
      | some q =>
        simp only [hc, hp, Option.some.injEq] at h
        subst h
        rw [List.append_assoc, List.length_cons, decodeBits_code hc, ih q rest hp]

/-! ### DECODE's payload -/

/-- What DECODE's payload loop may change. -/
def decodeFrame (s t : State) (xs : List Byte) : Prop :=
  t = { s with brBuf := t.brBuf, brValid := t.brValid, brIndex := t.brIndex, eos := t.eos, inPos := t.inPos,
               inCount := t.inCount, out := s.out ++ xs, outCount := s.outCount + BitVec.ofNat 64 xs.length }

theorem decodeFrame_of_reader {s t : State} (h : readerFrame s t) : decodeFrame s t [] := by
  unfold readerFrame at h
  unfold decodeFrame
  rw [h]
  simp

theorem decodeFrame_trans {s t u : State} {xs ys : List Byte} (h1 : decodeFrame s t xs) (h2 : decodeFrame t u ys) :
    decodeFrame s u (xs ++ ys) := by
  unfold decodeFrame at *
  rw [h2, h1]
  simp [BitVec.add_assoc, BitVec.ofNat_add]

theorem decodeFrame_out (s : State) (x : Byte) : decodeFrame s (outWrite [x] s) [x] := rfl

/-- How the payload loop ends, begun after `j` bits of a reader that was empty at `s0`, for what the pure decoder gives and
how many bits it reads. -/
def decodeEnds (r : Res Unit) (s0 s : State) (j : Nat) (d : List Byte × Option Cause) (k : Nat) : Prop :=
  ∃ u, decodeFrame s u d.1 ∧ ReadAt s0 (j + k) u ∧ u.eos = decide (d.2 = some .payloadShort) ∧
    match d.2 with
    | none => r = .ok () u
    | some c => r = .raised c u

theorem decodeEnds_step {r : Res Unit} {s0 s t : State} {j k : Nat} {xs : List Byte} {d : List Byte × Option Cause}
    (h1 : decodeFrame s t xs) (h2 : decodeEnds r s0 t (j + 1) d k) : decodeEnds r s0 s j (xs ++ d.1, d.2) (k + 1) := by
  obtain ⟨u, g1, g2, g3⟩ := h2
  exact ⟨u, decodeFrame_trans h1 g1, by rwa [Nat.add_assoc, Nat.add_comm 1 k] at g2, g3⟩

/-- DECODE's payload loop (R223, R224) is the pure decoder on the bits the reader has still to return, and reads as many of
them (R222). -/
theorem decodePayload_spec (n : Nat) : ∀ (s0 s : State) (j left : Nat) (cur : NodeIx) (tr ct : CodeTree)
    (ns ms : List NodeIx), ReadAt s0 j s → s.eos = false → (readerBits s).length < n → poolHolds s.pool tr s.root ns →
    poolHolds s.pool ct cur ms → ((∃ x, tr = .leaf x) ∨ ∃ l r, ct = .node l r) →
    decodeEnds (decodePayload n left cur s) s0 s j (tr.decodeBits (readerBits s) left ct)
      (tr.bitsRead (readerBits s) left ct) := by
  induction n with
  | zero => intro s0 s j left cur tr ct ns ms _ _ h; omega
  | succ n ih =>
    intro s0 s j left cur tr ct ns ms hr he hn ht hcur hor
    unfold decodePayload
    cases left with
    | zero =>
      rw [if_pos rfl]
      rw [decodeBits_zero, bitsRead_zero]
      exact ⟨s, decodeFrame_of_reader (readerFrame_refl s), hr, he, rfl⟩
    | succ left =>
      rw [if_neg (by omega)]
      obtain ⟨t, g1, g3, g2, g5⟩ := readAt_step hr
      have hpool : t.pool = s.pool := by rw [g2]
      have hroot : t.root = s.root := by rw [g2]
      have hna : ∀ i, nodeAt t i = nodeAt s i := fun i => by unfold nodeAt; rw [hpool]
      have hdf := decodeFrame_of_reader g2
      have hbits := hr.bits
      rw [g1, bind_ok]
      cases hb : (unpackBits (inRest s0))[j]? with
      | none =>
        have hlen : 8 * (inRest s0).length ≤ j := by
          have := List.getElem?_eq_none_iff.mp hb
          rwa [unpackBits_length] at this
        have hnil : readerBits s = [] := by
          rw [hbits, List.drop_eq_nil_of_le (by rw [unpackBits_length]; exact hlen)]
        rw [hnil, decodeBits_nil, bitsRead_nil]
        exact ⟨t, hdf, g3.ended hlen, by rw [g5, hb]; rfl, rfl⟩
      | some b =>
        obtain ⟨hj, hjb⟩ := List.getElem?_eq_some_iff.mp hb
        have g4 : readerBits s = b :: readerBits t := by
          rw [hbits, g3.bits, List.drop_eq_getElem_cons hj, hjb]
        have heos : t.eos = false := by rw [g5, hb]; rfl
        rw [g4]
        simp only [hroot, hna]
        rw [g4, List.length_cons] at hn
        have ht' : poolHolds t.pool tr t.root ns := by rw [hpool, hroot]; exact ht
        match tr, hor with
        | .leaf x, _ =>
          have hl : (nodeAt s s.root.toNat).isLeaf = true := ht.2.2.2.1
          have hx : (nodeAt s s.root.toNat).sym = x := ht.2.2.2.2
          rw [if_pos hl, hx]
          rw [decodeBits_leaf, bitsRead_leaf]
          cases b with
          | true => exact ⟨t, hdf, g3, heos, rfl⟩
          | false =>
            have h2 := ih s0 (outWrite [x] t) (j + 1) left cur (.leaf x) ct ns ms (g3.out [x]) heos (by
              have : readerBits (outWrite [x] t) = readerBits t := rfl
              rw [this]; omega) ht' (by
              have : (outWrite [x] t).pool = s.pool := hpool
              rw [this]; exact hcur) (.inl ⟨x, rfl⟩)
            exact decodeEnds_step (decodeFrame_trans hdf (decodeFrame_out t x)) h2
        | .node l r, hor =>
          have hl : (nodeAt s s.root.toNat).isLeaf = false := poolHolds_not_leaf ht
          rw [if_neg (by simp [hl])]
          obtain ⟨cl, cr, rfl⟩ : ∃ cl cr, ct = .node cl cr := by
            rcases hor with ⟨_, h⟩ | h
            · simp at h
            · exact h
          have key : ∀ (nx : NodeIx) (sub : CodeTree) (ks : List NodeIx), poolHolds s.pool sub nx ks →
              (if b then cr else cl) = sub →
              decodeEnds (if nx = nil then .raised .absentChild t
                else if (nodeAt s nx.toNat).isLeaf = true then
                  decodePayload n (left + 1 - 1) s.root (outWrite [(nodeAt s nx.toNat).sym] t)
                else decodePayload n (left + 1) nx t) s0 s j
                ((CodeTree.node l r).decodeBits (b :: readerBits t) (left + 1) (.node cl cr))
                ((CodeTree.node l r).bitsRead (b :: readerBits t) (left + 1) (.node cl cr)) := by
            intro nx sub ks hsub hif
            rw [if_neg (poolHolds_ne_nil hsub)]
            rw [decodeBits_node, bitsRead_node, hif]
            match sub, hsub with
            | .leaf x, hsub =>
              have h1 : (nodeAt s nx.toNat).isLeaf = true := hsub.2.2.2.1
              have h2 : (nodeAt s nx.toNat).sym = x := hsub.2.2.2.2
              rw [if_pos h1, h2]
              have h3 := ih s0 (outWrite [x] t) (j + 1) left s.root (.node l r) (.node l r) ns ns (g3.out [x]) heos (by
                have : readerBits (outWrite [x] t) = readerBits t := rfl
                rw [this]; omega) ht' (by
                have : (outWrite [x] t).pool = s.pool := hpool
                rw [this]; exact ht) (.inr ⟨l, r, rfl⟩)
              exact decodeEnds_step (decodeFrame_trans hdf (decodeFrame_out t x)) h3
            | .node l' r', hsub =>
              have h1 : (nodeAt s nx.toNat).isLeaf = false := poolHolds_not_leaf hsub
              rw [if_neg (by simp [h1])]
              have h3 := ih s0 t (j + 1) (left + 1) nx (.node l r) (.node l' r') ns ks g3 heos (by omega) ht'
                (by rw [hpool]; exact hsub) (.inr ⟨l', r', rfl⟩)
              exact decodeEnds_step hdf h3
          obtain ⟨nl, nr, _, _, _, gl, gr⟩ := hcur
          cases b with
          | true => exact key _ cr nr gr rfl
          | false => exact key _ cl nl gl rfl

/-! ### ENCODE's payload -/

theorem inRest_cons {s : State} {x : Byte} {xs : List Byte} (h : inRest s = x :: xs) :
    inReadBytes 1 s = [x] ∧ inRest (inReadState 1 s) = xs := by
  refine ⟨?_, ?_⟩
  · unfold inReadBytes; rw [h]; rfl
  · rw [inRest_inReadState, h]; rfl

/-- What ENCODE's payload loop may change, reading `m` bytes of IN and sending `ys` to OUT. -/
def encodeFrame (s t : State) (m : Nat) (ys : List Byte) : Prop :=
  t = { s with bwBuf := t.bwBuf, bwCount := t.bwCount, out := s.out ++ ys,
               outCount := s.outCount + BitVec.ofNat 64 ys.length, inPos := s.inPos + m,
               inCount := s.inCount + BitVec.ofNat 64 m }

theorem encodeFrame_trans {s t u : State} {m n : Nat} {xs ys : List Byte} (h1 : encodeFrame s t m xs)
    (h2 : encodeFrame t u n ys) : encodeFrame s u (m + n) (xs ++ ys) := by
  unfold encodeFrame at *
  rw [h2, h1]
  simp [BitVec.add_assoc, BitVec.ofNat_add, Nat.add_assoc]

theorem encodeFrame_read {s t : State} {x : Byte} {ys : List Byte} (hx : inReadBytes 1 s = [x])
    (h : writerFrame (inReadState 1 s) t ys) : encodeFrame s t 1 ys := by
  unfold writerFrame at h
  unfold encodeFrame
  rw [h]
  simp [inReadState, hx]

/-- ENCODE's payload loop (R211), for symbols that all have a code: their codes' bits reach the writer in order. -/
theorem encodePayload_spec (t : CodeTree) (hl : t.leaves.length ≤ alphabet) : ∀ (n m : Nat) (s : State) (xs : List Byte)
    (bits : List Bool), codesAre s t → writerOk s → m < n → xs.length = m → (inRest s).take m = xs →
    t.payload xs = some bits →
    ∃ u ys, encodePayload n m s = .ok () u ∧ encodeFrame s u m ys ∧ writerOk u ∧
      unpackBits ys ++ writerBits u = writerBits s ++ bits := by
  intro n
  induction n with
  | zero => intro m s xs bits _ _ h; omega
  | succ n ih =>
    intro m s xs bits hc hw hn hlen hx hp
    unfold encodePayload
    cases m with
    | zero =>
      rw [if_pos rfl]
      have : xs = [] := List.length_eq_zero_iff.mp hlen
      subst this
      simp only [CodeTree.payload, Option.some.injEq] at hp
      subst hp
      exact ⟨s, [], rfl, by simp [encodeFrame], hw, by simp⟩
    | succ m =>
      rw [if_neg (by omega)]
      match xs, hlen, hx, hp with
      | x :: xs, hlen, hx, hp =>
        obtain ⟨rest, hr⟩ : ∃ rest, inRest s = x :: rest := by
          cases hr : inRest s with
          | nil => rw [hr] at hx; simp at hx
          | cons y rest => rw [hr] at hx; simp at hx; exact ⟨rest, by rw [hx.1]⟩
        obtain ⟨h1, h2⟩ := inRest_cons hr
        rw [hr, List.take_succ_cons] at hx
        have hx' : rest.take m = xs := (List.cons.inj hx).2
        simp only [CodeTree.payload] at hp
        cases hcx : t.codeOf x with
        | none => simp [hcx] at hp
        | some p =>
          cases hpx : t.payload xs with
          | none => simp [hcx, hpx] at hp
          | some q =>
            simp only [hcx, hpx, Option.some.injEq] at hp
            have hne : ¬ (codeAt s x.toNat).len = 0#9 := by
              rw [codesAre_length hc hl x, hcx]; simp
            simp only [h1, if_neg hne]
            obtain ⟨v, ys, g1, g2, g3, g4, _⟩ := writeBits_spec (codeList (codeAt (inReadState 1 s) x.toNat)) 0
              (inReadState 1 s) hw
            have hcl : codeList (codeAt (inReadState 1 s) x.toNat) = p := codesAre_list hc hcx
            unfold writeCode
            rw [g1, bind_ok]
            have ef := encodeFrame_read h1 g2
            have hvc : v.code = s.code := by rw [ef]
            have hvr : inRest v = rest := by
              have : inRest v = inRest (inReadState 1 s) := by rw [g2]; rfl
              rw [this, h2]
            have hcv : codesAre v t := by
              intro y; have := hc y; unfold codeAt at this ⊢; rw [hvc]; exact this
            obtain ⟨u, zs, k1, k2, k3, k4⟩ := ih m v xs q hcv g3 (by omega) (by simpa using hlen)
              (by rw [hvr]; exact hx') hpx
            refine ⟨u, ys ++ zs, k1, ?_, k3, ?_⟩
            · have := encodeFrame_trans ef k2
              rwa [Nat.add_comm 1 m] at this
            · have hwb : writerBits (inReadState 1 s) = writerBits s := rfl
              rw [hcl, hwb] at g4
              rw [unpackBits_append, List.append_assoc, k4, ← List.append_assoc, g4, ← hp, List.append_assoc]

/-! ### The symbols of the Huffman tree -/

/-- The leaves of a queue of trees. -/
def queueLeaves (q : List Weighted) : List Byte := q.flatMap (fun e => e.2.leaves)

theorem putTree_leaves (e : Weighted) (q : List Weighted) :
    (queueLeaves (putTree e q)).Perm (e.2.leaves ++ queueLeaves q) := by
  rw [putTree_eq_putBy]
  exact (putBy_perm Prod.fst e q).flatMap_right _

theorem mergeTrees_leaves : ∀ (n : Nat) (q : List Weighted), (queueLeaves (mergeTrees n q)).Perm (queueLeaves q) := by
  intro n
  induction n with
  | zero => intro q; exact List.Perm.refl _
  | succ n ih =>
    intro q
    match q with
    | [] => exact List.Perm.refl _
    | [_] => exact List.Perm.refl _
    | a :: b :: q =>
      refine (ih _).trans ((putTree_leaves _ _).trans ?_)
      simp [queueLeaves, CodeTree.leaves]

theorem mergeTrees_length : ∀ (n : Nat) (q : List Weighted), q.length ≤ n →
    (mergeTrees n q).length = min q.length 1 := by
  intro n
  induction n with
  | zero => intro q h; have : q = [] := List.length_eq_zero_iff.mp (by omega); subst this; rfl
  | succ n ih =>
    intro q h
    match q with
    | [] => rfl
    | [_] => rfl
    | a :: b :: q =>
      simp only [mergeTrees]
      simp only [List.length_cons] at h ⊢
      rw [ih _ (by rw [putTree_length]; omega), putTree_length]
      omega

theorem foldl_putTree (f : Nat → Weighted) (xs : List Nat) : ∀ q : List Weighted,
    (xs.foldl (fun q i => putTree (f i) q) q).length = q.length + xs.length ∧
    (queueLeaves (xs.foldl (fun q i => putTree (f i) q) q)).Perm (queueLeaves q ++ xs.flatMap (fun i => (f i).2.leaves)) := by
  induction xs with
  | nil => intro q; simp
  | cons x xs ih =>
    intro q
    obtain ⟨h1, h2⟩ := ih (putTree (f x) q)
    refine ⟨?_, ?_⟩
    · rw [List.foldl_cons, h1, putTree_length, List.length_cons]; omega
    · rw [List.foldl_cons]
      refine h2.trans ?_
      rw [List.flatMap_cons, ← List.append_assoc]
      refine List.Perm.append_right _ ?_
      exact (putTree_leaves _ _).trans List.perm_append_comm

theorem leafQueue_length (s : State) : (leafQueue s).length = (freqSymbols s).length := by
  have := (foldl_putTree (fun i => ((freqAt s i).toNat, .leaf (BitVec.ofNat 8 i))) (freqSymbols s) []).1
  simpa [leafQueue, freqSymbols] using this

/-- The leaves of the Huffman tree are the symbols with a nonzero FREQ entry (R131). -/
theorem huffmanTree_leaves {s : State} {t : CodeTree} (h : huffmanTree s = some t) :
    t.leaves.Perm ((freqSymbols s).map (BitVec.ofNat 8)) := by
  have h1 := (foldl_putTree (fun i => ((freqAt s i).toNat, .leaf (BitVec.ofNat 8 i))) (freqSymbols s) []).2
  have h2 := mergeTrees_leaves alphabet (leafQueue s)
  have h3 := mergeTrees_length alphabet (leafQueue s) (by rw [leafQueue_length]; exact freqSymbols_length_le s)
  unfold huffmanTree at h
  have h4 : (queueLeaves (leafQueue s)).Perm ((freqSymbols s).map (BitVec.ofNat 8)) := by
    refine h1.trans ?_
    simp only [queueLeaves, CodeTree.leaves, List.flatMap_nil, List.nil_append]
    rw [List.map_eq_flatMap]
  match hm : mergeTrees alphabet (leafQueue s) with
  | [] => rw [hm] at h; simp at h
  | [e] =>
    rw [hm] at h h2
    simp only [List.head?_cons, Option.map_some, Option.some.injEq] at h
    subst h
    have : queueLeaves [e] = e.2.leaves := by simp [queueLeaves]
    rw [← this]
    exact h2.trans h4
  | _ :: _ :: _ => rw [hm] at h3; simp at h3; omega

theorem paths_symbols (t : CodeTree) : t.paths.map Prod.fst = t.leaves := by
  induction t with
  | leaf x => rfl
  | node l r ihl ihr => simp [CodeTree.paths, CodeTree.leaves, ← ihl, ← ihr, Function.comp_def]

theorem codes_symbols (t : CodeTree) : t.codes.map Prod.fst = t.leaves := by
  cases t with
  | leaf x => rfl
  | node l r => exact paths_symbols _

/-- A symbol has a code exactly when it is at a leaf. -/
theorem codeOf_isSome (t : CodeTree) (x : Byte) : (t.codeOf x).isSome ↔ x ∈ t.leaves := by
  rw [← codes_symbols]
  unfold CodeTree.codeOf
  rw [Option.isSome_map, List.find?_isSome]
  simp

theorem payload_isSome (t : CodeTree) (xs : List Byte) : (t.payload xs).isSome ↔ ∀ x ∈ xs, x ∈ t.leaves := by
  induction xs with
  | nil => simp [CodeTree.payload]
  | cons x xs ih =>
    have hx := codeOf_isSome t x
    simp only [CodeTree.payload, List.forall_mem_cons, ← ih, ← hx]
    cases t.codeOf x <;> cases t.payload xs <;> simp

theorem mem_huffmanTree {s : State} {t : CodeTree} (h : huffmanTree s = some t) (x : Byte) :
    x ∈ t.leaves ↔ freqAt s x.toNat ≠ 0#64 := by
  rw [(huffmanTree_leaves h).mem_iff]
  simp only [freqSymbols, List.mem_map, List.mem_filter, List.mem_range, decide_eq_true_eq]
  constructor
  · rintro ⟨i, ⟨hi, hf⟩, rfl⟩
    have : (BitVec.ofNat 8 i).toNat = i := by rw [BitVec.toNat_ofNat]; exact Nat.mod_eq_of_lt hi
    rwa [this]
  · intro hf
    exact ⟨x.toNat, ⟨x.isLt, hf⟩, by simp⟩

end Sys2Proof.Machine
end

