-- ==== Sys2Proof/Laws/Encode.lean ====
section
/-! SUPPORT. ENCODE as a whole: the state once the tree, its codes and its dump are in place, what the payload loop does on
input it can encode and on input it cannot, and the state a whole ENCODE leaves. -/

namespace Sys2Proof.Machine

open Sys2Proof

variable {s t : State}

theorem freqAt_congr (h : t.freq = s.freq) (i : Nat) : freqAt t i = freqAt s i := by unfold freqAt; rw [h]

theorem huffmanTree_congr (h : t.freq = s.freq) : huffmanTree t = huffmanTree s := by
  unfold huffmanTree leafQueue
  simp only [freqAt_congr h]

theorem freqTotal_congr (h : t.freq = s.freq) : freqTotal t = freqTotal s := by
  unfold freqTotal
  simp only [freqAt_congr h]

/-- ENCODE's state once BUILD_TREE, BUILD_CODES and SERIALIZE_TREE have run. -/
structure EncodeStart (s t : State) : Prop where
  frame : t = { s with inCount := 0#64, outCount := 0#64, bwBuf := [], bwCount := 0, pool := t.pool, root := t.root,
                       leafCount := t.leafCount, pq := [], stack := [], code := t.code, codesValid := true,
                       dump := t.dump, treeSize := t.treeSize }
  tree : treeHeld t (huffmanTree s)
  codes : ∀ tr, huffmanTree s = some tr → codesAre t tr
  noCodes : huffmanTree s = none → codesNone t
  size : t.treeSize.toNat = (dumpBytesOf s.cfg (huffmanTree s)).length
  dump : dumpBytes t.treeSize.toNat t = dumpBytesOf s.cfg (huffmanTree s)
  above : ∀ a, (dumpBytesOf s.cfg (huffmanTree s)).length ≤ a → storeRead 0#8 t.dump a = storeRead 0#8 s.dump a

/-- ENCODE after the tree, the codes and the dump: header, dump, payload, flush (R214). -/
def encodeRest (t : State) : Res Unit :=
  (encodePayload ((inRest t).length + 1) t.origSize.toNat
    (outWrite (dumpBytes t.treeSize.toNat t) (outWrite (headerBytes t) t))).bind fun _ s =>
  (flushWriter s).bind fun _ s =>
  .ok () (setResult (s.outCount.setWidth 32) s)

theorem treeIs_leaves {tr : CodeTree} (h : treeIs s tr) : tr.leaves.length ≤ 256 := by
  obtain ⟨ns, _, _, _, _, hl⟩ := h
  exact hl

theorem treeIs_congr {tr : CodeTree} (h : treeIs s tr) (h1 : t.pool = s.pool) (h2 : t.root = s.root)
    (h3 : t.leafCount = s.leafCount) : treeIs t tr := by
  obtain ⟨ns, a, b, c, d, e⟩ := h
  refine ⟨ns, by rw [h1, h2]; exact a, b, fun i hi => ?_, by rw [h3]; exact d, e⟩
  unfold nodeAt
  rw [h1]
  exact c i hi

theorem treeEmpty_congr (h : treeEmpty s) (h1 : t.pool = s.pool) (h2 : t.root = s.root)
    (h3 : t.leafCount = s.leafCount) : treeEmpty t := by
  refine ⟨by rw [h2]; exact h.1, by rw [h3]; exact h.2.1, fun i hi => ?_⟩
  unfold nodeAt
  rw [h1]
  exact h.2.2 i hi

theorem treeHeld_congr {tr : Option CodeTree} (h : treeHeld s tr) (h1 : t.pool = s.pool) (h2 : t.root = s.root)
    (h3 : t.leafCount = s.leafCount) : treeHeld t tr := by
  cases tr with
  | none => exact treeEmpty_congr h h1 h2 h3
  | some tr => exact treeIs_congr h h1 h2 h3

/-- ENCODE's first part (R214): with a table whose sum is below 2^64 it always reaches the header. -/
theorem encode_start (s : State) (h : freqTotal s < 2 ^ 64) :
    ∃ t, EncodeStart s t ∧ execEncode s = endCommand 0x40#8 (encodeRest t) := by
  have hq : freqTotal (clearWriter (clearCounts s)) = freqTotal s := freqTotal_congr rfl
  have hh : huffmanTree (clearWriter (clearCounts s)) = huffmanTree s := huffmanTree_congr rfl
  obtain ⟨t1, hb1, ht1, -, -, -, hcase⟩ := buildTreeBody_spec (clearWriter (clearCounts s)) (by rw [hq]; exact h)
  rw [hh] at hcase
  have hex : ∀ t2 t3 k, buildCodesBody t1 = .ok () t2 → serializeBody t2 = .ok k t3 →
      execEncode s = endCommand 0x40#8 (encodeRest t3) := by
    intro t2 t3 k h2 h3
    unfold execEncode
    rw [hb1, bind_ok, h2, bind_ok, h3, bind_ok]
    rfl
  rcases hcase with ⟨-, hnone, hemp⟩ | ⟨-, -, tr, htr, his, -⟩
  · have h2 := buildCodesBody_empty t1 hemp.1
    have h3 := serializeBody_empty { t1 with code := [], codesValid := true } hemp.1
    refine ⟨{ t1 with code := [], codesValid := true, treeSize := 0#16 }, ?_, hex _ _ _ h2 h3⟩
    rw [ht1] at *
    refine ⟨rfl, ?_, ?_, fun _ _ => rfl, ?_, ?_, ?_⟩
    · rw [hnone]
      exact treeEmpty_congr hemp rfl rfl rfl
    · intro tr he
      rw [hnone] at he
      cases he
    · rw [hnone]; rfl
    · rw [hnone]; rfl
    · intro a _; rfl
  · obtain ⟨t2, h2, hf2, hc2⟩ := buildCodesBody_spec t1 tr his
    have his2 : treeIs t2 tr := treeIs_congr his (by rw [hf2]) (by rw [hf2]) (by rw [hf2])
    have h3 := serializeBody_spec t2 tr his2
    have hlen := dump_length t2.cfg tr
    have hle := treeIs_leaves his
    have hcfg : t2.cfg = s.cfg := by rw [hf2, ht1]; rfl
    have hsz : (BitVec.ofNat 16 (tr.dump t2.cfg).length).toNat = (tr.dump t2.cfg).length := by
      rw [BitVec.toNat_ofNat]
      exact Nat.mod_eq_of_lt (by omega)
    refine ⟨_, ⟨?_, ?_, ?_, ?_, ?_, ?_, ?_⟩, hex _ _ _ h2 h3⟩
    · rw [hf2, ht1]; rfl
    · rw [htr]
      exact treeIs_congr his2 rfl rfl rfl
    · intro tr' he
      rw [htr] at he
      cases he
      exact hc2
    · intro he
      rw [htr] at he
      cases he
    · rw [htr, ← hcfg]
      exact hsz
    · rw [htr, ← hcfg]
      show dumpBytes (BitVec.ofNat 16 (tr.dump t2.cfg).length).toNat _ = _
      rw [hsz]
      exact storeTake_writeList 0#8 t2.dump (tr.dump t2.cfg)
    · intro a ha
      rw [htr, ← hcfg] at ha
      have ha' : (tr.dump t2.cfg).length ≤ a := ha
      show storeRead 0#8 (storeWriteList 0#8 t2.dump 0 (tr.dump t2.cfg)) a = _
      rw [storeRead_writeList, if_neg (by omega), hf2, ht1]
      rfl

/-- BUILD_TREE makes the empty tree exactly when every FREQ entry is 0. -/
theorem huffmanTree_none : huffmanTree s = none ↔ (freqSymbols s).length = 0 := by
  have hl := mergeTrees_length alphabet (leafQueue s) (by rw [leafQueue_length]; exact freqSymbols_length_le s)
  rw [leafQueue_length] at hl
  unfold huffmanTree
  rw [Option.map_eq_none_iff, List.head?_eq_none_iff, ← List.length_eq_zero_iff, hl]
  omega

theorem freqAt_of_none (h : huffmanTree s = none) (x : Byte) : freqAt s x.toNat = 0#64 := by
  have hq := huffmanTree_none.mp h
  have hx : x.toNat ∉ freqSymbols s := by
    rw [List.length_eq_zero_iff] at hq
    simp [hq]
  simp only [freqSymbols, List.mem_filter, List.mem_range, decide_eq_true_eq, not_and, not_not] at hx
  exact hx x.isLt

/-- A symbol has a code in ENCODE's table exactly when its FREQ entry is not 0. -/
theorem EncodeStart.len_zero (h : EncodeStart s t) (x : Byte) :
    (codeAt t x.toNat).len = 0#9 ↔ freqAt s x.toNat = 0#64 := by
  cases hh : huffmanTree s with
  | none =>
    have hc := h.noCodes hh x
    rw [hc]
    exact ⟨fun _ => freqAt_of_none hh x, fun _ => rfl⟩
  | some tr =>
    have ht := h.tree
    rw [hh] at ht
    rw [codesAre_length (h.codes tr hh) (treeIs_leaves ht) x, ← not_iff_not, ← ne_eq (freqAt s x.toNat), ← mem_huffmanTree hh x,
      ← codeOf_isSome, Option.isSome_iff_ne_none]

/-- One turn of ENCODE's payload loop, on a byte that has a code (R211). -/
theorem encodeTurn (n m : Nat) (s : State) (x : Byte) (rest : List Byte) (hw : writerOk s) (hr : inRest s = x :: rest)
    (hx : (codeAt s x.toNat).len ≠ 0#9) :
    ∃ v ys, encodePayload (n + 1) (m + 1) s = encodePayload n m v ∧ encodeFrame s v 1 ys ∧ writerOk v ∧
      inRest v = rest ∧ v.code = s.code ∧
      unpackBits ys ++ writerBits v = writerBits s ++ codeList (codeAt s x.toNat) ∧ ys.length % block = 0 := by
  obtain ⟨h1, h2⟩ := inRest_cons hr
  obtain ⟨v, ys, g1, g2, g3, g4, g5⟩ := writeBits_spec (codeList (codeAt (inReadState 1 s) x.toNat)) 0 (inReadState 1 s) hw
  refine ⟨v, ys, ?_, encodeFrame_read h1 g2, g3, ?_, ?_, g4, g5⟩
  · conv_lhs => unfold encodePayload
    rw [if_neg (by omega)]
    simp only [h1, if_neg hx]
    unfold writeCode
    rw [g1, bind_ok]
    rfl
  · rw [← h2]
    unfold writerFrame at g2
    rw [g2]
    rfl
  · unfold writerFrame at g2
    rw [g2]
    rfl

/-- The bits of the codes of a byte sequence, by the code table. -/
def codeBitsOf (s : State) (xs : List Byte) : List Bool := xs.flatMap (fun x => codeList (codeAt s x.toNat))

/-- The bits sent to OUT in whole blocks `ys` and then the pending bits are those pending before and the codes of `xs`
(R211, R216). -/
def encodedTo (s t : State) (ys xs : List Byte) : Prop :=
  writerOk t ∧ ys.length % block = 0 ∧ unpackBits ys ++ writerBits t = writerBits s ++ codeBitsOf s xs

/-- ENCODE's payload loop on input it cannot encode (R211): it ends at the first byte that is missing or has no code, with
the codes of the bytes before it written. -/
theorem encodePayload_fail : ∀ (k n m : Nat) (s : State), writerOk s → k < m → k < n → k ≤ (inRest s).length →
    (∀ x ∈ (inRest s).take k, (codeAt s x.toNat).len ≠ 0#9) →
    (k = (inRest s).length → ∃ u ys, encodePayload n m s = .raised .inputShort u ∧ encodeFrame s u k ys ∧
      encodedTo s u ys ((inRest s).take k)) ∧
    (∀ x, (inRest s)[k]? = some x → (codeAt s x.toNat).len = 0#9 →
      ∃ u ys, encodePayload n m s = .raised .noCode u ∧ encodeFrame s u (k + 1) ys ∧
        encodedTo s u ys ((inRest s).take k)) := by
  intro k
  induction k with
  | zero =>
    intro n m s hw hm hn hk hc
    obtain ⟨n, rfl⟩ : ∃ n', n = n' + 1 := ⟨n - 1, by omega⟩
    unfold encodePayload
    rw [if_neg (by omega)]
    constructor
    · intro h0
      have he : inRest s = [] := List.length_eq_zero_iff.mp h0.symm
      have hb : inReadBytes 1 s = [] := by unfold inReadBytes; rw [he]; rfl
      rw [hb]
      refine ⟨_, [], rfl, ?_, hw, rfl, by simp [codeBitsOf]; rfl⟩
      simp [encodeFrame, inReadState, hb]
    · intro x hx hz
      obtain ⟨rest, hr⟩ : ∃ rest, inRest s = x :: rest := by
        cases hr : inRest s with
        | nil => rw [hr] at hx; simp at hx
        | cons y rest =>
          rw [hr] at hx
          simp only [List.getElem?_cons_zero, Option.some.injEq] at hx
          exact ⟨rest, by rw [hx]⟩
      obtain ⟨h1, -⟩ := inRest_cons hr
      simp only [h1, if_pos hz]
      refine ⟨_, [], rfl, ?_, hw, rfl, by simp [codeBitsOf]; rfl⟩
      simp [encodeFrame, inReadState, h1]
  | succ k ih =>
    intro n m s hw hm hn hk hc
    obtain ⟨n, rfl⟩ : ∃ n', n = n' + 1 := ⟨n - 1, by omega⟩
    obtain ⟨m, rfl⟩ : ∃ m', m = m' + 1 := ⟨m - 1, by omega⟩
    obtain ⟨x, rest, hr⟩ : ∃ x rest, inRest s = x :: rest := by
      cases hr : inRest s with
      | nil => rw [hr] at hk; simp at hk
      | cons x rest => exact ⟨x, rest, rfl⟩
    rw [hr] at hk hc
    obtain ⟨v, ys, g1, g2, g3, g4, g5, g6, g7⟩ := encodeTurn n m s x rest hw hr (hc x (by simp))
    have hcv : ∀ y, codeAt v y = codeAt s y := by intro y; unfold codeAt; rw [g5]
    obtain ⟨a, b⟩ := ih n m v g3 (by omega) (by omega) (by rw [g4]; simpa using hk) (by
      intro y hy
      rw [hcv]
      rw [g4] at hy
      exact hc y (by rw [List.take_succ_cons]; exact List.mem_cons_of_mem _ hy))
    have join : ∀ u zs, encodedTo v u zs (rest.take k) → encodedTo s u (ys ++ zs) ((x :: rest).take (k + 1)) := by
      rintro u zs ⟨w1, w2, w3⟩
      refine ⟨w1, by rw [List.length_append, Nat.add_mod, g7, w2]; rfl, ?_⟩
      have hcb : codeBitsOf v (rest.take k) = codeBitsOf s (rest.take k) := by unfold codeBitsOf; simp only [hcv]
      rw [unpackBits_append, List.append_assoc, w3, ← List.append_assoc, g6, hcb, List.take_succ_cons,
        List.append_assoc]
      rfl
    rw [g4] at a b
    rw [g1, hr]
    constructor
    · intro hk'
      obtain ⟨u, zs, e, f, w⟩ := a (by simpa using hk')
      refine ⟨u, ys ++ zs, e, ?_, join u zs w⟩
      have := encodeFrame_trans g2 f
      rwa [Nat.add_comm 1 k] at this
    · intro y hy hz
      obtain ⟨u, zs, e, f, w⟩ := b y (by simpa using hy) (by rw [hcv]; exact hz)
      refine ⟨u, ys ++ zs, e, ?_, join u zs w⟩
      have := encodeFrame_trans g2 f
      rwa [Nat.add_comm 1 (k + 1)] at this

/-- The header and dump ENCODE writes (R214, R102, R106). -/
theorem EncodeStart.head (h : EncodeStart s t) : headerBytes t ++ dumpBytes t.treeSize.toNat t =
    containerHead s.cfg s.permissions s.origSize.toNat (huffmanTree s) := by
  have h1 : t.cfg = s.cfg := by rw [h.frame]
  have h2 : t.permissions = s.permissions := by rw [h.frame]
  have h3 : t.origSize = s.origSize := by rw [h.frame]
  rw [h.dump]
  unfold headerBytes containerHead
  rw [h1, h2, h3, h.size]

/-- The state at the start of ENCODE's payload: header and dump are on OUT. -/
theorem EncodeStart.written (h : EncodeStart s t) :
    outWrite (dumpBytes t.treeSize.toNat t) (outWrite (headerBytes t) t) =
      outWrite (containerHead s.cfg s.permissions s.origSize.toNat (huffmanTree s)) t := by
  rw [outWrite_outWrite, h.head]

theorem EncodeStart.input (h : EncodeStart s t) : inRest t = inRest s := by rw [h.frame]; rfl

/-- ENCODE on input it can encode: OUT gains the container (R214, R100). -/
theorem encodeRest_spec (h : EncodeStart s t) (hn : s.origSize.toNat ≤ (inRest s).length) {bits : List Bool}
    (hp : payloadOf (huffmanTree s) ((inRest s).take s.origSize.toNat) = some bits) :
    ∃ u, encodeRest t = .ok () u ∧
      u = { t with bwBuf := [], bwCount := 0, inPos := t.inPos + s.origSize.toNat, inCount := s.origSize,
                   out := s.out ++ (containerHead s.cfg s.permissions s.origSize.toNat (huffmanTree s) ++ packBits bits),
                   outCount := BitVec.ofNat 64
                     (containerHead s.cfg s.permissions s.origSize.toNat (huffmanTree s) ++ packBits bits).length,
                   result := u.outCount.setWidth 32 } := by
  have ho : t.origSize = s.origSize := by rw [h.frame]
  have hir := h.input
  have hz1 : t.outCount = 0#64 := by rw [h.frame]
  have hz2 : t.inCount = 0#64 := by rw [h.frame]
  have hz3 : t.out = s.out := by rw [h.frame]
  have hw : writerOk (outWrite (containerHead s.cfg s.permissions s.origSize.toNat (huffmanTree s)) t) := by
    rw [h.frame]
    exact clearWriter_ok s
  have hwb : writerBits (outWrite (containerHead s.cfg s.permissions s.origSize.toNat (huffmanTree s)) t) = [] := by
    rw [h.frame]
    rfl
  unfold encodeRest
  rw [h.written, ho, hir]
  generalize hhd : containerHead s.cfg s.permissions s.origSize.toNat (huffmanTree s) = hd at *
  have hrest : inRest (outWrite hd t) = inRest s := hir
  have hpay : ∃ u ys, encodePayload ((inRest s).length + 1) s.origSize.toNat (outWrite hd t) = .ok () u ∧
      encodeFrame (outWrite hd t) u s.origSize.toNat ys ∧ writerOk u ∧ unpackBits ys ++ writerBits u = bits := by
    cases hh : huffmanTree s with
    | none =>
      rw [hh] at hp
      unfold payloadOf at hp
      simp only at hp
      split at hp
      · next he =>
        cases hp
        have h0 : s.origSize.toNat = 0 := by
          have := congrArg List.length he
          simp only [List.length_take, List.length_nil] at this
          omega
        rw [h0]
        refine ⟨outWrite hd t, [], ?_, by simp [encodeFrame]; rfl, hw, by simp [hwb]⟩
        unfold encodePayload
        rw [if_pos rfl]
      · cases hp
    | some tr =>
      rw [hh] at hp
      have ht := h.tree
      rw [hh] at ht
      have hc : codesAre (outWrite hd t) tr := h.codes tr hh
      obtain ⟨u, ys, e, f, g, k⟩ := encodePayload_spec tr (treeIs_leaves ht) ((inRest s).length + 1) s.origSize.toNat
        (outWrite hd t) ((inRest s).take s.origSize.toNat) bits hc hw (by omega) (by simp [hn]) (by rw [hrest]) hp
      refine ⟨u, ys, e, f, g, ?_⟩
      rw [k, hwb, List.nil_append]
  obtain ⟨u, ys, e, f, g, k⟩ := hpay
  rw [e, bind_ok, flushWriter_spec u g, bind_ok]
  have hpk : packBits bits = ys ++ packBits (writerBits u) := by rw [← k, packBits_unpack_append]
  refine ⟨_, rfl, ?_⟩
  rw [hpk]
  generalize writerBits u = wb
  unfold encodeFrame at f
  rw [f]
  simp [outWrite, clearWriter, setResult, ho, hz1, hz2, hz3, BitVec.add_assoc, BitVec.ofNat_add, List.append_assoc]

/-- Input whose bytes all have a nonzero FREQ entry has a payload. -/
theorem payload_of_present {xs : List Byte} (h : ∀ x ∈ xs, freqAt s x.toNat ≠ 0#64) :
    ∃ bits, payloadOf (huffmanTree s) xs = some bits := by
  cases hh : huffmanTree s with
  | none =>
    have : xs = [] := by
      cases xs with
      | nil => rfl
      | cons x xs => exact absurd (freqAt_of_none hh x) (h x (by simp))
    exact ⟨[], by rw [this]; rfl⟩
  | some tr =>
    have := (payload_isSome tr xs).mpr fun x hx => (mem_huffmanTree hh x).mpr (h x hx)
    exact Option.isSome_iff_exists.mp this

/-- The code table ENCODE makes gives a payload's bits (R108, R211). -/
theorem EncodeStart.payload (h : EncodeStart s t) {xs : List Byte} {bits : List Bool}
    (hp : payloadOf (huffmanTree s) xs = some bits) : codeBitsOf t xs = bits := by
  cases hh : huffmanTree s with
  | none =>
    rw [hh] at hp
    simp only [payloadOf] at hp
    split at hp
    · next he => cases hp; rw [he]; rfl
    · cases hp
  | some tr =>
    rw [hh] at hp
    have hc := h.codes tr hh
    induction xs generalizing bits with
    | nil => cases hp; rfl
    | cons x xs ih =>
      simp only [payloadOf, CodeTree.payload] at hp
      cases hcx : tr.codeOf x with
      | none => simp [hcx] at hp
      | some p =>
        cases hpx : tr.payload xs with
        | none => simp [hcx, hpx] at hp
        | some q =>
          simp only [hcx, hpx, Option.some.injEq] at hp
          rw [← hp, ← ih hpx, ← codesAre_list hc hcx]
          rfl

/-- Where a run over a list meets the first entry that is missing or bad. -/
theorem first_bad {α : Type} (P : α → Prop) (xs : List α) : ∀ m : Nat,
    (m ≤ xs.length ∧ ∀ x ∈ xs.take m, P x) ∨
    ∃ k < m, k ≤ xs.length ∧ (∀ x ∈ xs.take k, P x) ∧ (k = xs.length ∨ ∃ x, xs[k]? = some x ∧ ¬ P x) := by
  intro m
  induction m with
  | zero => exact .inl ⟨by omega, by simp⟩
  | succ m ih =>
    rcases ih with ⟨h1, h2⟩ | ⟨k, hk, h⟩
    · by_cases hm : m = xs.length
      · exact .inr ⟨m, by omega, h1, h2, .inl hm⟩
      · by_cases hp : P (xs[m]'(by omega))
        · refine .inl ⟨by omega, fun x hx => ?_⟩
          rw [List.take_add_one, List.getElem?_eq_getElem (by omega)] at hx
          rcases List.mem_append.mp hx with hx | hx
          · exact h2 x hx
          · rw [Option.toList_some, List.mem_singleton] at hx
            rw [hx]
            exact hp
        · exact .inr ⟨m, by omega, h1, h2, .inr ⟨_, List.getElem?_eq_getElem (by omega), hp⟩⟩
    · exact .inr ⟨k, by omega, h⟩

/-- Every way ENCODE can end (R214, R211, R216). -/
theorem encode_cases (s : State) :
    (2 ^ 64 ≤ freqTotal s ∧ execEncode s = .next (raiseError 0x40#8 .freqOverflow (clearWriter (clearCounts s)))) ∨
    (freqTotal s < 2 ^ 64 ∧ s.origSize.toNat ≤ (inRest s).length ∧
      (∀ x ∈ (inRest s).take s.origSize.toNat, freqAt s x.toNat ≠ 0#64) ∧ ∃ t u bits, EncodeStart s t ∧
      payloadOf (huffmanTree s) ((inRest s).take s.origSize.toNat) = some bits ∧ execEncode s = .next u ∧
      u = { t with bwBuf := [], bwCount := 0, inPos := t.inPos + s.origSize.toNat, inCount := s.origSize,
                   out := s.out ++ (containerHead s.cfg s.permissions s.origSize.toNat (huffmanTree s) ++ packBits bits),
                   outCount := BitVec.ofNat 64
                     (containerHead s.cfg s.permissions s.origSize.toNat (huffmanTree s) ++ packBits bits).length,
                   result := u.outCount.setWidth 32 }) ∨
    (freqTotal s < 2 ^ 64 ∧ ∃ t u k ys c, EncodeStart s t ∧ k < s.origSize.toNat ∧ k ≤ (inRest s).length ∧
      (∀ x ∈ (inRest s).take k, freqAt s x.toNat ≠ 0#64) ∧
      execEncode s = .next (raiseError 0x40#8 c u) ∧ writerOk u ∧
      (ys.length % block = 0 ∧ payloadOf (huffmanTree s) ((inRest s).take k) = some (unpackBits ys ++ writerBits u)) ∧
      ((k = (inRest s).length ∧ c = .inputShort ∧
          encodeFrame (outWrite (containerHead s.cfg s.permissions s.origSize.toNat (huffmanTree s)) t) u k ys) ∨
        ∃ x, (inRest s)[k]? = some x ∧ freqAt s x.toNat = 0#64 ∧ c = .noCode ∧
          encodeFrame (outWrite (containerHead s.cfg s.permissions s.origSize.toNat (huffmanTree s)) t) u (k + 1) ys)) := by
  by_cases hf : 2 ^ 64 ≤ freqTotal s
  · refine .inl ⟨hf, ?_⟩
    have hq : freqTotal (clearWriter (clearCounts s)) = freqTotal s := freqTotal_congr rfl
    unfold execEncode buildTreeBody
    rw [if_pos (by rw [hq]; exact hf)]
    rfl
  · have hf' : freqTotal s < 2 ^ 64 := Nat.lt_of_not_le hf
    obtain ⟨t, hst, he⟩ := encode_start s hf'
    refine .inr ?_
    rcases first_bad (fun x : Byte => freqAt s x.toNat ≠ 0#64) (inRest s) s.origSize.toNat with ⟨h1, h2⟩ | ⟨k, h1, h2, h3, h4⟩
    · obtain ⟨bits, hb⟩ := payload_of_present h2
      obtain ⟨u, e, f⟩ := encodeRest_spec hst h1 hb
      exact .inl ⟨hf', h1, h2, t, u, bits, hst, hb, by rw [he, e]; rfl, f⟩
    · refine .inr ⟨hf', ?_⟩
      have ho : t.origSize = s.origSize := by rw [hst.frame]
      have hw : writerOk (outWrite (containerHead s.cfg s.permissions s.origSize.toNat (huffmanTree s)) t) := by
        rw [hst.frame]
        exact clearWriter_ok s
      have hrest : inRest (outWrite (containerHead s.cfg s.permissions s.origSize.toNat (huffmanTree s)) t) = inRest s :=
        hst.input
      obtain ⟨a, b⟩ := encodePayload_fail k ((inRest s).length + 1) s.origSize.toNat
        (outWrite (containerHead s.cfg s.permissions s.origSize.toNat (huffmanTree s)) t) hw h1 (by omega)
        (by rw [hrest]; exact h2) (by
          intro x hx
          rw [hrest] at hx
          exact fun hz => h3 x hx ((hst.len_zero x).mp hz))
      have hr : ∀ c u, encodePayload ((inRest s).length + 1) s.origSize.toNat
          (outWrite (containerHead s.cfg s.permissions s.origSize.toNat (huffmanTree s)) t) = .raised c u →
          execEncode s = .next (raiseError 0x40#8 c u) := by
        intro c u e
        rw [he]
        unfold encodeRest
        rw [hst.written, ho, hst.input, e]
        rfl
      rw [hrest] at a b
      obtain ⟨bits, hb⟩ := payload_of_present h3
      have hwb : writerBits (outWrite (containerHead s.cfg s.permissions s.origSize.toNat (huffmanTree s)) t) = [] := by
        rw [hst.frame]
        rfl
      have hsent : ∀ u ys,
          encodedTo (outWrite (containerHead s.cfg s.permissions s.origSize.toNat (huffmanTree s)) t) u ys
            ((inRest s).take k) →
          ys.length % block = 0 ∧ payloadOf (huffmanTree s) ((inRest s).take k) = some (unpackBits ys ++ writerBits u) := by
        rintro u ys ⟨-, w2, w3⟩
        refine ⟨w2, ?_⟩
        rw [w3, hwb, List.nil_append, hb]
        exact congrArg some (hst.payload hb).symm
      rcases h4 with h4 | ⟨x, hx, hz⟩
      · obtain ⟨u, ys, e, f, g⟩ := a h4
        exact ⟨t, u, k, ys, _, hst, h1, h2, h3, hr _ _ e, g.1, hsent u ys g, .inl ⟨h4, rfl, f⟩⟩
      · have hz' : freqAt s x.toNat = 0#64 := not_not.mp hz
        obtain ⟨u, ys, e, f, g⟩ := b x hx ((hst.len_zero x).mpr hz')
        exact ⟨t, u, k, ys, _, hst, h1, h2, h3, hr _ _ e, g.1, hsent u ys g, .inr ⟨x, hx, hz', rfl, f⟩⟩

/-- How many bits a payload has (R108). -/
theorem payload_length {tr : CodeTree} (hc : codesAre s tr) : ∀ (xs : List Byte)
    (bits : List Bool), tr.payload xs = some bits →
    bits.length = (xs.map (fun x => (codeAt s x.toNat).len.toNat)).sum := by
  intro xs
  induction xs with
  | nil =>
    intro bits h
    simp only [CodeTree.payload, Option.some.injEq] at h
    rw [← h]
    rfl
  | cons x xs ih =>
    intro bits h
    simp only [CodeTree.payload] at h
    cases hcx : tr.codeOf x with
    | none => simp [hcx] at h
    | some p =>
      cases hpx : tr.payload xs with
      | none => simp [hcx, hpx] at h
      | some q =>
        simp only [hcx, hpx, Option.some.injEq] at h
        have h1 : p.length = (codeAt s x.toNat).len.toNat := by
          rw [← codesAre_list hc hcx, codeList, List.length_map, List.length_range]
        rw [← h, List.length_append, ih q hpx, h1]
        rfl

/-- A sum over bytes is the sum over the alphabet of how often each occurs (R215). -/
theorem sum_by_count (f : Nat → Nat) (xs : List Byte) {m : Nat} (hm : m = 256) :
    (xs.map (fun x => f x.toNat)).sum = ((List.range m).map (fun i => xs.count (BitVec.ofNat 8 i) * f i)).sum := by
  induction xs with
  | nil => simp
  | cons x xs ih =>
    have h1 : ∀ i ∈ List.range m, (x :: xs).count (BitVec.ofNat 8 i) * f i =
        xs.count (BitVec.ofNat 8 i) * f i + if i = x.toNat then f i else 0 := by
      intro i hi
      have hi' := List.mem_range.mp hi
      rw [List.count_cons]
      have : (x == BitVec.ofNat 8 i) = decide (i = x.toNat) := by
        rw [Bool.eq_iff_iff]
        simp only [beq_iff_eq, decide_eq_true_eq]
        constructor
        · rintro rfl
          rw [BitVec.toNat_ofNat]
          exact (Nat.mod_eq_of_lt (by omega)).symm
        · rintro rfl
          simp
      rw [this]
      by_cases hx : i = x.toNat <;> simp [hx, Nat.add_mul]
    rw [List.map_congr_left h1, List.sum_map_add, ← ih, List.map_cons, List.sum_cons, Nat.add_comm]
    congr 1
    have h2 : ∀ n, ((List.range n).map (fun i => if i = x.toNat then f i else 0)).sum =
        if x.toNat < n then f x.toNat else 0 := by
      intro n
      induction n with
      | zero => simp
      | succ n ih =>
        rw [List.range_succ, List.map_append, List.sum_append, ih]
        by_cases h : x.toNat < n
        · simp [h, show x.toNat < n + 1 by omega, show n ≠ x.toNat by omega]
        · by_cases h' : n = x.toNat
          · simp [h']
          · simp [h, h', show ¬ x.toNat < n + 1 by omega]
    rw [h2, if_pos (by rw [hm]; exact x.isLt)]

end Sys2Proof.Machine
end

