-- ==== Sys2Proof/Laws/DecodeRun.lean ====
section
/-! SUPPORT. DECODE as a whole: every way it can end, and what it does with a well-formed header and dump. -/

namespace Sys2Proof.Machine

open Sys2Proof

variable {s t : State}

/-- DECODE's state once a whole header with the right magic is read (R220). -/
def headerState (s : State) : State :=
  { s with brBuf := [], brValid := 0, brIndex := 0, eos := false, outCount := 0#64, inPos := s.inPos + 16,
           inCount := 16#64, permissions := BitVec.ofNat 16 (rdle (((inRest s).drop 4).take 2)),
           treeSize := BitVec.ofNat 16 (rdle (((inRest s).drop 6).take 2)),
           origSize := BitVec.ofNat 64 (rdle (((inRest s).drop 8).take 8)) }

@[simp] theorem headerState_cfg (s : State) : (headerState s).cfg = s.cfg := rfl
@[simp] theorem headerState_freq (s : State) : (headerState s).freq = s.freq := rfl
@[simp] theorem headerState_pool (s : State) : (headerState s).pool = s.pool := rfl
@[simp] theorem headerState_root (s : State) : (headerState s).root = s.root := rfl
@[simp] theorem headerState_leafCount (s : State) : (headerState s).leafCount = s.leafCount := rfl
@[simp] theorem headerState_code (s : State) : (headerState s).code = s.code := rfl
@[simp] theorem headerState_codesValid (s : State) : (headerState s).codesValid = s.codesValid := rfl
@[simp] theorem headerState_pq (s : State) : (headerState s).pq = s.pq := rfl
@[simp] theorem headerState_stack (s : State) : (headerState s).stack = s.stack := rfl
@[simp] theorem headerState_dump (s : State) : (headerState s).dump = s.dump := rfl
@[simp] theorem headerState_bwBuf (s : State) : (headerState s).bwBuf = s.bwBuf := rfl
@[simp] theorem headerState_bwCount (s : State) : (headerState s).bwCount = s.bwCount := rfl
@[simp] theorem headerState_brBuf (s : State) : (headerState s).brBuf = [] := rfl
@[simp] theorem headerState_brValid (s : State) : (headerState s).brValid = 0 := rfl
@[simp] theorem headerState_brIndex (s : State) : (headerState s).brIndex = 0 := rfl
@[simp] theorem headerState_eos (s : State) : (headerState s).eos = false := rfl
@[simp] theorem headerState_err (s : State) : (headerState s).err = s.err := rfl
@[simp] theorem headerState_error (s : State) : (headerState s).error = s.error := rfl
@[simp] theorem headerState_result (s : State) : (headerState s).result = s.result := rfl
@[simp] theorem headerState_nodeSym (s : State) : (headerState s).nodeSym = s.nodeSym := rfl
@[simp] theorem headerState_nodeLeft (s : State) : (headerState s).nodeLeft = s.nodeLeft := rfl
@[simp] theorem headerState_nodeRight (s : State) : (headerState s).nodeRight = s.nodeRight := rfl
@[simp] theorem headerState_nodeFreq (s : State) : (headerState s).nodeFreq = s.nodeFreq := rfl
@[simp] theorem headerState_codeLen (s : State) : (headerState s).codeLen = s.codeLen := rfl
@[simp] theorem headerState_codeBits (s : State) : (headerState s).codeBits = s.codeBits := rfl
@[simp] theorem headerState_inCount (s : State) : (headerState s).inCount = 16#64 := rfl
@[simp] theorem headerState_outCount (s : State) : (headerState s).outCount = 0#64 := rfl
@[simp] theorem headerState_inBytes (s : State) : (headerState s).inBytes = s.inBytes := rfl
@[simp] theorem headerState_inPos (s : State) : (headerState s).inPos = s.inPos + 16 := rfl
@[simp] theorem headerState_out (s : State) : (headerState s).out = s.out := rfl
@[simp] theorem headerState_host (s : State) : (headerState s).host = s.host := rfl
@[simp] theorem headerState_readLog (s : State) : (headerState s).readLog = s.readLog := rfl
@[simp] theorem headerState_errLog (s : State) : (headerState s).errLog = s.errLog := rfl

/-- DECODE's last part: the payload (R220, R223). -/
def decodeRest (s : State) : Res Unit :=
  (decodePayload (payloadBits s + 1) s.origSize.toNat s.root s).bind fun _ s =>
  .ok () (setResult (s.outCount.setWidth 32) s)

theorem inRest_headerState (s : State) : inRest (headerState s) = (inRest s).drop 16 := by
  unfold inRest headerState
  rw [List.drop_drop]

theorem inRest_readDump (s : State) : inRest (readDump s) = (inRest s).drop s.treeSize.toNat :=
  inRest_inReadState s.treeSize.toNat s

theorem dumpBytes_readDump (h : s.treeSize.toNat ≤ (inRest s).length) :
    dumpBytes s.treeSize.toNat (readDump s) = (inRest s).take s.treeSize.toNat := by
  have hl : ((inRest s).take s.treeSize.toNat).length = s.treeSize.toNat := by rw [List.length_take]; omega
  have := storeTake_writeList 0#8 s.dump ((inRest s).take s.treeSize.toNat)
  rw [hl] at this
  exact this

/-- DECODE's header step on a whole header with the right magic. -/
theorem decodeHeader_ok (h : 16 ≤ (inRest s).length)
    (hm : BitVec.ofNat 32 (rdle ((inRest s).take 4)) = s.cfg.magic) :
    decodeHeader (clearReader (clearCounts s)) = .ok () (headerState s) := by
  have hr : inRest (clearReader (clearCounts s)) = inRest s := rfl
  have hh : headerSize = 16 := rfl
  have hb : inReadBytes headerSize (clearReader (clearCounts s)) = (inRest s).take 16 := rfl
  have hl : ((inRest s).take 16).length = 16 := by rw [List.length_take]; omega
  rcases decodeHeader_cases (clearReader (clearCounts s)) with ⟨h1, -⟩ | ⟨-, h2, -⟩ | ⟨-, -, h3⟩
  · rw [hr, hh] at h1; omega
  · rw [hr] at h2; exact absurd hm h2
  · rw [h3, hb]
    unfold storeHeader inReadState headerState
    rw [hb, hl]
    simp only [List.drop_take, List.take_take, clearReader, clearCounts]
    norm_num

/-- Every way DECODE can end (R220, R223, R226). -/
theorem decode_cases (s : State) :
    ((inRest s).length < 16 ∧
      execDecode s = .next (raiseError 0x41#8 .headerShort (inReadState 16 (clearReader (clearCounts s))))) ∨
    (16 ≤ (inRest s).length ∧ BitVec.ofNat 32 (rdle ((inRest s).take 4)) ≠ s.cfg.magic ∧
      execDecode s = .next (raiseError 0x41#8 .badMagic (inReadState 16 (clearReader (clearCounts s))))) ∨
    (16 ≤ (inRest s).length ∧ BitVec.ofNat 32 (rdle ((inRest s).take 4)) = s.cfg.magic ∧
      ((767 < (headerState s).treeSize.toNat ∧
          execDecode s = .next (raiseError 0x41#8 .treeSizeRange (headerState s))) ∨
        ((headerState s).treeSize.toNat ≤ 767 ∧ (inRest (headerState s)).length < (headerState s).treeSize.toNat ∧
          execDecode s = .next (raiseError 0x41#8 .dumpShort (readDump (headerState s)))) ∨
        ((headerState s).treeSize.toNat ≤ 767 ∧ (headerState s).treeSize.toNat ≤ (inRest (headerState s)).length ∧
          ((∃ c u, rebuildFrame (readDump (headerState s)) u ∧ treeEmpty u ∧
              (c = .badTag ∨ c = .stackUnderflow ∨ c = .leafRecordCut ∨ c = .dumpLeftover) ∧
              rebuildBody (readDump (headerState s)) = .raised c u ∧
              dumpFault s.cfg 0 ((inRest (headerState s)).take (headerState s).treeSize.toNat) = some c ∧
              execDecode s = .next (raiseError 0x41#8 c u)) ∨
            (∃ u, (headerState s).treeSize.toNat = 0 ∧ rebuildFrame (readDump (headerState s)) u ∧ treeEmpty u ∧
              ((0 < (headerState s).origSize.toNat ∧ execDecode s = .next (raiseError 0x41#8 .emptyTree u)) ∨
                ((headerState s).origSize.toNat = 0 ∧
                  execDecode s = .next (setResult (u.outCount.setWidth 32) u)))) ∨
            (∃ u tr, rebuildFrame (readDump (headerState s)) u ∧ treeIs u tr ∧
              rebuildBody (readDump (headerState s)) = .ok () u ∧
              tr.dump s.cfg = (inRest (headerState s)).take (headerState s).treeSize.toNat ∧
              dumpFault s.cfg 0 ((inRest (headerState s)).take (headerState s).treeSize.toNat) = none ∧
              execDecode s = endCommand 0x41#8 (decodeRest u)))))) := by
  rcases decodeHeader_cases (clearReader (clearCounts s)) with ⟨h1, h2⟩ | ⟨h1, h2, h3⟩ | ⟨h1, h2, -⟩
  · refine .inl ⟨h1, ?_⟩
    unfold execDecode
    rw [h2]
    rfl
  · refine .inr (.inl ⟨h1, h2, ?_⟩)
    unfold execDecode
    rw [h3]
    rfl
  · have hd := decodeHeader_ok (s := s) h1 h2
    refine .inr (.inr ⟨h1, h2, ?_⟩)
    have hcfg : (headerState s).cfg = s.cfg := rfl
    generalize hg : headerState s = v at *
    unfold execDecode
    rw [hd, bind_ok]
    by_cases hr : 767 < v.treeSize.toNat
    · refine .inl ⟨hr, ?_⟩
      unfold decodeDump
      rw [if_pos hr]
      rfl
    · have hr' : v.treeSize.toNat ≤ 767 := by omega
      have hlen := inReadBytes_length v.treeSize.toNat v
      unfold decodeDump
      rw [if_neg hr]
      refine .inr ?_
      by_cases hs : (inRest v).length < v.treeSize.toNat
      · refine .inl ⟨hr', hs, ?_⟩
        have hc : (inReadBytes v.treeSize.toNat v).length < v.treeSize.toNat := by omega
        rw [if_pos hc]
        rfl
      · refine .inr ⟨hr', by omega, ?_⟩
        have hc : ¬ (inReadBytes v.treeSize.toNat v).length < v.treeSize.toNat := by omega
        rw [if_neg hc, bind_ok]
        have hz : (readDump v).treeSize = v.treeSize := rfl
        have ho : (readDump v).origSize = v.origSize := rfl
        have hcf : (readDump v).cfg = v.cfg := rfl
        have hread := dumpBytes_readDump (s := v) (by omega)
        rcases rebuildBody_spec (readDump v) hr' with ⟨u, tr, e, f, g, d, q⟩ | ⟨u, z, e, f, g⟩ | ⟨c, u, e, f, g, hcc, q⟩
        · rw [hz, hread, hcf, hcfg] at d q
          refine .inr (.inr ⟨u, tr, f, g, e, d, q, ?_⟩)
          · rw [e, bind_ok]
            have hne : u.root ≠ nil := by obtain ⟨ns, a, -⟩ := g; exact poolHolds_ne_nil a
            unfold checkTree
            rw [if_neg (fun h => hne h.2), bind_ok]
            rfl
        · refine .inr (.inl ⟨u, z, f, g, ?_⟩)
          have huo : u.origSize = v.origSize := by rw [f]; rfl
          rw [e, bind_ok]
          unfold checkTree
          by_cases h0 : 0 < v.origSize.toNat
          · refine .inl ⟨h0, ?_⟩
            rw [if_pos ⟨by rw [huo]; exact h0, g.1⟩]
            rfl
          · refine .inr ⟨by omega, ?_⟩
            rw [if_neg (fun h => h0 (by rw [← huo]; exact h.1)), bind_ok]
            unfold decodePayload
            rw [if_pos (by rw [huo]; omega)]
            rfl
        · rw [hz, hread, hcf, hcfg] at q
          refine .inl ⟨c, u, f, g, hcc, e, q, ?_⟩
          rw [e]
          rfl

/-- What DECODE's payload does with the tree in place and the reader empty (R222, R223): the pure decoder's symbols go to
OUT, as many bits as it reads are read, and EOS is set when they ran out. -/
theorem decodeRest_spec {u : State} {tr : CodeTree} (hi : treeIs u tr) (hv : u.brValid = 0) (hx : u.brIndex = 0)
    (he : u.eos = false) :
    ∃ v, decodeFrame u v (tr.decodeBits (unpackBits (inRest u)) u.origSize.toNat tr).1 ∧
      ReadAt u (tr.bitsRead (unpackBits (inRest u)) u.origSize.toNat tr) v ∧
      v.eos = decide ((tr.decodeBits (unpackBits (inRest u)) u.origSize.toNat tr).2 = some .payloadShort) ∧
      ((tr.decodeBits (unpackBits (inRest u)) u.origSize.toNat tr).2 = none →
        decodeRest u = .ok () (setResult (v.outCount.setWidth 32) v)) ∧
      ∀ c, (tr.decodeBits (unpackBits (inRest u)) u.origSize.toNat tr).2 = some c → decodeRest u = .raised c v := by
  obtain ⟨ns, hp, -⟩ := hi
  have hb : readerBits u = unpackBits (inRest u) := by simp [readerBits, hv]
  obtain ⟨v, f, g, q, h⟩ := decodePayload_spec (payloadBits u + 1) u u 0 u.origSize.toNat u.root tr tr ns ns
    (.start hv hx) he (by rw [hb, unpackBits_length]; unfold payloadBits; omega) hp hp (by
      cases tr with
      | leaf x => exact .inl ⟨x, rfl⟩
      | node l r => exact .inr ⟨l, r, rfl⟩)
  rw [hb] at f h q g
  rw [Nat.zero_add] at g
  refine ⟨v, f, g, q, fun e => ?_, fun c e => ?_⟩
  · rw [e] at h
    unfold decodeRest
    rw [h]
    rfl
  · rw [e] at h
    unfold decodeRest
    rw [h]
    rfl

/-- Two trees with one dump are the same tree (R106). -/
theorem dump_inj {c : Config} (hc : c.wf) {t u : CodeTree} (hl : (t.dump c).length ≤ 767) (h : t.dump c = u.dump c) :
    t = u := by
  let s : State := { State.reset with cfg := c, dump := storeWriteList 0#8 [] 0 (t.dump c),
                                      treeSize := BitVec.ofNat 16 (t.dump c).length }
  have hz : s.treeSize.toNat = (t.dump c).length := by
    show (BitVec.ofNat 16 _).toNat = _
    rw [BitVec.toNat_ofNat]
    exact Nat.mod_eq_of_lt (by omega)
  have hd : dumpBytes s.treeSize.toNat s = t.dump s.cfg := by
    rw [hz]
    exact storeTake_writeList 0#8 [] (t.dump c)
  obtain ⟨a, h1, -, ⟨ns, i1, -⟩, -⟩ := rebuildBody_dump s t hc hd (by rw [hz]; exact hl)
  obtain ⟨b, h2, -, ⟨ms, i2, -⟩, -⟩ := rebuildBody_dump s u hc (hd.trans h) (by rw [hz]; exact hl)
  rw [h1] at h2
  cases h2
  exact (poolHolds_unique i1 i2).1

/-- The parts of a header and dump written for given fields (R102). -/
theorem headerState_of (perms sz : BitVec 16) (n : BitVec 64) (rest : List Byte)
    (h : inRest s = leBytes 4 s.cfg.magic.toNat ++ leBytes 2 perms.toNat ++ leBytes 2 sz.toNat ++ leBytes 8 n.toNat ++
      rest) :
    16 ≤ (inRest s).length ∧ BitVec.ofNat 32 (rdle ((inRest s).take 4)) = s.cfg.magic ∧
      (headerState s).permissions = perms ∧ (headerState s).treeSize = sz ∧ (headerState s).origSize = n ∧
      inRest (headerState s) = rest := by
  have e4 := leBytes_length 4 s.cfg.magic.toNat
  have e2 := leBytes_length 2 perms.toNat
  have e2' := leBytes_length 2 sz.toNat
  have e8 := leBytes_length 8 n.toNat
  simp only [List.append_assoc] at h
  have d4 : (inRest s).drop 4 = leBytes 2 perms.toNat ++ (leBytes 2 sz.toNat ++ (leBytes 8 n.toNat ++ rest)) := by
    rw [h]; exact List.drop_left' e4
  have d6 : (inRest s).drop 6 = leBytes 2 sz.toNat ++ (leBytes 8 n.toNat ++ rest) := by
    rw [show 6 = 4 + 2 from rfl, ← List.drop_drop, d4]; exact List.drop_left' e2
  have d8 : (inRest s).drop 8 = leBytes 8 n.toNat ++ rest := by
    rw [show 8 = 6 + 2 from rfl, ← List.drop_drop, d6]; exact List.drop_left' e2'
  have d16 : (inRest s).drop 16 = rest := by
    rw [show 16 = 8 + 8 from rfl, ← List.drop_drop, d8]; exact List.drop_left' e8
  refine ⟨?_, ?_, ?_, ?_, ?_, ?_⟩
  · rw [h]
    simp only [List.length_append, leBytes_length]
    omega
  · rw [h, List.take_left' e4, rdle_leBytes]
    apply BitVec.eq_of_toNat_eq
    have := s.cfg.magic.isLt
    rw [BitVec.toNat_ofNat]
    omega
  · show BitVec.ofNat 16 (rdle (((inRest s).drop 4).take 2)) = _
    rw [d4, List.take_left' e2, rdle_leBytes]
    apply BitVec.eq_of_toNat_eq
    have := perms.isLt
    rw [BitVec.toNat_ofNat]
    omega
  · show BitVec.ofNat 16 (rdle (((inRest s).drop 6).take 2)) = _
    rw [d6, List.take_left' e2', rdle_leBytes]
    apply BitVec.eq_of_toNat_eq
    have := sz.isLt
    rw [BitVec.toNat_ofNat]
    omega
  · show BitVec.ofNat 64 (rdle (((inRest s).drop 8).take 8)) = _
    rw [d8, List.take_left' e8, rdle_leBytes]
    apply BitVec.eq_of_toNat_eq
    have := n.isLt
    rw [BitVec.toNat_ofNat]
    omega
  · rw [inRest_headerState, d16]

end Sys2Proof.Machine
end

