-- ==== Sys2Proof/Laws/Keep.lean ====
section
/-! SUPPORT. A property kept by the pieces of a command's body is kept by the body, however it ends; the loops of every body in
those terms; the canonical form of the memories as such a property. -/

namespace Sys2Proof.Machine

open Sys2Proof

/-- Whatever state a body ends in, by ending or by raising, has the property. -/
structure Keeps {α : Type} (P : State → Prop) (r : Res α) : Prop where
  onOk : ∀ a t, r = .ok a t → P t
  onRaised : ∀ c t, r = .raised c t → P t

theorem keeps_ok {α : Type} {P : State → Prop} {a : α} {s : State} (h : P s) : Keeps P (.ok a s) :=
  ⟨fun _ _ e => (by cases e; exact h), fun _ _ e => (by cases e)⟩

theorem keeps_raised {α : Type} {P : State → Prop} {c : Cause} {s : State} (h : P s) :
    Keeps P (.raised c s : Res α) :=
  ⟨fun _ _ e => (by cases e), fun _ _ e => (by cases e; exact h)⟩

theorem keeps_stuck {α : Type} {P : State → Prop} {e : Fault} : Keeps P (.stuck e : Res α) :=
  ⟨fun _ _ e => (by cases e), fun _ _ e => (by cases e)⟩

theorem Keeps.bind {α β : Type} {P : State → Prop} {r : Res α} {f : α → State → Res β} (h : Keeps P r)
    (hf : ∀ a s, P s → Keeps P (f a s)) : Keeps P (r.bind f) := by
  cases r with
  | ok a s => exact hf a s (h.onOk a s rfl)
  | raised c s => exact keeps_raised (h.onRaised c s rfl)
  | stuck e => exact keeps_stuck

theorem Keeps.mono {α : Type} {P Q : State → Prop} {r : Res α} (h : Keeps P r) (hq : ∀ s, P s → Q s) : Keeps Q r :=
  ⟨fun a t e => hq t (h.onOk a t e), fun c t e => hq t (h.onRaised c t e)⟩

/-- A command's end keeps what its body keeps and what `raise` keeps. -/
theorem Keeps.next {P : State → Prop} {op : BitVec 8} {r : Res Unit} {t : State} (h : Keeps P r)
    (hr : ∀ c s, P s → P (raiseError op c s)) (e : endCommand op r = .next t) : P t := by
  rcases endCommand_eq_next.mp e with e | ⟨c, s, e', rfl⟩
  · exact h.onOk _ _ e
  · exact hr c s (h.onRaised _ _ e')

section loops

variable {P : State → Prop}

theorem keeps_enqueueLeaves (ha : ∀ sym f l r s, P s → Keeps P (allocNode sym f l r s))
    (hq : ∀ n s, P s → Keeps P (pqInsertNode n s)) (hl : ∀ v s, P s → P { s with leafCount := v }) :
    ∀ (xs : List Nat) (s : State), P s → Keeps P (enqueueLeaves xs s) := by
  intro xs
  induction xs with
  | nil => intro s h; exact keeps_ok h
  | cons x xs ih =>
    intro s h
    unfold enqueueLeaves
    split
    · exact ih s h
    · exact (ha _ _ _ _ s h).bind fun i s h => (hq _ s h).bind fun _ s h => ih _ (hl _ s h)

theorem keeps_joinLoop (he : ∀ s, P s → Keeps P (pqExtractNode s))
    (ha : ∀ sym f l r s, P s → Keeps P (allocNode sym f l r s)) (hq : ∀ n s, P s → Keeps P (pqInsertNode n s)) :
    ∀ (n : Nat) (s : State), P s → Keeps P (joinLoop n s) := by
  intro n
  induction n with
  | zero => intro s h; unfold joinLoop; split <;> first | exact keeps_stuck | exact keeps_ok h
  | succ n ih =>
    intro s h
    unfold joinLoop
    split
    · exact (he s h).bind fun l s h => (he s h).bind fun r s h => (ha _ _ _ _ s h).bind fun p s h =>
        (hq _ s h).bind fun _ s h => ih _ h
    · exact keeps_ok h

theorem keeps_takeRoot (he : ∀ s, P s → Keeps P (pqExtractNode s)) (hr : ∀ v s, P s → P { s with root := v })
    (s : State) (h : P s) : Keeps P (takeRoot s) := by
  unfold takeRoot
  split
  · exact (he s h).bind fun n s h => keeps_ok (hr n s h)
  · exact keeps_ok h

theorem keeps_buildTreeBody (hs : ∀ s, P s → P { releasePool s with codesValid := false })
    (ha : ∀ sym f l r s, P s → Keeps P (allocNode sym f l r s)) (hq : ∀ n s, P s → Keeps P (pqInsertNode n s))
    (he : ∀ s, P s → Keeps P (pqExtractNode s)) (hl : ∀ v s, P s → P { s with leafCount := v })
    (hr : ∀ v s, P s → P { s with root := v }) (s : State) (h : P s) : Keeps P (buildTreeBody s) := by
  unfold buildTreeBody
  split
  · exact keeps_raised h
  · exact (keeps_enqueueLeaves ha hq hl _ _ (hs s h)).bind fun _ s h => (keeps_joinLoop he ha hq _ s h).bind fun _ s h =>
      keeps_takeRoot he hr s h

theorem keeps_walkCodes (hc : ∀ i e s, i < alphabet → P s → P (setCode i e s)) :
    ∀ (n : Nat) (i : NodeIx) (path : List Bool) (s : State), P s → Keeps P (walkCodes n i path s) := by
  have hpush : ∀ b path s, P s → Keeps P (codePush b path s) := by
    intro b path s h; unfold codePush; split
    · exact keeps_raised h
    · exact keeps_ok h
  have hpop : ∀ path s, P s → Keeps P (codePop path s) := by
    intro path s h; unfold codePop; split
    · exact keeps_raised h
    · exact keeps_ok h
  intro n
  induction n with
  | zero => intro i path s h; exact keeps_stuck
  | succ n ih =>
    intro i path s h
    unfold walkCodes
    split
    · exact keeps_stuck
    · split
      · exact keeps_ok (hc _ _ s (BitVec.isLt _) h)
      · exact (hpush _ _ s h).bind fun _ s h => (ih _ _ s h).bind fun _ s h => (hpop _ s h).bind fun _ s h =>
          (hpush _ _ s h).bind fun _ s h => (ih _ _ s h).bind fun _ s h => hpop _ s h

theorem keeps_buildCodesBody (hz : ∀ s, P s → P { s with code := [] })
    (hc : ∀ i e s, i < alphabet → P s → P (setCode i e s)) (hv : ∀ s, P s → P { s with codesValid := true })
    (s : State) (h : P s) : Keeps P (buildCodesBody s) := by
  unfold buildCodesBody
  refine Keeps.bind (P := P) ?_ fun _ s h => keeps_ok (hv s h)
  have h := hz s h
  revert h
  generalize ({ s with code := [] } : State) = s
  intro h
  unfold codesOfTree
  split
  · exact keeps_ok h
  · split
    · exact keeps_ok (hc _ _ s (BitVec.isLt _) h)
    · exact (keeps_walkCodes hc _ _ _ s h).bind fun _ s h => keeps_ok h

theorem keeps_postDump (hd : ∀ k b s, P s → Keeps P (dumpPut k b s)) :
    ∀ (n : Nat) (i : NodeIx) (k : Nat) (s : State), P s → Keeps P (postDump n i k s) := by
  intro n
  induction n with
  | zero => intro i k s h; exact keeps_stuck
  | succ n ih =>
    intro i k s h
    unfold postDump
    split
    · exact keeps_stuck
    · split
      · exact (hd _ _ s h).bind fun _ s h => (hd _ _ s h).bind fun _ s h => keeps_ok h
      · exact (ih _ _ s h).bind fun _ s h => (ih _ _ s h).bind fun _ s h => (hd _ _ s h).bind fun _ s h => keeps_ok h

theorem keeps_serializeBody (hd : ∀ k b s, P s → Keeps P (dumpPut k b s)) (ht : ∀ v s, P s → P { s with treeSize := v })
    (s : State) (h : P s) : Keeps P (serializeBody s) := by
  unfold serializeBody
  refine Keeps.bind (P := P) ?_ fun _ s h => keeps_ok (ht _ s h)
  split
  · exact keeps_ok h
  · exact keeps_postDump hd _ _ _ s h

theorem keeps_scanDump (ha : ∀ sym f l r s, P s → Keeps P (allocNode sym f l r s))
    (hu : ∀ i s, P s → Keeps P (pushNode i s)) (ho : ∀ s, P s → Keeps P (popNode s))
    (hl : ∀ v s, P s → P { s with leafCount := v }) :
    ∀ (n : Nat) (bs : List Byte) (s : State), bs.length ≤ n → P s → Keeps P (scanDump bs s) := by
  intro n
  induction n with
  | zero =>
    intro bs s hn h
    have : bs = [] := List.length_eq_zero_iff.mp (by omega)
    subst this
    unfold scanDump
    exact keeps_ok h
  | succ n ih =>
    intro bs s hn h
    match bs, hn with
    | [], _ => unfold scanDump; exact keeps_ok h
    | b :: bs, hn =>
      simp only [List.length_cons] at hn
      unfold scanDump
      split
      · match bs, hn with
        | [], _ => exact keeps_raised h
        | x :: xs, hn =>
          simp only [List.length_cons] at hn
          refine Keeps.bind (P := P) ?_ fun _ s h => ih _ s (by omega) h
          exact (ha _ _ _ _ s h).bind fun _ s h => (hu _ s h).bind fun _ s h => keeps_ok (hl _ s h)
      · split
        · refine Keeps.bind (P := P) ?_ fun _ s h => ih _ s (by omega) h
          unfold interiorRecord
          split
          · exact keeps_raised h
          · exact (ho s h).bind fun _ s h => (ho s h).bind fun _ s h => (ha _ _ _ _ s h).bind fun _ s h => hu _ s h
        · exact keeps_raised h

theorem keeps_rollback (hrel : ∀ s, P s → P (releasePool s)) {r : Res Unit} (h : Keeps P r) : Keeps P (rollback r) := by
  cases r with
  | ok a t => exact keeps_ok (h.onOk a t rfl)
  | raised c t => exact keeps_raised (hrel t (h.onRaised c t rfl))
  | stuck e => exact keeps_stuck

theorem keeps_rebuildBody (hs : ∀ s, P s → P { releasePool s with codesValid := false })
    (hrel : ∀ s, P s → P (releasePool s)) (ha : ∀ sym f l r s, P s → Keeps P (allocNode sym f l r s))
    (hu : ∀ i s, P s → Keeps P (pushNode i s)) (ho : ∀ s, P s → Keeps P (popNode s))
    (hl : ∀ v s, P s → P { s with leafCount := v }) (hr : ∀ v s, P s → P { s with root := v }) (s : State) (h : P s) :
    Keeps P (rebuildBody s) := by
  unfold rebuildBody
  split
  · exact keeps_raised h
  · refine keeps_rollback hrel ((keeps_scanDump ha hu ho hl _ _ _ le_rfl (hs s h)).bind fun _ s h => ?_)
    unfold finishScan
    split
    · exact keeps_ok (hr _ s h)
    · split
      · exact (ho s h).bind fun _ s h => keeps_ok (hr _ s h)
      · exact keeps_raised h

theorem keeps_writeBits (hw : ∀ b s, P s → Keeps P (writeBit b s)) :
    ∀ (bs : List Bool) (f : Nat) (s : State), P s → Keeps P (writeBits bs f s) := by
  intro bs
  induction bs with
  | nil => intro f s h; exact keeps_ok h
  | cons b bs ih => intro f s h; exact (hw b s h).bind fun _ s h => ih _ s h

theorem keeps_encodePayload (hi : ∀ s, P s → P (inReadState 1 s)) (hw : ∀ b s, P s → Keeps P (writeBit b s)) :
    ∀ (n m : Nat) (s : State), P s → Keeps P (encodePayload n m s) := by
  intro n
  induction n with
  | zero => intro m s h; exact keeps_stuck
  | succ n ih =>
    intro m s h
    unfold encodePayload
    split
    · exact keeps_ok h
    · split
      · exact keeps_raised (hi s h)
      · split
        · exact keeps_raised (hi s h)
        · exact (keeps_writeBits hw _ _ _ (hi s h)).bind fun _ s h => ih _ s h

theorem keeps_decodePayload (hr : ∀ s, P s → Keeps P (readBit s)) (ho : ∀ x s, P s → P (outWrite [x] s)) :
    ∀ (n m : Nat) (cur : NodeIx) (s : State), P s → Keeps P (decodePayload n m cur s) := by
  intro n
  induction n with
  | zero => intro m cur s h; exact keeps_stuck
  | succ n ih =>
    intro m cur s h
    unfold decodePayload
    split
    · exact keeps_ok h
    · refine (hr s h).bind fun r s h => ?_
      cases r with
      | none => exact keeps_raised h
      | some b =>
        simp only
        split
        · split
          · exact keeps_raised h
          · exact ih _ _ _ (ho _ s h)
        · generalize (if b = true then (nodeAt s cur.toNat).right else (nodeAt s cur.toNat).left) = nx
          split
          · exact keeps_raised h
          · split
            · exact ih _ _ _ (ho _ s h)
            · exact ih _ _ s h

end loops

/-! ### The memories -/

theorem memoriesOk_reset : memoriesOk State.reset := by
  refine ⟨?_, ?_, ?_, ?_, ?_, ?_⟩ <;> exact ⟨List.Pairwise.nil, by simp [State.reset]⟩

section memories

variable {s : State}

theorem memoriesOk_pool (h : memoriesOk s) {p : Store NodeEntry} (hp : storeWf NodeEntry.blank nodeCap p) :
    memoriesOk { s with pool := p } := ⟨h.1, hp, h.2.2⟩

theorem memoriesOk_alloc (h : memoriesOk s) (sym : Byte) (f : Freq) (l r : NodeIx) :
    Keeps memoriesOk (allocNode sym f l r s) := by
  rcases allocNode_cases sym f l r s with e | ⟨i, hi, _, e⟩
  · rw [e]; exact keeps_raised h
  · rw [e]; exact keeps_ok (memoriesOk_pool h (storeWrite_wf _ _ _ _ _ h.2.1 hi))

theorem memoriesOk_release (h : memoriesOk s) : memoriesOk (releasePool s) :=
  memoriesOk_pool h (storeMap_wf _ _ _ _ h.2.1)

theorem memoriesOk_pqInsert (h : memoriesOk s) (n : NodeIx) : Keeps memoriesOk (pqInsertNode n s) := by
  rcases pqInsertNode_cases n s with ⟨_, e⟩ | ⟨_, e⟩ <;> rw [e]
  · exact keeps_raised h
  · exact keeps_ok h

theorem memoriesOk_pqExtract (h : memoriesOk s) : Keeps memoriesOk (pqExtractNode s) := by
  rcases pqExtractNode_cases s with ⟨_, e⟩ | ⟨_, _, _, e⟩ <;> rw [e]
  · exact keeps_raised h
  · exact keeps_ok h

theorem memoriesOk_push (h : memoriesOk s) (i : NodeIx) : Keeps memoriesOk (pushNode i s) := by
  rcases pushNode_cases i s with ⟨_, e⟩ | ⟨_, e⟩ <;> rw [e]
  · exact keeps_raised h
  · exact keeps_ok h

theorem memoriesOk_pop (h : memoriesOk s) : Keeps memoriesOk (popNode s) := by
  rcases popNode_cases s with ⟨_, e⟩ | ⟨_, _, _, e⟩ <;> rw [e]
  · exact keeps_raised h
  · exact keeps_ok h

theorem memoriesOk_setCode (h : memoriesOk s) {i : Nat} (e : CodeEntry) (hi : i < alphabet) :
    memoriesOk (setCode i e s) :=
  ⟨h.1, h.2.1, storeWrite_wf _ _ _ _ _ h.2.2.1 hi, h.2.2.2⟩

theorem memoriesOk_dump (h : memoriesOk s) {m : Memory} (hm : Memory.wf maxTreeSize m) :
    memoriesOk { s with dump := m } :=
  ⟨h.1, h.2.1, h.2.2.1, hm, h.2.2.2.2⟩

theorem memoriesOk_dumpPut (h : memoriesOk s) (k : Nat) (b : Byte) : Keeps memoriesOk (dumpPut k b s) := by
  unfold dumpPut
  split
  · next hk => exact keeps_ok (memoriesOk_dump h (storeWrite_wf _ _ _ _ _ h.2.2.2.1 hk))
  · exact keeps_stuck

theorem memoriesOk_clearWriter (h : memoriesOk s) : memoriesOk (clearWriter s) :=
  ⟨h.1, h.2.1, h.2.2.1, h.2.2.2.1, storeWf_nil _ _, h.2.2.2.2.2⟩

theorem memoriesOk_clearReader (h : memoriesOk s) : memoriesOk (clearReader s) :=
  ⟨h.1, h.2.1, h.2.2.1, h.2.2.2.1, h.2.2.2.2.1, storeWf_nil _ _⟩

theorem memoriesOk_outWrite (h : memoriesOk s) (xs : List Byte) : memoriesOk (outWrite xs s) := h

theorem memoriesOk_inRead (h : memoriesOk s) (n : Nat) : memoriesOk (inReadState n s) := h

theorem memoriesOk_writeBit (h : memoriesOk s) (b : Bool) : Keeps memoriesOk (writeBit b s) := by
  unfold writeBit
  split
  · next hk =>
    split
    · exact keeps_ok (memoriesOk_clearWriter (memoriesOk_outWrite h _))
    · exact keeps_ok ⟨h.1, h.2.1, h.2.2.1, h.2.2.2.1, bufSetBit_wf _ _ _ _ h.2.2.2.2.1 hk, h.2.2.2.2.2⟩
  · exact keeps_stuck

theorem memoriesOk_flush (h : memoriesOk s) : Keeps memoriesOk (flushWriter s) := by
  unfold flushWriter
  split
  · split
    · exact keeps_ok (memoriesOk_clearWriter (memoriesOk_outWrite h _))
    · exact keeps_ok (memoriesOk_clearWriter h)
  · exact keeps_stuck

theorem memoriesOk_refill (h : memoriesOk s) : memoriesOk (refillReader s) := by
  refine ⟨h.1, h.2.1, h.2.2.1, h.2.2.2.1, h.2.2.2.2.1, storeWriteList_wf _ _ _ _ _ h.2.2.2.2.2 ?_⟩
  rw [inReadBytes_length]
  omega

theorem memoriesOk_readBit (h : memoriesOk s) : Keeps memoriesOk (readBit s) := by
  have ht : ∀ t, memoriesOk t → Keeps memoriesOk (takeBit t) := by
    intro t h; unfold takeBit; split
    · exact keeps_ok h
    · exact keeps_stuck
  unfold readBit
  split
  · split
    · exact keeps_ok (memoriesOk_refill h)
    · exact ht _ (memoriesOk_refill h)
  · exact ht _ h

theorem memoriesOk_buildTree (h : memoriesOk s) : Keeps memoriesOk (buildTreeBody s) :=
  keeps_buildTreeBody (P := memoriesOk) (fun _ h => memoriesOk_release h) (fun _ _ _ _ _ h => memoriesOk_alloc h _ _ _ _)
    (fun _ _ h => memoriesOk_pqInsert h _) (fun _ h => memoriesOk_pqExtract h) (fun _ _ h => h) (fun _ _ h => h) s h

theorem memoriesOk_buildCodes (h : memoriesOk s) : Keeps memoriesOk (buildCodesBody s) :=
  keeps_buildCodesBody (P := memoriesOk) (fun _ h => ⟨h.1, h.2.1, storeWf_nil _ _, h.2.2.2⟩)
    (fun _ _ _ hi h => memoriesOk_setCode h _ hi) (fun _ h => h) s h

theorem memoriesOk_serialize (h : memoriesOk s) : Keeps memoriesOk (serializeBody s) :=
  keeps_serializeBody (P := memoriesOk) (fun _ _ _ h => memoriesOk_dumpPut h _ _) (fun _ _ h => h) s h

theorem memoriesOk_rebuild (h : memoriesOk s) : Keeps memoriesOk (rebuildBody s) :=
  keeps_rebuildBody (P := memoriesOk) (fun _ h => memoriesOk_release h) (fun _ h => memoriesOk_release h)
    (fun _ _ _ _ _ h => memoriesOk_alloc h _ _ _ _) (fun _ _ h => memoriesOk_push h _) (fun _ h => memoriesOk_pop h)
    (fun _ _ h => h) (fun _ _ h => h) s h

theorem memoriesOk_decodeDump (h : memoriesOk s) : Keeps memoriesOk (decodeDump s) := by
  have hr : s.treeSize.toNat ≤ maxTreeSize → memoriesOk (readDump s) := by
    intro hle
    refine memoriesOk_dump (s := inReadState s.treeSize.toNat s) h (storeWriteList_wf _ _ _ _ _ h.2.2.2.1 ?_)
    rw [inReadBytes_length]
    omega
  unfold decodeDump
  split
  · exact keeps_raised h
  · next hle =>
    split
    · exact keeps_raised (hr (by omega))
    · exact keeps_ok (hr (by omega))

end memories

end Sys2Proof.Machine
end

