-- ==== Sys2Proof/Laws/Frame.lean ====
section
/-! SUPPORT. Frames: a property that survives every write of a group of fields survives the pieces of the commands that write
only those fields; every command as the end of one body. -/

namespace Sys2Proof.Machine

open Sys2Proof

/-! ### Properties that survive the writes of a group of fields -/

/-- `P` survives every write of the tree's fields. -/
structure ClosedTree (P : State → Prop) : Prop where
  pool : ∀ v s, P s → P { s with pool := v }
  root : ∀ v s, P s → P { s with root := v }
  leafCount : ∀ v s, P s → P { s with leafCount := v }
  pq : ∀ v s, P s → P { s with pq := v }
  stack : ∀ v s, P s → P { s with stack := v }
  codesValid : ∀ v s, P s → P { s with codesValid := v }

/-- `P` survives every write of the code table's fields. -/
structure ClosedCode (P : State → Prop) : Prop where
  code : ∀ v s, P s → P { s with code := v }
  codesValid : ∀ v s, P s → P { s with codesValid := v }

/-- `P` survives every write of the dump's fields. -/
structure ClosedDump (P : State → Prop) : Prop where
  dump : ∀ v s, P s → P { s with dump := v }
  treeSize : ∀ v s, P s → P { s with treeSize := v }

/-- `P` survives every write of the bit writer's fields and every OutWrite. -/
structure ClosedWriter (P : State → Prop) : Prop where
  bwBuf : ∀ v s, P s → P { s with bwBuf := v }
  bwCount : ∀ v s, P s → P { s with bwCount := v }
  out : ∀ xs s, P s → P (outWrite xs s)

/-- `P` survives every write of the bit reader's fields and every InRead. -/
structure ClosedReader (P : State → Prop) : Prop where
  brBuf : ∀ v s, P s → P { s with brBuf := v }
  brValid : ∀ v s, P s → P { s with brValid := v }
  brIndex : ∀ v s, P s → P { s with brIndex := v }
  eos : ∀ v s, P s → P { s with eos := v }
  input : ∀ n s, P s → P (inReadState n s)

section pieces

variable {P : State → Prop} {s : State}

theorem ClosedTree.alloc (h : ClosedTree P) (sym : Byte) (f : Freq) (l r : NodeIx) (s : State) (hs : P s) :
    Keeps P (allocNode sym f l r s) := by
  rcases allocNode_cases sym f l r s with e | ⟨i, -, -, e⟩ <;> rw [e]
  · exact keeps_raised hs
  · exact keeps_ok (h.pool _ s hs)

theorem ClosedTree.release (h : ClosedTree P) (hs : P s) : P (releasePool s) :=
  h.stack [] _ (h.pq [] _ (h.leafCount 0#9 _ (h.root nil _ (h.pool _ s hs))))

theorem ClosedTree.start (h : ClosedTree P) (s : State) (hs : P s) : P { releasePool s with codesValid := false } :=
  h.codesValid false _ (h.release hs)

theorem ClosedTree.pqInsert (h : ClosedTree P) (n : NodeIx) (s : State) (hs : P s) : Keeps P (pqInsertNode n s) := by
  rcases pqInsertNode_cases n s with ⟨-, e⟩ | ⟨-, e⟩ <;> rw [e]
  · exact keeps_raised hs
  · exact keeps_ok (h.pq _ s hs)

theorem ClosedTree.pqExtract (h : ClosedTree P) (s : State) (hs : P s) : Keeps P (pqExtractNode s) := by
  rcases pqExtractNode_cases s with ⟨-, e⟩ | ⟨_, _, -, e⟩ <;> rw [e]
  · exact keeps_raised hs
  · exact keeps_ok (h.pq _ s hs)

theorem ClosedTree.push (h : ClosedTree P) (i : NodeIx) (s : State) (hs : P s) : Keeps P (pushNode i s) := by
  rcases pushNode_cases i s with ⟨-, e⟩ | ⟨-, e⟩ <;> rw [e]
  · exact keeps_raised hs
  · exact keeps_ok (h.stack _ s hs)

theorem ClosedTree.pop (h : ClosedTree P) (s : State) (hs : P s) : Keeps P (popNode s) := by
  rcases popNode_cases s with ⟨-, e⟩ | ⟨_, _, -, e⟩ <;> rw [e]
  · exact keeps_raised hs
  · exact keeps_ok (h.stack _ s hs)

theorem ClosedTree.buildTree (h : ClosedTree P) (s : State) (hs : P s) : Keeps P (buildTreeBody s) :=
  keeps_buildTreeBody h.start h.alloc h.pqInsert h.pqExtract h.leafCount h.root s hs

theorem ClosedTree.rebuild (h : ClosedTree P) (s : State) (hs : P s) : Keeps P (rebuildBody s) :=
  keeps_rebuildBody h.start (fun _ => h.release) h.alloc h.push h.pop h.leafCount h.root s hs

theorem ClosedCode.buildCodes (h : ClosedCode P) (s : State) (hs : P s) : Keeps P (buildCodesBody s) :=
  keeps_buildCodesBody (fun s => h.code [] s) (fun i e s _ => h.code (storeWrite CodeEntry.blank s.code i e) s)
    (fun s => h.codesValid true s) s hs

theorem ClosedDump.put (h : ClosedDump P) (k : Nat) (b : Byte) (s : State) (hs : P s) : Keeps P (dumpPut k b s) := by
  unfold dumpPut
  split
  · exact keeps_ok (h.dump _ s hs)
  · exact keeps_stuck

theorem ClosedDump.serialize (h : ClosedDump P) (s : State) (hs : P s) : Keeps P (serializeBody s) :=
  keeps_serializeBody h.put h.treeSize s hs

theorem ClosedWriter.clear (h : ClosedWriter P) (hs : P s) : P (clearWriter s) := h.bwCount 0 _ (h.bwBuf [] s hs)

theorem ClosedWriter.writeBit (h : ClosedWriter P) (b : Bool) (s : State) (hs : P s) : Keeps P (writeBit b s) := by
  unfold Machine.writeBit
  split
  · split
    · exact keeps_ok (h.clear (h.out _ s hs))
    · exact keeps_ok (h.bwCount (s.bwCount + 1) _ (h.bwBuf (bufSetBit s.bwBuf s.bwCount b) s hs))
  · exact keeps_stuck

theorem ClosedWriter.writeBits (h : ClosedWriter P) (bs : List Bool) (f : Nat) (s : State) (hs : P s) :
    Keeps P (writeBits bs f s) :=
  keeps_writeBits h.writeBit bs f s hs

theorem ClosedWriter.flush (h : ClosedWriter P) (s : State) (hs : P s) : Keeps P (flushWriter s) := by
  unfold flushWriter
  split
  · split
    · exact keeps_ok (h.clear (h.out _ s hs))
    · exact keeps_ok (h.clear hs)
  · exact keeps_stuck

theorem ClosedReader.clear (h : ClosedReader P) (hs : P s) : P (clearReader s) :=
  h.eos false _ (h.brIndex 0 _ (h.brValid 0 _ (h.brBuf [] s hs)))

theorem ClosedReader.refill (h : ClosedReader P) (hs : P s) : P (refillReader s) :=
  h.brIndex 0 _ (h.brValid (inReadBytes block s).length _
    (h.brBuf (storeWriteList 0#8 s.brBuf 0 (inReadBytes block s)) _ (h.input block s hs)))

theorem ClosedReader.takeBit (h : ClosedReader P) (s : State) (hs : P s) : Keeps P (takeBit s) := by
  unfold Machine.takeBit
  split
  · exact keeps_ok (h.eos false _ (h.brIndex (s.brIndex + 1) s hs))
  · exact keeps_stuck

theorem ClosedReader.readBit (h : ClosedReader P) (s : State) (hs : P s) : Keeps P (readBit s) := by
  unfold Machine.readBit
  split
  · split
    · exact keeps_ok (h.eos true _ (h.refill hs))
    · exact h.takeBit _ (h.refill hs)
  · exact h.takeBit s hs

/-- ENCODE's body without its RESULT line (R214). -/
theorem encodeBody_keeps (ht : ClosedTree P) (hc : ClosedCode P) (hd : ClosedDump P) (hw : ClosedWriter P)
    (hi : ∀ s, P s → P (inReadState 1 s)) (hz : ∀ s, P s → P (clearCounts s)) (s : State) (hs : P s) :
    Keeps P ((buildTreeBody (clearWriter (clearCounts s))).bind fun _ s =>
      (buildCodesBody s).bind fun _ s =>
      (serializeBody s).bind fun _ s =>
      (encodePayload ((inRest s).length + 1) s.origSize.toNat
        (outWrite (dumpBytes s.treeSize.toNat s) (outWrite (headerBytes s) s))).bind fun _ s =>
      flushWriter s) :=
  (ht.buildTree _ (hw.clear (hz s hs))).bind fun _ s hs =>
  (hc.buildCodes s hs).bind fun _ s hs =>
  (hd.serialize s hs).bind fun _ s hs =>
  (keeps_encodePayload hi hw.writeBit _ _ _ (hw.out _ _ (hw.out _ s hs))).bind fun _ s hs =>
  hw.flush s hs

theorem decodeHeader_keeps (hi : ∀ n s, P s → P (inReadState n s)) (hh : ∀ h s, P s → P (storeHeader h s)) (s : State)
    (hs : P s) : Keeps P (decodeHeader s) := by
  unfold decodeHeader
  split
  · exact keeps_raised (hi _ s hs)
  · split
    · exact keeps_raised (hi _ s hs)
    · exact keeps_ok (hh _ _ (hi _ s hs))

theorem decodeDump_keeps (hi : ∀ n s, P s → P (inReadState n s)) (hd : ∀ v s, P s → P { s with dump := v }) (s : State)
    (hs : P s) : Keeps P (decodeDump s) := by
  unfold decodeDump
  split
  · exact keeps_raised hs
  · split
    · exact keeps_raised (hd _ _ (hi _ s hs))
    · exact keeps_ok (hd _ _ (hi _ s hs))

/-- DECODE's body without its RESULT line (R220). -/
theorem decodeBody_keeps (ht : ClosedTree P) (hd : ∀ v s, P s → P { s with dump := v }) (hr : ClosedReader P)
    (ho : ∀ x s, P s → P (outWrite [x] s)) (hh : ∀ h s, P s → P (storeHeader h s)) (hz : ∀ s, P s → P (clearCounts s))
    (s : State) (hs : P s) :
    Keeps P ((decodeHeader (clearReader (clearCounts s))).bind fun _ s =>
      (decodeDump s).bind fun _ s =>
      (rebuildBody s).bind fun _ s =>
      (checkTree s).bind fun _ s =>
      decodePayload (payloadBits s + 1) s.origSize.toNat s.root s) :=
  (decodeHeader_keeps hr.input hh _ (hr.clear (hz s hs))).bind fun _ s hs =>
  (decodeDump_keeps hr.input hd s hs).bind fun _ s hs =>
  (ht.rebuild s hs).bind fun _ s hs =>
  (show Keeps P (checkTree s) by
    unfold checkTree
    split
    · exact keeps_raised hs
    · exact keeps_ok hs).bind fun _ s hs =>
  keeps_decodePayload hr.readBit ho _ _ _ s hs

end pieces

/-! ### Every command as the end of one body -/

/-- The body of a command: what runs before `endCommand`. -/
def commandBody (i : Instr) (s : State) : Res Unit :=
  match i with
  | .nop => .ok () s
  | .clearErr => .ok () (clearError s)
  | .softReset => .ok () (applyReset s)
  | .buildTree => (buildTreeBody s).bind fun _ s => .ok () (setResult (s.root.setWidth 32) s)
  | .buildCodes => (buildCodesBody s).bind fun _ s => .ok () (setResult (BitVec.ofNat 32 (codeCount s)) s)
  | .deleteTree => .ok () { releasePool s with codesValid := false }
  | .nodeRead v => (nodeOperand v s).bind fun i s => .ok () (readoutNode (nodeAt s i) s)
  | .codeRead v => (symOperand v s).bind fun i s =>
      .ok () (setResult ((codeAt s i).len.setWidth 32) (readoutCode (codeAt s i) s))
  | .serializeTree => (serializeBody s).bind fun k s => .ok () (setResult (BitVec.ofNat 32 k) s)
  | .rebuildTree => (rebuildBody s).bind fun _ s => .ok () (setResult (s.root.setWidth 32) s)
  | .pqClear => .ok () { s with pq := [] }
  | .pqInsert v => ((nodeOperand v s).bind fun i s =>
      if (nodeAt s i).alloc then pqInsertNode (BitVec.ofNat 9 i) s else .raised .badNode s).bind fun _ s =>
      .ok () (setResult (BitVec.ofNat 32 s.pq.length) s)
  | .pqExtractMin => (pqExtractNode s).bind fun n s => .ok () (setResult (n.setWidth 32) s)
  | .bwWriteCode v => ((symOperand v s).bind fun i s =>
      if (codeAt s i).len = 0#9 then .raised .noCode s else writeCode i s).bind fun f s =>
      .ok () (setResult (BitVec.ofNat 32 f) s)
  | .bwFlush => (flushWriter s).bind fun m s => .ok () (setResult (BitVec.ofNat 32 m) s)
  | .bwReset => .ok () (clearWriter s)
  | .brReset => .ok () (clearReader s)
  | .brReadBit => (readBit s).bind fun r s => .ok () (setResult (bitResult r) s)
  | .encode =>
      ((buildTreeBody (clearWriter (clearCounts s))).bind fun _ s =>
        (buildCodesBody s).bind fun _ s =>
        (serializeBody s).bind fun _ s =>
        (encodePayload ((inRest s).length + 1) s.origSize.toNat
          (outWrite (dumpBytes s.treeSize.toNat s) (outWrite (headerBytes s) s))).bind fun _ s =>
        flushWriter s).bind fun _ s => .ok () (setResult (s.outCount.setWidth 32) s)
  | .decode =>
      ((decodeHeader (clearReader (clearCounts s))).bind fun _ s =>
        (decodeDump s).bind fun _ s =>
        (rebuildBody s).bind fun _ s =>
        (checkTree s).bind fun _ s =>
        decodePayload (payloadBits s + 1) s.origSize.toNat s.root s).bind fun _ s =>
      .ok () (setResult (s.outCount.setWidth 32) s)

theorem ite_bind {α β : Type} (p : Prop) [Decidable p] (a b : Res α) (f : α → State → Res β) :
    (if p then a else b).bind f = if p then a.bind f else b.bind f := by split <;> rfl

/-- Every command is the end of its body under its own OPCODE (R243). -/
theorem exec_body (i : Instr) (s : State) : exec i s = endCommand (opcode i) (commandBody i s) := by
  cases i <;> simp only [exec, commandBody, opcode]
  case nop => rfl
  case clearErr => rfl
  case softReset => rfl
  case buildTree => unfold execBuildTree; rfl
  case buildCodes => unfold execBuildCodes; rfl
  case deleteTree => unfold execDeleteTree; rfl
  case nodeRead => unfold execNodeRead; rfl
  case codeRead => unfold execCodeRead; rfl
  case serializeTree => unfold execSerializeTree; rfl
  case rebuildTree => unfold execRebuildTree; rfl
  case pqClear => unfold execPqClear; rfl
  case pqInsert => unfold execPqInsert; simp only [bind_assoc, ite_bind, bind_raised]
  case pqExtractMin => unfold execPqExtractMin; rfl
  case bwWriteCode => unfold execBwWriteCode; simp only [bind_assoc, ite_bind, bind_raised]
  case bwFlush => unfold execBwFlush; rfl
  case bwReset => unfold execBwReset; rfl
  case brReset => unfold execBrReset; rfl
  case brReadBit => unfold execBrReadBit; rfl
  case encode => unfold execEncode; simp only [bind_assoc]
  case decode => unfold execDecode; simp only [bind_assoc]

/-- A command ends in a next state as its body ends. -/
theorem exec_next {i : Instr} {s t : State} (h : exec i s = .next t) :
    commandBody i s = .ok () t ∨ ∃ c u, commandBody i s = .raised c u ∧ t = raiseError (opcode i) c u := by
  rw [exec_body] at h
  exact endCommand_eq_next.mp h

/-- The last line of a body, which cannot raise. -/
theorem Keeps.last {α : Type} {P : State → Prop} {r : Res α} (h : Keeps P r) {f : α → State → State}
    (hf : ∀ a s, P s → P (f a s)) : Keeps P (r.bind fun a s => .ok () (f a s)) :=
  h.bind fun a s hs => keeps_ok (hf a s hs)

/-- A body whose last line cannot raise raises before it. -/
theorem Keeps.raisedBefore {α : Type} {P : State → Prop} {r : Res α} (h : Keeps P r) {f : α → State → State} {c : Cause}
    {u : State} (e : (r.bind fun a s => .ok () (f a s)) = .raised c u) : P u := by
  rcases bind_eq_raised.mp e with e | ⟨a, s, -, e⟩
  · exact h.onRaised c u e
  · cases e

theorem nodeOperand_keeps {P : State → Prop} {s : State} (v : BitVec 16) (hs : P s) : Keeps P (nodeOperand v s) := by
  unfold nodeOperand
  split
  · exact keeps_ok hs
  · exact keeps_raised hs

theorem symOperand_keeps {P : State → Prop} {s : State} (v : BitVec 16) (hs : P s) : Keeps P (symOperand v s) := by
  unfold symOperand
  split
  · exact keeps_ok hs
  · exact keeps_raised hs

theorem pqInsertBody_keeps {P : State → Prop} (h : ∀ v s, P s → P { s with pq := v }) (v : BitVec 16) (s : State) (hs : P s) :
    Keeps P ((nodeOperand v s).bind fun i s =>
      if (nodeAt s i).alloc then pqInsertNode (BitVec.ofNat 9 i) s else .raised .badNode s) :=
  (nodeOperand_keeps v hs).bind fun i s hs => by
    split
    · rcases pqInsertNode_cases (BitVec.ofNat 9 i) s with ⟨-, e⟩ | ⟨-, e⟩ <;> rw [e]
      · exact keeps_raised hs
      · exact keeps_ok (h _ s hs)
    · exact keeps_raised hs

theorem bwWriteBody_keeps {P : State → Prop} (h : ClosedWriter P) (v : BitVec 16) (s : State) (hs : P s) :
    Keeps P ((symOperand v s).bind fun i s =>
      if (codeAt s i).len = 0#9 then .raised .noCode s else writeCode i s) :=
  (symOperand_keeps v hs).bind fun i s hs => by
    split
    · exact keeps_raised hs
    · exact h.writeBits _ _ s hs

/-- A property that survives every write any command makes survives every command's body; reset and CLEAR_ERR apart. -/
structure ClosedAll (P : State → Prop) : Prop where
  tree : ClosedTree P
  code : ClosedCode P
  dump : ClosedDump P
  writer : ClosedWriter P
  reader : ClosedReader P
  counts : ∀ s, P s → P (clearCounts s)
  header : ∀ h s, P s → P (storeHeader h s)

/-- What RESULT and the readout registers hold does not matter to `P`. -/
structure ClosedReadout (P : State → Prop) : Prop where
  result : ∀ v s, P s → P (setResult v s)
  node : ∀ e s, P s → P (readoutNode e s)
  code : ∀ e s, P s → P (readoutCode e s)

/-- The body of any command, with its RESULT line; what CLEAR_ERR and SOFT_RESET do is asked of those two alone. -/
theorem commandBody_keeps {P : State → Prop} (h : ClosedAll P) (hr : ClosedReadout P) (i : Instr)
    (hc : i = .clearErr → ∀ s, P s → P (clearError s)) (hz : i = .softReset → ∀ s, P s → P (applyReset s)) (s : State)
    (hs : P s) : Keeps P (commandBody i s) := by
  cases i <;> unfold commandBody
  case nop => exact keeps_ok hs
  case clearErr => exact keeps_ok (hc rfl s hs)
  case softReset => exact keeps_ok (hz rfl s hs)
  case buildTree => exact (h.tree.buildTree s hs).last fun _ s => hr.result _ s
  case buildCodes => exact (h.code.buildCodes s hs).last fun _ s => hr.result _ s
  case deleteTree => exact keeps_ok (h.tree.start s hs)
  case nodeRead => exact (nodeOperand_keeps _ hs).last fun _ s => hr.node _ s
  case codeRead => exact (symOperand_keeps _ hs).last fun _ s hs => hr.result _ _ (hr.code _ s hs)
  case serializeTree => exact (h.dump.serialize s hs).last fun _ s => hr.result _ s
  case rebuildTree => exact (h.tree.rebuild s hs).last fun _ s => hr.result _ s
  case pqClear => exact keeps_ok (h.tree.pq _ s hs)
  case pqInsert => exact (pqInsertBody_keeps h.tree.pq _ s hs).last fun _ s => hr.result _ s
  case pqExtractMin => exact (h.tree.pqExtract s hs).last fun _ s => hr.result _ s
  case bwWriteCode => exact (bwWriteBody_keeps h.writer _ s hs).last fun _ s => hr.result _ s
  case bwFlush => exact (h.writer.flush s hs).last fun _ s => hr.result _ s
  case bwReset => exact keeps_ok (h.writer.clear hs)
  case brReset => exact keeps_ok (h.reader.clear hs)
  case brReadBit => exact (h.reader.readBit s hs).last fun _ s => hr.result _ s
  case encode =>
    exact (encodeBody_keeps h.tree h.code h.dump h.writer (h.reader.input 1) h.counts s hs).last fun _ s => hr.result _ s
  case decode =>
    exact (decodeBody_keeps h.tree h.dump.dump h.reader (fun x => h.writer.out [x]) h.header h.counts s hs).last
      fun _ s => hr.result _ s

/-- A body that raises raises before it writes RESULT or a readout register (R243: RESULT keeps its value). -/
theorem commandBody_raised {P : State → Prop} (h : ClosedAll P) {i : Instr} {s u : State} {c : Cause} (hs : P s)
    (e : commandBody i s = .raised c u) : P u := by
  cases i <;> unfold commandBody at e
  case nop => cases e
  case clearErr => cases e
  case softReset => cases e
  case buildTree => exact (h.tree.buildTree s hs).raisedBefore e
  case buildCodes => exact (h.code.buildCodes s hs).raisedBefore e
  case deleteTree => cases e
  case nodeRead => exact (nodeOperand_keeps _ hs).raisedBefore e
  case codeRead => exact (symOperand_keeps _ hs).raisedBefore e
  case serializeTree => exact (h.dump.serialize s hs).raisedBefore e
  case rebuildTree => exact (h.tree.rebuild s hs).raisedBefore e
  case pqClear => cases e
  case pqInsert => exact (pqInsertBody_keeps h.tree.pq _ s hs).raisedBefore e
  case pqExtractMin => exact (h.tree.pqExtract s hs).raisedBefore e
  case bwWriteCode => exact (bwWriteBody_keeps h.writer _ s hs).raisedBefore e
  case bwFlush => exact (h.writer.flush s hs).raisedBefore e
  case bwReset => cases e
  case brReset => cases e
  case brReadBit => exact (h.reader.readBit s hs).raisedBefore e
  case encode =>
    exact (encodeBody_keeps h.tree h.code h.dump h.writer (h.reader.input 1) h.counts s hs).raisedBefore e
  case decode =>
    exact (decodeBody_keeps h.tree h.dump.dump h.reader (fun x => h.writer.out [x]) h.header h.counts s hs).raisedBefore e

end Sys2Proof.Machine
end

