-- ==== Sys2Proof/Laws/Step.lean ====
section
/-! SUPPORT. Everything a step can do, event by event, and everything a CMD write can do; what a host write changes. -/

namespace Sys2Proof.Machine

open Sys2Proof

/-- A host write of a register or a window changes only the fields R30, R62 and R63 let the host write. -/
theorem portWrite_frame (off : Nat) (v : Word) (s : State) :
    portWrite off v s =
      { s with treeSize := (portWrite off v s).treeSize, permissions := (portWrite off v s).permissions,
               origSize := (portWrite off v s).origSize, freq := (portWrite off v s).freq,
               dump := (portWrite off v s).dump } := by
  unfold portWrite
  cases placeOf off with
  | reg r => cases r <;> rfl
  | freqLow => rfl
  | freqHigh => rfl
  | dumpWord => rfl
  | reserved => rfl

/-- The step of a CMD write issues its word (R64, R93). -/
theorem step_write_cmd {s : State} {es : List HostEvent} {w : Word} (h : s.host = .write 0x008 4 w :: es) :
    step s = issueCommand w { s with host := es } := by
  unfold step stepHost
  rw [h]
  rfl

/-- The step of a host read (R64). -/
theorem step_read {s : State} {es : List HostEvent} {off : Nat} (h : s.host = .read off 4 :: es) (h4 : off % 4 = 0)
    (hl : off < 0x10000) :
    step s = .next { s with host := es, readLog := s.readLog ++ [portRead off s] } := by
  unfold step stepHost
  rw [h]
  simp only [runEvent, hostRead, accessOk, h4, hl, beq_self_eq_true, Bool.and_self, decide_true, if_true]
  rfl

/-- The step of a host write that is no CMD write (R64). -/
theorem step_write {s : State} {es : List HostEvent} {off : Nat} {v : Word} (h : s.host = .write off 4 v :: es)
    (h4 : off % 4 = 0) (hl : off < 0x10000) (hc : off ≠ 8) : step s = .next (portWrite off v { s with host := es }) := by
  unfold step stepHost
  rw [h]
  simp only [runEvent, hostWrite, accessOk, h4, hl, beq_self_eq_true, Bool.and_self, decide_true, if_true, regOffset, hc,
    if_false]

/-- The step of the hardware reset input (R270). -/
theorem step_reset {s : State} {es : List HostEvent} (h : s.host = .hardwareReset :: es) :
    step s = .next (applyReset { s with host := es }) := by
  unfold step stepHost
  rw [h]
  rfl

/-- Everything a step that answers a next state can do (R18, R64). -/
theorem step_cases {s t : State} (h : step s = .next t) :
    (s.host = [] ∧ t = s) ∨ ∃ e es, s.host = e :: es ∧
      ((∃ off, e = .read off 4 ∧ t = { s with host := es, readLog := s.readLog ++ [portRead off s] }) ∨
       (∃ off v, e = .write off 4 v ∧ off ≠ 8 ∧ t = portWrite off v { s with host := es }) ∨
       (∃ v, e = .write 8 4 v ∧ issueCommand v { s with host := es } = .next t) ∨
       (e = .hardwareReset ∧ t = applyReset { s with host := es }) ∨
       (∃ xs, e = .attachIn xs ∧ t = { s with host := es, inBytes := xs, inPos := 0 })) := by
  unfold step stepHost at h
  cases hh : s.host with
  | nil => rw [hh] at h; cases h; exact .inl ⟨rfl, rfl⟩
  | cons e es =>
    rw [hh] at h
    refine .inr ⟨e, es, rfl, ?_⟩
    simp only at h
    cases e with
    | read off n =>
      simp only [runEvent, hostRead] at h
      split at h
      · next ha =>
        have hn : n = 4 := by simp [accessOk] at ha; exact ha.1.1
        subst hn
        cases h
        exact .inl ⟨off, rfl, rfl⟩
      · cases h
    | write off n v =>
      simp only [runEvent, hostWrite] at h
      split at h
      · next ha =>
        have hn : n = 4 := by simp [accessOk] at ha; exact ha.1.1
        subst hn
        split at h
        · next ho =>
          have : off = 8 := ho
          subst this
          exact .inr (.inr (.inl ⟨v, rfl, h⟩))
        · next ho =>
          cases h
          exact .inr (.inl ⟨off, v, rfl, ho, rfl⟩)
      · cases h
    | hardwareReset => cases h; exact .inr (.inr (.inr (.inl ⟨rfl, rfl⟩)))
    | attachIn xs => cases h; exact .inr (.inr (.inr (.inr ⟨xs, rfl, rfl⟩)))

theorem issue_nop (s : State) : issueCommand 0#32 s = .next s := by
  simp only [issueCommand, passesGate, decodeAndRun, beq_self_eq_true, Bool.true_or, Bool.not_true, Bool.and_false,
    Bool.false_eq_true, if_false]
  rfl

theorem issue_clearErr (s : State) : issueCommand 1#32 s = .next (clearError s) := by
  simp only [issueCommand, passesGate, decodeAndRun, beq_self_eq_true, Bool.true_or, Bool.or_true, Bool.not_true,
    Bool.and_false, Bool.false_eq_true, if_false]
  rfl

theorem issue_softReset (s : State) : issueCommand 2#32 s = .next (applyReset s) := by
  simp only [issueCommand, passesGate, decodeAndRun, beq_self_eq_true, Bool.or_true, Bool.not_true, Bool.and_false,
    Bool.false_eq_true, if_false]
  rfl

/-- Everything a CMD write that answers a next state can do (R93, R244). -/
theorem issue_cases {w : Word} {s t : State} (h : issueCommand w s = .next t) :
    (s.err = true ∧ w ≠ 0#32 ∧ w ≠ 1#32 ∧ w ≠ 2#32 ∧ t = s) ∨ (w = 0#32 ∧ t = s) ∨ (w = 1#32 ∧ t = clearError s) ∨
    (w = 2#32 ∧ t = applyReset s) ∨
    (s.err = false ∧ ∃ e, decodeWord w = .error e ∧ t = raiseError (opcodeOf w) (decodeCause e) s) ∨
    (s.err = false ∧ ∃ i, decodeWord w = .ok i ∧ exec i s = .next t) := by
  by_cases h0 : w = 0#32
  · subst h0
    rw [issue_nop] at h
    cases h
    exact .inr (.inl ⟨rfl, rfl⟩)
  by_cases h1 : w = 1#32
  · subst h1
    rw [issue_clearErr] at h
    cases h
    exact .inr (.inr (.inl ⟨rfl, rfl⟩))
  by_cases h2 : w = 2#32
  · subst h2
    rw [issue_softReset] at h
    cases h
    exact .inr (.inr (.inr (.inl ⟨rfl, rfl⟩)))
  have hg : passesGate w = false := by simp [passesGate, h0, h1, h2]
  unfold issueCommand at h
  cases he : s.err with
  | true =>
    rw [he, hg] at h
    simp at h
    exact .inl ⟨rfl, h0, h1, h2, h.symm⟩
  | false =>
    rw [he, hg] at h
    simp only [Bool.false_and, Bool.false_eq_true, if_false] at h
    unfold decodeAndRun at h
    cases hd : decodeWord w with
    | error e => rw [hd] at h; cases h; exact .inr (.inr (.inr (.inr (.inl ⟨rfl, e, rfl, rfl⟩))))
    | ok i => rw [hd] at h; exact .inr (.inr (.inr (.inr (.inr ⟨rfl, i, rfl, h⟩))))

/-- No command is refused. -/
theorem exec_ne_refused (i : Instr) (s : State) (e : Refusal) : exec i s ≠ .refused e := by
  rw [exec_body]
  exact endCommand_ne_refused

/-- A CMD write is never refused (R93). -/
theorem issue_ne_refused (w : Word) (s : State) (e : Refusal) : issueCommand w s ≠ .refused e := by
  unfold issueCommand
  split
  · intro h; cases h
  · unfold decodeAndRun
    split
    · intro h; cases h
    · exact exec_ne_refused _ _ _

theorem accessOk_iff (off bytes : Nat) : accessOk off bytes = true ↔ bytes = 4 ∧ off % 4 = 0 ∧ off < 0x10000 := by
  simp [accessOk, and_assoc]

/-! ### The ERROR word -/

/-- The fields of an ERROR word (R34, R243). -/
theorem errorWord_fields (op : BitVec 8) (c : Cause) :
    (errorWord op c).extractLsb' 4 4 = 0#4 ∧ (errorWord op c).extractLsb' 24 8 = 0#8 ∧
      ((errorWord op c).extractLsb' 0 4).toNat = kindCode (causeKind c) ∧
      ((errorWord op c).extractLsb' 8 8).toNat = causeCode c ∧ (errorWord op c).extractLsb' 16 8 = op := by
  revert op
  cases c <;> decide +kernel

theorem causeCode_inj {c d : Cause} (h : causeCode c = causeCode d) : c = d := by
  revert h
  cases c <;> cases d <;> simp [causeCode]

/-- An ERROR word names one cause (R241). -/
theorem errorWord_inj {op : BitVec 8} {c d : Cause} (h : errorWord op c = errorWord op d) : c = d := by
  obtain ⟨-, -, -, h1, -⟩ := errorWord_fields op c
  obtain ⟨-, -, -, h2, -⟩ := errorWord_fields op d
  rw [h, h2] at h1
  exact causeCode_inj h1.symm

/-- The cause a body raises is the one its command's next state records. -/
theorem raised_cause {i : Instr} {s u v : State} {c d : Cause} (e : commandBody i s = .raised c u)
    (h : exec i s = .next (raiseError (opcode i) d v)) : c = d := by
  rw [exec_body, e] at h
  exact errorWord_inj (congrArg State.error (Host.Outcome.next.inj h))

/-! ### What no command changes -/

/-- A property of the error state alone survives all a command's body does before its end. -/
theorem closedAll_err (P : Bool → Word → List Word → Prop) : ClosedAll (fun u => P u.err u.error u.errLog) := by
  refine ⟨⟨?_, ?_, ?_, ?_, ?_, ?_⟩, ⟨?_, ?_⟩, ⟨?_, ?_⟩, ⟨?_, ?_, ?_⟩, ⟨?_, ?_, ?_, ?_, ?_⟩, ?_, ?_⟩ <;> intros <;> assumption

theorem closedReadout_err (P : Bool → Word → List Word → Prop) : ClosedReadout (fun u => P u.err u.error u.errLog) := by
  refine ⟨fun v s h => h, fun e s h => ?_, fun v s h => h⟩
  unfold readoutNode
  split <;> exact h

/-- A property of RESULT alone survives all a command's body does before its RESULT line. -/
theorem closedAll_result (P : Word → Prop) : ClosedAll (fun u => P u.result) := by
  refine ⟨⟨?_, ?_, ?_, ?_, ?_, ?_⟩, ⟨?_, ?_⟩, ⟨?_, ?_⟩, ⟨?_, ?_, ?_⟩, ⟨?_, ?_, ?_, ?_, ?_⟩, ?_, ?_⟩ <;> intros <;> assumption

/-- A command's body does not touch the error state, CLEAR_ERR and SOFT_RESET apart (R243). -/
theorem body_err {i : Instr} (h1 : i ≠ .clearErr) (h2 : i ≠ .softReset) (s : State) :
    Keeps (fun u => u.err = s.err ∧ u.error = s.error ∧ u.errLog = s.errLog) (commandBody i s) :=
  commandBody_keeps (closedAll_err (fun a b c => a = s.err ∧ b = s.error ∧ c = s.errLog))
    (closedReadout_err (fun a b c => a = s.err ∧ b = s.error ∧ c = s.errLog)) i (fun h => absurd h h1)
    (fun h => absurd h h2) s ⟨rfl, rfl, rfl⟩

/-- A body that raises leaves the error history one longer. -/
theorem raised_not_ok {i : Instr} {s u v : State} {c : Cause} (e : commandBody i s = .raised c u) (h : exec i s = .next v)
    (hv : v.errLog = s.errLog) : False := by
  rw [exec_body, e] at h
  have h1 := congrArg State.errLog (Host.Outcome.next.inj h)
  have h2 := commandBody_raised (closedAll_err (fun _ _ c => c = s.errLog)) (s := s) rfl e
  have h3 : u.errLog ++ [errorWord (opcode i) c] = v.errLog := h1
  have h4 : u.errLog = s.errLog := h2
  rw [h4, hv] at h3
  simp at h3

end Sys2Proof.Machine
end

