-- ==== Sys2Proof/Laws/Invariant.lean ====
section
/-! SUPPORT. The invariant of the state, part by part: what each command leaves of it. -/

namespace Sys2Proof.Machine

open Sys2Proof

variable {s t : State}

/-! ### The memories -/

/-- An index beyond a memory's size reads as an unlisted one. -/
theorem storeRead_beyond {α : Type} {d : α} {n : Nat} {m : Store α} (h : storeWf d n m) {a : Nat} (ha : n ≤ a) :
    storeRead d m a = d := by
  induction m with
  | nil => rfl
  | cons p m ih =>
    have hp := h.2 p (by simp)
    unfold storeRead
    rw [if_neg (by omega)]
    exact ih ⟨(List.pairwise_cons.mp h.1).2, fun q hq => h.2 q (List.mem_cons_of_mem _ hq)⟩

theorem memoriesOk_readoutNode (h : memoriesOk s) (e : NodeEntry) : memoriesOk (readoutNode e s) := by
  unfold readoutNode
  split <;> exact h

/-- Every command's body keeps the memories in canonical form. -/
theorem memoriesOk_body (h : memoriesOk s) (i : Instr) : Keeps memoriesOk (commandBody i s) := by
  have hres : ∀ v u, memoriesOk u → memoriesOk (setResult v u) := fun v u hu => hu
  cases i <;> unfold commandBody
  case nop => exact keeps_ok h
  case clearErr => exact keeps_ok h
  case softReset => exact keeps_ok memoriesOk_reset
  case buildTree => exact (memoriesOk_buildTree h).last fun _ u => hres _ u
  case buildCodes => exact (memoriesOk_buildCodes h).last fun _ u => hres _ u
  case deleteTree => exact keeps_ok (memoriesOk_release h)
  case nodeRead => exact (nodeOperand_keeps _ h).last fun _ u hu => memoriesOk_readoutNode hu _
  case codeRead => exact (symOperand_keeps _ h).last fun _ u hu => hu
  case serializeTree => exact (memoriesOk_serialize h).last fun _ u => hres _ u
  case rebuildTree => exact (memoriesOk_rebuild h).last fun _ u => hres _ u
  case pqClear => exact keeps_ok h
  case pqInsert => exact (pqInsertBody_keeps (P := memoriesOk) (fun _ _ hu => hu) _ s h).last fun _ u => hres _ u
  case pqExtractMin => exact (memoriesOk_pqExtract h).last fun _ u => hres _ u
  case bwWriteCode =>
    refine ((symOperand_keeps _ h).bind fun i u hu => ?_).last fun _ u => hres _ u
    split
    · exact keeps_raised hu
    · exact keeps_writeBits (fun b u hu => memoriesOk_writeBit hu b) _ _ _ hu
  case bwFlush => exact (memoriesOk_flush h).last fun _ u => hres _ u
  case bwReset => exact keeps_ok (memoriesOk_clearWriter h)
  case brReset => exact keeps_ok (memoriesOk_clearReader h)
  case brReadBit => exact (memoriesOk_readBit h).last fun _ u => hres _ u
  case encode =>
    refine ((memoriesOk_buildTree (memoriesOk_clearWriter (s := clearCounts s) h)).bind fun _ u hu =>
      (memoriesOk_buildCodes hu).bind fun _ u hu =>
      (memoriesOk_serialize hu).bind fun _ u hu =>
      (keeps_encodePayload (P := memoriesOk) (fun u hu => memoriesOk_inRead hu 1) (fun b u hu => memoriesOk_writeBit hu b) _
        _ _ (memoriesOk_outWrite (memoriesOk_outWrite hu _) _)).bind
        fun _ u hu => memoriesOk_flush hu).last fun _ u => hres _ u
  case decode =>
    refine ((decodeHeader_keeps (P := memoriesOk) (fun n u hu => memoriesOk_inRead hu n) (fun _ _ hu => hu) _
      (memoriesOk_clearReader (s := clearCounts s) h)).bind fun _ u hu =>
      (memoriesOk_decodeDump hu).bind fun _ u hu =>
      (memoriesOk_rebuild hu).bind fun _ u hu =>
      (show Keeps memoriesOk (checkTree u) by
        unfold checkTree
        split
        · exact keeps_raised hu
        · exact keeps_ok hu).bind fun _ u hu =>
      keeps_decodePayload (P := memoriesOk) (fun u hu => memoriesOk_readBit hu)
        (fun x u hu => memoriesOk_outWrite hu [x]) _ _ _ u hu).last
      fun _ u => hres _ u

theorem memoriesOk_exec (h : memoriesOk s) {i : Instr} (e : exec i s = .next t) : memoriesOk t := by
  have hk := memoriesOk_body h i
  rcases exec_next e with e' | ⟨c, u, e', rfl⟩
  · exact hk.onOk _ _ e'
  · have hu : memoriesOk u := hk.onRaised _ _ e'
    exact hu

theorem placeOf_freq_lt {off i : Nat} (h : placeOf off = .freqLow i ∨ placeOf off = .freqHigh i) : i < alphabet := by
  have ha : alphabet = 256 := rfl
  unfold placeOf at h
  split at h
  · split at h <;> rcases h with h | h <;> cases h
  · split at h
    · split at h <;> rcases h with h | h <;> cases h <;> omega
    · split at h <;> rcases h with h | h <;> cases h

theorem dumpLaneWrite_wf {m : Memory} (h : Memory.wf maxTreeSize m) (i : Nat) (b : Byte) :
    Memory.wf maxTreeSize (dumpLaneWrite i b m) := by
  unfold dumpLaneWrite
  split
  · next hi => exact storeWrite_wf _ _ _ _ _ h hi
  · exact h

/-- A host write keeps the memories in canonical form. -/
theorem memoriesOk_portWrite (h : memoriesOk s) (off : Nat) (v : Word) : memoriesOk (portWrite off v s) := by
  unfold portWrite
  cases hp : placeOf off with
  | reg r => cases r <;> exact h
  | freqLow i => exact ⟨storeWrite_wf _ _ _ _ _ h.1 (placeOf_freq_lt (.inl hp)), h.2⟩
  | freqHigh i => exact ⟨storeWrite_wf _ _ _ _ _ h.1 (placeOf_freq_lt (.inr hp)), h.2⟩
  | dumpWord k =>
    exact memoriesOk_dump h (dumpLaneWrite_wf (dumpLaneWrite_wf (dumpLaneWrite_wf (dumpLaneWrite_wf h.2.2.2.1 _ _) _ _)
      _ _) _ _)
  | reserved => exact h

/-! ### The rest of the invariant -/

/-- The invariant but for the memories and the error register. -/
structure Core (s : State) : Prop where
  config : s.cfg.wf
  writer : writerOk s
  reader : readerOk s
  queue : queueOk s
  stack : s.stack = []
  codes : codesOk s
  tree : treeOk s
  input : s.inPos ≤ s.inBytes.length

theorem Inv.core (h : Inv s) : Core s := ⟨h.config, h.writer, h.reader, h.queue, h.stack, h.codes, h.tree, h.input⟩

theorem writerOk_congr (h : writerOk s) (h1 : t.bwBuf = s.bwBuf) (h2 : t.bwCount = s.bwCount) : writerOk t := by
  unfold writerOk
  rw [h1, h2]
  exact h

theorem readerOk_congr (h : readerOk s) (h1 : t.brValid = s.brValid) (h2 : t.brIndex = s.brIndex) : readerOk t := by
  unfold readerOk
  rw [h1, h2]
  exact h

theorem queueOk_congr (h : queueOk s) (h1 : t.pq = s.pq) (h2 : t.pool = s.pool) : queueOk t := by
  unfold queueOk nodeAt
  rw [h1, h2]
  exact h

theorem queueOk_nil (h : s.pq = []) : queueOk s := by
  unfold queueOk
  rw [h]
  exact ⟨Nat.zero_le _, .nil, by simp⟩

theorem codesOk_congr (h : codesOk s) (h1 : t.code = s.code) : codesOk t := by
  unfold codesOk codeAt
  rw [h1]
  exact h

theorem treeOk_congr (h : treeOk s) (h1 : t.pool = s.pool) (h2 : t.root = s.root) (h3 : t.leafCount = s.leafCount) :
    treeOk t := by
  rcases h with h | ⟨tr, h⟩
  · exact .inl (treeEmpty_congr h h1 h2 h3)
  · exact .inr ⟨tr, treeIs_congr h h1 h2 h3⟩

theorem treeOk_held {tr : Option CodeTree} (h : treeHeld s tr) : treeOk s := by
  cases tr with
  | none => exact .inl h
  | some tr => exact .inr ⟨tr, h⟩

/-- A state that differs in nothing the rest of the invariant speaks of. -/
theorem Core.congr (h : Core s) (h0 : t.cfg = s.cfg) (h1 : t.bwBuf = s.bwBuf) (h2 : t.bwCount = s.bwCount)
    (h3 : t.brValid = s.brValid) (h4 : t.brIndex = s.brIndex) (h5 : t.pq = s.pq) (h6 : t.pool = s.pool)
    (h7 : t.stack = s.stack) (h8 : t.code = s.code) (h9 : t.root = s.root) (h10 : t.leafCount = s.leafCount)
    (h11 : t.inPos = s.inPos) (h12 : t.inBytes = s.inBytes) : Core t :=
  ⟨by rw [h0]; exact h.config, writerOk_congr h.writer h1 h2, readerOk_congr h.reader h3 h4, queueOk_congr h.queue h5 h6,
    by rw [h7]; exact h.stack, codesOk_congr h.codes h8, treeOk_congr h.tree h6 h9 h10, by rw [h11, h12]; exact h.input⟩

theorem codesOk_nil (h : s.code = []) : codesOk s := by
  unfold codesOk codeAt
  rw [h]
  exact fun i => ⟨Nat.zero_le _, fun j _ => by simp [storeRead, CodeEntry.blank]⟩

/-- A code table of a tree is well formed, given its memory is. -/
theorem codesOk_of {tr : CodeTree} (h : codesAre s tr) (hl : tr.leaves.length ≤ 256) (hm : memoriesOk s) : codesOk s :=
  codesAre_ok h hl fun _ hi => storeRead_beyond hm.2.2.1 hi

theorem inReadState_le (n : Nat) (h : s.inPos ≤ s.inBytes.length) :
    (inReadState n s).inPos ≤ (inReadState n s).inBytes.length := inReadState_pos_le n s h

theorem inRest_length (s : State) : (inRest s).length = s.inBytes.length - s.inPos := by simp [inRest]

/-! ### Every command keeps it -/

theorem Core.result (h : Core s) (v : Word) : Core (setResult v s) :=
  h.congr rfl rfl rfl rfl rfl rfl rfl rfl rfl rfl rfl rfl rfl

theorem Core.raise (h : Core s) (op : BitVec 8) (c : Cause) : Core (raiseError op c s) :=
  h.congr rfl rfl rfl rfl rfl rfl rfl rfl rfl rfl rfl rfl rfl

/-- How a body ends when it does not stop, in a state with a property. -/
def Ends (P : State → Prop) (r : Res Unit) : Prop := ∃ u, (r = .ok () u ∨ ∃ c, r = .raised c u) ∧ P u

theorem ends_ok {P : State → Prop} {u : State} (h : P u) : Ends P (.ok () u) := ⟨u, .inl rfl, h⟩

theorem ends_raised {P : State → Prop} {c : Cause} {u : State} (h : P u) : Ends P (.raised c u) := ⟨u, .inr ⟨c, rfl⟩, h⟩

theorem core_buildTree (h : Core s) : Ends Core (commandBody .buildTree s) := by
  unfold commandBody
  by_cases hf : 2 ^ 64 ≤ freqTotal s
  · have : buildTreeBody s = .raised .freqOverflow s := by unfold buildTreeBody; rw [if_pos hf]
    rw [this]
    exact ends_raised h
  · obtain ⟨u, e, f, -, -, -, hc⟩ := buildTreeBody_spec s (Nat.lt_of_not_le hf)
    rw [e, bind_ok]
    refine ends_ok (Core.result ?_ _)
    have ht : treeOk u := by
      rcases hc with ⟨-, -, a⟩ | ⟨-, -, tr, -, a, -⟩
      · exact .inl a
      · exact .inr ⟨tr, a⟩
    exact ⟨by rw [f]; exact h.config, writerOk_congr h.writer (by rw [f]) (by rw [f]),
      readerOk_congr h.reader (by rw [f]) (by rw [f]), queueOk_nil (by rw [f]), by rw [f],
      codesOk_congr h.codes (by rw [f]), ht, by rw [f]; exact h.input⟩

theorem core_buildCodes (h : Core s) (hm : memoriesOk s) : Ends Core (commandBody .buildCodes s) := by
  unfold commandBody
  have hk := memoriesOk_buildCodes hm
  rcases h.tree with ht | ⟨tr, ht⟩
  · rw [buildCodesBody_empty s ht.1, bind_ok]
    refine ends_ok (Core.result ?_ _)
    exact ⟨h.config, h.writer, h.reader, queueOk_congr h.queue rfl rfl, h.stack, codesOk_nil rfl,
      treeOk_congr h.tree rfl rfl rfl, h.input⟩
  · obtain ⟨u, e, f, g⟩ := buildCodesBody_spec s tr ht
    have hmu := hk.onOk _ _ e
    rw [e, bind_ok]
    refine ends_ok (Core.result ?_ _)
    exact ⟨by rw [f]; exact h.config, writerOk_congr h.writer (by rw [f]) (by rw [f]),
      readerOk_congr h.reader (by rw [f]) (by rw [f]), queueOk_congr h.queue (by rw [f]) (by rw [f]),
      by rw [f]; exact h.stack, codesOk_of g (treeIs_leaves ht) hmu,
      treeOk_congr h.tree (by rw [f]) (by rw [f]) (by rw [f]), by rw [f]; exact h.input⟩

theorem core_serialize (h : Core s) : Ends Core (commandBody .serializeTree s) := by
  unfold commandBody
  rcases h.tree with ht | ⟨tr, ht⟩
  · rw [serializeBody_empty s ht.1, bind_ok]
    exact ends_ok (h.congr rfl rfl rfl rfl rfl rfl rfl rfl rfl rfl rfl rfl rfl)
  · rw [serializeBody_spec s tr ht, bind_ok]
    exact ends_ok (h.congr rfl rfl rfl rfl rfl rfl rfl rfl rfl rfl rfl rfl rfl)

/-- A state whose tree has just been rebuilt or released. -/
theorem Core.rebuilt {u : State} (h : Core s) (f : rebuildFrame s u) (ht : treeOk u) : Core u := by
  unfold rebuildFrame at f
  exact ⟨by rw [f]; exact h.config, writerOk_congr h.writer (by rw [f]) (by rw [f]),
    readerOk_congr h.reader (by rw [f]) (by rw [f]), queueOk_nil (by rw [f]), by rw [f],
    codesOk_congr h.codes (by rw [f]), ht, by rw [f]; exact h.input⟩

theorem core_rebuild (h : Core s) : Ends Core (commandBody .rebuildTree s) := by
  unfold commandBody
  by_cases hz : s.treeSize.toNat > maxTreeSize
  · have : rebuildBody s = .raised .treeSizeRange s := by unfold rebuildBody; rw [if_pos hz]
    rw [this]
    exact ends_raised h
  · rcases rebuildBody_spec s (by omega) with ⟨u, tr, e, f, g, -⟩ | ⟨u, -, e, f, g⟩ | ⟨c, u, e, f, g, -⟩
    · rw [e, bind_ok]
      exact ends_ok ((h.rebuilt f (.inr ⟨tr, g⟩)).result _)
    · rw [e, bind_ok]
      exact ends_ok ((h.rebuilt f (.inl g)).result _)
    · rw [e]
      exact ends_raised (h.rebuilt f (.inl g))

theorem core_deleteTree (h : Core s) : Ends Core (commandBody .deleteTree s) :=
  ends_ok (h.rebuilt (u := { releasePool s with codesValid := false }) rfl (.inl ⟨rfl, rfl, poolFree_releasePool s⟩))

theorem core_pqInsert (h : Core s) (v : BitVec 16) : Ends Core (commandBody (.pqInsert v) s) := by
  simp only [commandBody]
  unfold nodeOperand
  split
  · next hv =>
    rw [bind_ok]
    have hn : v.toNat < 511 := by simpa [OperandKind.admits] using hv
    have ht : (BitVec.ofNat 9 v.toNat).toNat = v.toNat := toNat_ofNat_nine (by omega)
    split
    · next ha =>
      rcases pqInsertNode_cases (BitVec.ofNat 9 v.toNat) s with ⟨-, e⟩ | ⟨hl, e⟩
      · rw [e]
        exact ends_raised h
      · rw [e, bind_ok]
        refine ends_ok (Core.result ?_ _)
        obtain ⟨q1, q2, q3⟩ := h.queue
        have hq : queueOk { s with pq := pqPut s.pq ⟨BitVec.ofNat 9 v.toNat, (nodeAt s (BitVec.ofNat 9 v.toNat).toNat).freq⟩ } := by
          refine ⟨?_, pqPut_sorted _ _ q2, fun e he => ?_⟩
          · rw [pqPut_length]
            omega
          · rcases List.mem_cons.mp ((pqPut_perm _ _).mem_iff.mp he) with rfl | he
            · refine ⟨?_, rfl⟩
              rw [ht]
              exact ha
            · exact q3 e he
        exact ⟨h.config, h.writer, h.reader, hq, h.stack, h.codes, treeOk_congr h.tree rfl rfl rfl, h.input⟩
    · exact ends_raised h
  · exact ends_raised h

theorem core_pqExtract (h : Core s) : Ends Core (commandBody .pqExtractMin s) := by
  unfold commandBody
  rcases pqExtractNode_cases s with ⟨-, e⟩ | ⟨x, q, hq, e⟩
  · rw [e]
    exact ends_raised h
  · rw [e, bind_ok]
    refine ends_ok (Core.result ?_ _)
    obtain ⟨q1, q2, q3⟩ := h.queue
    rw [hq] at q1 q2 q3
    have hq' : queueOk { s with pq := q } :=
      ⟨by rw [List.length_cons] at q1; exact Nat.le_of_succ_le q1, (List.pairwise_cons.mp q2).2,
        fun e he => q3 e (List.mem_cons_of_mem _ he)⟩
    exact ⟨h.config, h.writer, h.reader, hq', h.stack, h.codes, treeOk_congr h.tree rfl rfl rfl, h.input⟩

/-- A state in which only the bit writer and OUT have moved. -/
theorem Core.written {u : State} {ys : List Byte} (h : Core s) (f : writerFrame s u ys) (hw : writerOk u) : Core u := by
  unfold writerFrame at f
  exact ⟨by rw [f]; exact h.config, hw, readerOk_congr h.reader (by rw [f]) (by rw [f]),
    queueOk_congr h.queue (by rw [f]) (by rw [f]), by rw [f]; exact h.stack, codesOk_congr h.codes (by rw [f]),
    treeOk_congr h.tree (by rw [f]) (by rw [f]) (by rw [f]), by rw [f]; exact h.input⟩

theorem core_bwWriteCode (h : Core s) (v : BitVec 16) : Ends Core (commandBody (.bwWriteCode v) s) := by
  simp only [commandBody]
  unfold symOperand
  split
  · rw [bind_ok]
    split
    · exact ends_raised h
    · obtain ⟨u, ys, e, f, g, -, -⟩ := writeBits_spec (codeList (codeAt s v.toNat)) 0 s h.writer
      unfold writeCode
      rw [e, bind_ok]
      exact ends_ok ((h.written f g).result _)
  · exact ends_raised h

theorem core_bwFlush (h : Core s) : Ends Core (commandBody .bwFlush s) := by
  unfold commandBody
  rw [flushWriter_spec s h.writer, bind_ok]
  have f : writerFrame s (clearWriter (outWrite (packBits (writerBits s)) s)) (packBits (writerBits s)) := by
    show _ = _
    rfl
  exact ends_ok ((h.written f (clearWriter_ok _)).result _)

/-- A state in which only the bit reader and IN have moved. -/
theorem Core.moved {u : State} (h : Core s) (f : readerFrame s u) (hr : readerOk u) (hi : u.inPos ≤ u.inBytes.length) :
    Core u := by
  unfold readerFrame at f
  exact ⟨by rw [f]; exact h.config, writerOk_congr h.writer (by rw [f]) (by rw [f]), hr,
    queueOk_congr h.queue (by rw [f]) (by rw [f]), by rw [f]; exact h.stack, codesOk_congr h.codes (by rw [f]),
    treeOk_congr h.tree (by rw [f]) (by rw [f]) (by rw [f]), hi⟩

/-- ReadBit keeps IN's position within IN. -/
theorem readBit_input (h : s.inPos ≤ s.inBytes.length) : Keeps (fun u => u.inPos ≤ u.inBytes.length) (readBit s) :=
  ClosedReader.readBit ⟨fun _ _ hu => hu, fun _ _ hu => hu, fun _ _ hu => hu, fun _ _ hu => hu,
    fun n u hu => inReadState_pos_le n u hu⟩ s h

theorem core_brReadBit (h : Core s) : Ends Core (commandBody .brReadBit s) := by
  unfold commandBody
  have hi := readBit_input h.input
  rcases readBit_spec s h.reader with ⟨u, b, e, f, g, -, -⟩ | ⟨u, e, f, g, -, -, -⟩
  · rw [e, bind_ok]
    exact ends_ok ((h.moved f g (hi.onOk _ _ e)).result _)
  · rw [e, bind_ok]
    exact ends_ok ((h.moved f g (hi.onOk _ _ e)).result _)

theorem treeEmpty_applyReset (s : State) : treeEmpty (applyReset s) := ⟨rfl, rfl, fun _ _ => rfl⟩

/-- Reset meets the invariant (R273). -/
theorem inv_applyReset (hc : s.cfg.wf) (hi : s.inPos ≤ s.inBytes.length) : Inv (applyReset s) := by
  refine ⟨hc, memoriesOk_reset, ?_, ?_, queueOk_nil rfl, rfl, codesOk_nil rfl, .inl ⟨rfl, rfl⟩,
    .inl (treeEmpty_applyReset s), hi⟩
  · exact ⟨by simp, fun k _ => by simp⟩
  · exact ⟨by simp, by simp⟩

/-- The parameters of the machine meet R107's premise. -/
theorem config_free_wf : Config.free.wf := by
  unfold Config.wf Config.free
  simp only
  intro h
  have h1 := congrArg BitVec.toNat h
  simp only [BitVec.toNat_add, BitVec.toNat_ofNat] at h1
  have := Config.freeTagLeaf.isLt
  have : Config.freeTagGap % 255 < 255 := Nat.mod_lt _ (by decide)
  omega

/-- ENCODE keeps the rest of the invariant, however it ends. -/
theorem core_encode (h : Core s) (hm : memoriesOk s) : ∃ u, execEncode s = .next u ∧ Core u := by
  have hk : ∀ u, execEncode s = .next u → memoriesOk u := fun u e => memoriesOk_exec (i := .encode) hm e
  have htail : ∀ {t u : State}, EncodeStart s t → u.pool = t.pool → u.root = t.root → u.leafCount = t.leafCount →
      u.pq = t.pq → u.stack = t.stack → u.code = t.code → u.cfg = t.cfg → u.brValid = t.brValid → u.brIndex = t.brIndex →
      writerOk u → memoriesOk u → u.inPos ≤ u.inBytes.length → Core u := by
    intro t u hst h1 h2 h3 h4 h5 h6 h7 h8 h9 hw hmu hi
    have htr := treeHeld_congr hst.tree h1 h2 h3
    have f := hst.frame
    refine ⟨by rw [h7, f]; exact h.config, hw, readerOk_congr h.reader (by rw [h8, f]) (by rw [h9, f]),
      queueOk_nil (by rw [h4, f]), by rw [h5, f], ?_, treeOk_held htr, hi⟩
    cases hh : huffmanTree s with
    | none =>
      have hc := hst.noCodes hh
      intro i
      by_cases hi : i < alphabet
      · have hb : codeAt u i = CodeEntry.blank := by
          have := hc (BitVec.ofNat 8 i)
          rw [BitVec.toNat_ofNat, Nat.mod_eq_of_lt hi] at this
          unfold codeAt at this ⊢
          rw [h6]
          exact this
        rw [hb]
        exact ⟨Nat.zero_le _, fun j _ => by simp [CodeEntry.blank]⟩
      · have hb : codeAt u i = CodeEntry.blank := storeRead_beyond hmu.2.2.1 (by omega)
        rw [hb]
        exact ⟨Nat.zero_le _, fun j _ => by simp [CodeEntry.blank]⟩
    | some tr =>
      have hc : codesAre u tr := by
        intro x
        have := hst.codes tr hh x
        unfold codeAt at this ⊢
        rw [h6]
        exact this
      rw [hh] at htr
      exact codesOk_of hc (treeIs_leaves htr) hmu
  rcases encode_cases s with ⟨-, e⟩ | ⟨-, hn, -, t, u, bits, hst, -, e, f⟩ | ⟨-, t, u, k, ys, c, hst, hk1, hk2, -, e, hw, -, hc⟩
  · refine ⟨_, e, Core.raise ?_ _ _⟩
    exact ⟨h.config, clearWriter_ok _, h.reader, queueOk_congr h.queue rfl rfl, h.stack, codesOk_congr h.codes rfl,
      treeOk_congr h.tree rfl rfl rfl, h.input⟩
  · refine ⟨u, e, ?_⟩
    refine htail hst (by rw [f]) (by rw [f]) (by rw [f]) (by rw [f]) (by rw [f]) (by rw [f]) (by rw [f]) (by rw [f])
      (by rw [f]) ?_ (hk u e) ?_
    · rw [f]
      exact clearWriter_ok s
    · have := h.input
      rw [inRest_length] at hn
      rw [f, hst.frame]
      show s.inPos + s.origSize.toNat ≤ s.inBytes.length
      omega
  · refine ⟨_, e, Core.raise ?_ _ _⟩
    have hmu : memoriesOk u := by
      have := hk _ e
      exact this
    have hin := h.input
    rw [inRest_length] at hk2
    rcases hc with ⟨-, -, f⟩ | ⟨x, hx, -, -, f⟩
    · unfold encodeFrame at f
      refine htail hst (by rw [f]; rfl) (by rw [f]; rfl) (by rw [f]; rfl) (by rw [f]; rfl) (by rw [f]; rfl) (by rw [f]; rfl)
        (by rw [f]; rfl) (by rw [f]; rfl) (by rw [f]; rfl) hw hmu ?_
      rw [f, hst.frame]
      show s.inPos + k ≤ s.inBytes.length
      omega
    · have hlt := (List.getElem?_eq_some_iff.mp hx).1
      rw [inRest_length] at hlt
      unfold encodeFrame at f
      refine htail hst (by rw [f]; rfl) (by rw [f]; rfl) (by rw [f]; rfl) (by rw [f]; rfl) (by rw [f]; rfl) (by rw [f]; rfl)
        (by rw [f]; rfl) (by rw [f]; rfl) (by rw [f]; rfl) hw hmu ?_
      rw [f, hst.frame]
      show s.inPos + (k + 1) ≤ s.inBytes.length
      omega

/-- DECODE's payload loop keeps IN's position within IN. -/
theorem decodeRest_input (h : s.inPos ≤ s.inBytes.length) :
    Keeps (fun u => u.inPos ≤ u.inBytes.length) (decodeRest s) :=
  (keeps_decodePayload (P := fun u => u.inPos ≤ u.inBytes.length) (fun _ hu => readBit_input hu) (fun _ _ hu => hu) _ _ _ s
    h).last fun _ _ hu => hu

/-- DECODE keeps the rest of the invariant, however it ends. -/
theorem core_decode (h : Core s) : ∃ u, execDecode s = .next u ∧ Core u := by
  have hin := h.input
  have hcr : Core (clearReader (clearCounts s)) :=
    ⟨h.config, h.writer, clearReader_ok _, queueOk_congr h.queue rfl rfl, h.stack, h.codes,
      treeOk_congr h.tree rfl rfl rfl, h.input⟩
  have hread : ∀ n, Core (inReadState n (clearReader (clearCounts s))) := fun n =>
    ⟨hcr.config, hcr.writer, hcr.reader, queueOk_congr hcr.queue rfl rfl, hcr.stack, hcr.codes,
      treeOk_congr hcr.tree rfl rfl rfl, inReadState_pos_le n _ hcr.input⟩
  rcases decode_cases s with ⟨-, e⟩ | ⟨-, -, e⟩ | ⟨h16, -, hcase⟩
  · exact ⟨_, e, (hread 16).raise _ _⟩
  · exact ⟨_, e, (hread 16).raise _ _⟩
  · have hhd : Core (headerState s) := by
      refine ⟨h.config, h.writer, ⟨Nat.zero_le _, Nat.zero_le _⟩, queueOk_congr h.queue rfl rfl, h.stack,
        codesOk_congr h.codes rfl, treeOk_congr h.tree rfl rfl rfl, ?_⟩
      rw [inRest_length] at h16
      simp only [headerState_inPos, headerState_inBytes]
      omega
    have hrd : Core (readDump (headerState s)) :=
      ⟨hhd.config, hhd.writer, hhd.reader, queueOk_congr hhd.queue rfl rfl, hhd.stack, codesOk_congr hhd.codes rfl,
        treeOk_congr hhd.tree rfl rfl rfl, inReadState_pos_le _ _ hhd.input⟩
    rcases hcase with ⟨-, e⟩ | ⟨-, -, e⟩ | ⟨-, -, ⟨c, u, f, g, -, -, -, e⟩ | ⟨u, -, f, g, ⟨-, e⟩ | ⟨-, e⟩⟩ |
      ⟨u, tr, f, g, -, -, -, e⟩⟩
    · exact ⟨_, e, hhd.raise _ _⟩
    · exact ⟨_, e, hrd.raise _ _⟩
    · exact ⟨_, e, (hrd.rebuilt f (.inl g)).raise _ _⟩
    · exact ⟨_, e, (hrd.rebuilt f (.inl g)).raise _ _⟩
    · exact ⟨_, e, (hrd.rebuilt f (.inl g)).result _⟩
    · have hu := hrd.rebuilt f (.inr ⟨tr, g⟩)
      have f' := f
      unfold rebuildFrame at f'
      obtain ⟨v, p, q, -, r1, r2⟩ := decodeRest_spec g (by rw [f']; rfl) (by rw [f']; rfl) (by rw [f']; rfl)
      have hki := decodeRest_input hu.input
      have hv : v.inPos ≤ v.inBytes.length → Core v := by
        intro hi
        unfold decodeFrame at p
        exact ⟨by rw [p]; exact hu.config, writerOk_congr hu.writer (by rw [p]) (by rw [p]), q.ok,
          queueOk_congr hu.queue (by rw [p]) (by rw [p]), by rw [p]; exact hu.stack, codesOk_congr hu.codes (by rw [p]),
          treeOk_congr hu.tree (by rw [p]) (by rw [p]) (by rw [p]), hi⟩
      cases hd : (tr.decodeBits (unpackBits (inRest u)) u.origSize.toNat tr).2 with
      | none =>
        refine ⟨_, by rw [e, r1 hd]; rfl, (hv ?_).result _⟩
        have := hki.onOk _ _ (r1 hd)
        exact this
      | some c =>
        refine ⟨_, by rw [e, r2 c hd]; rfl, (hv ?_).raise _ _⟩
        exact hki.onRaised _ _ (r2 c hd)

theorem Ends.next {i : Instr} (h : Ends Core (commandBody i s)) : ∃ t, exec i s = .next t ∧ Core t := by
  obtain ⟨u, e | ⟨c, e⟩, hu⟩ := h
  · exact ⟨u, by rw [exec_body, e]; rfl, hu⟩
  · exact ⟨_, by rw [exec_body, e]; rfl, hu.raise _ _⟩

/-- Every command completes, and keeps the rest of the invariant. -/
theorem core_exec (h : Core s) (hm : memoriesOk s) (i : Instr) : ∃ t, exec i s = .next t ∧ Core t := by
  cases i
  case nop => exact ⟨s, rfl, h⟩
  case clearErr =>
    exact ⟨clearError s, rfl, h.congr rfl rfl rfl rfl rfl rfl rfl rfl rfl rfl rfl rfl rfl⟩
  case softReset => exact ⟨applyReset s, rfl, (inv_applyReset h.config h.input).core⟩
  case buildTree => exact (core_buildTree h).next
  case buildCodes => exact (core_buildCodes h hm).next
  case deleteTree => exact (core_deleteTree h).next
  case nodeRead v =>
    refine Ends.next ?_
    simp only [commandBody]
    unfold nodeOperand
    split
    · rw [bind_ok]
      refine ends_ok ?_
      unfold readoutNode
      split <;> exact h.congr rfl rfl rfl rfl rfl rfl rfl rfl rfl rfl rfl rfl rfl
    · exact ends_raised h
  case codeRead v =>
    refine Ends.next ?_
    simp only [commandBody]
    unfold symOperand
    split
    · rw [bind_ok]
      exact ends_ok (h.congr rfl rfl rfl rfl rfl rfl rfl rfl rfl rfl rfl rfl rfl)
    · exact ends_raised h
  case serializeTree => exact (core_serialize h).next
  case rebuildTree => exact (core_rebuild h).next
  case pqClear =>
    exact ⟨{ s with pq := [] }, rfl, h.config, h.writer, h.reader, queueOk_nil rfl, h.stack, h.codes,
      treeOk_congr h.tree rfl rfl rfl, h.input⟩
  case pqInsert v => exact (core_pqInsert h v).next
  case pqExtractMin => exact (core_pqExtract h).next
  case bwWriteCode v => exact (core_bwWriteCode h v).next
  case bwFlush => exact (core_bwFlush h).next
  case bwReset =>
    exact ⟨clearWriter s, rfl, h.config, clearWriter_ok s, h.reader, queueOk_congr h.queue rfl rfl, h.stack, h.codes,
      treeOk_congr h.tree rfl rfl rfl, h.input⟩
  case brReset =>
    exact ⟨clearReader s, rfl, h.config, h.writer, clearReader_ok s, queueOk_congr h.queue rfl rfl, h.stack, h.codes,
      treeOk_congr h.tree rfl rfl rfl, h.input⟩
  case brReadBit => exact (core_brReadBit h).next
  case encode =>
    obtain ⟨u, e, hu⟩ := core_encode h hm
    exact ⟨u, e, hu⟩
  case decode =>
    obtain ⟨u, e, hu⟩ := core_decode h
    exact ⟨u, e, hu⟩

theorem errorOk_raise (op : BitVec 8) (c : Cause) (s : State) : errorOk (raiseError op c s) := .inr ⟨rfl, op, c, rfl⟩

/-- Every command keeps the error register well formed (R34). -/
theorem errorOk_exec (h : errorOk s) {i : Instr} (e : exec i s = .next t) : errorOk t := by
  by_cases h1 : i = .clearErr
  · subst h1
    cases e
    exact .inl ⟨rfl, rfl⟩
  by_cases h2 : i = .softReset
  · subst h2
    cases e
    exact .inl ⟨rfl, rfl⟩
  rcases exec_next e with e | ⟨c, u, e, rfl⟩
  · obtain ⟨a, b, -⟩ := (body_err h1 h2 s).onOk _ _ e
    unfold errorOk
    rw [a, b]
    exact h
  · exact errorOk_raise _ _ _

/-- A state that keeps what a host write and a dropped command keep. -/
theorem Core.portWrite (h : Core s) (off : Nat) (v : Word) : Core (portWrite off v s) := by
  rw [portWrite_frame]
  exact h.congr rfl rfl rfl rfl rfl rfl rfl rfl rfl rfl rfl rfl rfl

end Sys2Proof.Machine
end

