-- ==== Sys2Proof/Laws/Optimal.lean ====
section
/-! SUPPORT. Prefix-freedom of a tree's paths, the Kraft inequality for prefix-free codes, and the optimality of the pure Huffman
construction among all codes that meet it. -/

namespace Sys2Proof.Machine

open Sys2Proof

/-! ### Paths -/

/-- No leaf's path is a prefix of another leaf's (R139). -/
theorem paths_prefix : ∀ (t : CodeTree) (p q : Byte × List Bool), p ∈ t.paths → q ∈ t.paths → p.2 <+: q.2 → p = q := by
  intro t
  induction t with
  | leaf x =>
    intro p q hp hq _
    simp only [CodeTree.paths, List.mem_singleton] at hp hq
    rw [hp, hq]
  | node l r ihl ihr =>
    intro p q hp hq h
    simp only [CodeTree.paths, List.mem_append, List.mem_map] at hp hq
    rcases hp with ⟨a, ha, rfl⟩ | ⟨a, ha, rfl⟩ <;> rcases hq with ⟨b, hb, rfl⟩ | ⟨b, hb, rfl⟩
    · rw [ihl a b ha hb (List.cons_prefix_cons.mp h).2]
    · exact absurd (List.cons_prefix_cons.mp h).1 (by decide)
    · exact absurd (List.cons_prefix_cons.mp h).1 (by decide)
    · rw [ihr a b ha hb (List.cons_prefix_cons.mp h).2]

/-- The codes of a tree of two leaves or more are its paths (R132, R133). -/
theorem codes_eq_paths {t : CodeTree} (h : 2 ≤ t.leaves.length) : t.codes = t.paths := by
  cases t with
  | leaf x => simp [CodeTree.leaves] at h
  | node l r => rfl

/-- In a tree with no symbol in two leaves, the code of a leaf's symbol is the code of that leaf. -/
theorem codeOf_of_mem {t : CodeTree} (h : t.leaves.Nodup) {x : Byte} {p : List Bool} (hp : (x, p) ∈ t.codes) :
    t.codeOf x = some p := by
  cases hc : t.codeOf x with
  | none =>
    have := (codeOf_isSome t x).mpr (by rw [← codes_symbols]; exact List.mem_map.mpr ⟨(x, p), hp, rfl⟩)
    rw [hc] at this
    cases this
  | some q =>
    have hq := codeOf_mem hc
    have hn : (t.codes.map Prod.fst).Nodup := by rw [codes_symbols]; exact h
    have := List.inj_on_of_nodup_map hn hp hq rfl
    rw [Prod.mk.injEq] at this
    rw [this.2]

/-! ### The Kraft inequality -/

/-- The sum of 2^(D - length) over a list of lengths. -/
def kraftSum (D : Nat) (ls : List Nat) : Nat := (ls.map (fun l => 2 ^ (D - l))).sum

/-- The lengths meet the Kraft inequality. -/
def Kraft (ls : List Nat) : Prop := ∃ D, (∀ l ∈ ls, l ≤ D) ∧ kraftSum D ls ≤ 2 ^ D

theorem kraftSum_perm {D : Nat} {ls ms : List Nat} (h : ls.Perm ms) : kraftSum D ls = kraftSum D ms := (h.map _).sum_eq

theorem kraftSum_cons (D l : Nat) (ls : List Nat) : kraftSum D (l :: ls) = 2 ^ (D - l) + kraftSum D ls := by
  simp [kraftSum]

/-- A larger bound scales the sum. -/
theorem kraftSum_scale {D E : Nat} (hde : D ≤ E) : ∀ {ls : List Nat}, (∀ l ∈ ls, l ≤ D) →
    kraftSum E ls = 2 ^ (E - D) * kraftSum D ls := by
  intro ls
  induction ls with
  | nil => intro _; simp [kraftSum]
  | cons l ls ih =>
    intro h
    have hl := h l (by simp)
    rw [kraftSum_cons, kraftSum_cons, ih (fun m hm => h m (List.mem_cons_of_mem _ hm)), Nat.mul_add, ← Nat.pow_add]
    congr 3
    omega

theorem Kraft.at {ls : List Nat} (h : Kraft ls) {D : Nat} (hD : ∀ l ∈ ls, l ≤ D) : kraftSum D ls ≤ 2 ^ D := by
  obtain ⟨E, hE, hk⟩ := h
  rcases Nat.le_total D E with hle | hle
  · rw [kraftSum_scale hle hD] at hk
    have : 2 ^ E = 2 ^ (E - D) * 2 ^ D := by rw [← Nat.pow_add]; congr 1; omega
    rw [this] at hk
    exact Nat.le_of_mul_le_mul_left hk (Nat.two_pow_pos _)
  · rw [kraftSum_scale hle hE]
    have : 2 ^ D = 2 ^ (D - E) * 2 ^ E := by rw [← Nat.pow_add]; congr 1; omega
    rw [this]
    exact Nat.mul_le_mul_left _ hk

theorem Kraft.perm {ls ms : List Nat} (h : Kraft ls) (hp : ls.Perm ms) : Kraft ms := by
  obtain ⟨D, hD, hk⟩ := h
  exact ⟨D, fun l hl => hD l (hp.mem_iff.mpr hl), by rw [← kraftSum_perm hp]; exact hk⟩

/-- The tails of the codes that begin with a bit. -/
def tailsOf (b : Bool) (cs : List (List Bool)) : List (List Bool) :=
  cs.filterMap fun c => match c with
    | [] => none
    | a :: c => if a = b then some c else none

/-- Neither of two codes is a prefix of the other. -/
def Apart (a b : List Bool) : Prop := ¬ a <+: b ∧ ¬ b <+: a

theorem tailsOf_apart (b : Bool) {cs : List (List Bool)} (h : cs.Pairwise Apart) : (tailsOf b cs).Pairwise Apart := by
  refine List.Pairwise.filterMap _ (fun x y hxy u hu v hv => ?_) h
  cases x with
  | nil => simp at hu
  | cons x xs =>
    cases y with
    | nil => simp at hv
    | cons y ys =>
      simp only [Option.ite_none_right_eq_some, Option.some.injEq] at hu hv
      obtain ⟨rfl, rfl⟩ := hu
      obtain ⟨rfl, rfl⟩ := hv
      exact ⟨fun hp => hxy.1 (List.cons_prefix_cons.mpr ⟨rfl, hp⟩), fun hp => hxy.2 (List.cons_prefix_cons.mpr ⟨rfl, hp⟩)⟩

theorem tailsOf_length (b : Bool) {cs : List (List Bool)} {D : Nat} (h : ∀ c ∈ cs, c.length ≤ D + 1) :
    ∀ c ∈ tailsOf b cs, c.length ≤ D := by
  intro c hc
  obtain ⟨a, ha, he⟩ := List.mem_filterMap.mp hc
  cases a with
  | nil => simp at he
  | cons x a =>
    simp only [Option.ite_none_right_eq_some, Option.some.injEq] at he
    have := h _ ha
    rw [List.length_cons, he.2] at this
    omega

theorem tailsOf_sum (D : Nat) : ∀ {cs : List (List Bool)}, [] ∉ cs →
    kraftSum (D + 1) (cs.map List.length) =
      kraftSum D ((tailsOf false cs).map List.length) + kraftSum D ((tailsOf true cs).map List.length) := by
  intro cs
  induction cs with
  | nil => intro _; rfl
  | cons c cs ih =>
    intro h
    rw [List.mem_cons, not_or] at h
    cases c with
    | nil => exact absurd rfl h.1
    | cons b c =>
      have hs := ih h.2
      have e : D + 1 - (c.length + 1) = D - c.length := by omega
      unfold tailsOf at hs ⊢
      cases b
      · simp only [List.map_cons, kraftSum_cons, List.length_cons, List.filterMap_cons, if_true, hs, e, Bool.false_eq_true,
          if_false]
        omega
      · simp only [List.map_cons, kraftSum_cons, List.length_cons, List.filterMap_cons, if_true, hs, e, Bool.true_eq_false,
          if_false]
        omega

/-- Prefix-free codes meet the Kraft inequality. -/
theorem kraft_of_apart : ∀ (D : Nat) (cs : List (List Bool)), cs.Pairwise Apart → (∀ c ∈ cs, c.length ≤ D) →
    kraftSum D (cs.map List.length) ≤ 2 ^ D := by
  have hone : ∀ {cs : List (List Bool)}, cs.Pairwise Apart → [] ∈ cs → cs = [[]] := by
    intro cs h hm
    cases cs with
    | nil => simp at hm
    | cons c cs =>
      obtain ⟨h1, h2⟩ := List.pairwise_cons.mp h
      rcases List.mem_cons.mp hm with rfl | hm
      · cases cs with
        | nil => rfl
        | cons d cs => exact absurd (List.nil_prefix) (h1 d (by simp)).1
      · exact absurd (List.nil_prefix) (h1 [] hm).2
  intro D
  induction D with
  | zero =>
    intro cs h hl
    cases cs with
    | nil => simp [kraftSum]
    | cons c cs =>
      have hc : c = [] := List.length_eq_zero_iff.mp (Nat.le_zero.mp (hl c (by simp)))
      rw [hone h (by rw [hc]; simp)]
      simp [kraftSum]
  | succ D ih =>
    intro cs h hl
    by_cases hm : [] ∈ cs
    · rw [hone h hm]
      simp [kraftSum]
    · rw [tailsOf_sum D hm]
      have h0 := ih _ (tailsOf_apart false h) (tailsOf_length false hl)
      have h1 := ih _ (tailsOf_apart true h) (tailsOf_length true hl)
      rw [Nat.pow_succ]
      omega

/-! ### The lower bound -/

/-- The cost of a list of weights with lengths. -/
def cost (ps : List (Nat × Nat)) : Nat := (ps.map (fun p => p.1 * p.2)).sum

theorem cost_cons (p : Nat × Nat) (ps : List (Nat × Nat)) : cost (p :: ps) = p.1 * p.2 + cost ps := by simp [cost]

theorem cost_perm {ps qs : List (Nat × Nat)} (h : ps.Perm qs) : cost ps = cost qs := (h.map _).sum_eq

/-- Giving the least weight the greatest length costs no more. -/
theorem swap_min {ps : List (Nat × Nat)} {a L : Nat} (ha : a ∈ ps.map Prod.fst) (hL : L ∈ ps.map Prod.snd)
    (hmin : ∀ p ∈ ps, a ≤ p.1) (hmax : ∀ p ∈ ps, p.2 ≤ L) :
    ∃ qs : List (Nat × Nat), (ps.map Prod.fst).Perm (a :: qs.map Prod.fst) ∧
      (ps.map Prod.snd).Perm (L :: qs.map Prod.snd) ∧ a * L + cost qs ≤ cost ps := by
  obtain ⟨⟨a', l⟩, hal, rfl⟩ := List.mem_map.mp ha
  obtain ⟨u, v, rfl⟩ := List.append_of_mem hal
  have hp : (u ++ (a', l) :: v).Perm ((a', l) :: (u ++ v)) := List.perm_middle
  simp only at *
  by_cases hl : l = L
  · subst hl
    exact ⟨u ++ v, by simp, by simp, by rw [cost_perm hp, cost_cons]⟩
  · have hL' : L ∈ (u ++ v).map Prod.snd := by
      have := (hp.map Prod.snd).mem_iff.mp hL
      rw [List.map_cons, List.mem_cons] at this
      rcases this with h | h
      · exact absurd h.symm hl
      · exact h
    obtain ⟨⟨w, L'⟩, hw, rfl⟩ := List.mem_map.mp hL'
    obtain ⟨x, y, hxy⟩ := List.append_of_mem hw
    simp only at *
    have hq : (u ++ v).Perm ((w, L') :: (x ++ y)) := by rw [hxy]; exact List.perm_middle
    have hpq := hp.trans (hq.cons (a', l))
    refine ⟨(w, l) :: (x ++ y), ?_, ?_, ?_⟩
    · simpa using hpq.map Prod.fst
    · refine (hpq.map Prod.snd).trans ?_
      simpa using List.Perm.swap L' l ((x ++ y).map Prod.snd)
    · rw [cost_perm hpq, cost_cons, cost_cons, cost_cons]
      have h1 : a' ≤ w := hmin (w, L') (hp.mem_iff.mpr (List.mem_cons_of_mem _ hw))
      have h2 : l ≤ L' := hmax (a', l) hal
      simp only
      obtain ⟨d, rfl⟩ := Nat.exists_eq_add_of_le h1
      obtain ⟨e, rfl⟩ := Nat.exists_eq_add_of_le h2
      nlinarith [Nat.zero_le (d * e)]

/-- The cost of the joins of the Huffman construction on a list of weights. -/
def joinCost : Nat → List Nat → Nat
  | 0, _ => 0
  | n + 1, a :: b :: q => (a + b) + joinCost n (putBy id (a + b) q)
  | _ + 1, _ => 0

theorem exists_max {l : Nat} {ls : List Nat} : ∃ L ∈ l :: ls, ∀ m ∈ l :: ls, m ≤ L := by
  induction ls generalizing l with
  | nil => exact ⟨l, by simp, by simp⟩
  | cons k ls ih =>
    obtain ⟨L, hL, hm⟩ := ih (l := k)
    rcases Nat.le_total l L with h | h
    · exact ⟨L, List.mem_cons_of_mem _ hL, fun m hm' => by
        rcases List.mem_cons.mp hm' with rfl | hm'
        · exact h
        · exact hm m hm'⟩
    · exact ⟨l, by simp, fun m hm' => by
        rcases List.mem_cons.mp hm' with rfl | hm'
        · exact Nat.le_refl _
        · exact (hm m hm').trans h⟩

/-- Any lengths that meet the Kraft inequality cost at least what the Huffman construction costs. -/
theorem joinCost_le : ∀ (n : Nat) (q : List Nat) (ps : List (Nat × Nat)), q.length ≤ n →
    q.Pairwise (fun a b => a ≤ b) → (ps.map Prod.fst).Perm q → Kraft (ps.map Prod.snd) → joinCost n q ≤ cost ps := by
  intro n
  induction n with
  | zero => intro q ps _ _ _ _; exact Nat.zero_le _
  | succ n ih =>
    intro q ps hn hs hp hk
    match q, hn, hs, hp with
    | [], _, _, _ => exact Nat.zero_le _
    | [a], _, _, _ => exact Nat.zero_le _
    | a :: b :: q, hn, hs, hp =>
      obtain ⟨hs1, hs2⟩ := List.pairwise_cons.mp hs
      obtain ⟨hs3, hs4⟩ := List.pairwise_cons.mp hs2
      -- the least weight and the greatest length
      have hne : ∃ l ls, ps.map Prod.snd = l :: ls := by
        cases ps with
        | nil => exact absurd hp.length_eq (by simp)
        | cons p ps => exact ⟨_, _, rfl⟩
      obtain ⟨l0, ls0, hl0⟩ := hne
      obtain ⟨L, hL, hLm⟩ := exists_max (l := l0) (ls := ls0)
      rw [← hl0] at hL hLm
      have hmem : ∀ p ∈ ps, p.1 ∈ a :: b :: q := fun p h => hp.mem_iff.mp (List.mem_map.mpr ⟨p, h, rfl⟩)
      obtain ⟨qs, hq1, hq2, hq3⟩ := swap_min (a := a) (L := L) (hp.mem_iff.mpr (by simp)) hL
        (fun p h => by
          rcases List.mem_cons.mp (hmem p h) with h' | h'
          · rw [h']
          · exact hs1 _ h')
        (fun p h => hLm _ (List.mem_map.mpr ⟨p, h, rfl⟩))
      have hqw : (qs.map Prod.fst).Perm (b :: q) := (hq1.symm.trans hp).cons_inv
      have hne' : ∃ l ls, qs.map Prod.snd = l :: ls := by
        cases qs with
        | nil => exact absurd hqw.length_eq (by simp)
        | cons p ps => exact ⟨_, _, rfl⟩
      obtain ⟨l1, ls1, hl1⟩ := hne'
      obtain ⟨M, hM, hMm⟩ := exists_max (l := l1) (ls := ls1)
      rw [← hl1] at hM hMm
      have hmem' : ∀ p ∈ qs, p.1 ∈ b :: q := fun p h => hqw.mem_iff.mp (List.mem_map.mpr ⟨p, h, rfl⟩)
      obtain ⟨rs, hr1, hr2, hr3⟩ := swap_min (a := b) (L := M) (hqw.mem_iff.mpr (by simp)) hM
        (fun p h => by
          rcases List.mem_cons.mp (hmem' p h) with h' | h'
          · rw [h']
          · exact hs3 _ h')
        (fun p h => hMm _ (List.mem_map.mpr ⟨p, h, rfl⟩))
      have hrw : (rs.map Prod.fst).Perm q := (hr1.symm.trans hqw).cons_inv
      have hML : M ≤ L := hLm M (hq2.mem_iff.mpr (List.mem_cons_of_mem _ hM))
      have hrM : ∀ l ∈ rs.map Prod.snd, l ≤ M := fun l h => hMm l (hr2.mem_iff.mpr (List.mem_cons_of_mem _ h))
      -- the Kraft sum of the rest, in units of 2^-M
      have hkL : kraftSum L (L :: M :: rs.map Prod.snd) ≤ 2 ^ L := by
        have hperm : (ps.map Prod.snd).Perm (L :: M :: rs.map Prod.snd) := hq2.trans (hr2.cons L)
        rw [← kraftSum_perm hperm]
        exact hk.at hLm
      have hkM : 2 + kraftSum M (rs.map Prod.snd) ≤ 2 ^ M := by
        rw [kraftSum_cons, kraftSum_cons, kraftSum_scale hML hrM] at hkL
        have h1 : 2 ^ L = 2 ^ (L - M) * 2 ^ M := by rw [← Nat.pow_add]; congr 1; omega
        rw [h1, Nat.sub_self, pow_zero] at hkL
        have h2 : 2 ^ (L - M) * (1 + kraftSum M (rs.map Prod.snd)) < 2 ^ (L - M) * 2 ^ M := by
          rw [Nat.mul_add]
          omega
        have := Nat.lt_of_mul_lt_mul_left h2
        omega
      have hMpos : 0 < M := by
        rcases Nat.eq_zero_or_pos M with h0 | h0
        · rw [h0, pow_zero] at hkM; omega
        · exact h0
      obtain ⟨M, rfl⟩ : ∃ M', M = M' + 1 := ⟨M - 1, by omega⟩
      have hnew : Kraft (((a + b, M) :: rs).map Prod.snd) := by
        refine ⟨M + 1, fun l hl => ?_, ?_⟩
        · rw [List.map_cons] at hl
          rcases List.mem_cons.mp hl with rfl | hl
          · exact Nat.le_succ _
          · exact hrM l hl
        · rw [List.map_cons, kraftSum_cons]
          have : M + 1 - M = 1 := by omega
          rw [this]
          omega
      have hw : (((a + b, M) :: rs).map Prod.fst).Perm (putBy id (a + b) q) := by
        rw [List.map_cons]
        exact ((hrw.cons (a + b))).trans (putBy_perm id (a + b) q).symm
      have hlen : (putBy id (a + b) q).length ≤ n := by
        rw [putBy_length]
        simp only [List.length_cons] at hn
        omega
      have hI := ih (putBy id (a + b) q) ((a + b, M) :: rs) hlen (putBy_sorted id (a + b) q hs4) hw hnew
      rw [cost_cons] at hI
      simp only [joinCost]
      simp only at hI
      have h3 : a * (M + 1) ≤ a * L := Nat.mul_le_mul_left _ hML
      have h4 : (a + b) * (M + 1) = a * (M + 1) + b * (M + 1) := Nat.add_mul _ _ _
      have h5 : (a + b) * (M + 1) = (a + b) * M + (a + b) := Nat.mul_succ _ _
      omega

/-! ### The cost of the Huffman tree -/

/-- The weight of a tree's leaves. -/
def CodeTree.weight (f : Byte → Nat) : CodeTree → Nat
  | .leaf x => f x
  | .node l r => l.weight f + r.weight f

/-- The cost of a tree: the weight of every leaf times its depth. -/
def CodeTree.pathCost (f : Byte → Nat) (t : CodeTree) : Nat := (t.paths.map (fun p => f p.1 * p.2.length)).sum

theorem pathCost_shift (f : Byte → Nat) (b : Bool) (ps : List (Byte × List Bool)) :
    ((ps.map (fun p => (p.1, b :: p.2))).map (fun p => f p.1 * p.2.length)).sum =
      (ps.map (fun p => f p.1 * p.2.length)).sum + (ps.map (fun p => f p.1)).sum := by
  induction ps with
  | nil => rfl
  | cons p ps ih =>
    simp only [List.map_cons, List.sum_cons, List.length_cons, Nat.mul_succ, ih]
    omega

theorem weight_eq (f : Byte → Nat) (t : CodeTree) : (t.paths.map (fun p => f p.1)).sum = t.weight f := by
  induction t with
  | leaf x => simp [CodeTree.paths, CodeTree.weight]
  | node l r ihl ihr =>
    simp only [CodeTree.paths, List.map_append, List.map_map, List.sum_append, CodeTree.weight, ← ihl, ← ihr]
    rfl

theorem pathCost_node (f : Byte → Nat) (l r : CodeTree) :
    (CodeTree.node l r).pathCost f = l.pathCost f + r.pathCost f + (l.weight f + r.weight f) := by
  unfold CodeTree.pathCost
  rw [CodeTree.paths, List.map_append, List.sum_append, pathCost_shift, pathCost_shift, weight_eq, weight_eq]
  omega

/-- The trees of a queue carry their own weights. -/
def Weighed (f : Byte → Nat) (q : List Weighted) : Prop := ∀ e ∈ q, e.1 = e.2.weight f

/-- The cost of the trees of a queue. -/
def queueCost (f : Byte → Nat) (q : List Weighted) : Nat := (q.map (fun e => e.2.pathCost f)).sum

theorem queueCost_perm (f : Byte → Nat) {q r : List Weighted} (h : q.Perm r) : queueCost f q = queueCost f r :=
  (h.map _).sum_eq

theorem putTree_perm (e : Weighted) (q : List Weighted) : (putTree e q).Perm (e :: q) := by
  rw [putTree_eq_putBy]
  exact putBy_perm _ _ _

theorem putTree_fst (e : Weighted) (q : List Weighted) : (putTree e q).map Prod.fst = putBy id e.1 (q.map Prod.fst) := by
  rw [putTree_eq_putBy, putBy_map Prod.fst id Prod.fst e q rfl (fun _ _ => rfl)]

/-- What the joins add to the cost of the trees in the queue. -/
theorem mergeTrees_cost (f : Byte → Nat) : ∀ (n : Nat) (q : List Weighted), Weighed f q →
    queueCost f (mergeTrees n q) = queueCost f q + joinCost n (q.map Prod.fst) := by
  intro n
  induction n with
  | zero => intro q _; rfl
  | succ n ih =>
    intro q hq
    match q, hq with
    | [], _ => rfl
    | [a], _ => rfl
    | a :: b :: q, hq =>
      have ha : a.1 = a.2.weight f := hq a (by simp)
      have hb : b.1 = b.2.weight f := hq b (by simp)
      have hw : Weighed f (putTree (a.1 + b.1, .node a.2 b.2) q) := by
        intro e he
        rcases List.mem_cons.mp ((putTree_perm _ _).mem_iff.mp he) with rfl | he
        · simp only [CodeTree.weight, ha, hb]
        · exact hq e (by simp [he])
      rw [mergeTrees, ih _ hw, queueCost_perm f (putTree_perm _ _), putTree_fst]
      simp only [queueCost, List.map_cons, List.sum_cons, pathCost_node, joinCost, ← ha, ← hb]
      omega

/-- The queue BUILD_TREE starts from: sorted, each leaf with its frequency, no cost yet. -/
theorem foldl_putTree_weights (g : Nat → Weighted) (xs : List Nat) : ∀ q : List Weighted,
    (q.map Prod.fst).Pairwise (fun a b => a ≤ b) →
    ((xs.foldl (fun q i => putTree (g i) q) q).map Prod.fst).Pairwise (fun a b => a ≤ b) ∧
      (xs.foldl (fun q i => putTree (g i) q) q).Perm (xs.map g ++ q) := by
  induction xs with
  | nil => intro q h; exact ⟨h, List.Perm.refl _⟩
  | cons x xs ih =>
    intro q h
    obtain ⟨h1, h2⟩ := ih (putTree (g x) q) (by rw [putTree_fst]; exact putBy_sorted id _ _ h)
    refine ⟨h1, h2.trans ?_⟩
    have := (putTree_perm (g x) q).append_left (xs.map g)
    exact this.trans (by simp)

/-- The frequency of a symbol. -/
def freqOf (s : State) (x : Byte) : Nat := (freqAt s x.toNat).toNat

variable {s : State}

theorem freqSymbols_lt {i : Nat} (h : i ∈ freqSymbols s) : i < 256 := List.mem_range.mp (List.mem_filter.mp h).1

theorem freqOf_ofNat {i : Nat} (h : i < 256) : freqOf s (BitVec.ofNat 8 i) = (freqAt s i).toNat := by
  unfold freqOf
  rw [BitVec.toNat_ofNat, Nat.mod_eq_of_lt h]

/-- The cost of the Huffman tree is the cost of the joins (R131, R138). -/
theorem huffmanTree_cost {t : CodeTree} (h : huffmanTree s = some t) :
    ∃ q : List Nat, q.length ≤ 256 ∧ q.Pairwise (fun a b => a ≤ b) ∧
      q.Perm ((freqSymbols s).map (fun i => (freqAt s i).toNat)) ∧ t.pathCost (freqOf s) = joinCost 256 q := by
  obtain ⟨h1, h2⟩ := foldl_putTree_weights (fun i => ((freqAt s i).toNat, .leaf (BitVec.ofNat 8 i))) (freqSymbols s) [] .nil
  rw [List.append_nil] at h2
  have hq : (freqSymbols s).foldl (fun q i => putTree ((freqAt s i).toNat, .leaf (BitVec.ofNat 8 i)) q) [] = leafQueue s := rfl
  rw [hq] at h1 h2
  have hl := freqSymbols_length_le s
  have hlq := leafQueue_length s
  have hm := mergeTrees_length alphabet (leafQueue s) (by rw [hlq]; exact hl)
  have hmt : ∃ w, mergeTrees alphabet (leafQueue s) = [(w, t)] := by
    unfold huffmanTree at h
    cases hc : mergeTrees alphabet (leafQueue s) with
    | nil => rw [hc] at h; simp at h
    | cons e r =>
      rw [hc] at h hm
      simp only [List.head?_cons, Option.map_some, Option.some.injEq] at h
      have : r = [] := by
        rw [List.length_cons] at hm
        exact List.length_eq_zero_iff.mp (by omega)
      exact ⟨e.1, by rw [this, ← h]⟩
  obtain ⟨w, hmt⟩ := hmt
  have hw : Weighed (freqOf s) (leafQueue s) := by
    intro e he
    obtain ⟨i, hi, rfl⟩ := List.mem_map.mp (h2.mem_iff.mp he)
    simp only [CodeTree.weight]
    rw [freqOf_ofNat (freqSymbols_lt hi)]
  have hc := mergeTrees_cost (freqOf s) alphabet (leafQueue s) hw
  have hz : queueCost (freqOf s) (leafQueue s) = 0 := by
    rw [queueCost_perm _ h2]
    unfold queueCost
    rw [List.sum_eq_zero_iff]
    intro x hx
    simp only [List.map_map, List.mem_map] at hx
    obtain ⟨i, -, rfl⟩ := hx
    simp [CodeTree.pathCost, CodeTree.paths]
  rw [hmt, hz, Nat.zero_add] at hc
  refine ⟨(leafQueue s).map Prod.fst, by rw [List.length_map, hlq]; exact hl, h1, ?_, ?_⟩
  · have := h2.map Prod.fst
    rw [List.map_map] at this
    exact this
  · simpa [queueCost] using hc

/-! ### The code table of the Huffman tree -/

theorem treeIs_unique {s : State} {t u : CodeTree} (h : treeIs s t) (g : treeIs s u) : t = u := by
  obtain ⟨_, h1, _⟩ := h
  obtain ⟨_, g1, _⟩ := g
  exact (poolHolds_unique h1 g1).1

theorem treeIs_not_empty {s : State} {t : CodeTree} (h : treeIs s t) (g : treeEmpty s) : False := by
  obtain ⟨_, h1, _⟩ := h
  exact poolHolds_ne_nil h1 g.1

theorem huffmanTree_nodup {s : State} {tr : CodeTree} (h : huffmanTree s = some tr) : tr.leaves.Nodup := by
  have hn : (freqSymbols s).Nodup := (List.nodup_range).filter _
  rw [(huffmanTree_leaves h).nodup_iff, List.nodup_map_iff_inj_on hn]
  intro i hi j hj hij
  have hi := freqSymbols_lt hi
  have hj := freqSymbols_lt hj
  have := congrArg BitVec.toNat hij
  rwa [BitVec.toNat_ofNat, BitVec.toNat_ofNat, Nat.mod_eq_of_lt hi, Nat.mod_eq_of_lt hj] at this

/-- Different symbols' codes are apart. -/
theorem codes_apart {t : State} {tr : CodeTree} (hl : tr.leaves.length ≤ alphabet) (hc : codesAre t tr)
    (h2 : 2 ≤ tr.leaves.length)
    {x y : Byte} (hxy : x ≠ y) (hx : (codeAt t x.toNat).len ≠ 0#9) (hy : (codeAt t y.toNat).len ≠ 0#9) :
    ¬ codeList (codeAt t x.toNat) <+: codeList (codeAt t y.toNat) := by
  intro hp
  rw [Ne, codesAre_length hc hl, ← Ne, Option.ne_none_iff_exists'] at hx hy
  obtain ⟨p, hp1⟩ := hx
  obtain ⟨q, hq1⟩ := hy
  rw [codesAre_list hc hp1, codesAre_list hc hq1] at hp
  have m1 := codeOf_mem hp1
  have m2 := codeOf_mem hq1
  rw [codes_eq_paths h2] at m1 m2
  have := paths_prefix tr _ _ m1 m2 hp
  exact hxy (congrArg Prod.fst this)

/-- A sum over the alphabet of something that is 0 off the present symbols. -/
theorem sum_filter_zero (f : Nat → Nat) (P : Nat → Bool) (xs : List Nat) (h : ∀ i ∈ xs, P i = false → f i = 0) :
    ((xs.filter P).map f).sum = (xs.map f).sum := by
  induction xs with
  | nil => rfl
  | cons x xs ih =>
    have ih := ih (fun i hi => h i (List.mem_cons_of_mem _ hi))
    cases hp : P x
    · rw [List.filter_cons_of_neg (by simp [hp]), ih, List.map_cons, List.sum_cons, h x (by simp) hp, Nat.zero_add]
    · rw [List.filter_cons_of_pos hp, List.map_cons, List.map_cons, List.sum_cons, List.sum_cons, ih]

theorem sum_alphabet (s : State) (g : Nat → Nat) :
    ((List.range alphabet).map (fun i => (freqAt s i).toNat * g i)).sum =
      ((freqSymbols s).map (fun i => (freqAt s i).toNat * g i)).sum := by
  symm
  apply sum_filter_zero
  intro i _ h
  simp only [ne_eq, decide_not, Bool.not_eq_eq_eq_not, Bool.not_false, decide_eq_true_eq] at h
  rw [h]; simp

/-- The weighted code length of a tree's table is the tree's cost. -/
theorem table_cost {s u : State} {tr : CodeTree} (h : huffmanTree s = some tr) (hc : codesAre u tr) :
    ((freqSymbols s).map (fun i => (freqAt s i).toNat * (codeAt u i).len.toNat)).sum =
      (tr.codes.map (fun p => freqOf s p.1 * p.2.length)).sum := by
  have h1 : (tr.codes.map (fun p => freqOf s p.1 * p.2.length)) =
      tr.leaves.map (fun x => freqOf s x * (codeAt u x.toNat).len.toNat) := by
    rw [← codes_symbols, List.map_map]
    apply List.map_congr_left
    intro p hp
    have hq := codesAre_list hc (codeOf_of_mem (huffmanTree_nodup h) (x := p.1) (p := p.2) hp)
    simp only [Function.comp]
    rw [← hq]
    simp [codeList]
  rw [h1, ((huffmanTree_leaves h).map _).sum_eq, List.map_map]
  congr 1
  apply List.map_congr_left
  intro i hi
  have hi := freqSymbols_lt hi
  simp only [Function.comp]
  rw [freqOf_ofNat hi, BitVec.toNat_ofNat, Nat.mod_eq_of_lt hi]

end Sys2Proof.Machine
end

