-- ==== Sys2Proof/Laws/Words.lean ====
section
/-! SUPPORT. The command word: its fields, what the encoder puts in them, the opcode map, the opcode table by mask and pattern, and
the operand checks. -/

namespace Sys2Proof.Machine

open Sys2Proof

theorem encode_opcode (i : Instr) : opcodeOf (encode i) = opcode i := by
  have h : ∀ (o : BitVec 8) (v : BitVec 16), opcodeOf (o.setWidth 32 ||| (v.setWidth 32 <<< 16)) = o := by
    intro o v; unfold opcodeOf; ext j hj
    simp [show j < 16 by omega, show j < 32 by omega, BitVec.getLsbD_eq_getElem hj]
  exact h _ _

theorem encode_rsvd (i : Instr) : rsvdOf (encode i) = 0#8 := by
  have h : ∀ (o : BitVec 8) (v : BitVec 16), rsvdOf (o.setWidth 32 ||| (v.setWidth 32 <<< 16)) = 0#8 := by
    intro o v; unfold rsvdOf; ext j hj
    simp
    intro _ _; omega
  exact h _ _

theorem encode_operand (i : Instr) : operandOf (encode i) = operand i := by
  have h : ∀ (o : BitVec 8) (v : BitVec 16), operandOf (o.setWidth 32 ||| (v.setWidth 32 <<< 16)) = v := by
    intro o v; unfold operandOf; ext j hj
    simp [show 16 + j < 32 by omega, BitVec.getLsbD_eq_getElem hj, BitVec.getLsbD_of_ge o (16+j) (by omega)]
  exact h _ _

/-- A word with RSVD = 0 is its OPCODE and its OPERAND (R90). -/
theorem word_parts (w : Word) (h : rsvdOf w = 0#8) :
    (opcodeOf w).setWidth 32 ||| ((operandOf w).setWidth 32 <<< 16) = w := by
  unfold opcodeOf operandOf
  ext j hj
  have h2 : ∀ k < 8, w.getLsbD (8 + k) = false := by
    intro k hk
    have := congrArg (fun v => v.getLsbD k) h
    simpa [rsvdOf, hk] using this
  simp [hj]
  by_cases h8 : j < 8
  · have : j < 16 := by omega
    simp [h8, this]
  · by_cases h16 : j < 16
    · have := h2 (j - 8) (by omega)
      rw [show 8 + (j-8) = j by omega] at this
      simp [h8, h16]
      rw [BitVec.getLsbD_eq_getElem hj] at this; simp [this]
    · simp [h8, h16, show 16 + (j-16) = j by omega, show j - 16 < 16 by omega, BitVec.getLsbD_eq_getElem hj]

/-- A row of the opcode map names a well-formed command with that OPCODE and OPERAND (R91, R92). -/
theorem commandOf_some {o : BitVec 8} {k : OperandKind} {mk : BitVec 16 → Instr} (h : commandOf o = some (k, mk))
    (v : BitVec 16) (hv : k.admits v) :
   (mk v).wf = true ∧ opcode (mk v) = o ∧ operand (mk v) = v := by
  unfold commandOf at h
  split at h <;> cases h <;> rename_i ho <;> (
    refine ⟨by first | rfl | exact hv, ?_, ?_⟩
    · apply BitVec.eq_of_toNat_eq; rw [ho]; rfl
    · first | rfl | (apply BitVec.eq_of_toNat_eq; simp [OperandKind.admits] at hv; simp [operand, hv]))

/-- The opcode map has no row exactly for the OPCODE values of R94. -/
theorem commandOf_none {o : BitVec 8} : commandOf o = none ↔ opcodeIllegal o.toNat := by
  have : ∀ o : BitVec 8, (commandOf o).isNone = true ↔ opcodeIllegal o.toNat := by unfold opcodeIllegal; decide +kernel
  rw [← this]; cases commandOf o <;> simp

/-- The operand kind of a row (R92). -/
theorem commandOf_kind {o : BitVec 8} {k : OperandKind} {mk : BitVec 16 → Instr} (h : commandOf o = some (k, mk)) :
    (opcodeTakesNode o.toNat ∧ ¬ opcodeTakesSym o.toNat ∧ k = .node) ∨
    (¬ opcodeTakesNode o.toNat ∧ opcodeTakesSym o.toNat ∧ k = .sym) ∨
    (¬ opcodeTakesNode o.toNat ∧ ¬ opcodeTakesSym o.toNat ∧ k = .none) := by
  have : ∀ o : BitVec 8, ((commandOf o).map (fun p => p.1) = some .node → (o.toNat = 0x13 ∨ o.toNat = 0x21) ∧ ¬ (o.toNat = 0x14 ∨ o.toNat = 0x30)) ∧ 
       ((commandOf o).map (fun p => p.1) = some .sym → (o.toNat = 0x14 ∨ o.toNat = 0x30) ∧ ¬ (o.toNat = 0x13 ∨ o.toNat = 0x21)) ∧ 
       ((commandOf o).map (fun p => p.1) = some .none → ¬ (o.toNat = 0x13 ∨ o.toNat = 0x21) ∧ ¬ (o.toNat = 0x14 ∨ o.toNat = 0x30)) := by decide +kernel
  have := this o
  unfold opcodeTakesNode opcodeTakesSym
  rw [h] at this
  cases k
  · exact .inr (.inr ⟨(this.2.2 rfl).1, (this.2.2 rfl).2, rfl⟩)
  · exact .inl ⟨(this.1 rfl).1, (this.1 rfl).2, rfl⟩
  · exact .inr (.inl ⟨(this.2.1 rfl).2, (this.2.1 rfl).1, rfl⟩)

theorem opcodeOf_toNat (w : Word) : (opcodeOf w).toNat = w.toNat % 256 := by simp [opcodeOf]

theorem rsvdOf_toNat (w : Word) : (rsvdOf w).toNat = w.toNat / 256 % 256 := by simp [rsvdOf, Nat.shiftRight_eq_div_pow]

theorem operandOf_toNat (w : Word) :
    (operandOf w).toNat = w.toNat / 65536 % 65536 := by simp [operandOf, Nat.shiftRight_eq_div_pow]

/-- Whether a word matches a row, by its fields. -/
def selectSpec (w : Word) (r : OpcodeRow) : Bool :=
  decide ((opcodeOf w).toNat = r.pattern.toNat) && decide ((rsvdOf w).toNat = 0) &&
    (decide (r.kind ≠ .none) || decide ((operandOf w).toNat = 0))

/-- Mask and pattern say what the fields say. -/
theorem selects_eq (w : Word) : ∀ r ∈ opcodeTable, r.selects w = selectSpec w r := by
  have h1 : ∀ p : Nat, p < 256 → ((w &&& 0xFFFFFFFF#32).toNat = p ↔ w.toNat % 256 = p ∧ w.toNat / 256 % 256 = 0 ∧ w.toNat / 65536 % 65536 = 0) := by
    intro p hp
    have := w.isLt
    rw [BitVec.toNat_and, show (0xFFFFFFFF#32).toNat = 2^32-1 by rfl, Nat.and_two_pow_sub_one_eq_mod]; omega
  have h2 : ∀ p : Nat, p < 256 → ((w &&& 0xFFFF#32).toNat = p ↔ w.toNat % 256 = p ∧ w.toNat / 256 % 256 = 0) := by
    intro p hp
    have := w.isLt
    rw [BitVec.toNat_and, show (0xFFFF#32).toNat = 2^16-1 by rfl, Nat.and_two_pow_sub_one_eq_mod]; omega
  have h3 : ∀ r ∈ opcodeTable, (r.kind = .none ∧ r.mask = 0xFFFFFFFF#32 ∨ r.kind ≠ .none ∧ r.mask = 0xFFFF#32) ∧ r.pattern.toNat < 256 := by decide
  intro r hr
  obtain ⟨⟨hk, hm⟩ | ⟨hk, hm⟩, hp⟩ := h3 r hr
  · rw [Bool.eq_iff_iff]
    simp only [OpcodeRow.selects, selectSpec, hm, hk, beq_iff_eq, ← BitVec.toNat_inj, h1 _ hp, opcodeOf_toNat, rsvdOf_toNat,
      operandOf_toNat]
    simp; tauto
  · rw [Bool.eq_iff_iff]
    simp only [OpcodeRow.selects, selectSpec, hm, beq_iff_eq, ← BitVec.toNat_inj, h2 _ hp, opcodeOf_toNat, rsvdOf_toNat,
      operandOf_toNat]
    simp [hk]

theorem find_eq (w : Word) : opcodeTable.find? (fun r => r.selects w) = opcodeTable.find? (fun r => selectSpec w r) := by
  have := selects_eq w
  generalize opcodeTable = l at this
  induction l with
  | nil => rfl
  | cons r l ih =>
    rw [List.find?_cons, List.find?_cons, this r (by simp), ih (fun r hr => this r (by simp [hr]))]

theorem nodeOperand_ok {v : BitVec 16} (s : State) (h : v.toNat < 511) : nodeOperand v s = .ok v.toNat s := by
  unfold nodeOperand; rw [if_pos (by simpa [OperandKind.admits] using h)]

theorem nodeOperand_bad {v : BitVec 16} (s : State) (h : 511 ≤ v.toNat) : nodeOperand v s = .raised .badOperand s := by
  unfold nodeOperand; rw [if_neg (by simpa [OperandKind.admits] using h)]

theorem symOperand_ok {v : BitVec 16} (s : State) (h : v.toNat < 256) : symOperand v s = .ok v.toNat s := by
  unfold symOperand; rw [if_pos (by simpa [OperandKind.admits] using h)]

theorem symOperand_bad {v : BitVec 16} (s : State) (h : 256 ≤ v.toNat) : symOperand v s = .raised .badOperand s := by
  unfold symOperand; rw [if_neg (by simpa [OperandKind.admits] using h)]

end Sys2Proof.Machine
end

