-- ==== Sys2Proof/Laws/PerInstr.lean ====
section
/-! SUPPORT. Statements made for every command, one lemma per constructor. -/

/-- R90: the word of a command carries its OPCODE, RSVD = 0 and its OPERAND. -/
def Sys2Proof.Laws.EncodeFields.Statement (i : Sys2Proof.Instr) : Prop :=
  Sys2Proof.opcodeOf (Sys2Proof.encode i) = Sys2Proof.opcode i ∧ Sys2Proof.rsvdOf (Sys2Proof.encode i) = 0#8 ∧
    Sys2Proof.operandOf (Sys2Proof.encode i) = Sys2Proof.operand i

/-- The three fields of any encoded command. -/
theorem Sys2Proof.Laws.EncodeFields.fields (i : Sys2Proof.Instr) : Sys2Proof.Laws.EncodeFields.Statement i :=
  ⟨Sys2Proof.Machine.encode_opcode i, Sys2Proof.Machine.encode_rsvd i, Sys2Proof.Machine.encode_operand i⟩

theorem Sys2Proof.Laws.EncodeFields.nop : Sys2Proof.Laws.EncodeFields.Statement .nop :=
  Sys2Proof.Laws.EncodeFields.fields _

theorem Sys2Proof.Laws.EncodeFields.clearErr : Sys2Proof.Laws.EncodeFields.Statement .clearErr :=
  Sys2Proof.Laws.EncodeFields.fields _

theorem Sys2Proof.Laws.EncodeFields.softReset : Sys2Proof.Laws.EncodeFields.Statement .softReset :=
  Sys2Proof.Laws.EncodeFields.fields _

theorem Sys2Proof.Laws.EncodeFields.buildTree : Sys2Proof.Laws.EncodeFields.Statement .buildTree :=
  Sys2Proof.Laws.EncodeFields.fields _

theorem Sys2Proof.Laws.EncodeFields.buildCodes : Sys2Proof.Laws.EncodeFields.Statement .buildCodes :=
  Sys2Proof.Laws.EncodeFields.fields _

theorem Sys2Proof.Laws.EncodeFields.deleteTree : Sys2Proof.Laws.EncodeFields.Statement .deleteTree :=
  Sys2Proof.Laws.EncodeFields.fields _

theorem Sys2Proof.Laws.EncodeFields.nodeRead (v : BitVec 16) : Sys2Proof.Laws.EncodeFields.Statement (.nodeRead v) :=
  Sys2Proof.Laws.EncodeFields.fields _

theorem Sys2Proof.Laws.EncodeFields.codeRead (v : BitVec 16) : Sys2Proof.Laws.EncodeFields.Statement (.codeRead v) :=
  Sys2Proof.Laws.EncodeFields.fields _

theorem Sys2Proof.Laws.EncodeFields.serializeTree : Sys2Proof.Laws.EncodeFields.Statement .serializeTree :=
  Sys2Proof.Laws.EncodeFields.fields _

theorem Sys2Proof.Laws.EncodeFields.rebuildTree : Sys2Proof.Laws.EncodeFields.Statement .rebuildTree :=
  Sys2Proof.Laws.EncodeFields.fields _

theorem Sys2Proof.Laws.EncodeFields.pqClear : Sys2Proof.Laws.EncodeFields.Statement .pqClear :=
  Sys2Proof.Laws.EncodeFields.fields _

theorem Sys2Proof.Laws.EncodeFields.pqInsert (v : BitVec 16) : Sys2Proof.Laws.EncodeFields.Statement (.pqInsert v) :=
  Sys2Proof.Laws.EncodeFields.fields _

theorem Sys2Proof.Laws.EncodeFields.pqExtractMin : Sys2Proof.Laws.EncodeFields.Statement .pqExtractMin :=
  Sys2Proof.Laws.EncodeFields.fields _

theorem Sys2Proof.Laws.EncodeFields.bwWriteCode (v : BitVec 16) : Sys2Proof.Laws.EncodeFields.Statement (.bwWriteCode v) :=
  Sys2Proof.Laws.EncodeFields.fields _

theorem Sys2Proof.Laws.EncodeFields.bwFlush : Sys2Proof.Laws.EncodeFields.Statement .bwFlush :=
  Sys2Proof.Laws.EncodeFields.fields _

theorem Sys2Proof.Laws.EncodeFields.bwReset : Sys2Proof.Laws.EncodeFields.Statement .bwReset :=
  Sys2Proof.Laws.EncodeFields.fields _

theorem Sys2Proof.Laws.EncodeFields.brReset : Sys2Proof.Laws.EncodeFields.Statement .brReset :=
  Sys2Proof.Laws.EncodeFields.fields _

theorem Sys2Proof.Laws.EncodeFields.brReadBit : Sys2Proof.Laws.EncodeFields.Statement .brReadBit :=
  Sys2Proof.Laws.EncodeFields.fields _

theorem Sys2Proof.Laws.EncodeFields.encode : Sys2Proof.Laws.EncodeFields.Statement .encode :=
  Sys2Proof.Laws.EncodeFields.fields _

theorem Sys2Proof.Laws.EncodeFields.decode : Sys2Proof.Laws.EncodeFields.Statement .decode :=
  Sys2Proof.Laws.EncodeFields.fields _
end

