-- ==== Sys2Proof/Laws/Port.lean ====
section
/-! SUPPORT. The host port: what each offset names, the byte byte_lanes of a DUMP word, the bits of the composed words. -/

namespace Sys2Proof.Machine

open Sys2Proof

theorem portRead_reg {off : Nat} (r : Reg) (h : placeOf off = .reg r) (s : State) : portRead off s = readReg r s := by
  unfold portRead; rw [h]

/-- R30: the unlisted offsets of the register block. -/
theorem placeOf_reserved_low :
    ∀ off, off % 4 = 0 → (0x068 ≤ off ∧ off ≤ 0x07C) ∨ (0x0A0 ≤ off ∧ off ≤ 0x7FC) → placeOf off = .reserved := by
  intro off h4 h
  have : off < 2048 := by omega
  have key : ∀ off < 2048, off % 4 = 0 → (0x068 ≤ off ∧ off ≤ 0x07C) ∨ (0x0A0 ≤ off ∧ off ≤ 0x7FC) →
      placeOf off = .reserved := by decide +kernel
  exact key off this h4 h

theorem placeOf_freqLow (i : Nat) (h : i < 256) : placeOf (0x800 + 8 * i) = .freqLow i := by
  unfold placeOf
  rw [if_neg (by omega), if_pos (by omega), if_pos (by omega)]; congr 1; omega

theorem placeOf_freqHigh (i : Nat) (h : i < 256) : placeOf (0x804 + 8 * i) = .freqHigh i := by
  unfold placeOf
  rw [if_neg (by omega), if_pos (by omega), if_neg (by omega)]; congr 1; omega

theorem placeOf_dump (k : Nat) (h : k < 192) : placeOf (0x1000 + 4 * k) = .dumpWord k := by
  unfold placeOf
  rw [if_neg (by omega), if_neg (by omega), if_pos (by omega)]; congr 1; omega

/-- R63: one lane of a DUMP word. -/
theorem storeRead_laneWrite (i : Nat) (b : Byte) (m : Memory) (a : Nat) :
    storeRead 0#8 (dumpLaneWrite i b m) a = if a = i ∧ i < 767 then b else storeRead 0#8 m a := by
  unfold dumpLaneWrite
  split
  · rename_i h
    have : i < 767 := h
    rw [storeRead_write]; simp [this]
  · rename_i h
    have : ¬ i < 767 := h
    simp [this]

/-- The four bytes of a word. -/
theorem byte_lanes (a b c d : Byte) : (a ++ b ++ c ++ d).extractLsb' 0 8 = d ∧ (a ++ b ++ c ++ d).extractLsb' 8 8 = c ∧
   (a ++ b ++ c ++ d).extractLsb' 16 8 = b ∧ (a ++ b ++ c ++ d).extractLsb' 24 8 = a := by
  have h : ∀ i < 32, BitVec.getLsbD (a ++ b ++ c ++ d) i =
      if i < 8 then d.getLsbD i else if i < 16 then c.getLsbD (i - 8)
      else if i < 24 then b.getLsbD (i - 16) else a.getLsbD (i - 24) := by
    intro i hi
    rw [BitVec.getLsbD_append, BitVec.getLsbD_append, BitVec.getLsbD_append]
    simp only [show i - 8 < 8 ↔ i < 16 by omega, Nat.sub_sub]
    by_cases h1 : i < 8
    · simp [h1]
    · by_cases h2 : i < 16
      · simp [h1, h2]
      · by_cases h3 : i < 24 <;> simp [h1, h2, h3] <;> (intro _; omega)
  refine ⟨?_, ?_, ?_, ?_⟩ <;> apply BitVec.eq_of_getLsbD_eq <;> intro i hi <;> rw [BitVec.getLsbD_extractLsb', h _ (by omega)]
  · simp [hi]
  · rw [if_neg (by omega), if_pos (by omega)]; simp [hi]
  · rw [if_neg (by omega), if_neg (by omega), if_pos (by omega)]; simp [hi]
  · rw [if_neg (by omega), if_neg (by omega), if_neg (by omega)]; simp [hi]

theorem flagBit_getLsbD (k : Nat) (b : Bool) (j : Nat) : (flagBit k b).getLsbD j = (decide (j = k ∧ j < 32) && b) := by
  unfold flagBit
  rw [BitVec.getLsbD_shiftLeft, BitVec.getLsbD_setWidth, BitVec.getLsbD_ofBool]
  by_cases h1 : j = k
  · subst h1; by_cases h : j < 32 <;> simp [h]
  · by_cases h : j < k
    · simp [h1, h]
    · simp [h1]; intros; omega

/-- R37: the fields of NODE_SYM. -/
theorem nodeSymWord_fields (e : NodeEntry) :
    (nodeSymWord e).extractLsb' 0 8 = e.sym ∧ (nodeSymWord e).getLsbD 8 = e.isLeaf ∧
   (nodeSymWord e).getLsbD 9 = true ∧ ∀ k, 10 ≤ k → (nodeSymWord e).getLsbD k = false := by
  have h : ∀ k, (nodeSymWord e).getLsbD k = ((decide (k < 8) && e.sym.getLsbD k) || (decide (k = 8) && e.isLeaf) || decide (k = 9)) := by
    intro k
    unfold nodeSymWord
    simp only [BitVec.getLsbD_or, BitVec.getLsbD_shiftLeft, BitVec.getLsbD_setWidth, BitVec.getLsbD_ofBool, BitVec.getLsbD_one]
    by_cases h : k < 8
    · simp [h, show k < 32 by omega, show k < 9 by omega, show ¬ k = 8 by omega, show ¬ k = 9 by omega]
    · have : e.sym.getLsbD k = false := BitVec.getLsbD_of_ge _ _ (by omega)
      by_cases h8 : k = 8
      · subst h8; simp
      · by_cases h9 : k = 9
        · subst h9; simp
        · simp [h, this, h8, h9, show ¬ k - 8 = 0 by omega, show ¬ k - 9 = 0 by omega]
  refine ⟨?_, ?_, ?_, ?_⟩
  · apply BitVec.eq_of_getLsbD_eq; intro i hi
    rw [BitVec.getLsbD_extractLsb', h]; simp [hi]; simp [show ¬ i = 8 by omega, show ¬ i = 9 by omega]
  · rw [h]; simp
  · rw [h]; simp
  · intro k hk; rw [h]; simp [show ¬ k < 8 by omega, show ¬ k = 8 by omega]; omega

/-- R39: CODE_BITSk. -/
theorem portRead_codeBits (k : Nat) (hk : k < 8) (s : State) :
    portRead (0x080 + 4 * k) s = s.codeBits.extractLsb' (32 * k) 32 := by
  have : ∀ k (hk : k < 8), placeOf (0x080 + 4 * k) = .reg (.codeBits ⟨k, hk⟩) := by decide +kernel
  unfold portRead; rw [this k hk]; rfl

end Sys2Proof.Machine
end

