-- ==== Sys2Proof/Laws/Runs.lean ====
section
/-! SUPPORT. Lemmas about whole commands: the pool released twice, frequencies after a rebuild, the queue split at an insertion, the
bits a run of the bit reader returns, the frames of the codec, and which causes a command raises. -/

namespace Sys2Proof.Machine

open Sys2Proof

theorem storeMap_idem {α : Type} [DecidableEq α] (d : α) (f : α → α) (hf : ∀ x, f (f x) = f x) (m : Store α) :
    storeMap d f (storeMap d f m) = storeMap d f m := by
  unfold storeMap
  induction m with
  | nil => rfl
  | cons p m ih =>
    simp only [List.map_cons, List.filter_cons]
    split
    · rename_i h
      simp only [List.map_cons, List.filter_cons, hf]
      rw [if_pos h, ih]
    · exact ih

theorem releasePool_idem (s : State) : releasePool (releasePool s) = releasePool s := by
  unfold releasePool
  simp only []
  rw [storeMap_idem]
  intro x
  rfl

/-- R153: the length of a dump. -/
theorem dump_length_sub (s : State) (tr : CodeTree) : (tr.dump s.cfg).length = 3 * tr.leaves.length - 1 := by
  have := dump_length s.cfg tr; omega

/-- Every allocated node has frequency 0. -/
def freshFreq (s : State) : Prop := ∀ i, (nodeAt s i).alloc = true → (nodeAt s i).freq = 0#64

theorem freshFreq_pool {s t : State} (h : freshFreq s) (hp : t.pool = s.pool) : freshFreq t := by
  intro i; have := h i; unfold nodeAt at *; rw [hp]; exact this

theorem keeps_freshFreq_alloc (sym : Byte) (l r : NodeIx) (s : State) (h : freshFreq s) :
    Keeps freshFreq (allocNode sym 0#64 l r s) := by
  rcases allocNode_cases sym 0#64 l r s with e | ⟨i, _, _, e⟩ <;> rw [e]
  · exact keeps_raised h
  · apply keeps_ok
    intro j; rw [nodeAt_withNode]; split
    · intro; rfl
    · exact h j

theorem keeps_push (i : NodeIx) (s : State) (h : freshFreq s) : Keeps freshFreq (pushNode i s) := by
  rcases pushNode_cases i s with ⟨_, e⟩ | ⟨_, e⟩ <;> rw [e]
  · exact keeps_raised h
  · exact keeps_ok (freshFreq_pool h rfl)

theorem keeps_pop (s : State) (h : freshFreq s) : Keeps freshFreq (popNode s) := by
  rcases popNode_cases s with ⟨_, e⟩ | ⟨_, _, _, e⟩ <;> rw [e]
  · exact keeps_raised h
  · exact keeps_ok (freshFreq_pool h rfl)

theorem freshFreq_leafRecord (sym : Byte) (s : State) (h : freshFreq s) : Keeps freshFreq (leafRecord sym s) :=
  (keeps_freshFreq_alloc sym nil nil s h).bind fun k s h => (keeps_push k s h).bind fun _ _ h => keeps_ok (freshFreq_pool h rfl)

theorem freshFreq_interior (s : State) (h : freshFreq s) : Keeps freshFreq (interiorRecord s) := by
  unfold interiorRecord
  split
  · exact keeps_raised h
  · exact (keeps_pop s h).bind fun r s h => (keeps_pop s h).bind fun l s h => (keeps_freshFreq_alloc _ l r s h).bind fun k s h => keeps_push k s h

theorem freshFreq_scan (n : Nat) :
    ∀ (bs : List Byte) (s : State), bs.length ≤ n → freshFreq s → Keeps freshFreq (scanDump bs s) := by
  induction n with
  | zero => intro bs s hb h; cases bs with
    | nil => exact keeps_ok h
    | cons => simp at hb
  | succ n ih =>
    intro bs s hb h
    match bs with
    | [] => exact keeps_ok h
    | b :: bs =>
      unfold scanDump
      split
      · match bs with
        | [] => exact keeps_raised h
        | x :: xs => exact (freshFreq_leafRecord x s h).bind fun _ s h => ih xs s (by simp at hb; omega) h
      · split
        · exact (freshFreq_interior s h).bind fun _ s h => ih bs s (by simp at hb; omega) h
        · exact keeps_raised h

theorem freshFreq_finish (s : State) (h : freshFreq s) : Keeps freshFreq (finishScan s) := by
  unfold finishScan
  split
  · exact keeps_ok (freshFreq_pool h rfl)
  · split
    · exact (keeps_pop s h).bind fun i s h => keeps_ok (freshFreq_pool h rfl)
    · exact keeps_raised h

/-- R155: after a rebuild every node has frequency 0. -/
theorem freshFreq_rebuild (s t : State) (h : rebuildBody s = .ok () t) : freshFreq t := by
  unfold rebuildBody at h
  split at h
  · cases h
  · rw [rollback_ok_iff] at h
    have h0 : freshFreq { releasePool s with codesValid := false } := by
      intro i hi
      have : (nodeAt { releasePool s with codesValid := false } i).alloc = false := nodeAt_releasePool s i
      rw [this] at hi; cases hi
    have := (freshFreq_scan _ (dumpBytes s.treeSize.toNat s) _ le_rfl h0).bind (f := fun _ s => finishScan s) fun _ s h => freshFreq_finish s h
    exact this.onOk () t h

theorem codeEntry_ext {a b : CodeEntry} (h1 : a.len = b.len) (h2 : a.bits = b.bits) :
    a = b := by cases a; cases b; cases h1; cases h2; rfl

/-- R171, R172: where an insertion lands. -/
theorem pqPlace_split (q : List PqEntry) (k : Freq) (h : q.Pairwise (fun x y => x.key ≤ y.key)) :
    (∀ e ∈ q.take (pqPlace q k), e.key ≤ k) ∧ ∀ e ∈ q.drop (pqPlace q k), k < e.key := by
  induction q with
  | nil => simp
  | cons a q ih =>
    have h' := List.pairwise_cons.1 h
    unfold pqPlace at *
    rw [List.countP_cons]
    by_cases ha : a.key ≤ k
    · simp only [ha, decide_true, if_true, List.take_succ_cons, List.drop_succ_cons]
      refine ⟨?_, (ih h'.2).2⟩
      intro e he
      rcases List.mem_cons.1 he with rfl | he
      · exact ha
      · exact (ih h'.2).1 e he
    · have : q.countP (fun e => e.key ≤ k) = 0 := by
        rw [List.countP_eq_zero]; intro e he
        have := h'.1 e he
        simp only [decide_eq_true_eq, BitVec.le_def] at *
        omega
      rw [this]
      simp only [ha, decide_false, Bool.false_eq_true, if_false, Nat.zero_add, List.take_zero, List.drop_zero, List.not_mem_nil, false_implies, implies_true, true_and]
      intro e he
      rcases List.mem_cons.1 he with rfl | he
      · simp only [BitVec.le_def, BitVec.lt_def] at *; omega
      · have := h'.1 e he
        simp only [BitVec.le_def, BitVec.lt_def] at *; omega

theorem codeList_length (e : CodeEntry) : (codeList e).length = e.len.toNat := by simp [codeList]

theorem unpackBits_getElem? (xs : List Byte) : ∀ (j : Nat), (unpackBits xs)[j]? =
    if j < 8 * xs.length then some ((xs.getD (j / 8) 0#8).getLsbD (j % 8)) else none := by
  induction xs with
  | nil => intro j; simp
  | cons x xs ih =>
    intro j
    rw [unpackBits_cons]
    by_cases h : j < 8
    · rw [List.getElem?_append_left (by simpa using h)]
      simp [h, show j / 8 = 0 by omega, show j % 8 = j by omega]; omega
    · rw [List.getElem?_append_right (by simpa using Nat.le_of_not_lt h)]
      simp only [List.length_map, List.length_range, ih, List.length_cons]
      have : j / 8 = (j - 8) / 8 + 1 := by omega
      rw [this, List.getD_cons_succ, show (j - 8) % 8 = j % 8 by omega]
      simp only [show j - 8 < 8 * xs.length ↔ j < 8 * (xs.length + 1) by omega]

theorem packBits_getElem (bs : List Bool) (i : Nat) (hi : i < (packBits bs).length) (j : Nat) (hj : j < 8) :
    ((packBits bs)[i]).getLsbD j = bs.getD (8 * i + j) false := by
  rw [show (packBits bs)[i] = packByte (bs.drop (8 * i)) by simp [packBits], packByte_getLsbD]
  simp [hj, List.getElem?_drop]

/-- A run of ReadBit calls (R200). -/
theorem readRun_spec (s : State) (n : Nat) : ∀ j t, ReadAt s j t → ∃ u rs, readRun n t = .ok rs u ∧ rs.length = n ∧
   (∀ i, i < n → rs[i]? = some ((unpackBits (inRest s))[j + i]?)) ∧ ReadAt s (j + n) u := by
  induction n with
  | zero => intro j t h; exact ⟨t, [], rfl, rfl, by intro i hi; omega, h⟩
  | succ n ih =>
    intro j t h
    obtain ⟨u, h1, h2, -⟩ := readAt_step h
    obtain ⟨v, rs, h3, h4, h5, h6⟩ := ih (j+1) u h2
    refine ⟨v, (unpackBits (inRest s))[j]? :: rs, ?_, by simp [h4], ?_, by rw [show j + (n+1) = j + 1 + n by omega]; exact h6⟩
    · simp only [readRun, h1, Res.bind, h3]
    · intro i hi
      cases i with
      | zero => rfl
      | succ i =>
        rw [List.getElem?_cons_succ, h5 i (by omega), show j + 1 + i = j + (i + 1) by omega]

/-- The state of an ENCODE that raises in its payload (R211, R216, R243): from its start, the head and whole blocks are on
OUT, `k` bytes of IN are read, and everything else the start made stays. -/
theorem encode_raised {s t u : State} {k : Nat} {ys hd : List Byte} {c : Cause} (hst : EncodeStart s t)
    (h : encodeFrame (outWrite hd t) u k ys) :
    raiseError 0x40#8 c u =
      { s with pool := u.pool, root := u.root, leafCount := u.leafCount, pq := [], stack := [], code := u.code,
               codesValid := true, dump := u.dump, treeSize := u.treeSize, bwBuf := u.bwBuf, bwCount := u.bwCount,
               inPos := s.inPos + k, inCount := BitVec.ofNat 64 k, out := s.out ++ (hd ++ ys),
               outCount := BitVec.ofNat 64 (hd ++ ys).length, err := true, error := errorWord 0x40#8 c,
               errLog := s.errLog ++ [errorWord 0x40#8 c] } ∧
    u.pool = t.pool ∧ u.root = t.root ∧ u.leafCount = t.leafCount ∧ u.code = t.code ∧ u.dump = t.dump ∧
    u.treeSize = t.treeSize := by
  unfold encodeFrame at h
  constructor
  · rw [h, hst.frame]
    simp [raiseError, outWrite, BitVec.ofNat_add, List.append_assoc]
  · rw [h]
    exact ⟨rfl, rfl, rfl, rfl, rfl, rfl⟩

theorem rebuildFrame_out {s u : State} (f : rebuildFrame (readDump (headerState s)) u) :
    u.out = s.out ∧ u.result = s.result ∧ u.err = s.err := by
  unfold rebuildFrame at f; rw [f]; simp

theorem decodeFrame_frame {s u v : State} {xs : List Byte} (hf : rebuildFrame (readDump (headerState s)) u)
    (h : decodeFrame u v xs) :
   codecFrame .decode s v := by
  unfold rebuildFrame at hf
  unfold decodeFrame at h
  rw [hf] at h
  show _ = _
  conv_lhs => rw [h]
  rw [h]
  rfl

theorem codecFrame_result {s v : State} (h : codecFrame .decode s v) (w : Word) :
    codecFrame .decode s (setResult w v) := by
  have h' : v = _ := h
  show _ = _
  conv_lhs => rw [h']
  rfl

theorem codecFrame_raise {s v : State} (h : codecFrame .decode s v) (o : BitVec 8) (c : Cause) :
    codecFrame .decode s (raiseError o c v) := by
  have h' : v = _ := h
  show _ = _
  conv_lhs => rw [h']
  rfl

/-- The header fields of a container at the head of IN (R100 to R105). -/
theorem containerHead_input {s : State} {perms : BitVec 16} {n : Nat} {tr : Option CodeTree} {payload : List Byte}
   (hn : n < 2 ^ 64) (hl : (dumpBytesOf s.cfg tr).length ≤ 767) (h : inRest s = containerHead s.cfg perms n tr ++ payload) :
   inRest s = leBytes 4 s.cfg.magic.toNat ++ leBytes 2 perms.toNat ++
      leBytes 2 (BitVec.ofNat 16 (dumpBytesOf s.cfg tr).length).toNat ++ leBytes 8 (BitVec.ofNat 64 n).toNat ++ (dumpBytesOf s.cfg tr ++ payload) := by
  rw [h]
  unfold containerHead
  have h1 : (BitVec.ofNat 16 (dumpBytesOf s.cfg tr).length).toNat = (dumpBytesOf s.cfg tr).length := by
    rw [BitVec.toNat_ofNat]; exact Nat.mod_eq_of_lt (by omega)
  have h2 : (BitVec.ofNat 64 n).toNat = n := by rw [BitVec.toNat_ofNat]; exact Nat.mod_eq_of_lt hn
  rw [h1, h2, List.append_assoc]

/-- A property that the body keeps and that raising keeps holds of what exec leaves. -/
theorem exec_frame {i : Instr} {s t : State} {P : State → Prop} (hk : Keeps P (commandBody i s))
    (hr : ∀ c u, P u → P (raiseError (opcode i) c u)) (h : exec i s = .next t) :
    P t := by
  rcases exec_next h with e | ⟨c, u, e, rfl⟩
  · exact hk.onOk _ _ e
  · exact hr _ _ (hk.onRaised _ _ e)

theorem flush_not_raised (s : State) (c u) : flushWriter s ≠ .raised c u := by
  unfold flushWriter; split
  · split <;> (intro h; cases h)
  · intro h; cases h

theorem readBit_not_raised (s : State) (c u) : readBit s ≠ .raised c u := by
  have ht : ∀ v c u, takeBit v ≠ .raised c u := by
    intro v c u; unfold takeBit; split <;> (intro h; cases h)
  unfold readBit; split
  · split
    · intro h; cases h
    · exact ht _ _ _
  · exact ht _ _ _

theorem decodeBits_cause (t : CodeTree) :
    ∀ (bs : List Bool) (n : Nat) (cur : CodeTree) {c : Cause}, (t.decodeBits bs n cur).2 = some c →
      c = .payloadShort ∨ c = .absentChild := by
  intro bs
  induction bs with
  | nil => intro n cur c h; cases n with
    | zero => rw [decodeBits_zero] at h; cases h
    | succ n => rw [decodeBits_nil] at h; cases h; exact .inl rfl
  | cons b bs ih =>
    intro n cur c h
    cases n with
    | zero => rw [decodeBits_zero] at h; cases h
    | succ n =>
      cases t with
      | leaf x =>
        rw [decodeBits_leaf] at h
        split at h
        · cases h; exact .inr rfl
        · exact ih _ _ h
      | node l r =>
        cases cur with
        | leaf x => simp only [CodeTree.decodeBits] at h; cases h; exact .inr rfl
        | node cl cr =>
          rw [decodeBits_node] at h
          cases hx : (if b then cr else cl) with
          | leaf x => rw [hx] at h; simp only [decodeAt] at h; exact ih _ _ h
          | node a d => rw [hx] at h; simp only [decodeAt] at h; exact ih _ _ h

/-- What the serializer walk leaves unchanged (R152). -/
theorem postDump_frame :
    ∀ (n : Nat) (i : NodeIx) (k : Nat) (s t : State) (k' : Nat), postDump n i k s = .ok k' t → k ≤ 767 →
    k ≤ k' ∧ k' ≤ 767 ∧ ∀ a, a < k ∨ k' ≤ a → storeRead 0#8 t.dump a = storeRead 0#8 s.dump a := by
  intro n
  induction n with
  | zero => intro i k s t k' h; cases h
  | succ n ih =>
    intro i k s t k' h hk
    unfold postDump at h
    split at h
    · cases h
    · split at h
      · obtain ⟨_, u, h1, h⟩ := bind_eq_ok.1 h
        obtain ⟨_, v, h2, h⟩ := bind_eq_ok.1 h
        obtain ⟨b1, rfl⟩ := dumpPut_eq_ok.1 h1
        obtain ⟨b2, rfl⟩ := dumpPut_eq_ok.1 h2
        cases h
        have hm : maxTreeSize = 767 := rfl
        refine ⟨by omega, by omega, ?_⟩
        intro a ha
        simp only []
        rw [storeRead_write_ne _ _ _ (by omega), storeRead_write_ne _ _ _ (by omega)]
      · obtain ⟨k1, u, h1, h⟩ := bind_eq_ok.1 h
        obtain ⟨k2, v, h2, h⟩ := bind_eq_ok.1 h
        obtain ⟨_, w, h3, h⟩ := bind_eq_ok.1 h
        obtain ⟨b1, rfl⟩ := dumpPut_eq_ok.1 h3
        cases h
        obtain ⟨c1, c2, c3⟩ := ih _ _ _ _ _ h1 hk
        obtain ⟨d1, d2, d3⟩ := ih _ _ _ _ _ h2 c2
        have hm : maxTreeSize = 767 := rfl
        refine ⟨by omega, by omega, ?_⟩
        intro a ha
        simp only []
        rw [storeRead_write_ne _ _ _ (by omega), d3 a (by omega), c3 a (by omega)]

theorem postDump_not_raised : ∀ (n : Nat) (i : NodeIx) (k : Nat) (s : State) (c u), postDump n i k s ≠ .raised c u := by
  have hd : ∀ k b s c u, dumpPut k b s ≠ .raised c u := by
    intro k b s c u; unfold dumpPut; split <;> (intro h; cases h)
  intro n
  induction n with
  | zero => intro i k s c u h; cases h
  | succ n ih =>
    intro i k s c u h
    unfold postDump at h
    split at h
    · cases h
    · split at h
      · rcases bind_eq_raised.1 h with h | ⟨_, _, _, h⟩
        · exact hd _ _ _ _ _ h
        · rcases bind_eq_raised.1 h with h | ⟨_, _, _, h⟩
          · exact hd _ _ _ _ _ h
          · cases h
      · rcases bind_eq_raised.1 h with h | ⟨_, _, _, h⟩
        · exact ih _ _ _ _ _ h
        · rcases bind_eq_raised.1 h with h | ⟨_, _, _, h⟩
          · exact ih _ _ _ _ _ h
          · rcases bind_eq_raised.1 h with h | ⟨_, _, _, h⟩
            · exact hd _ _ _ _ _ h
            · cases h

end Sys2Proof.Machine
end

