-- ==== Sys2Proof/Tests/Slice0.lean ====
section
/-! SUPPORT. Tests of the model on fixed values, each taken from the spec (spec/95_test_vectors.md or the rule named), and for every
statement with hypotheses a concrete state and operands that meet them. -/

namespace Sys2Proof.Tests

open Sys2Proof Sys2Proof.Machine

set_option Elab.async false

/-! ### Small states -/

/-- The test values of the OPEN parameters (spec/95_test_vectors.md). -/
def cfg : Config := ⟨0xBEEFD00D#32, 0x4C#8, 0x49#8⟩

/-- Reset with the test parameters. -/
def base : State := { State.reset with cfg := cfg }

/-- Whether an outcome is a next state with a property. -/
def got (o : Host.Outcome State Fault Refusal) (f : State → Bool) : Bool :=
  match o with
  | .next t => f t
  | .fault _ => false
  | .refused _ => false

theorem next_of_got {o : Host.Outcome State Fault Refusal} {f : State → Bool} (h : got o f = true) :
    ∃ t, o = .next t ∧ f t = true := by
  cases o with
  | next t => exact ⟨t, rfl, h⟩
  | fault _ => cases h
  | refused _ => cases h

/-- FREQ of vector V-B1: 'A' 8 times, 'B' once. -/
def freqAB : Store Freq := [(0x41, 8#64), (0x42, 1#64)]

/-- The state of vector V-B1 before BUILD_TREE. -/
def tableAB : State := { base with freq := freqAB }

/-- The tree of vector V-B1. -/
def treeAB : CodeTree := .node (.leaf 0x42#8) (.leaf 0x41#8)

/-- The state of vector V-B1 after BUILD_TREE and BUILD_CODES. -/
def codedAB : State :=
  { tableAB with
    pool := [(0, ⟨true, 0x41#8, 8#64, nil, nil⟩), (1, ⟨true, 0x42#8, 1#64, nil, nil⟩), (2, ⟨true, 0x00#8, 9#64, 1#9, 0#9⟩)]
    root := 2#9
    leafCount := 2#9
    code := [(0x41, ⟨1#9, 1#256⟩), (0x42, ⟨1#9, 0#256⟩)]
    codesValid := true
    result := 2#32 }

/-- The tree of one leaf of vector V-B5. -/
def codedZ : State := { base with pool := [(0, ⟨true, 0x5A#8, 4#64, nil, nil⟩)], root := 0#9, leafCount := 1#9 }

/-- The input "AAAAAAAAB" of vector V-E1. -/
def inputAB : List Byte := [0x41#8, 0x41#8, 0x41#8, 0x41#8, 0x41#8, 0x41#8, 0x41#8, 0x41#8, 0x42#8]

/-- The container of vector V-E1. -/
def containerAB : List Byte := [
  0x0D#8, 0xD0#8, 0xEF#8, 0xBE#8, 0xA4#8, 0x01#8, 0x05#8, 0x00#8, 0x09#8, 0x00#8, 0x00#8, 0x00#8, 0x00#8, 0x00#8, 0x00#8,
  0x00#8, 0x4C#8, 0x42#8, 0x4C#8, 0x41#8, 0x49#8, 0xFF#8, 0x00#8]

/-- The state of vector V-E1 before ENCODE. -/
def encodeAB : State := { tableAB with inBytes := inputAB, permissions := 0x01A4#16, origSize := 9#64 }

/-- The state of vector V-E1 before DECODE. -/
def decodeAB : State := { base with inBytes := containerAB }

/-- The dump of vector V-S1 in DUMP. -/
def dumpAB : State :=
  { base with dump := [(0, 0x4C#8), (1, 0x42#8), (2, 0x4C#8), (3, 0x41#8), (4, 0x49#8)], treeSize := 5#16 }

/-- A state in error: DECODE's BAD_MAGIC. -/
def failed : State := { base with err := true, error := 0x00410101#32, errLog := [0x00410101#32] }

/-! ### Well-formedness: every check refuses an ill-formed term (R91) -/

theorem test_wf_nodeRead : (Instr.nodeRead 511#16).wf = false ∧ (Instr.nodeRead 510#16).wf = true := by decide
theorem test_wf_codeRead : (Instr.codeRead 256#16).wf = false ∧ (Instr.codeRead 255#16).wf = true := by decide
theorem test_wf_pqInsert : (Instr.pqInsert 511#16).wf = false ∧ (Instr.pqInsert 510#16).wf = true := by decide
theorem test_wf_bwWriteCode : (Instr.bwWriteCode 256#16).wf = false ∧ (Instr.bwWriteCode 255#16).wf = true := by decide
theorem test_wf_none_operand : OperandKind.none.admits 1#16 = false ∧ OperandKind.none.admits 0#16 = true := by decide

/-! ### Decoding: OPCODE in bits 7 to 0, OPERAND in bits 31 to 16 (R90, R92) -/

theorem test_decode_nop : decodeWord 0x00000000#32 = .ok .nop := by decide
theorem test_decode_clearErr : decodeWord 0x00000001#32 = .ok .clearErr := by decide
theorem test_decode_softReset : decodeWord 0x00000002#32 = .ok .softReset := by decide
theorem test_decode_buildTree : decodeWord 0x00000010#32 = .ok .buildTree := by decide
theorem test_decode_buildCodes : decodeWord 0x00000011#32 = .ok .buildCodes := by decide
theorem test_decode_deleteTree : decodeWord 0x00000012#32 = .ok .deleteTree := by decide
theorem test_decode_nodeRead : decodeWord 0x01FE0013#32 = .ok (.nodeRead 510#16) := by decide
theorem test_decode_codeRead : decodeWord 0x00FF0014#32 = .ok (.codeRead 255#16) := by decide
theorem test_decode_serializeTree : decodeWord 0x00000018#32 = .ok .serializeTree := by decide
theorem test_decode_rebuildTree : decodeWord 0x00000019#32 = .ok .rebuildTree := by decide
theorem test_decode_pqClear : decodeWord 0x00000020#32 = .ok .pqClear := by decide
theorem test_decode_pqInsert : decodeWord 0x00020021#32 = .ok (.pqInsert 2#16) := by decide
theorem test_decode_pqExtractMin : decodeWord 0x00000022#32 = .ok .pqExtractMin := by decide
theorem test_decode_bwWriteCode : decodeWord 0x00460030#32 = .ok (.bwWriteCode 0x46#16) := by decide
theorem test_decode_bwFlush : decodeWord 0x00000031#32 = .ok .bwFlush := by decide
theorem test_decode_bwReset : decodeWord 0x00000032#32 = .ok .bwReset := by decide
theorem test_decode_brReset : decodeWord 0x00000038#32 = .ok .brReset := by decide
theorem test_decode_brReadBit : decodeWord 0x00000039#32 = .ok .brReadBit := by decide
theorem test_decode_encode : decodeWord 0x00000040#32 = .ok .encode := by decide
theorem test_decode_decode : decodeWord 0x00000041#32 = .ok .decode := by decide

/-- V-C1, V-C3, V-C4, V-C6, V-C7, V-C8: the words R93 turns down. -/
theorem test_decode_refused :
    decodeWord 0x00000003#32 = .error .illegalOpcode ∧ decodeWord 0x00000110#32 = .error .reservedField ∧
      decodeWord 0x00010000#32 = .error .reservedField ∧ decodeWord 0x01FF0021#32 = .error .badOperand ∧
      decodeWord 0x01000030#32 = .error .badOperand ∧ decodeWord 0x00000142#32 = .error .illegalOpcode := by decide

theorem test_decodeTableWord : decodeTableWord 32 0x00410014 = some (.codeRead 0x41#16) ∧ decodeTableWord 32 3 = none := by decide

/-! ### One step of each command -/

/-- R230's example. -/
theorem test_nop : exec .nop failed = .next failed := rfl

/-- R231's example. -/
theorem test_clearErr : got (exec .clearErr failed) (fun t => !t.err && t.error == 0#32) = true := by decide

/-- R232's example. -/
theorem test_softReset :
    got (exec .softReset codedAB) (fun t => t.root == 0x1FF#9 && pqStatusWord t == 0x00010000#32 && t.error == 0#32) = true := by
  decide

/-- V-B1. -/
theorem test_buildTree :
    got (exec .buildTree tableAB) (fun t => t.result == 2#32 && t.root == 2#9 && t.leafCount == 2#9 && t.pool == codedAB.pool) =
      true := by decide +kernel

/-- V-B9. -/
theorem test_buildTree_overflow :
    got (exec .buildTree { base with freq := [(0, 0xFFFFFFFFFFFFFFFF#64), (1, 1#64)] })
      (fun t => t.error == 0x00102703#32 && statusWord t == 0x11#32 && t.root == 0x1FF#9) = true := by decide +kernel

/-- V-B1: A = "1", B = "0". -/
theorem test_buildCodes :
    got (exec .buildCodes { codedAB with code := [] }) (fun t => t.result == 2#32 && t.code == codedAB.code) = true := by
  decide +kernel

/-- V-S9: the later of two leaves with one symbol wins. -/
theorem test_buildCodes_repeated :
    got (exec .buildCodes { codedAB with pool := [(0, ⟨true, 0x41#8, 0#64, nil, nil⟩), (1, ⟨true, 0x41#8, 0#64, nil, nil⟩),
        (2, ⟨true, 0x00#8, 0#64, 0#9, 1#9⟩)] })
      (fun t => t.result == 1#32 && t.code == [(0x41, ⟨1#9, 1#256⟩)]) = true := by decide +kernel

/-- V-B11. -/
theorem test_deleteTree :
    got (exec .deleteTree codedAB) (fun t => t.root == 0x1FF#9 && t.leafCount == 0#9 && statusWord t == 0x10#32 &&
      t.result == 2#32 && codeAt t 0x41 == ⟨1#9, 1#256⟩ && !(nodeAt t 2).alloc) = true := by decide +kernel

/-- V-B10. -/
theorem test_nodeRead :
    got (exec (.nodeRead 1#16) codedAB) (fun t => t.nodeSym == 0x342#32 && t.nodeLeft == 0x1FF#32 && t.nodeRight == 0x1FF#32 &&
      t.nodeFreq == 1#64) = true := by decide +kernel

/-- R137's example. -/
theorem test_codeRead :
    got (exec (.codeRead 0x41#16) codedAB) (fun t => t.codeLen == 1#9 && portRead 0x080 t == 1#32 && t.result == 1#32) = true := by
  decide +kernel

/-- R152's example. -/
theorem test_serializeTree :
    got (exec .serializeTree codedAB) (fun t => t.dump == dumpAB.dump && t.treeSize == 5#16 && t.result == 5#32) = true := by
  decide +kernel

/-- V-S1. -/
theorem test_rebuildTree :
    got (exec .rebuildTree dumpAB) (fun t => t.root == 2#9 && t.leafCount == 2#9 && t.result == 2#32 &&
      (nodeAt t 0).sym == 0x42#8 && (nodeAt t 1).sym == 0x41#8 && (nodeAt t 2).left == 0#9 && (nodeAt t 2).right == 1#9) =
      true := by decide +kernel

/-- V-S7. -/
theorem test_rebuildTree_leftover :
    got (exec .rebuildTree { dumpAB with treeSize := 4#16 })
      (fun t => t.error == 0x00190401#32 && t.root == 0x1FF#9 && t.leafCount == 0#9) = true := by decide +kernel

/-- R174's example. -/
theorem test_pqClear : got (exec .pqClear { codedAB with pq := [⟨0#9, 8#64⟩] }) (fun t => pqStatusWord t == 0x00010000#32) = true := by
  decide +kernel

/-- V-Q2: an equal key goes behind. -/
theorem test_pqInsert :
    got (exec (.pqInsert 1#16) { codedAB with pq := [⟨0#9, 1#64⟩, ⟨2#9, 9#64⟩] })
      (fun t => t.result == 3#32 && t.pq == [⟨0#9, 1#64⟩, ⟨1#9, 1#64⟩, ⟨2#9, 9#64⟩]) = true := by decide +kernel

/-- V-Q5. -/
theorem test_pqExtractMin_empty :
    got (exec .pqExtractMin codedAB) (fun t => t.error == 0x00222103#32 && t.result == 2#32) = true := by decide

/-- V-Q4. -/
theorem test_pqExtractMin :
    got (exec .pqExtractMin { codedAB with pq := [⟨1#9, 1#64⟩, ⟨0#9, 8#64⟩] })
      (fun t => t.result == 1#32 && t.pq == [⟨0#9, 8#64⟩]) = true := by decide

/-- R193's example. -/
theorem test_bwWriteCode :
    got (exec (.bwWriteCode 0x41#16) codedAB) (fun t => t.bwCount == 1 && t.bwBuf == [(0, 0x01#8)] && t.result == 0#32 &&
      t.out == []) = true := by decide +kernel

/-- V-W3. -/
theorem test_bwWriteCode_no_code : got (exec (.bwWriteCode 0x5A#16) codedAB) (fun t => t.error == 0x00303404#32) = true := by
  decide +kernel

/-- V-W2: eleven pending bits give two bytes. -/
theorem test_bwFlush :
    got (exec .bwFlush { base with bwBuf := [(0, 0x26#8), (1, 0x07#8)], bwCount := 11 })
      (fun t => t.result == 2#32 && t.out == [0x26#8, 0x07#8] && t.bwCount == 0 && t.bwBuf == []) = true := by decide +kernel

/-- R195's example. -/
theorem test_bwReset :
    got (exec .bwReset { base with bwBuf := [(0, 0x01#8)], bwCount := 1 }) (fun t => t.bwCount == 0 && t.bwBuf == []) = true := by
  decide

/-- R198's example. -/
theorem test_brReset :
    got (exec .brReset { base with brBuf := [(0, 0x05#8)], brValid := 4096, brIndex := 10, eos := true })
      (fun t => t.brValid == 0 && t.brIndex == 0 && !t.eos && t.brBuf == []) = true := by decide

/-- V-R1: the first bit of 05. -/
theorem test_brReadBit :
    got (exec .brReadBit { base with inBytes := [0x05#8] }) (fun t => t.result == 1#32 && t.inCount == 1#64 && t.brIndex == 1) =
      true := by decide +kernel

/-- V-R2. -/
theorem test_brReadBit_end :
    got (exec .brReadBit base) (fun t => t.result == 0x80000000#32 && statusWord t == 0x12#32) = true := by decide +kernel

/-- V-E1. -/
theorem test_encode : got (exec .encode encodeAB) (fun t => t.out == containerAB && t.result == 23#32 && statusWord t == 0x1C#32) = true := by
  decide +kernel

/-- V-N2. -/
theorem test_encode_no_code :
    got (exec .encode { encodeAB with freq := [(0x41, 8#64)] }) (fun t => t.error == 0x00403404#32 && t.inCount == 9#64 && t.bwCount == 8) =
      true := by decide +kernel

/-- V-E1. -/
theorem test_decode :
    got (exec .decode decodeAB) (fun t => t.out == inputAB && t.result == 9#32 && t.inCount == 23#64 && statusWord t == 0x14#32) =
      true := by decide +kernel

/-- V-D9: the declared size exceeds what the payload bits give. -/
theorem test_decode_payload_short :
    got (exec .decode { decodeAB with inBytes := containerAB.set 8 0x11#8 }) (fun t => t.error == 0x00411202#32 &&
      t.out == List.replicate 8 0x41#8 ++ List.replicate 8 0x42#8 && statusWord t == 0x17#32) = true := by decide +kernel

/-- R244: a word that is dropped while ERR = 1. -/
theorem test_gate : got (issueCommand 0x00000010#32 failed) (fun t => t == failed) = true := by decide +kernel

/-- A word placed by the model runs as the very next step, from reset: BUILD_TREE of an all-zero table gives NIL (V-B4), ENCODE of
nothing the 16-byte header (V-E2). -/
theorem test_withFetchWord :
    got (step (State.reset.withFetchWord 32 0x00000010)) (fun t => t.result == 0x1FF#32) = true ∧
      got (step (State.reset.withFetchWord 32 0x00000040)) (fun t => t.outCount == 16#64 && t.result == 16#32) = true := by
  decide +kernel

/-! ### Witnesses: states and operands that meet the hypotheses of each statement, clause by clause -/

theorem witness_DecodeOfEncode : (Instr.nodeRead 510#16).wf = true ∧ (Instr.codeRead 255#16).wf = true ∧ Instr.nop.wf = true := by
  decide

theorem witness_DecodedWordEncodesBack :
    decodeWord 0x01FE0021#32 = .ok (.pqInsert 510#16) ∧ decodeWord 0x00000041#32 = .ok .decode := by decide

theorem witness_DecoderAgreesWithOpcodeTable :
    decodeWord 0x00FF0014#32 = .ok (.codeRead 255#16) ∧ decodeWord 0x00000042#32 = .error .illegalOpcode ∧
      decodeWord 0x00000100#32 = .error .reservedField ∧ decodeWord 0x01000014#32 = .error .badOperand := by decide

theorem witness_CommandWordChecks :
    failed.err = true ∧ base.err = false ∧
      (opcodeIllegal 0x03 ∧ opcodeIllegal 0x42 ∧ ¬ opcodeIllegal 0x02 ∧ ¬ opcodeIllegal 0x41) ∧
      rsvdOf 0x00000110#32 ≠ 0#8 ∧
      (¬ opcodeTakesNode 0x10 ∧ ¬ opcodeTakesSym 0x10 ∧ operandOf 0x00010010#32 ≠ 0#16) ∧
      (opcodeTakesNode (opcodeOf 0x01FF0013#32).toNat ∧ 511 ≤ (operandOf 0x01FF0013#32).toNat ∧ rsvdOf 0x01FF0013#32 = 0#8) ∧
      (opcodeTakesSym (opcodeOf 0x01000030#32).toNat ∧ 256 ≤ (operandOf 0x01000030#32).toNat ∧ rsvdOf 0x01000030#32 = 0#8) ∧
      (opcodeTakesNode (opcodeOf 0x01FE0021#32).toNat ∧ (operandOf 0x01FE0021#32).toNat < 511 ∧ rsvdOf 0x01FE0021#32 = 0#8) ∧
      (opcodeTakesSym (opcodeOf 0x00FF0014#32).toNat ∧ (operandOf 0x00FF0014#32).toNat < 256 ∧ rsvdOf 0x00FF0014#32 = 0#8) := by
  refine ⟨by decide, by decide, ?_, by decide, ?_, ?_, ?_, ?_, ?_⟩
  · unfold opcodeIllegal
    exact ⟨by decide, by decide, by decide, by decide⟩
  all_goals simp only [opcodeTakesNode, opcodeTakesSym]
  all_goals exact ⟨by decide, by decide, by decide⟩

/-- The state with one event pending. -/
def pending (e : HostEvent) (s : State) : State := { s with host := [e] }

theorem witness_StepRunsDecodedCommand :
    (pending (.write 0x008 4 0x00020013#32) base).host = [.write 0x008 4 0x00020013#32] ∧
      (pending (.write 0x008 4 0x00020013#32) base).err = false ∧ decodeWord 0x00020013#32 = .ok (.nodeRead 2#16) := by decide

theorem witness_GateDropsCommands :
    (pending (.write 0x008 4 0x00010001#32) failed).err = true ∧
      (pending (.write 0x008 4 0x00000000#32) failed).host = [.write 0x008 4 0x00000000#32] ∧
      (pending (.write 0x008 4 0x00000001#32) failed).host = [.write 0x008 4 0x00000001#32] ∧
      (pending (.write 0x008 4 0x00000002#32) failed).host = [.write 0x008 4 0x00000002#32] ∧
      (pending (.read 0xFFFC 4) failed).host = [.read 0xFFFC 4] ∧ 0xFFFC % 4 = 0 ∧ 0xFFFC < 0x10000 ∧
      (pending (.write 0x028 4 0x1234#32) failed).host = [.write 0x028 4 0x1234#32] ∧ 0x028 ≠ 0x008 := by decide

theorem witness_RaiseRecordsOwnCommand :
    codedAB.err = false ∧ got (exec .pqExtractMin codedAB) (fun t => t.err) = true ∧
      got (exec .pqClear codedAB) (fun t => !t.err) = true := by decide

theorem witness_ErrorRegisterFields : errorOk base ∧ errorOk failed :=
  ⟨Or.inl (by decide), Or.inr ⟨rfl, 0x41#8, .badMagic, by decide⟩⟩

theorem witness_FirstErrorIsKept :
    failed.err = true ∧ got (step failed) (fun t => t == failed) = true ∧
      got (step (pending (.write 0x008 4 0x00000001#32) failed)) (fun t => !t.err) = true ∧
      got (step (pending (.write 0x008 4 0x00000002#32) failed)) (fun t => !t.err) = true ∧
      got (step (pending .hardwareReset failed)) (fun t => !t.err) = true := by decide +kernel

theorem witness_ErrorHistoryIsKept :
    got (step base) (fun t => t.errLog == []) = true ∧
      got (step (pending (.write 0x008 4 0x00000010#32) failed)) (fun t => t.err && t.errLog == failed.errLog) = true ∧
      got (step (pending (.write 0x008 4 0x00000001#32) failed)) (fun t => !t.err && t.errLog == failed.errLog) = true ∧
      got (step (pending (.write 0x008 4 0x00000022#32) base)) (fun t => t.err && t.errLog == [0x00222103#32]) = true := by
  decide +kernel

theorem witness_RegisterBlock :
    (0x068 % 4 = 0 ∧ 0x068 ≤ 0x068 ∧ 0x068 ≤ 0x07C) ∧ (0x7FC % 4 = 0 ∧ 0x0A0 ≤ 0x7FC ∧ 0x7FC ≤ 0x7FC) ∧
      (0x7FC < 0x800 ∧ 0x7FC ≠ 0x024 ∧ 0x7FC ≠ 0x028 ∧ 0x7FC ≠ 0x02C ∧ 0x7FC ≠ 0x030) ∧ portRead 0x09C base = 0#32 ∧
      portRead (0x080 + 4 * 7) { base with codeBits := 1#256 <<< 255 } = 0x80000000#32 := by decide +kernel

theorem witness_FreqWindow :
    portRead (0x804 + 8 * 255) { base with freq := [(255, 0x0000000100000002#64)] } = 1#32 ∧
      freqAt (portWrite (0x800 + 8 * 0) 7#32 base) 0 = 7#64 := by decide +kernel

theorem witness_DumpWindow :
    (191 < 192 ∧ 4 * 191 + 2 < 767) ∧ 4 * 191 + 3 = 767 ∧
      portRead (0x1000 + 4 * 191) (portWrite (0x1000 + 4 * 191) 0x11223344#32 base) = 0x00223344#32 := by decide +kernel

theorem witness_PortAccessForm :
    (pending (.read 0x00C 2) base).host = [.read 0x00C 2] ∧ (pending (.read 0xFFFC 4) base).host = [.read 0xFFFC 4] ∧
      (pending (.write 0x10000 4 0#32) base).host = [.write 0x10000 4 0#32] ∧
      (pending (.write 0x002 4 0#32) base).host = [.write 0x002 4 0#32] := by decide

theorem witness_HostAccessEffect :
    portRead 0x1300 base = 0#32 ∧ (pending (.read 0x12FC 4) base).host = [.read 0x12FC 4] ∧ 0x12FC % 4 = 0 ∧
      (pending (.write 0x008 4 0#32) base).host = [.write 0x008 4 0#32] ∧
      (pending (.write 0x1000 4 0#32) base).host = [.write 0x1000 4 0#32] ∧ 0x1000 ≠ 0x008 := by decide +kernel

theorem witness_PqStatusFields :
    portRead 0x018 base = 0x00010000#32 ∧ ({ base with pq := List.replicate 256 ⟨0#9, 1#64⟩ } : State).pq.length = 256 ∧
      portRead 0x018 { base with pq := List.replicate 256 ⟨0#9, 1#64⟩ } = 0x00020100#32 := by decide +kernel

theorem witness_ResetValues : (pending .hardwareReset codedAB).host = [.hardwareReset] := by decide

theorem witness_ResetMeetsInvariant : encodeAB.cfg.wf ∧ encodeAB.inPos ≤ encodeAB.inBytes.length := by decide

theorem witness_BuildTreeMakesHuffmanTree :
    2 ^ 64 ≤ freqTotal { base with freq := [(0, 0xFFFFFFFFFFFFFFFF#64), (1, 1#64)] } ∧
      (freqTotal tableAB < 2 ^ 64 ∧ (freqSymbols tableAB).length = 2) ∧
      (freqTotal base < 2 ^ 64 ∧ (freqSymbols base).length = 0) ∧
      freqTotal { base with freq := [(0, 0xFFFFFFFFFFFFFFFF#64)] } < 2 ^ 64 := by decide +kernel

/-- The state of V-B1 holds its tree. -/
theorem witness_treeIs : treeIs codedAB treeAB := by
  refine ⟨[1#9, 0#9, 2#9], ⟨[1#9], [0#9], rfl, by decide, by decide, ⟨rfl, ?_, ?_, ?_, ?_⟩, ⟨rfl, ?_, ?_, ?_, ?_⟩⟩, by decide,
    by decide +kernel, by decide, by decide⟩ <;> decide

theorem witness_treeIs_leaf : treeIs codedZ (.leaf 0x5A#8) := by
  refine ⟨[0#9], ⟨rfl, by decide, by decide, by decide, by decide⟩, by decide, by decide +kernel, by decide, by decide⟩

theorem witness_treeEmpty : treeEmpty base := ⟨rfl, rfl, fun _ _ => rfl⟩

theorem witness_BuildCodesAssignsPaths : treeIs codedAB treeAB ∧ treeIs codedZ (.leaf 0x5A#8) ∧ base.root = nil :=
  ⟨witness_treeIs, witness_treeIs_leaf, rfl⟩

theorem witness_CodesArePrefixFree :
    (treeIs codedAB treeAB ∧ 2 ≤ treeAB.leaves.length ∧ ∃ t, exec .buildCodes codedAB = .next t ∧
      (decide ((codeAt t 0x41).len ≠ 0#9) && decide ((codeAt t 0x42).len ≠ 0#9)) = true) ∧
    (freqTotal tableAB < 2 ^ 64 ∧ ∃ t, exec .buildTree tableAB = .next t ∧ (t.pool == codedAB.pool) = true) :=
  ⟨⟨witness_treeIs, by decide, next_of_got (by decide +kernel)⟩, by decide +kernel, next_of_got (by decide +kernel)⟩

theorem witness_HuffmanCodesAreOptimal :
    (freqTotal tableAB < 2 ^ 64 ∧ 2 ≤ (freqSymbols tableAB).length) ∧ got (exec .buildTree tableAB) (fun t =>
      got (exec .buildCodes t) (fun u => u.code == codedAB.code)) = true ∧
    (freqSymbols { base with freq := [(0x5A, 4#64)] }).length = 1 ∧
    got (exec .buildTree { base with freq := [(0x5A, 4#64)] }) (fun t =>
      got (exec .buildCodes t) (fun u => u.code == [(0x5A, ⟨1#9, 0#256⟩)])) = true ∧
    ¬ [false] <+: [true] := by decide +kernel

theorem witness_NodeReadCopiesEntry :
    511 ≤ (511#16).toNat ∧ ((2#16).toNat < 511 ∧ (nodeAt codedAB (2#16).toNat).alloc = true) ∧
      ((510#16).toNat < 511 ∧ (nodeAt codedAB (510#16).toNat).alloc = false) := by decide

theorem witness_codesOk : codesOk base := by
  intro i
  refine ⟨Nat.zero_le _, fun j _ => ?_⟩
  show (0#256).getLsbD j = false
  simp

theorem witness_CodeReadCopiesEntry :
    256 ≤ (256#16).toNat ∧ (255#16).toNat < 256 ∧ codesOk base ∧ (codeAt base (255#16).toNat).len = 0#9 :=
  ⟨by decide, by decide, witness_codesOk, by decide⟩

theorem witness_SerializeTreeWritesDump : treeIs codedAB treeAB ∧ treeIs codedZ (.leaf 0x5A#8) ∧ base.root = nil :=
  ⟨witness_treeIs, witness_treeIs_leaf, rfl⟩

theorem witness_RebuildOfDump :
    dumpAB.cfg.wf ∧ dumpAB.treeSize.toNat ≤ 767 ∧ dumpBytes dumpAB.treeSize.toNat dumpAB = treeAB.dump dumpAB.cfg := by
  decide +kernel

theorem witness_RebuildRollsBack :
    ({ dumpAB with treeSize := 4#16 } : State).err = false ∧ ({ dumpAB with treeSize := 4#16 } : State).treeSize.toNat ≤ 767 ∧
      ∃ t, exec .rebuildTree { dumpAB with treeSize := 4#16 } = .next t ∧ t.err = true :=
  ⟨by decide, by decide, next_of_got (by decide +kernel)⟩

theorem witness_RebuildChecksSize : 767 < ({ base with treeSize := 768#16 } : State).treeSize.toNat := by decide

theorem witness_RebuildAcceptsExactlyDumps :
    (dumpAB.cfg.wf ∧ dumpAB.err = false ∧ dumpAB.treeSize.toNat ≤ 767) ∧ base.treeSize = 0#16 ∧
      got (exec .rebuildTree dumpAB) (fun t => !t.err) = true ∧
      got (exec .rebuildTree { dumpAB with treeSize := 1#16 }) (fun t => t.error == 0x00190601#32) = true ∧
      ({ base with treeSize := 767#16 } : State).treeSize.toNat ≤ 767 ∧
      dumpFault cfg 0 (dumpBytes dumpAB.treeSize.toNat dumpAB) = none := by decide +kernel

/-- R155, R247: each FormatError of the scan, and the first of two that a dump has. -/
theorem witness_dumpFault :
    dumpFault cfg 0 [] = none ∧ dumpFault cfg 0 [0x4C#8] = some .leafRecordCut ∧
      dumpFault cfg 0 [0x4C#8, 0x42#8, 0x49#8, 0x00#8] = some .stackUnderflow ∧
      dumpFault cfg 0 [0x4C#8, 0x42#8, 0x00#8, 0x49#8] = some .badTag ∧
      dumpFault cfg 0 [0x4C#8, 0x42#8, 0x4C#8, 0x41#8] = some .dumpLeftover ∧
      dumpFault cfg 0 [0x4C#8, 0x00#8] = none := by decide +kernel

theorem witness_DumpIsIdempotent : codedAB.cfg.wf ∧ treeIs codedAB treeAB ∧ treeEmpty base :=
  ⟨by decide, witness_treeIs, witness_treeEmpty⟩

theorem witness_PqInsertPlacesNode :
    511 ≤ (511#16).toNat ∧ ((510#16).toNat < 511 ∧ (nodeAt codedAB (510#16).toNat).alloc = false) ∧
      ((nodeAt { codedAB with pq := List.replicate 256 ⟨0#9, 8#64⟩ } (0#16).toNat).alloc = true ∧
        ({ codedAB with pq := List.replicate 256 ⟨0#9, 8#64⟩ } : State).pq.length = 256) ∧
      ((nodeAt codedAB (1#16).toNat).alloc = true ∧ codedAB.pq.length ≠ 256 ∧
        codedAB.pq.Pairwise (fun x y => x.key ≤ y.key)) := by decide +kernel

theorem witness_PqExtractMinTakesHead :
    base.pq = [] ∧ ({ codedAB with pq := [⟨1#9, 1#64⟩, ⟨0#9, 8#64⟩] } : State).pq = ⟨1#9, 1#64⟩ :: [⟨0#9, 8#64⟩] ∧
      ([⟨1#9, 1#64⟩, ⟨0#9, 8#64⟩] : List PqEntry).Pairwise (fun x y => x.key ≤ y.key) := by decide

theorem bufBit_nil (k : Nat) : bufBit [] k = false := by simp [bufBit, storeRead]

theorem witness_writerOk (s : State) (h1 : s.bwCount = 0) (h2 : s.bwBuf = []) : writerOk s :=
  ⟨by rw [h1]; decide, fun k _ => by rw [h2]; exact bufBit_nil k⟩

/-- A writer one bit short of a full block, all its bits 0. -/
theorem witness_writerOk_full : writerOk { codedAB with bwCount := 32767 } := ⟨by decide, fun k _ => bufBit_nil k⟩

theorem witness_BwWriteCodeAppendsCode :
    256 ≤ (256#16).toNat ∧ ((255#16).toNat < 256 ∧ (codeAt codedAB (255#16).toNat).len = 0#9) ∧
      ((0x41#16).toNat < 256 ∧ (codeAt codedAB (0x41#16).toNat).len ≠ 0#9 ∧ writerOk codedAB) ∧
      writerOk { codedAB with bwCount := 32767 } :=
  ⟨by decide, by decide, ⟨by decide, by decide, witness_writerOk _ rfl rfl⟩, witness_writerOk_full⟩

theorem witness_BwFlushSendsPendingBits : writerOk base ∧ base.bwCount = 0 ∧ writerOk { codedAB with bwCount := 32767 } :=
  ⟨witness_writerOk _ rfl rfl, rfl, witness_writerOk_full⟩

theorem witness_BitWriterLaw : writerOk base ∧ base.bwCount = 0 := ⟨witness_writerOk _ rfl rfl, rfl⟩

theorem witness_BrReadBitReturnsNextBit :
    readerOk { base with inBytes := [0x05#8] } ∧
      readerBits { base with inBytes := [0x05#8] } = true :: [false, true, false, false, false, false, false] ∧
      readerOk base ∧ readerBits base = [] ∧
      readerOk { base with brValid := 4096, brIndex := 32767 } ∧
      ({ base with brValid := 4096, brIndex := 32767 } : State).brIndex < 4096 * 8 := by
  unfold readerOk
  decide +kernel

theorem witness_BitReaderLaw : base.brValid = 0 ∧ base.brIndex = 0 ∧ 8 ≤ 8 * (inRest { base with inBytes := [0x05#8] }).length := by
  decide

theorem witness_EncodeWritesContainer :
    freqTotal encodeAB < 2 ^ 64 ∧ encodeAB.origSize.toNat ≤ (inRest encodeAB).length ∧
      ∀ x ∈ (inRest encodeAB).take encodeAB.origSize.toNat, freqAt encodeAB x.toNat ≠ 0#64 := by decide +kernel

theorem witness_EncodeErrors :
    2 ^ 64 ≤ freqTotal { encodeAB with freq := [(0, 0xFFFFFFFFFFFFFFFF#64), (1, 1#64)] } ∧
      (freqTotal { encodeAB with origSize := 10#64 } < 2 ^ 64 ∧ 9 < ({ encodeAB with origSize := 10#64 } : State).origSize.toNat ∧
        9 = (inRest { encodeAB with origSize := 10#64 }).length ∧
        ∀ x ∈ (inRest { encodeAB with origSize := 10#64 }).take 9, freqAt { encodeAB with origSize := 10#64 } x.toNat ≠ 0#64) ∧
      (freqTotal { encodeAB with freq := [(0x41, 8#64)] } < 2 ^ 64 ∧ 8 < encodeAB.origSize.toNat ∧
        (∀ x ∈ (inRest encodeAB).take 8, freqAt { encodeAB with freq := [(0x41, 8#64)] } x.toNat ≠ 0#64) ∧
        (inRest encodeAB)[8]? = some 0x42#8 ∧ freqAt { encodeAB with freq := [(0x41, 8#64)] } 0x42 = 0#64) := by
  decide +kernel

/-- R211, R216: NO_CODE for the ninth byte, after header, dump and eight 1-bit codes. -/
theorem witness_EncodeErrors_noCode :
    ∃ t, exec .encode { encodeAB with freq := [(0x41, 8#64)] } = .next t ∧ (t.error == 0x00403404#32 && t.bwCount == 8 &&
      t.out.length == 18 && t.treeSize == 2#16 && t.dump == [(0, 0x4C#8), (1, 0x41#8)]) = true :=
  next_of_got (by decide +kernel)

theorem witness_ContainerSizeLaw :
    (encodeAB.err = false ∧ ∃ t, exec .encode encodeAB = .next t ∧ (!t.err) = true) ∧
      (0 < (freqSymbols encodeAB).length ∧
        ∀ i < 256, (freqAt encodeAB i).toNat = ((inRest encodeAB).take encodeAB.origSize.toNat).count (BitVec.ofNat 8 i)) ∧
      ((freqSymbols base).length = 0 ∧ ∃ t, exec .encode base = .next t ∧ (!t.err) = true) :=
  ⟨⟨by decide, next_of_got (by decide +kernel)⟩, by decide +kernel, by decide +kernel, next_of_got (by decide +kernel)⟩

theorem witness_DecodeOfContainer :
    (decodeAB.cfg.wf ∧ decodeAB.err = false ∧ 9 < 2 ^ 64 ∧ (some treeAB) ≠ none ∧
      (dumpBytesOf decodeAB.cfg (some treeAB)).length ≤ 767 ∧
      inRest decodeAB = containerHead decodeAB.cfg 0x01A4#16 9 (some treeAB) ++ [0xFF#8, 0x00#8]) ∧
      decodeWith (some treeAB) (unpackBits [0xFF#8, 0x00#8]) 9 = (inputAB, none) ∧
      (decodeWith (some treeAB) (unpackBits [0xFF#8, 0x00#8]) 17).2 = some .payloadShort ∧
      (decodeWith (some (.leaf 0x5A#8)) [false, true] 2).2 = some .absentChild := by decide +kernel

/-- R222: the payload bits read, and R220's example (IN_COUNT = 23). -/
theorem witness_bitsRead :
    bitsReadWith (some treeAB) (unpackBits [0xFF#8, 0x00#8]) 9 = 9 ∧
      bitsReadWith (some treeAB) (unpackBits [0xFF#8, 0x00#8]) 17 = 16 ∧
      bitsReadWith (some (.leaf 0x5A#8)) [false, true, false] 3 = 2 ∧ bitsReadWith none [true] 0 = 0 ∧
      got (exec .decode decodeAB) (fun t => t.inCount == 23#64 && t.inPos == 23 && !t.eos) = true := by decide +kernel

theorem witness_DecodeErrorsBeforeOutput :
    decodeAB.err = false ∧ decodeAB.cfg.wf ∧ (inRest { decodeAB with inBytes := containerAB.take 15 }).length < 16 ∧
      (16 ≤ (inRest { decodeAB with inBytes := containerAB.set 0 0x0E#8 }).length ∧
        BitVec.ofNat 32 (rdle ((inRest { decodeAB with inBytes := containerAB.set 0 0x0E#8 }).take 4)) ≠ decodeAB.cfg.magic) ∧
      (inRest { decodeAB with inBytes := containerAB.set 7 0x03#8 } = leBytes 4 cfg.magic.toNat ++ leBytes 2 0x01A4 ++
        leBytes 2 0x0305 ++ leBytes 8 9 ++ containerAB.drop 16 ∧ 767 < 0x0305) ∧
      (inRest { decodeAB with inBytes := containerAB.take 20 } = leBytes 4 cfg.magic.toNat ++ leBytes 2 0x01A4 ++
        leBytes 2 5 ++ leBytes 8 9 ++ (containerAB.drop 16).take 4 ∧ ((containerAB.drop 16).take 4).length < 5) ∧
      (inRest { decodeAB with inBytes := (containerAB.take 16).set 6 0x00#8 } = leBytes 4 cfg.magic.toNat ++ leBytes 2 0x01A4 ++
        leBytes 2 0 ++ leBytes 8 9 ++ [] ∧ 0 < 9) := by decide +kernel

/-- No tree's dump begins with a byte that is no tag, so the clause on malformed dumps has inputs. -/
theorem witness_DecodeErrorsBeforeOutput_scan :
    inRest { decodeAB with inBytes := (containerAB.take 16).set 6 0x01#8 ++ [0x00#8] } = leBytes 4 cfg.magic.toNat ++
        leBytes 2 0x01A4 ++ leBytes 2 1 ++ leBytes 8 9 ++ [0x00#8] ∧
      dumpFault decodeAB.cfg 0 ([0x00#8].take 1) = some .badTag ∧
      ¬ ∃ tr : CodeTree, tr.dump decodeAB.cfg = [0x00#8].take 1 := by
  refine ⟨by decide +kernel, by decide +kernel, fun ⟨tr, h⟩ => ?_⟩
  have hl := congrArg List.length h
  cases tr with
  | leaf x => simp [CodeTree.dump] at hl
  | node l r =>
    have h1 := dump_length decodeAB.cfg l
    have h2 := dump_length decodeAB.cfg r
    have h3 := leaves_pos l
    have h4 := leaves_pos r
    simp only [CodeTree.dump, List.length_append, List.length_cons, List.length_nil, List.length_take] at hl
    omega

theorem witness_RoundTrip :
    encodeAB.cfg.wf ∧ encodeAB.err = false ∧
      (∃ t, exec .encode encodeAB = .next t ∧ (!t.err && t.out == encodeAB.out ++ containerAB) = true) ∧
      decodeAB.cfg = encodeAB.cfg ∧ decodeAB.err = false ∧ inRest decodeAB = containerAB :=
  ⟨by decide, by decide, next_of_got (by decide +kernel), by decide, by decide, by decide⟩

/-- The invariant holds of a state with the test parameters and input waiting. -/
theorem witness_Inv : Inv { base with inBytes := inputAB } := inv_applyReset (s := { base with inBytes := inputAB }) (by decide) (by decide)

theorem witness_StepKeepsMemories : memoriesOk { base with inBytes := inputAB } ∧
    got (step (pending (.write 0x1000 4 1#32) { base with inBytes := inputAB })) (fun t => t.dump == [(0, 1#8)]) = true :=
  ⟨witness_Inv.memories, by decide +kernel⟩

theorem witness_StepKeepsInvariant : Inv { base with inBytes := inputAB } ∧
    got (step { base with inBytes := inputAB }) (fun t => t == { base with inBytes := inputAB }) = true :=
  ⟨witness_Inv, by decide +kernel⟩

theorem witness_CommandsComplete : Inv { base with inBytes := inputAB } := witness_Inv

theorem witness_UnreachableCauses : Inv { base with inBytes := inputAB } ∧ base.err = false ∧
    got (exec .pqExtractMin { base with inBytes := inputAB }) (fun t => t.err && t.error.extractLsb' 8 8 == 0x21#8) = true :=
  ⟨witness_Inv, rfl, by decide +kernel⟩

theorem witness_EngineFrame :
    got (exec .deleteTree codedAB) (fun t => t.root == nil) = true ∧ got (exec .buildTree tableAB) (fun t => t.root == 2#9) = true := by
  decide +kernel

theorem witness_SerializerFrame :
    (∃ t, exec .serializeTree codedAB = .next t ∧ (t.treeSize == 5#16) = true) ∧ 5 ≤ 766 ∧
      got (exec .rebuildTree dumpAB) (fun t => t.root == 2#9) = true :=
  ⟨next_of_got (by decide +kernel), by decide, by decide +kernel⟩

theorem witness_QueueAndBitFrame :
    got (exec .bwFlush base) (fun t => t.result == 0#32) = true ∧ got (exec .brReadBit base) (fun t => t.eos) = true := by
  decide +kernel

theorem witness_CodecFrame :
    (∃ t, exec .decode decodeAB = .next t ∧ (t.out == inputAB) = true) ∧ rdle (((inRest decodeAB).drop 6).take 2) ≤ 5 ∧
      767 < rdle (((inRest { decodeAB with inBytes := containerAB.set 7 0x03#8 }).drop 6).take 2) ∧
      (∃ t, exec .encode encodeAB = .next t ∧ (t.treeSize == 5#16 && !t.err) = true) ∧
      ∃ t, exec .encode { encodeAB with freq := [(0x41, 8#64)] } = .next t ∧ (t.treeSize == 2#16 && t.err) = true :=
  ⟨next_of_got (by decide +kernel), by decide +kernel, by decide +kernel, next_of_got (by decide +kernel),
    next_of_got (by decide +kernel)⟩

theorem witness_OutOnlyGrows :
    got (step (pending (.attachIn [0x01#8]) base)) (fun t => t.inBytes == [0x01#8]) = true ∧
      got (step (pending (.write 0x008 4 0x00000040#32) base)) (fun t => t.out.length == 16) = true := by decide +kernel

end Sys2Proof.Tests
end

section
/-! PROOF. PQ_STATUS (spec/10_state.md R40): the word bit by bit, and the fields read off it. -/

namespace Sys2Proof.Machine

open Sys2Proof

theorem portRead_pqStatus (s : State) : portRead 0x018 s = pqStatusWord s :=
  portRead_reg .pqStatus (by decide) s

@[simp] theorem pqEmptyFlag_eq_true (s : State) : pqEmptyFlag s = true ↔ s.pq.length = 0 := decide_eq_true_iff

@[simp] theorem pqFullFlag_eq_true (s : State) : pqFullFlag s = true ↔ s.pq.length = 256 := decide_eq_true_iff

/-- SIZE, EMPTY and FULL do not overlap: a bit of PQ_STATUS is a bit of the length, one of the flags, or 0. -/
theorem pqStatusWord_getLsbD (s : State) (k : Nat) :
    (pqStatusWord s).getLsbD k =
      (decide (k < 9) && s.pq.length.testBit k || decide (k = 16) && pqEmptyFlag s || decide (k = 17) && pqFullFlag s) := by
  have size : ((BitVec.ofNat 9 s.pq.length).setWidth 32).getLsbD k = (decide (k < 9) && s.pq.length.testBit k) := by
    rw [BitVec.getLsbD_setWidth, BitVec.getLsbD_ofNat, ← Bool.and_assoc, ← Bool.decide_and,
      decide_eq_decide.mpr (show k < 32 ∧ k < 9 ↔ k < 9 by omega)]
  have empty : (k = 16 ∧ k < 32) ↔ k = 16 := by omega
  have full : (k = 17 ∧ k < 32) ↔ k = 17 := by omega
  simp only [pqStatusWord, BitVec.getLsbD_or, flagBit_getLsbD, size, empty, full]

theorem pqStatusWord_size (s : State) (h : s.pq.length ≤ 256) :
    ((pqStatusWord s).extractLsb' 0 9).toNat = s.pq.length := by
  have field : (pqStatusWord s).extractLsb' 0 9 = BitVec.ofNat 9 s.pq.length := by
    apply BitVec.eq_of_getLsbD_eq
    intro i hi
    rw [BitVec.getLsbD_extractLsb', pqStatusWord_getLsbD, BitVec.getLsbD_ofNat, Nat.zero_add]
    simp [hi, show i ≠ 16 by omega, show i ≠ 17 by omega]
  rw [field, BitVec.toNat_ofNat, Nat.mod_eq_of_lt (by omega)]

theorem pqStatusWord_empty (s : State) : (pqStatusWord s).getLsbD 16 = true ↔ s.pq.length = 0 := by
  rw [pqStatusWord_getLsbD]
  simp

theorem pqStatusWord_full (s : State) : (pqStatusWord s).getLsbD 17 = true ↔ s.pq.length = 256 := by
  rw [pqStatusWord_getLsbD]
  simp

theorem pqStatusWord_reserved (s : State) (k : Nat) (hk : 9 ≤ k ∧ k < 16 ∨ 18 ≤ k) :
    (pqStatusWord s).getLsbD k = false := by
  simp [pqStatusWord_getLsbD, show ¬ k < 9 by omega, show k ≠ 16 by omega, show k ≠ 17 by omega]

/-- Settles O19: each field is read off the bits of PQ_STATUS; the reset value is the empty queue's word. -/
theorem pqStatusFields : Obligations.PqStatusFields := by
  unfold Obligations.PqStatusFields
  simp only [portRead_pqStatus]
  exact ⟨fun s h => ⟨pqStatusWord_size s h, pqStatusWord_empty s, pqStatusWord_full s, pqStatusWord_reserved s⟩, by decide⟩

end Sys2Proof.Machine
end

section
/-! PROOF. The host port (spec/20_memory.md R60, R62, R63): the FREQ window, the DUMP window lane by lane, and the form of the
accesses that are refused. -/

namespace Sys2Proof.Machine

open Sys2Proof

/-! ### The FREQ window -/

theorem portRead_freqLow (s : State) {i : Nat} (hi : i < 256) : portRead (0x800 + 8 * i) s = lowWord (freqAt s i) := by
  simp only [portRead, placeOf_freqLow i hi]

theorem portRead_freqHigh (s : State) {i : Nat} (hi : i < 256) : portRead (0x804 + 8 * i) s = highWord (freqAt s i) := by
  simp only [portRead, placeOf_freqHigh i hi]

theorem portWrite_freqLow (s : State) (v : Word) {i : Nat} (hi : i < 256) :
    portWrite (0x800 + 8 * i) v s = setFreq i (withLow (freqAt s i) v) s := by
  simp only [portWrite, placeOf_freqLow i hi]

theorem portWrite_freqHigh (s : State) (v : Word) {i : Nat} (hi : i < 256) :
    portWrite (0x804 + 8 * i) v s = setFreq i (withHigh (freqAt s i) v) s := by
  simp only [portWrite, placeOf_freqHigh i hi]

/-- A write of one entry of FREQ: its value there, every other entry and the rest of the state as before. -/
theorem setFreq_effect (i : Nat) (f : Freq) (s : State) :
    setFreq i f s = { s with freq := (setFreq i f s).freq } ∧
      freqAt (setFreq i f s) i = f ∧ ∀ j, j ≠ i → freqAt (setFreq i f s) j = freqAt s j :=
  ⟨rfl, by rw [freqAt_setFreq, if_pos rfl], fun j hj => by rw [freqAt_setFreq, if_neg hj]⟩

/-- Settles O14: both words of an entry are that entry's halves, and a write of either is a write of that entry alone. -/
theorem freqWindow : Obligations.FreqWindow := fun s v _ hi =>
  ⟨portRead_freqLow s hi, portRead_freqHigh s hi,
    ⟨_, portWrite_freqLow s v hi, setFreq_effect _ _ _⟩, ⟨_, portWrite_freqHigh s v hi, setFreq_effect _ _ _⟩⟩

/-! ### The DUMP window -/

theorem portRead_dumpWord (s : State) {k : Nat} (hk : k < 192) : portRead (0x1000 + 4 * k) s = dumpWordRead s k := by
  simp only [portRead, placeOf_dump k hk]

theorem portWrite_dumpWord (s : State) (v : Word) {k : Nat} (hk : k < 192) :
    portWrite (0x1000 + 4 * k) v s = dumpWordWrite k v s := by
  simp only [portWrite, placeOf_dump k hk]

theorem dumpLane_of_lt (s : State) {i : Nat} (h : i < 767) : dumpLane s i = storeRead 0#8 s.dump i := if_pos h

/-- The byte DUMP[767] does not exist (R63). -/
theorem dumpLane_767 (s : State) : dumpLane s 767 = 0#8 := rfl

theorem dumpWordRead_lane (s : State) (k : Nat) {j : Nat} (hj : j < 4) :
    (dumpWordRead s k).extractLsb' (8 * j) 8 = dumpLane s (4 * k + j) := by
  obtain ⟨lane0, lane1, lane2, lane3⟩ := byte_lanes (dumpLane s (4 * k + 3)) (dumpLane s (4 * k + 2))
    (dumpLane s (4 * k + 1)) (dumpLane s (4 * k))
  match j, hj with
  | 0, _ => exact lane0
  | 1, _ => exact lane1
  | 2, _ => exact lane2
  | 3, _ => exact lane3

/-- What DUMP reads as after a word write: its four lane writes one after another. -/
theorem storeRead_dumpWordWrite (k : Nat) (v : Word) (s : State) (a : Nat) :
    storeRead 0#8 (dumpWordWrite k v s).dump a =
      if a = 4 * k + 3 ∧ 4 * k + 3 < 767 then v.extractLsb' 24 8
      else if a = 4 * k + 2 ∧ 4 * k + 2 < 767 then v.extractLsb' 16 8
      else if a = 4 * k + 1 ∧ 4 * k + 1 < 767 then v.extractLsb' 8 8
      else if a = 4 * k ∧ 4 * k < 767 then v.extractLsb' 0 8
      else storeRead 0#8 s.dump a := by
  simp only [dumpWordWrite, storeRead_laneWrite]

theorem storeRead_dumpWordWrite_lane (k : Nat) (v : Word) (s : State) {j : Nat} (hj : j < 4) (h : 4 * k + j < 767) :
    storeRead 0#8 (dumpWordWrite k v s).dump (4 * k + j) = v.extractLsb' (8 * j) 8 := by
  rw [storeRead_dumpWordWrite]
  match j, hj with
  | 0, _ => rw [if_neg (by omega), if_neg (by omega), if_neg (by omega), if_pos (by omega)]
  | 1, _ => rw [if_neg (by omega), if_neg (by omega), if_pos (by omega)]
  | 2, _ => rw [if_neg (by omega), if_pos (by omega)]
  | 3, _ => rw [if_pos (by omega)]

/-- A word write leaves every byte alone that is outside its word or does not exist. -/
theorem storeRead_dumpWordWrite_other (k : Nat) (v : Word) (s : State) {a : Nat} (h : a < 4 * k ∨ 4 * k + 4 ≤ a ∨ 767 ≤ a) :
    storeRead 0#8 (dumpWordWrite k v s).dump a = storeRead 0#8 s.dump a := by
  rw [storeRead_dumpWordWrite, if_neg (by omega), if_neg (by omega), if_neg (by omega), if_neg (by omega)]

/-- Settles O15: each lane of a word is its byte for reads and for writes, and the lane of DUMP[767] is none. -/
theorem dumpWindow : Obligations.DumpWindow := by
  unfold Obligations.DumpWindow
  intro s v k j hk hj
  rw [portRead_dumpWord s hk, dumpWordRead_lane s k hj]
  refine ⟨dumpLane_of_lt s, fun h => by rw [h, dumpLane_767], _, portWrite_dumpWord s v hk, rfl, ?_, ?_, ?_⟩
  · exact storeRead_dumpWordWrite_lane k v s hj
  · exact fun h => storeRead_dumpWordWrite_other k v s (by omega)
  · exact fun a ha => storeRead_dumpWordWrite_other k v s (by omega)

/-! ### The form of an access -/

/-- A step with an event pending takes that event (R18). -/
theorem step_event {s : State} {e : HostEvent} {es : List HostEvent} (h : s.host = e :: es) :
    step s = runEvent e { s with host := es } := by
  unfold step stepHost
  rw [h]

theorem hostRead_refused_iff (off bytes : Nat) (s : State) :
    hostRead off bytes s = .refused .hostAccessForm ↔ ¬ accessOk off bytes = true := by
  unfold hostRead
  split
  next ok => simp [ok]
  next bad => simp [bad]

/-- A write in form is never refused: at CMD no word is (R93), elsewhere it stores. -/
theorem hostWrite_refused_iff (off bytes : Nat) (v : Word) (s : State) :
    hostWrite off bytes v s = .refused .hostAccessForm ↔ ¬ accessOk off bytes = true := by
  unfold hostWrite
  split
  next ok =>
    split
    · simp [ok, issue_ne_refused]
    · simp [ok]
  next bad => simp [bad]

/-- Settles O16: the step of a pending access is that access, and it is refused exactly when its form is not R60's. -/
theorem portAccessForm : Obligations.PortAccessForm := by
  unfold Obligations.PortAccessForm
  intro s es off bytes v
  rw [← accessOk_iff]
  constructor
  · intro h
    rw [step_event h]
    exact hostRead_refused_iff _ _ _
  · intro h
    rw [step_event h]
    exact hostWrite_refused_iff _ _ _ _

end Sys2Proof.Machine
end

section
/-! PROOF. A CMD write of any word (spec/30_encoding.md R91, R93, R94): the decoder's answer check by check, what issuing makes
of that answer, and the gate. -/

namespace Sys2Proof.Machine

open Sys2Proof

/-! ### The operand ranges -/

@[simp] theorem admits_none (v : BitVec 16) : OperandKind.none.admits v = true ↔ v = 0#16 := by
  simp [OperandKind.admits, ← BitVec.toNat_inj]

@[simp] theorem admits_node (v : BitVec 16) : OperandKind.node.admits v = true ↔ v.toNat < 511 := decide_eq_true_iff

@[simp] theorem admits_sym (v : BitVec 16) : OperandKind.sym.admits v = true ↔ v.toNat < 256 := decide_eq_true_iff

section Row

variable {o : BitVec 8} {k : OperandKind} {mk : BitVec 16 → Instr}

theorem kind_of_takesNode (row : commandOf o = some (k, mk)) (h : opcodeTakesNode o.toNat) : k = .node := by
  obtain ⟨-, -, kind⟩ | ⟨notNode, -, -⟩ | ⟨notNode, -, -⟩ := commandOf_kind row
  · exact kind
  · exact absurd h notNode
  · exact absurd h notNode

theorem kind_of_takesSym (row : commandOf o = some (k, mk)) (h : opcodeTakesSym o.toNat) : k = .sym := by
  obtain ⟨-, notSym, -⟩ | ⟨-, -, kind⟩ | ⟨-, notSym, -⟩ := commandOf_kind row
  · exact absurd h notSym
  · exact kind
  · exact absurd h notSym

theorem kind_of_takesNothing (row : commandOf o = some (k, mk)) (hn : ¬ opcodeTakesNode o.toNat)
    (hs : ¬ opcodeTakesSym o.toNat) : k = .none := by
  obtain ⟨node, -, -⟩ | ⟨-, sym, -⟩ | ⟨-, -, kind⟩ := commandOf_kind row
  · exact absurd node hn
  · exact absurd sym hs
  · exact kind

/-- An operand that meets the range its OPCODE asks for is one its kind admits (R91). -/
theorem admits_of_opcode_range {v : BitVec 16} (row : commandOf o = some (k, mk))
    (hnone : ¬ opcodeTakesNode o.toNat → ¬ opcodeTakesSym o.toNat → v = 0#16)
    (hnode : opcodeTakesNode o.toNat → v.toNat < 511) (hsym : opcodeTakesSym o.toNat → v.toNat < 256) :
    k.admits v = true := by
  obtain ⟨node, -, rfl⟩ | ⟨-, sym, rfl⟩ | ⟨notNode, notSym, rfl⟩ := commandOf_kind row
  · exact (admits_node v).mpr (hnode node)
  · exact (admits_sym v).mpr (hsym sym)
  · exact (admits_none v).mpr (hnone notNode notSym)

theorem exists_row_of_legal (h : ¬ opcodeIllegal o.toNat) : ∃ k mk, commandOf o = some (k, mk) := by
  obtain ⟨⟨k, mk⟩, row⟩ := Option.ne_none_iff_exists'.mp (mt commandOf_none.mp h)
  exact ⟨k, mk, row⟩

end Row

/-! ### The decoder, one equation per check (R93) -/

section Decoder

variable {w : Word} {k : OperandKind} {mk : BitVec 16 → Instr}

theorem decodeWord_illegal (h : opcodeIllegal (opcodeOf w).toNat) : decodeWord w = .error .illegalOpcode := by
  simp only [decodeWord, commandOf_none.mpr h]

theorem decodeWord_rsvd (row : commandOf (opcodeOf w) = some (k, mk)) (h : rsvdOf w ≠ 0#8) :
    decodeWord w = .error .reservedField := by
  simp only [decodeWord, row, if_pos h]

theorem decodeWord_operand_bad (row : commandOf (opcodeOf w) = some (k, mk)) (rsvd : rsvdOf w = 0#8)
    (h : ¬ k.admits (operandOf w) = true) : decodeWord w = .error k.error := by
  simp only [decodeWord, row, if_neg (not_not.mpr rsvd), if_neg h]

theorem decodeWord_operand_ok (row : commandOf (opcodeOf w) = some (k, mk)) (rsvd : rsvdOf w = 0#8)
    (h : k.admits (operandOf w) = true) : decodeWord w = .ok (mk (operandOf w)) := by
  simp only [decodeWord, row, if_neg (not_not.mpr rsvd), if_pos h]

end Decoder

/-! ### Issuing a word -/

section Issue

variable {w : Word} {s : State}

/-- The gate is shut to every word but the three control words (R244). -/
theorem issueCommand_dropped (err : s.err = true) (h0 : w ≠ 0#32) (h1 : w ≠ 1#32) (h2 : w ≠ 2#32) :
    issueCommand w s = .next s := by
  simp [issueCommand, passesGate, err, h0, h1, h2]

theorem issueCommand_ungated (err : s.err = false) : issueCommand w s = decodeAndRun w s := by
  simp [issueCommand, err]

theorem issueCommand_error {e : DecodeError} (err : s.err = false) (h : decodeWord w = .error e) :
    issueCommand w s = .next (raiseError (opcodeOf w) (decodeCause e) s) := by
  simp only [issueCommand_ungated err, decodeAndRun, h]

/-! A raise of one of R93's causes changes the error state alone (R243). -/

theorem issueCommand_illegalOpcode (err : s.err = false) (h : decodeWord w = .error .illegalOpcode) :
    issueCommand w s = .next (withError (usageWord (opcodeOf w) 0x30#32) s) := by
  rw [issueCommand_error err h]
  rfl

theorem issueCommand_reservedField (err : s.err = false) (h : decodeWord w = .error .reservedField) :
    issueCommand w s = .next (withError (usageWord (opcodeOf w) 0x31#32) s) := by
  rw [issueCommand_error err h]
  rfl

theorem issueCommand_badOperand (err : s.err = false) (h : decodeWord w = .error .badOperand) :
    issueCommand w s = .next (withError (usageWord (opcodeOf w) 0x32#32) s) := by
  rw [issueCommand_error err h]
  rfl

theorem issueCommand_ok {i : Instr} (err : s.err = false) (h : decodeWord w = .ok i) : issueCommand w s = exec i s := by
  simp only [issueCommand_ungated err, decodeAndRun, h]

end Issue

/-- Settles O4: the gate by the three control words; with the gate open, each check's outcome is the decoder's answer, taken
in the order OPCODE, RSVD, OPERAND. -/
theorem commandWordChecks : Obligations.CommandWordChecks := by
  unfold Obligations.CommandWordChecks
  intro w s
  refine ⟨fun err => ⟨?nop, ?clearErr, ?softReset, ?dropped⟩, fun err => ⟨?opcode, ?rsvd, ?operand⟩⟩
  case nop => rintro rfl; exact issue_nop s
  case clearErr => rintro rfl; exact issue_clearErr s
  case softReset => rintro rfl; exact issue_softReset s
  case dropped => exact fun ⟨h0, h1, h2⟩ => issueCommand_dropped err h0 h1 h2
  case opcode => exact fun illegal => issueCommand_illegalOpcode err (decodeWord_illegal illegal)
  case rsvd =>
    intro legal rsvd
    obtain ⟨k, mk, row⟩ := exists_row_of_legal legal
    exact issueCommand_reservedField err (decodeWord_rsvd row rsvd)
  case operand =>
    intro legal rsvd
    obtain ⟨k, mk, row⟩ := exists_row_of_legal legal
    have bad := decodeWord_operand_bad row rsvd
    refine ⟨fun notNode notSym nonzero => ?_, fun node big => ?_, fun sym big => ?_, fun hnone hnode hsym => ?_⟩
    · obtain rfl := kind_of_takesNothing row notNode notSym
      exact issueCommand_reservedField err (bad (by simpa using nonzero))
    · obtain rfl := kind_of_takesNode row node
      exact issueCommand_badOperand err (bad (by simpa using big))
    · obtain rfl := kind_of_takesSym row sym
      exact issueCommand_badOperand err (bad (by simpa using big))
    · have admitted := admits_of_opcode_range row hnone hnode hsym
      obtain ⟨-, opcodeEq, operandEq⟩ := commandOf_some row _ admitted
      exact ⟨_, opcodeEq, operandEq, issueCommand_ok err (decodeWord_operand_ok row rsvd admitted)⟩

end Sys2Proof.Machine
end

section
/-! PROOF. The Huffman engine (spec/40_huffman_engine.md): the codes BUILD_CODES stores (R132, R133), their optimality
(R138), DELETE_TREE (R135) and CODE_READ (R137). -/

namespace Sys2Proof.Machine

open Sys2Proof

/-! ### BUILD_CODES -/

section BuildCodes

variable {s u : State}

/-- BUILD_CODES is its body, then RESULT. -/
theorem exec_buildCodes {n : Nat} (body : buildCodesBody s = .ok () u) (count : codeCount u = n) :
    exec .buildCodes s = .next (setResult (BitVec.ofNat 32 n) u) := by
  rw [exec_body, commandBody, body, bind_ok, endCommand_ok, count]

theorem exec_buildCodes_tree {tr : CodeTree} (tree : treeIs s tr) :
    ∃ t, exec .buildCodes s = .next t ∧
      t = { s with code := t.code, codesValid := true, result := BitVec.ofNat 32 tr.symbolCount } ∧ codesAre t tr := by
  obtain ⟨u, body, frame, codes⟩ := buildCodesBody_spec s tr tree
  refine ⟨_, exec_buildCodes body (codeCount_eq codes (treeIs_leaves tree)), ?_, codes⟩
  rw [frame]
  rfl

theorem codeCount_of_codesNone (h : codesNone u) : codeCount u = 0 := by
  unfold codeCount
  rw [List.countP_eq_zero]
  intro i hi
  have blank : codeAt u i = CodeEntry.blank := by
    have := h (BitVec.ofNat 8 i)
    rwa [BitVec.toNat_ofNat, Nat.mod_eq_of_lt (List.mem_range.mp hi)] at this
  rw [blank]
  decide

theorem exec_buildCodes_empty (empty : s.root = nil) :
    ∃ t, exec .buildCodes s = .next t ∧
      t = { s with code := t.code, codesValid := true, result := 0#32 } ∧ codesNone t := by
  have noCodes : codesNone { s with code := [], codesValid := true } := fun _ => rfl
  exact ⟨_, exec_buildCodes (buildCodesBody_empty s empty) (codeCount_of_codesNone noCodes), rfl, noCodes⟩

end BuildCodes

/-- Settles O25: the walk over a held tree stores each leaf's path; the empty tree stores nothing. -/
theorem buildCodesAssignsPaths : Obligations.BuildCodesAssignsPaths := fun _ =>
  ⟨fun _ => exec_buildCodes_tree, exec_buildCodes_empty⟩

/-! ### The codes of the Huffman tree -/

section Optimal

variable {s u : State} {tr : CodeTree}

/-- BUILD_TREE, then BUILD_CODES: the table holds the codes of the Huffman tree of FREQ (R131, R132). -/
theorem codesAre_huffmanTree {t : State} (total : freqTotal s < 2 ^ 64) (built : exec .buildTree s = .next t)
    (coded : exec .buildCodes t = .next u) (nonempty : 0 < (freqSymbols s).length) :
    ∃ tr, huffmanTree s = some tr ∧ codesAre u tr ∧ tr.leaves.length = (freqSymbols s).length := by
  obtain ⟨v, body, -, -, -, -, ⟨absent, -⟩ | ⟨-, -, tr, huffman, tree, leaves⟩⟩ := buildTreeBody_spec s total
  · omega
  · rw [exec_body, commandBody, body, bind_ok, endCommand_ok] at built
    cases built
    have held : treeIs (setResult (v.root.setWidth 32) v) tr := treeIs_congr tree rfl rfl rfl
    obtain ⟨w, coded', -, codes⟩ := exec_buildCodes_tree held
    rw [coded] at coded'
    cases coded'
    exact ⟨tr, huffman, codes, leaves⟩

theorem ofNat_toNat_of_mem {i : Nat} (h : i ∈ freqSymbols s) : (BitVec.ofNat 8 i).toNat = i := by
  rw [BitVec.toNat_ofNat, Nat.mod_eq_of_lt (freqSymbols_lt h)]

theorem len_ne_zero_of_present (huffman : huffmanTree s = some tr) (codes : codesAre u tr)
    (small : tr.leaves.length ≤ alphabet) {i : Nat} (h : i ∈ freqSymbols s) : (codeAt u i).len ≠ 0#9 := by
  have leaf : BitVec.ofNat 8 i ∈ tr.leaves :=
    (huffmanTree_leaves huffman).mem_iff.mpr (List.mem_map.mpr ⟨i, h, rfl⟩)
  have absent := codesAre_length codes small (BitVec.ofNat 8 i)
  rw [ofNat_toNat_of_mem h] at absent
  rw [Ne, absent, ← Ne, ← Option.isSome_iff_ne_none]
  exact (codeOf_isSome tr _).mpr leaf

/-- No present symbol's code begins another's. -/
theorem present_codes_apart (huffman : huffmanTree s = some tr) (codes : codesAre u tr)
    (small : tr.leaves.length ≤ alphabet) (two : 2 ≤ tr.leaves.length) {i j : Nat} (hi : i ∈ freqSymbols s)
    (hj : j ∈ freqSymbols s) (hij : i ≠ j) : ¬ codeList (codeAt u i) <+: codeList (codeAt u j) := by
  have ei := ofNat_toNat_of_mem hi
  have ej := ofNat_toNat_of_mem hj
  have differ : BitVec.ofNat 8 i ≠ BitVec.ofNat 8 j := fun h => hij (by rw [← ei, ← ej, h])
  have apart := codes_apart small codes two differ
  rw [ei, ej] at apart
  exact apart (len_ne_zero_of_present huffman codes small hi) (len_ne_zero_of_present huffman codes small hj)

/-- The lengths of bit lists of which none begins another meet the Kraft inequality. -/
theorem kraft_of_prefixFree {xs : List Nat} (distinct : xs.Nodup) {c : Nat → List Bool}
    (free : ∀ i ∈ xs, ∀ j ∈ xs, i ≠ j → ¬ c i <+: c j) : Kraft (xs.map fun i => (c i).length) := by
  have apart : (xs.map c).Pairwise Apart := by
    rw [List.pairwise_map]
    exact distinct.imp_of_mem fun hi hj hij => ⟨free _ hi _ hj hij, free _ hj _ hi hij.symm⟩
  have bound : ∀ l ∈ xs.map (fun i => (c i).length), l ≤ (xs.map fun i => (c i).length).sum :=
    fun l hl => List.single_le_sum (fun _ _ => Nat.zero_le _) l hl
  refine ⟨_, bound, ?_⟩
  have kraft := kraft_of_apart (xs.map fun i => (c i).length).sum (xs.map c) apart
    (List.forall_mem_map.mpr (List.forall_mem_map.mp bound))
  rwa [List.map_map] at kraft

/-- No choice of bit lists for the present symbols of which none begins another costs less than the Huffman tree. -/
theorem pathCost_le_of_prefixFree (huffman : huffmanTree s = some tr) {c : Nat → List Bool}
    (free : ∀ i ∈ freqSymbols s, ∀ j ∈ freqSymbols s, i ≠ j → ¬ c i <+: c j) :
    tr.pathCost (freqOf s) ≤ ((freqSymbols s).map fun i => (freqAt s i).toNat * (c i).length).sum := by
  obtain ⟨q, length, sorted, weights, joins⟩ := huffmanTree_cost huffman
  have kraft := kraft_of_prefixFree (List.nodup_range.filter _) free
  have least := joinCost_le 256 q ((freqSymbols s).map fun i => ((freqAt s i).toNat, (c i).length)) length sorted
    (by rw [List.map_map]; exact weights.symm) (by rw [List.map_map]; exact kraft)
  rw [cost, List.map_map] at least
  rw [joins]
  exact least

/-- R138's sum for the Huffman tree's table: each leaf's frequency times the length of its code. -/
theorem weightedLength_eq (huffman : huffmanTree s = some tr) (codes : codesAre u tr) :
    ((List.range 256).map fun i => (freqAt s i).toNat * (codeAt u i).len.toNat).sum =
      (tr.codes.map fun p => freqOf s p.1 * p.2.length).sum :=
  (sum_alphabet s fun i => (codeAt u i).len.toNat).trans (table_cost huffman codes)

theorem freqTotal_eq_leaves (huffman : huffmanTree s = some tr) : freqTotal s = (tr.leaves.map (freqOf s)).sum := by
  rw [((huffmanTree_leaves huffman).map _).sum_eq, List.map_map, freqTotal, ← sum_present]
  refine congrArg List.sum (List.map_congr_left fun i hi => ?_)
  exact (freqOf_ofNat (freqSymbols_lt hi)).symm

/-- The lone leaf's code has one bit (R133), so it costs its frequency. -/
theorem lone_leaf_cost (huffman : huffmanTree s = some tr) (one : tr.leaves.length = 1) :
    (tr.codes.map fun p => freqOf s p.1 * p.2.length).sum = freqTotal s := by
  rw [freqTotal_eq_leaves huffman]
  cases tr with
  | leaf x => simp [CodeTree.codes, CodeTree.leaves]
  | node l r =>
    have left := leaves_pos l
    have right := leaves_pos r
    rw [CodeTree.leaves, List.length_append] at one
    omega

end Optimal

/-- Settles O27: the table's sum is the tree's cost, which no lengths that meet the Kraft inequality undercut. -/
theorem huffmanCodesAreOptimal : Obligations.HuffmanCodesAreOptimal := by
  unfold Obligations.HuffmanCodesAreOptimal
  intro s t u total built coded
  refine ⟨fun two => ?several, fun one => ?lone⟩
  case several =>
    obtain ⟨tr, huffman, codes, leaves⟩ := codesAre_huffmanTree total built coded (by omega)
    have small : tr.leaves.length ≤ alphabet := leaves ▸ freqSymbols_length_le s
    have twoLeaves : 2 ≤ tr.leaves.length := leaves ▸ two
    refine ⟨fun i hi j hj => present_codes_apart huffman codes small twoLeaves hi hj, fun c free => ?_⟩
    rw [weightedLength_eq huffman codes, codes_eq_paths twoLeaves]
    exact pathCost_le_of_prefixFree huffman free
  case lone =>
    obtain ⟨tr, huffman, codes, leaves⟩ := codesAre_huffmanTree total built coded (by omega)
    rw [weightedLength_eq huffman codes]
    exact lone_leaf_cost huffman (leaves.trans one)

/-! ### DELETE_TREE -/

theorem exec_deleteTree (s : State) : exec .deleteTree s = .next { releasePool s with codesValid := false } := by
  rw [exec_body, commandBody, endCommand_ok]

theorem deleteTree_idem (s : State) :
    exec .deleteTree { releasePool s with codesValid := false } = .next { releasePool s with codesValid := false } := by
  have commute : releasePool { releasePool s with codesValid := false } =
      { releasePool (releasePool s) with codesValid := false } := rfl
  rw [exec_deleteTree, commute, releasePool_idem]

/-- Settles O28: DELETE_TREE is the release of the pool, and a released pool is released already. -/
theorem deleteTreeReleasesPool : Obligations.DeleteTreeReleasesPool := fun s =>
  ⟨_, exec_deleteTree s, rfl, poolFree_releasePool s, deleteTree_idem s⟩

/-! ### CODE_READ -/

section CodeRead

variable {v : BitVec 16} (s : State)

theorem exec_codeRead_bad (h : 256 ≤ v.toNat) : exec (.codeRead v) s = .next (withError 0x00143204#32 s) := by
  have word : errorWord (opcode (.codeRead v)) .badOperand = 0x00143204#32 := by
    rw [opcode]
    decide
  rw [exec_body, commandBody, symOperand_bad s h, bind_raised, endCommand_raised, raiseError, word, withError]

theorem exec_codeRead_ok (h : v.toNat < 256) :
    exec (.codeRead v) s =
      .next (setResult ((codeAt s v.toNat).len.setWidth 32) (readoutCode (codeAt s v.toNat) s)) := by
  rw [exec_body, commandBody, symOperand_ok s h, bind_ok, endCommand_ok]

/-- R39: bit i of CODE_BITSk is bit 32k + i of the readout. -/
theorem portRead_codeBits_getLsbD {k i : Nat} (hk : k < 8) (hi : i < 32) :
    (portRead (0x080 + 4 * k) s).getLsbD i = s.codeBits.getLsbD (32 * k + i) := by
  rw [portRead_codeBits k hk, BitVec.getLsbD_extractLsb', decide_eq_true hi, Bool.true_and]

variable {s}

theorem bits_zero_of_len_zero (ok : codesOk s) {i : Nat} (h : (codeAt s i).len = 0#9) : (codeAt s i).bits = 0#256 := by
  obtain ⟨-, above⟩ := ok i
  apply BitVec.eq_of_getLsbD_eq
  intro j _
  rw [BitVec.getLsbD_zero]
  exact above j (by simp [h])

end CodeRead

/-- Settles O30: the readout registers take the entry as it stands, and an entry in form has no bit beyond its length. -/
theorem codeReadCopiesEntry : Obligations.CodeReadCopiesEntry := fun _ s =>
  ⟨exec_codeRead_bad s, fun h =>
    ⟨_, exec_codeRead_ok s h, rfl, fun _ hk _ hi => portRead_codeBits_getLsbD _ hk hi,
      fun ok => bits_zero_of_len_zero ok⟩⟩

end Sys2Proof.Machine
end

section
/-! PROOF. The tree serializer (spec/41_tree_serializer.md): a TREE_SIZE out of range (R154), what a failed REBUILD_TREE leaves
(R156), and the round trip of SERIALIZE_TREE and REBUILD_TREE (R159). -/

namespace Sys2Proof.Machine

open Sys2Proof

/-! ### How REBUILD_TREE ends -/

section Rebuild

variable {s : State}

theorem exec_rebuildTree_ok {u : State} (body : rebuildBody s = .ok () u) :
    exec .rebuildTree s = .next (setResult (u.root.setWidth 32) u) := by
  rw [exec_body, commandBody, body, bind_ok, endCommand_ok]

theorem exec_rebuildTree_raised {c : Cause} {u : State} (body : rebuildBody s = .raised c u) :
    exec .rebuildTree s = .next (raiseError 0x19#8 c u) := by
  rw [exec_body, commandBody, body, bind_raised, endCommand_raised, opcode]

theorem rebuildBody_tooLong (h : maxTreeSize < s.treeSize.toNat) : rebuildBody s = .raised .treeSizeRange s := by
  unfold rebuildBody
  rw [if_pos h]

theorem rebuildFrame_err {u : State} (frame : rebuildFrame s u) : u.err = s.err := by
  unfold rebuildFrame at frame
  rw [frame]

/-- A dump that fits DUMP is rebuilt without an error, or it raises one once the pool is released (R155, R156). -/
theorem exec_rebuildTree_cases (h : s.treeSize.toNat ≤ maxTreeSize) :
    (∃ u, exec .rebuildTree s = .next (setResult (u.root.setWidth 32) u) ∧ u.err = s.err) ∨
    (∃ c u, exec .rebuildTree s = .next (raiseError 0x19#8 c u) ∧ rebuildFrame s u ∧ treeEmpty u) := by
  obtain ⟨u, -, body, frame, -⟩ | ⟨u, -, body, frame, -⟩ | ⟨c, u, body, frame, empty, -⟩ := rebuildBody_spec s h
  · exact .inl ⟨u, exec_rebuildTree_ok body, rebuildFrame_err frame⟩
  · exact .inl ⟨u, exec_rebuildTree_ok body, rebuildFrame_err frame⟩
  · exact .inr ⟨c, u, exec_rebuildTree_raised body, frame, empty⟩

theorem exec_rebuildTree_dump {tr : CodeTree} (tags : s.cfg.wf) (fits : s.treeSize.toNat ≤ maxTreeSize)
    (dump : dumpBytes s.treeSize.toNat s = tr.dump s.cfg) : ∃ t, exec .rebuildTree s = .next t ∧ treeIs t tr := by
  obtain ⟨u, body, -, tree, -⟩ := rebuildBody_dump s tr tags dump fits
  exact ⟨_, exec_rebuildTree_ok body, treeIs_congr tree rfl rfl rfl⟩

theorem dump_ne_nil (c : Config) (tr : CodeTree) : tr.dump c ≠ [] := by
  cases tr <;> simp [CodeTree.dump]

/-- No bytes are the dump of no tree and hold no error, so REBUILD_TREE makes the empty tree of them (R155). -/
theorem exec_rebuildTree_noBytes (h : s.treeSize = 0#16) : ∃ t, exec .rebuildTree s = .next t ∧ treeEmpty t := by
  have zero : s.treeSize.toNat = 0 := by rw [h]; rfl
  have noBytes : dumpBytes s.treeSize.toNat s = [] := List.eq_nil_of_length_eq_zero (by rw [dumpBytes_length, zero])
  obtain ⟨-, tr, -, -, -, dump, -⟩ | ⟨u, -, body, -, empty⟩ | ⟨c, -, -, -, -, -, fault⟩ :=
    rebuildBody_spec s (by rw [zero]; exact Nat.zero_le _)
  · exact absurd (dump.trans noBytes) (dump_ne_nil _ tr)
  · exact ⟨_, exec_rebuildTree_ok body, treeEmpty_congr empty rfl rfl rfl⟩
  · rw [noBytes, dumpFault_nil, if_pos (by decide)] at fault
    cases fault

end Rebuild

/-- Settles O34: the size check comes first and raises in the state as it stands. -/
theorem rebuildChecksSize : Obligations.RebuildChecksSize := by
  unfold Obligations.RebuildChecksSize
  intro s tooLong
  have word : errorWord 0x19#8 .treeSizeRange = 0x00190501#32 := by decide
  rw [exec_rebuildTree_raised (rebuildBody_tooLong tooLong), raiseError, word, withError]

/-- Settles O33: a rebuild that ends without an error leaves STATUS.ERR clear; one that raises has released the pool. -/
theorem rebuildRollsBack : Obligations.RebuildRollsBack := by
  unfold Obligations.RebuildRollsBack
  intro s t clear fits run raised
  obtain ⟨u, ends, err⟩ | ⟨c, u, ends, frame, root, leafCount, free⟩ := exec_rebuildTree_cases fits
  · rw [ends] at run
    cases run
    rw [setResult_err, err, clear] at raised
    cases raised
  · rw [ends] at run
    cases run
    refine ⟨free, root, leafCount, ?_⟩
    unfold rebuildFrame at frame
    rw [frame]
    exact ⟨rfl, rfl, rfl, rfl, rfl⟩

/-! ### SERIALIZE_TREE, then REBUILD_TREE -/

section RoundTrip

variable {s : State} {tr : CodeTree}

theorem dump_length_le (tree : treeIs s tr) (c : Config) : (tr.dump c).length ≤ maxTreeSize := by
  have records := dump_length c tr
  have leaves := treeIs_leaves tree
  unfold maxTreeSize
  omega

theorem exec_serializeTree_ok {n : Nat} {t : State} (body : serializeBody s = .ok n t) :
    exec .serializeTree s = .next (setResult (BitVec.ofNat 32 n) t) := by
  rw [exec_body, commandBody, body, bind_ok, endCommand_ok]

/-- SERIALIZE_TREE of a held tree leaves that tree's dump in DUMP, TREE_SIZE bytes long (R152). -/
theorem exec_serializeTree_tree (tree : treeIs s tr) :
    ∃ t, exec .serializeTree s = .next t ∧ t.cfg = s.cfg ∧ t.treeSize.toNat ≤ maxTreeSize ∧
      dumpBytes t.treeSize.toNat t = tr.dump s.cfg := by
  have fits : (tr.dump s.cfg).length ≤ 767 := dump_length_le tree s.cfg
  have size : (BitVec.ofNat 16 (tr.dump s.cfg).length).toNat = (tr.dump s.cfg).length := by
    rw [BitVec.toNat_ofNat, Nat.mod_eq_of_lt (by omega)]
  refine ⟨_, exec_serializeTree_ok (serializeBody_spec s tr tree), rfl, ?_, ?_⟩
  · exact size.le.trans fits
  · rw [setResult_treeSize, size]
    exact storeTake_writeList 0#8 s.dump (tr.dump s.cfg)

theorem exec_serializeTree_empty (empty : s.root = nil) :
    ∃ t, exec .serializeTree s = .next t ∧ t.treeSize = 0#16 :=
  ⟨_, exec_serializeTree_ok (serializeBody_empty s empty), rfl⟩

/-- A code-table entry is fixed by the code it holds (R25). -/
theorem codeIs_unique {d e : CodeEntry} {p : Option (List Bool)} (hd : codeIs d p) (he : codeIs e p) : d = e := by
  cases p with
  | none => exact Eq.trans hd (Eq.symm he)
  | some p =>
    obtain ⟨dLen, dBits⟩ := hd
    obtain ⟨eLen, eBits⟩ := he
    refine codeEntry_ext (BitVec.eq_of_toNat_eq (dLen.trans eLen.symm)) (BitVec.eq_of_getLsbD_eq fun j _ => ?_)
    exact (dBits j).trans (eBits j).symm

theorem codeAt_eq_of_codesAre {v w : State} (hv : codesAre v tr) (hw : codesAre w tr) {i : Nat} (hi : i < 256) :
    codeAt v i = codeAt w i := by
  have same := codeIs_unique (hv (BitVec.ofNat 8 i)) (hw (BitVec.ofNat 8 i))
  rwa [BitVec.toNat_ofNat, Nat.mod_eq_of_lt hi] at same

end RoundTrip

/-- Settles O36: the rebuilt tree is the one that was dumped, and a tree alone fixes every entry of its code table. -/
theorem dumpIsIdempotent : Obligations.DumpIsIdempotent := by
  unfold Obligations.DumpIsIdempotent
  refine ⟨fun s tr tags tree => ?held, fun s empty => ?empty⟩
  case held =>
    obtain ⟨t, serialized, cfg, fits, dump⟩ := exec_serializeTree_tree tree
    obtain ⟨u, rebuilt, tree'⟩ := exec_rebuildTree_dump (s := t) (cfg ▸ tags) fits (cfg ▸ dump)
    obtain ⟨v, coded', -, codes'⟩ := exec_buildCodes_tree tree'
    obtain ⟨w, coded, -, codes⟩ := exec_buildCodes_tree tree
    exact ⟨t, u, v, w, serialized, rebuilt, tree', coded', coded, fun i hi => codeAt_eq_of_codesAre codes' codes hi⟩
  case empty =>
    obtain ⟨root, -, -⟩ := empty
    obtain ⟨t, serialized, noBytes⟩ := exec_serializeTree_empty root
    obtain ⟨u, rebuilt, empty'⟩ := exec_rebuildTree_noBytes noBytes
    exact ⟨t, u, serialized, rebuilt, empty'⟩

end Sys2Proof.Machine
end

section
/-! PROOF. The priority queue (spec/42_priority_queue.md): PQ_CLEAR (R174), PQ_INSERT with its place in the queue (R171, R175)
and PQ_EXTRACT_MIN (R173, R176). -/

namespace Sys2Proof.Machine

open Sys2Proof

/-- A command whose body raises leaves its error word in ERROR, with STATUS.ERR set (R243). -/
theorem exec_raised {i : Instr} {c : Cause} {w : Word} {s t : State} (body : commandBody i s = .raised c t)
    (word : errorWord (opcode i) c = w) : exec i s = .next (withError w t) := by
  rw [exec_body, body, endCommand_raised, raiseError, word, withError]

/-! ### The place of a key in the queue -/

section Place

variable {q : List PqEntry} {key : Freq} {x : PqEntry}

theorem length_take_pqPlace (q : List PqEntry) (key : Freq) :
    (q.take (pqPlace q key)).length = q.countP (fun e => e.key ≤ key) :=
  List.length_take_of_le List.countP_le_length

variable (sorted : q.Pairwise (fun x y => x.key ≤ y.key))
include sorted

theorem key_le_of_mem_take_pqPlace (mem : x ∈ q.take (pqPlace q key)) : x.key ≤ key := by
  obtain ⟨-, -, before⟩ := List.pairwise_append.mp (pqPut_sorted q ⟨nil, key⟩ sorted)
  exact before x mem ⟨nil, key⟩ List.mem_cons_self

/-- The entries in front of the place are all of equal or smaller key, and there are as many of them as R171 counts: none is
left for the entries behind it. -/
theorem key_lt_of_mem_drop_pqPlace (mem : x ∈ q.drop (pqPlace q key)) : key < x.key := by
  have front : (q.take (pqPlace q key)).countP (fun y => y.key ≤ key) = (q.take (pqPlace q key)).length :=
    List.countP_eq_length.mpr fun y hy => decide_eq_true (key_le_of_mem_take_pqPlace sorted hy)
  have total : q.countP (fun y => y.key ≤ key) = (q.take (pqPlace q key)).countP (fun y => y.key ≤ key) +
      (q.drop (pqPlace q key)).countP (fun y => y.key ≤ key) := by
    rw [← List.countP_append, List.take_append_drop]
  have behind : (q.drop (pqPlace q key)).countP (fun y => y.key ≤ key) = 0 := by
    rw [front, length_take_pqPlace] at total
    omega
  exact BitVec.not_le.mp (by simpa using List.countP_eq_zero.mp behind x mem)

end Place

/-! ### PQ_INSERT -/

section Insert

variable {v : BitVec 16} {s : State}

theorem pqInsertBody_badOperand (h : 511 ≤ v.toNat) : commandBody (.pqInsert v) s = .raised .badOperand s := by
  rw [commandBody, nodeOperand_bad s h, bind_raised, bind_raised]

theorem pqInsertBody_badNode (h : v.toNat < 511) (free : (nodeAt s v.toNat).alloc = false) :
    commandBody (.pqInsert v) s = .raised .badNode s := by
  rw [commandBody, nodeOperand_ok s h, bind_ok, if_neg (by simp [free]), bind_raised]

/-- Past the operand and the node, PQ_INSERT is PQInsert of that node, and RESULT takes the size (R175). -/
theorem pqInsertBody_allocated (h : v.toNat < 511) (alloc : (nodeAt s v.toNat).alloc = true) :
    commandBody (.pqInsert v) s = (pqInsertNode (BitVec.ofNat 9 v.toNat) s).bind fun _ t =>
      .ok () (setResult (BitVec.ofNat 32 t.pq.length) t) := by
  rw [commandBody, nodeOperand_ok s h, bind_ok, if_pos alloc]

theorem pqInsertBody_full (h : v.toNat < 511) (alloc : (nodeAt s v.toNat).alloc = true) (full : s.pq.length = 256) :
    commandBody (.pqInsert v) s = .raised .pqFull s := by
  rw [pqInsertBody_allocated h alloc, pqInsertNode, if_pos full, bind_raised]

theorem exec_pqInsert_room (h : v.toNat < 511) (alloc : (nodeAt s v.toNat).alloc = true) (room : s.pq.length ≠ 256) :
    exec (.pqInsert v) s = .next { s with
      pq := pqPut s.pq ⟨BitVec.ofNat 9 v.toNat, (nodeAt s v.toNat).freq⟩
      result := BitVec.ofNat 32 (s.pq.length + 1) } := by
  rw [exec_body, pqInsertBody_allocated h alloc, pqInsertNode, if_neg room, bind_ok, endCommand_ok, pqPut_length,
    toNat_ofNat_nine (by omega), setResult]

end Insert

/-- Settles O38: the three checks in their order; with room, the queue is cut at R171's place and the node put there. -/
theorem pqInsertPlacesNode : Obligations.PqInsertPlacesNode := by
  unfold Obligations.PqInsertPlacesNode
  refine fun v s => ⟨fun bad => ?badOperand, fun h free => ?badNode, fun h alloc full => ?full, fun h alloc room => ?room⟩
  case badOperand => exact exec_raised (pqInsertBody_badOperand bad) (by simp only [opcode]; decide)
  case badNode => exact exec_raised (pqInsertBody_badNode h free) (by simp only [opcode]; decide)
  case full => exact exec_raised (pqInsertBody_full h alloc full) (by simp only [opcode]; decide)
  case room =>
    exact ⟨_, _, (List.take_append_drop _ s.pq).symm, length_take_pqPlace s.pq (nodeAt s v.toNat).freq,
      exec_pqInsert_room h alloc room, fun sorted =>
        ⟨fun _ => key_le_of_mem_take_pqPlace sorted, fun _ => key_lt_of_mem_drop_pqPlace sorted⟩⟩

/-! ### PQ_EXTRACT_MIN -/

section ExtractMin

variable {s : State}

theorem pqExtractMinBody_empty (empty : s.pq = []) : commandBody .pqExtractMin s = .raised .pqEmpty s := by
  rw [commandBody, pqExtractNode, empty, bind_raised]

theorem exec_pqExtractMin_cons {e : PqEntry} {q : List PqEntry} (held : s.pq = e :: q) :
    exec .pqExtractMin s = .next { s with pq := q, result := e.node.setWidth 32 } := by
  rw [exec_body, commandBody, pqExtractNode, held, bind_ok, endCommand_ok, setResult]

theorem head_key_le {e : PqEntry} {q : List PqEntry} (sorted : (e :: q).Pairwise (fun x y => x.key ≤ y.key)) {x : PqEntry}
    (mem : x ∈ e :: q) : e.key ≤ x.key := by
  rcases List.mem_cons.mp mem with rfl | behind
  · exact BitVec.le_refl _
  · exact List.rel_of_pairwise_cons sorted behind

end ExtractMin

/-- Settles O39: an empty queue raises; otherwise the head goes, and a sorted queue begins with a minimum. -/
theorem pqExtractMinTakesHead : Obligations.PqExtractMinTakesHead := by
  unfold Obligations.PqExtractMinTakesHead
  refine fun s => ⟨fun empty => ?empty, fun e q held => ⟨exec_pqExtractMin_cons held, ?minimum⟩⟩
  case empty => exact exec_raised (pqExtractMinBody_empty empty) (by decide)
  case minimum =>
    rw [held]
    exact fun sorted _ => head_key_le sorted

/-! ### PQ_CLEAR -/

theorem exec_pqClear (s : State) : exec .pqClear s = .next { s with pq := [] } := by
  rw [exec_body, commandBody, endCommand_ok]

/-- R40: an empty queue reads SIZE 0 with EMPTY set and FULL clear. -/
theorem pqStatusWord_nil {s : State} (empty : s.pq = []) : pqStatusWord s = 0x00010000#32 := by
  rw [pqStatusWord, pqEmptyFlag, pqFullFlag, empty]
  decide

/-- Settles O37: PQ_CLEAR replaces the queue by the empty one, and PQ_STATUS is a live copy of the queue. -/
theorem pqClearEmptiesQueue : Obligations.PqClearEmptiesQueue := fun s =>
  ⟨_, exec_pqClear s, rfl, (portRead_pqStatus _).trans (pqStatusWord_nil rfl)⟩

end Sys2Proof.Machine
end

section
/-! PROOF. The bit buffers (spec/43_bit_io.md): BW_FLUSH (R191, R194), BW_RESET (R195) and BR_RESET (R198). -/

namespace Sys2Proof.Machine

open Sys2Proof

/-! ### BW_FLUSH -/

/-- What R191 sends: one byte for every 8 pending bits or part of 8. -/
theorem packBits_writerBits_length (s : State) : (packBits (writerBits s)).length = ceilDiv s.bwCount 8 := by
  rw [packBits_length, writerBits_length]

theorem writerBits_empty {s : State} (empty : s.bwCount = 0) : writerBits s = [] :=
  List.eq_nil_of_length_eq_zero ((writerBits_length s).trans empty)

/-- The pending bits go to OUT packed, the writer begins afresh, and RESULT is the number of bytes sent (R194). -/
theorem exec_bwFlush {s : State} (writer : writerOk s) :
    exec .bwFlush s = .next (setResult (BitVec.ofNat 32 (ceilDiv s.bwCount 8))
      (clearWriter (outWrite (packBits (writerBits s)) s))) := by
  rw [exec_body, commandBody, flushWriter_spec s writer, bind_ok, endCommand_ok, packBits_writerBits_length]

/-- Settles O41: under R31 the bytes of the buffer are its pending bits packed, and no pending bits pack to no bytes. -/
theorem bwFlushSendsPendingBits : Obligations.BwFlushSendsPendingBits := by
  unfold Obligations.BwFlushSendsPendingBits
  refine fun s writer => ⟨_, exec_bwFlush writer, ?frame, fun a => storeRead_nil 0#8 a, fun empty => ?nothingSent⟩
  case frame => rw [setResult, clearWriter, outWrite, packBits_writerBits_length]
  case nothingSent => rw [writerBits_empty empty]; exact List.append_nil s.out

/-! ### BW_RESET and BR_RESET -/

theorem exec_bwReset (s : State) : exec .bwReset s = .next (clearWriter s) := by
  rw [exec_body, commandBody, endCommand_ok]

theorem exec_brReset (s : State) : exec .brReset s = .next (clearReader s) := by
  rw [exec_body, commandBody, endCommand_ok]

/-- Settles O42: each command is its buffer's fresh session, in which every byte of the buffer reads 0. -/
theorem bitBufferResets : Obligations.BitBufferResets := fun s =>
  ⟨⟨_, exec_bwReset s, rfl, fun a => storeRead_nil 0#8 a⟩, ⟨_, exec_brReset s, rfl, fun a => storeRead_nil 0#8 a⟩⟩

end Sys2Proof.Machine
end

section
/-! PROOF. Reset (spec/70_reset_and_hazards.md R270, R271): what the tables and the composed port words read after it. -/

namespace Sys2Proof.Machine

open Sys2Proof

section Rules
variable (s : State)

/-! ### The tables -/

@[simp] theorem freqAt_applyReset (i : Nat) : freqAt (applyReset s) i = 0#64 := storeRead_nil 0#64 i

@[simp] theorem nodeAt_applyReset (i : Nat) : nodeAt (applyReset s) i = ⟨false, 0#8, 0#64, 0#9, 0#9⟩ :=
  storeRead_nil NodeEntry.blank i

@[simp] theorem codeAt_applyReset (i : Nat) : codeAt (applyReset s) i = ⟨0#9, 0#256⟩ := storeRead_nil CodeEntry.blank i

/-! ### The port words -/

theorem portRead_id : portRead 0x000 s = 0x48554646#32 := portRead_reg .id (by decide) s

theorem portRead_version : portRead 0x004 s = 0x00000107#32 := portRead_reg .version (by decide) s

theorem portRead_status : portRead 0x00C s = statusWord s := portRead_reg .status (by decide) s

/-- R33: with the tree, the queue and the writer empty, PQ_EMPTY is the only flag that is set. -/
theorem statusWord_applyReset : statusWord (applyReset s) = 0x00000010#32 := by
  have tree : treeValid (applyReset s) = false := by rw [treeValid, applyReset_root]; decide
  have empty : pqEmptyFlag (applyReset s) = true := by rw [pqEmptyFlag, applyReset_pq]; decide
  have full : pqFullFlag (applyReset s) = false := by rw [pqFullFlag, applyReset_pq]; decide
  have pending : bwPending (applyReset s) = false := by rw [bwPending, applyReset_bwCount]; decide
  rw [statusWord, applyReset_err, applyReset_eos, tree, applyReset_codesValid, empty, full, pending]
  decide

theorem portRead_status_applyReset : portRead 0x00C (applyReset s) = 0x00000010#32 :=
  (portRead_status _).trans (statusWord_applyReset s)

theorem portRead_pqStatus_applyReset : portRead 0x018 (applyReset s) = 0x00010000#32 :=
  (portRead_pqStatus _).trans (pqStatusWord_nil (applyReset_pq s))

end Rules

/-- Settles O20: the step is `applyReset` on the state without the event; the tables and the port words are the rules above,
and everything else is a field that `applyReset` sets or keeps. -/
theorem resetValues : Obligations.ResetValues := by
  unfold Obligations.ResetValues
  intro s es pending
  refine ⟨_, step_reset pending, ?_⟩
  simp [nil, portRead_id, portRead_version, portRead_status_applyReset, portRead_pqStatus_applyReset]

end Sys2Proof.Machine
end

section
/-! PROOF. The command word (spec/30_encoding.md R90 to R93): decoder and encoder are inverse to each other, and the decoder is
the one that the mask and pattern table gives. -/

namespace Sys2Proof.Machine

open Sys2Proof

/-! ### Decoding an encoded command -/

/-- R92's row for a well-formed command's OPCODE admits its operand and names the command. -/
theorem commandOf_opcode (i : Instr) (wf : i.wf = true) :
    ∃ k mk, commandOf (opcode i) = some (k, mk) ∧ k.admits (operand i) = true ∧ mk (operand i) = i := by
  cases i
  case nodeRead v => exact ⟨.node, .nodeRead, rfl, wf, rfl⟩
  case codeRead v => exact ⟨.sym, .codeRead, rfl, wf, rfl⟩
  case pqInsert v => exact ⟨.node, .pqInsert, rfl, wf, rfl⟩
  case bwWriteCode v => exact ⟨.sym, .bwWriteCode, rfl, wf, rfl⟩
  all_goals exact ⟨.none, _, rfl, rfl, rfl⟩

/-- Settles O1: the encoder's fields are the command's own, and they pass each of R93's checks. -/
theorem decodeOfEncode : Obligations.DecodeOfEncode := by
  unfold Obligations.DecodeOfEncode
  intro i wf
  obtain ⟨k, mk, row, admits, names⟩ := commandOf_opcode i wf
  rw [← encode_opcode i] at row
  rw [← encode_operand i] at admits names
  rw [decodeWord_operand_ok row (encode_rsvd i) admits, names]

/-! ### Encoding a decoded word -/

/-- A word is accepted only by a row of R92, with RSVD = 0 and an operand in range (R93). -/
theorem decodeWord_eq_ok {w : Word} {i : Instr} (h : decodeWord w = .ok i) :
    ∃ k mk, commandOf (opcodeOf w) = some (k, mk) ∧ rsvdOf w = 0#8 ∧ k.admits (operandOf w) = true ∧
      mk (operandOf w) = i := by
  by_cases illegal : opcodeIllegal (opcodeOf w).toNat
  · rw [decodeWord_illegal illegal] at h
    cases h
  obtain ⟨k, mk, row⟩ := exists_row_of_legal illegal
  by_cases rsvd : rsvdOf w = 0#8
  · by_cases admits : k.admits (operandOf w) = true
    · rw [decodeWord_operand_ok row rsvd admits] at h
      cases h
      exact ⟨k, mk, row, rsvd, admits, rfl⟩
    · rw [decodeWord_operand_bad row rsvd admits] at h
      cases h
  · rw [decodeWord_rsvd row rsvd] at h
    cases h

/-- Settles O2: an accepted word's three fields are those of the command it names, and the fields make up the word. -/
theorem decodedWordEncodesBack : Obligations.DecodedWordEncodesBack := by
  unfold Obligations.DecodedWordEncodesBack
  intro w i h
  obtain ⟨k, mk, row, rsvd, admits, rfl⟩ := decodeWord_eq_ok h
  obtain ⟨wf, opcodeEq, operandEq⟩ := commandOf_some row _ admits
  refine ⟨wf, ?_⟩
  rw [encode, opcodeEq, operandEq, word_parts w rsvd]

/-! ### The opcode table -/

section Table

variable {w : Word} {k : OperandKind} {mk : BitVec 16 → Instr} {r : OpcodeRow}

/-- Each OPCODE of R92's map has a row of the table, of the same kind and with the command's mnemonic. -/
theorem tableRow_of_command {o : BitVec 8} (row : commandOf o = some (k, mk)) :
    ∃ r ∈ opcodeTable, r.kind = k ∧ r.pattern.toNat = o.toNat ∧ ∀ v, r.mnemonic = mnemonic (mk v) := by
  unfold commandOf at row
  split at row <;> cases row <;> rename_i code <;> simp only [code, mnemonic, forall_const] <;> decide

/-- No two rows of the table have the same pattern. -/
theorem tableRow_unique : ∀ r ∈ opcodeTable, ∀ r' ∈ opcodeTable, r.pattern.toNat = r'.pattern.toNat → r = r' := by decide

/-- A row's pattern is its OPCODE, and not one of R94's. -/
theorem tableRow_opcode : ∀ r ∈ opcodeTable, (opcodeOf r.pattern).toNat = r.pattern.toNat ∧
    ¬ opcodeIllegal r.pattern.toNat := by
  unfold opcodeIllegal
  decide

theorem selectSpec_eq_true : selectSpec w r = true ↔
    (opcodeOf w).toNat = r.pattern.toNat ∧ rsvdOf w = 0#8 ∧ (r.kind = .none → operandOf w = 0#16) := by
  simp [selectSpec, ← BitVec.toNat_inj, and_assoc, or_iff_not_imp_left]

theorem selectRow_selected (mem : r ∈ opcodeTable) (sel : selectSpec w r = true) :
    selectRow w = if r.kind.admits (operandOf w) then .ok r else .error r.kind.error := by
  have found : opcodeTable.find? (fun r => r.selects w) = some r := by
    rw [find_eq]
    cases first : opcodeTable.find? (fun r => selectSpec w r) with
    | none => exact absurd sel (List.find?_eq_none.mp first r mem)
    | some r' =>
      have sel' := List.find?_some first
      rw [selectSpec_eq_true] at sel sel'
      rw [tableRow_unique r' (List.mem_of_find?_eq_some first) r mem (sel'.1.symm.trans sel.1)]
  rw [selectRow, found]

theorem selectRow_unselected (h : ∀ r ∈ opcodeTable, ¬ selectSpec w r = true) :
    selectRow w =
      if opcodeTable.any (fun r => opcodeOf r.pattern == opcodeOf w) then .error .reservedField
      else .error .illegalOpcode := by
  rw [selectRow, find_eq, List.find?_eq_none.mpr h]

/-- With an OPCODE of the table and no row selected, a word is a RESERVED_FIELD (R93). -/
theorem selectRow_reserved (mem : r ∈ opcodeTable) (code : r.pattern.toNat = (opcodeOf w).toNat)
    (h : ∀ r' ∈ opcodeTable, r'.pattern.toNat = (opcodeOf w).toNat → ¬ selectSpec w r' = true) :
    selectRow w = .error .reservedField := by
  rw [selectRow_unselected (fun r' mem' sel => h r' mem' (selectSpec_eq_true.mp sel).1.symm sel), if_pos]
  refine List.any_eq_true.mpr ⟨r, mem, ?_⟩
  rw [beq_iff_eq, ← BitVec.toNat_inj, (tableRow_opcode r mem).1, code]

theorem selectRow_illegal (illegal : opcodeIllegal (opcodeOf w).toNat) : selectRow w = .error .illegalOpcode := by
  have other : ∀ r ∈ opcodeTable, r.pattern.toNat ≠ (opcodeOf w).toNat := by
    intro r mem code
    exact (tableRow_opcode r mem).2 (code ▸ illegal)
  rw [selectRow_unselected fun r mem sel => other r mem (selectSpec_eq_true.mp sel).1.symm, if_neg]
  rw [List.any_eq_true]
  rintro ⟨r, mem, code⟩
  rw [beq_iff_eq] at code
  exact other r mem ((tableRow_opcode r mem).1.symm.trans (congrArg BitVec.toNat code))

/-- An operand out of range: a row of kind `none` is not selected at all, any other is and then turns the operand down. -/
theorem selectRow_operand_bad (mem : r ∈ opcodeTable) (code : r.pattern.toNat = (opcodeOf w).toNat) (rsvd : rsvdOf w = 0#8)
    (h : ¬ r.kind.admits (operandOf w) = true) : selectRow w = .error r.kind.error := by
  by_cases kind : r.kind = .none
  · rw [kind, admits_none] at h
    rw [kind]
    refine selectRow_reserved mem code fun r' mem' code' sel => ?_
    rw [tableRow_unique r' mem' r mem (code'.trans code.symm)] at sel
    exact h ((selectSpec_eq_true.mp sel).2.2 kind)
  · rw [selectRow_selected mem (selectSpec_eq_true.mpr ⟨code.symm, rsvd, fun none => absurd none kind⟩), if_neg h]

theorem selectRow_operand_ok (mem : r ∈ opcodeTable) (code : r.pattern.toNat = (opcodeOf w).toNat) (rsvd : rsvdOf w = 0#8)
    (h : r.kind.admits (operandOf w) = true) : selectRow w = .ok r := by
  have sel : selectSpec w r = true :=
    selectSpec_eq_true.mpr ⟨code.symm, rsvd, fun kind => by rwa [kind, admits_none] at h⟩
  rw [selectRow_selected mem sel, if_pos h]

end Table

/-- Settles O3: check by check, the word the decoder turns down selects no row, or one whose range its operand leaves, and the
word it accepts selects the row of its command. -/
theorem decoderAgreesWithOpcodeTable : Obligations.DecoderAgreesWithOpcodeTable := by
  unfold Obligations.DecoderAgreesWithOpcodeTable
  intro w
  by_cases illegal : opcodeIllegal (opcodeOf w).toNat
  · simp [decodeWord_illegal illegal, selectRow_illegal illegal]
  obtain ⟨k, mk, row⟩ := exists_row_of_legal illegal
  obtain ⟨r, mem, rfl, code, name⟩ := tableRow_of_command row
  by_cases rsvd : rsvdOf w = 0#8
  · by_cases admits : r.kind.admits (operandOf w) = true
    · obtain ⟨-, opcodeEq, -⟩ := commandOf_some row _ admits
      have pattern : r.pattern = (opcodeOf w).setWidth 32 := by
        rw [← BitVec.toNat_inj, code, BitVec.toNat_setWidth, Nat.mod_eq_of_lt (by omega)]
      simpa [decodeWord_operand_ok row rsvd admits, selectRow_operand_ok mem code rsvd admits, mem, opcodeEq, pattern]
        using name _
    · simp [decodeWord_operand_bad row rsvd admits, selectRow_operand_bad mem code rsvd admits]
  · have unselected : ∀ r' ∈ opcodeTable, r'.pattern.toNat = (opcodeOf w).toNat → ¬ selectSpec w r' = true :=
      fun _ _ _ sel => rsvd (selectSpec_eq_true.mp sel).2.1
    simp [decodeWord_rsvd row rsvd, selectRow_reserved mem code unselected]

/-! ### Sample words -/

/-- Settles O5: each word is a closed value that the decoder computes on. -/
theorem sampleWordsDecode : Obligations.SampleWordsDecode := by
  unfold Obligations.SampleWordsDecode
  decide

end Sys2Proof.Machine
end

section
/-! PROOF. The Huffman engine (spec/40_huffman_engine.md): BUILD_TREE (R131), codes none of which begins another (R139)
and NODE_READ (R136). -/

namespace Sys2Proof.Machine

open Sys2Proof

/-! ### BUILD_TREE -/

section BuildTree

variable {s : State}

theorem buildTreeBody_overflow (total : 2 ^ 64 ≤ freqTotal s) : buildTreeBody s = .raised .freqOverflow s := by
  rw [buildTreeBody, if_pos total]

theorem exec_buildTree_ok {t : State} (body : buildTreeBody s = .ok () t) :
    exec .buildTree s = .next (setResult (t.root.setWidth 32) t) := by
  rw [exec_body, commandBody, body, bind_ok, endCommand_ok]

theorem exec_buildTree_overflow (total : 2 ^ 64 ≤ freqTotal s) :
    exec .buildTree s = .next (withError 0x00102703#32 s) :=
  exec_raised (by rw [commandBody, buildTreeBody_overflow total, bind_raised]) (by decide)

/-- BUILD_TREE on a table whose sum fits holds the Huffman tree of FREQ, if it has one (R131). -/
theorem exec_buildTree_held (total : freqTotal s < 2 ^ 64) :
    ∃ t, exec .buildTree s = .next t ∧ treeHeld t (huffmanTree s) := by
  obtain ⟨t, body, -, -, -, -, ⟨-, huffman, empty⟩ | ⟨-, -, tr, huffman, held, -⟩⟩ := buildTreeBody_spec s total
  · exact ⟨_, exec_buildTree_ok body, huffman ▸ empty⟩
  · exact ⟨_, exec_buildTree_ok body, huffman ▸ held⟩

end BuildTree

/-- Settles O24: the body's loops against the pure construction, then RESULT. -/
theorem buildTreeMakesHuffmanTree : Obligations.BuildTreeMakesHuffmanTree := by
  unfold Obligations.BuildTreeMakesHuffmanTree
  refine fun s => ⟨exec_buildTree_overflow, fun total => ?_⟩
  obtain ⟨t, body, frame, allocated, leaves, joined, tree⟩ := buildTreeBody_spec s total
  refine ⟨_, exec_buildTree_ok body, ?frame, allocated, leaves, joined, ?tree⟩
  case frame =>
    rw [frame]
    rfl
  case tree =>
    obtain ⟨zero, huffman, root, rest⟩ | ⟨pos, root, tr, huffman, held, count⟩ := tree
    · exact .inl ⟨zero, root, ⟨root, rest⟩, huffman⟩
    · exact .inr ⟨pos, root, tr, huffman, held, count⟩

/-! ### Prefix-free codes -/

/-- Settles O26: two codes are two paths of one tree, of which neither begins the other; and the tree BUILD_TREE makes has the
present symbols at its leaves, each once. -/
theorem codesArePrefixFree : Obligations.CodesArePrefixFree := by
  unfold Obligations.CodesArePrefixFree
  refine ⟨fun s t tr tree two coded x y differ hx hy => ?_, fun s t tr total built tree => ?_⟩
  · obtain ⟨u, run, -, codes⟩ := exec_buildCodes_tree tree
    rw [run] at coded
    cases coded
    exact codes_apart (treeIs_leaves tree) codes two differ hx hy
  · obtain ⟨u, run, held⟩ := exec_buildTree_held total
    rw [run] at built
    cases built
    cases huffman : huffmanTree s with
    | none =>
      rw [huffman] at held
      exact (treeIs_not_empty tree held).elim
    | some tr' =>
      rw [huffman] at held
      rw [treeIs_unique tree held]
      exact huffmanTree_nodup huffman

/-! ### NODE_READ -/

section NodeRead

variable {v : BitVec 16} {s : State}

theorem exec_nodeRead_bad (h : 511 ≤ v.toNat) : exec (.nodeRead v) s = .next (withError 0x00133204#32 s) :=
  exec_raised (by rw [commandBody, nodeOperand_bad s h, bind_raised]) (by simp only [opcode]; decide)

theorem exec_nodeRead_ok (h : v.toNat < 511) :
    exec (.nodeRead v) s = .next (readoutNode (nodeAt s v.toNat) s) := by
  rw [exec_body, commandBody, nodeOperand_ok s h, bind_ok, endCommand_ok]

end NodeRead

/-- R12: a node is a leaf when both its children are NIL. -/
theorem isLeaf_iff (e : NodeEntry) : e.isLeaf = true ↔ e.left = nil ∧ e.right = nil := by
  simp [NodeEntry.isLeaf]

/-- Settles O29: the readout registers take an allocated entry, NODE_SYM its flags beside the symbol, and zeros else. -/
theorem nodeReadCopiesEntry : Obligations.NodeReadCopiesEntry := by
  unfold Obligations.NodeReadCopiesEntry
  refine fun v s => ⟨exec_nodeRead_bad, fun h alloc => ?allocated, fun h free => ?free⟩
  case allocated =>
    obtain ⟨sym, leaf, allocated, above⟩ := nodeSymWord_fields (nodeAt s v.toNat)
    refine ⟨nodeSymWord (nodeAt s v.toNat), ?_, sym, ?_, allocated, above⟩
    · rw [exec_nodeRead_ok h, readoutNode, if_pos alloc]
    · rw [leaf, isLeaf_iff]
  case free => rw [exec_nodeRead_ok h, readoutNode, free, if_neg Bool.false_ne_true]

end Sys2Proof.Machine
end

section
/-! PROOF. The tree serializer (spec/41_tree_serializer.md): the dump SERIALIZE_TREE writes (R152, R153), and REBUILD_TREE on a
dump (R155, R158, R160) and on any bytes (R155, R247). -/

namespace Sys2Proof.Machine

open Sys2Proof

/-! ### SERIALIZE_TREE -/

section Serialize

variable {s : State} {tr : CodeTree}

/-- SERIALIZE_TREE of a held tree is the writing of its dump from DUMP[0] up. -/
theorem exec_serializeTree_held (tree : treeIs s tr) :
    exec .serializeTree s = .next { s with
      dump := storeWriteList 0#8 s.dump 0 (tr.dump s.cfg)
      treeSize := BitVec.ofNat 16 (3 * tr.leaves.length - 1)
      result := BitVec.ofNat 32 (3 * tr.leaves.length - 1) } := by
  rw [exec_serializeTree_ok (serializeBody_spec s tr tree), dump_length_sub, setResult]

/-- A list written from address 0 leaves every address at or beyond its length alone. -/
theorem storeRead_writeList_above {m : Memory} {bs : List Byte} {a : Nat} (h : bs.length ≤ a) :
    storeRead 0#8 (storeWriteList 0#8 m 0 bs) a = storeRead 0#8 m a := by
  rw [storeRead_writeList, if_neg (by omega)]

end Serialize

/-- Settles O31: the dump is written as one list from DUMP[0] up; the empty tree writes nothing. -/
theorem serializeTreeWritesDump : Obligations.SerializeTreeWritesDump := by
  unfold Obligations.SerializeTreeWritesDump
  refine fun s => ⟨fun tr tree => ⟨_, exec_serializeTree_held tree, rfl, ?dump, fun a ha => ?above⟩, fun empty => ?empty⟩
  case dump =>
    rw [← dump_length_sub s tr]
    exact storeTake_writeList 0#8 s.dump (tr.dump s.cfg)
  case above =>
    rw [← dump_length_sub s tr] at ha
    exact storeRead_writeList_above ha
  case empty => exact exec_serializeTree_ok (serializeBody_empty s empty)

/-! ### REBUILD_TREE of a dump -/

/-- Settles O32: the scan of a dump makes its tree in post-order from node 0 up, and every node it makes has frequency 0. -/
theorem rebuildOfDump : Obligations.RebuildOfDump := by
  unfold Obligations.RebuildOfDump
  intro s tr tags fits dump
  obtain ⟨t, body, frame, tree, root, allocated, nodes, leafCount⟩ := rebuildBody_dump s tr tags dump fits
  refine ⟨_, exec_rebuildTree_ok body, ?frame, tree, root, leafCount, allocated, nodes, fun j hj => ?freq⟩
  case frame =>
    unfold rebuildFrame at frame
    rw [frame]
    rfl
  case freq =>
    have below : 2 * tr.leaves.length - 1 ≤ nodeCap := by
      have leaves := treeIs_leaves tree
      unfold nodeCap
      omega
    exact freshFreq_rebuild s t body j ((allocated j (by omega)).mpr hj)

/-! ### REBUILD_TREE of any bytes -/

section Rebuild

variable {s : State}

/-- The ERROR word of each FormatError of the scan (R247). -/
theorem scan_errorWord {c : Cause}
    (h : c = .badTag ∨ c = .stackUnderflow ∨ c = .leafRecordCut ∨ c = .dumpLeftover) :
    errorWord 0x19#8 c = 0x00190201#32 ∨ errorWord 0x19#8 c = 0x00190301#32 ∨ errorWord 0x19#8 c = 0x00190401#32 ∨
      errorWord 0x19#8 c = 0x00190601#32 := by
  rcases h with rfl | rfl | rfl | rfl <;> decide

theorem dumpFault_noBytes (h : s.treeSize.toNat = 0) : dumpFault s.cfg 0 (dumpBytes s.treeSize.toNat s) = none := by
  rw [h]
  exact dumpFault_nil s.cfg 0

/-- The bytes a scan turns down are the dump of no tree, and there is at least one of them. -/
theorem not_dump_of_raised {c : Cause} {u : State} (tags : s.cfg.wf) (fits : s.treeSize.toNat ≤ maxTreeSize)
    (body : rebuildBody s = .raised c u) (fault : dumpFault s.cfg 0 (dumpBytes s.treeSize.toNat s) = some c) :
    ¬ (s.treeSize = 0#16 ∨ ∃ tr : CodeTree, tr.dump s.cfg = dumpBytes s.treeSize.toNat s) := by
  rintro (zero | ⟨tr, dump⟩)
  · rw [dumpFault_noBytes (congrArg BitVec.toNat zero)] at fault
    cases fault
  · obtain ⟨t, ok, -⟩ := rebuildBody_dump s tr tags dump.symm fits
    rw [ok] at body
    cases body

end Rebuild

/-- Settles O35: the scan ends in a tree whose dump the bytes are, in the empty tree on no bytes, or in the first error it
meets. -/
theorem rebuildAcceptsExactlyDumps : Obligations.RebuildAcceptsExactlyDumps := by
  unfold Obligations.RebuildAcceptsExactlyDumps
  intro s tags clear fits
  obtain ⟨t, tr, body, frame, tree, dump, fault⟩ | ⟨t, zero, body, frame, empty⟩ |
    ⟨c, t, body, frame, empty, cause, fault⟩ := rebuildBody_spec s fits
  · have err : t.err = false := (rebuildFrame_err frame).trans clear
    refine ⟨_, exec_rebuildTree_ok body, iff_of_true err (.inr ⟨tr, dump⟩), fun raised => ?_, fun _ => err, fun c some => ?_,
      fun _ zero => ?_⟩
    · exact nomatch err.symm.trans raised
    · exact nomatch fault.symm.trans some
    · rw [zero] at dump
      exact absurd dump (dump_ne_nil s.cfg tr)
  · have err : t.err = false := (rebuildFrame_err frame).trans clear
    have noBytes : s.treeSize = 0#16 := BitVec.eq_of_toNat_eq zero
    refine ⟨_, exec_rebuildTree_ok body, iff_of_true err (.inl noBytes), fun raised => ?_, fun _ => err, fun c some => ?_,
      fun _ _ => empty⟩
    · exact nomatch err.symm.trans raised
    · exact nomatch (dumpFault_noBytes zero).symm.trans some
  · refine ⟨_, exec_rebuildTree_raised body, iff_of_false Bool.noConfusion (not_dump_of_raised tags fits body fault),
      fun _ => scan_errorWord cause, fun none => ?_, fun d some => ?_, fun err => ?_⟩
    · exact nomatch fault.symm.trans none
    · cases fault.symm.trans some
      exact ⟨rfl, rfl⟩
    · exact nomatch err

end Sys2Proof.Machine
end

section
/-! PROOF. Bit-level I/O (spec/43_bit_io.md): the bit-writer law (R196), BW_WRITE_CODE (R192, R193), the bit-reader law (R200)
and BR_READ_BIT (R197, R199). -/

namespace Sys2Proof.Machine

open Sys2Proof

/-! ### The bit writer -/

section Writer

variable {s t : State} {ys : List Byte}

/-- The bits sent and the bits pending are as many as the bits given to the writer. -/
theorem writer_count {bs : List Bool} (bits : unpackBits ys ++ writerBits t = writerBits s ++ bs) :
    8 * ys.length + t.bwCount = s.bwCount + bs.length := by
  have lengths := congrArg List.length bits
  rwa [List.length_append, List.length_append, unpackBits_length, writerBits_length, writerBits_length] at lengths

theorem exec_bwWriteCode_bad {v : BitVec 16} (h : 256 ≤ v.toNat) :
    exec (.bwWriteCode v) s = .next (withError 0x00303204#32 s) :=
  exec_raised (by rw [commandBody, symOperand_bad s h, bind_raised, bind_raised]) (by simp only [opcode]; decide)

theorem exec_bwWriteCode_noCode {v : BitVec 16} (h : v.toNat < 256) (none : (codeAt s v.toNat).len = 0#9) :
    exec (.bwWriteCode v) s = .next (withError 0x00303404#32 s) :=
  exec_raised (by rw [commandBody, symOperand_ok s h, bind_ok, if_pos none, bind_raised]) (by simp only [opcode]; decide)

theorem exec_bwWriteCode_ok {v : BitVec 16} {f : Nat} (h : v.toNat < 256) (code : (codeAt s v.toNat).len ≠ 0#9)
    (written : writeCode v.toNat s = .ok f t) :
    exec (.bwWriteCode v) s = .next (setResult (BitVec.ofNat 32 f) t) := by
  rw [exec_body, commandBody, symOperand_ok s h, bind_ok, if_neg code, written, bind_ok, endCommand_ok]

end Writer

/-- Settles O43: what is sent before the flush is whole blocks, so the counts fix how the packed bits are split. -/
theorem bitWriterLaw : Obligations.BitWriterLaw := by
  unfold Obligations.BitWriterLaw
  intro bs s ok empty
  obtain ⟨u, ys, written, frame, ok', bits, blocks⟩ := writeBits_spec bs 0 s ok
  have sent := writeBits_flush bs s u ys frame bits
  have count := writer_count bits
  rw [writerBits_empty empty, List.nil_append] at sent
  have ⟨below, _⟩ := ok'
  rw [show block = 4096 from rfl] at below blocks
  refine ⟨u, _, _, _, packBits bs, written, flushWriter_spec u ok', congrArg State.out sent, packBits_length bs,
    fun i hi j hj => packBits_getElem bs i hi j hj, ?f, ?m, rfl⟩
  case f => omega
  case m =>
    rw [packBits_writerBits_length]
    congr 1
    omega

/-- Settles O40: a code has fewer bits than a block, so the bits sent are none or one block. -/
theorem bwWriteCodeAppendsCode : Obligations.BwWriteCodeAppendsCode := by
  unfold Obligations.BwWriteCodeAppendsCode
  refine fun v s => ⟨exec_bwWriteCode_bad, exec_bwWriteCode_noCode, fun h code ok => ?_⟩
  obtain ⟨t, ys, written, frame, ok', bits, blocks⟩ := writeBits_spec (codeList (codeAt s v.toNat)) 0 s ok
  have count := writer_count bits
  rw [Nat.zero_add] at written
  rw [codeList_length] at count
  refine ⟨_, ys, exec_bwWriteCode_ok h code written, ?frame, ok', bits, ?blocks⟩
  case frame =>
    unfold writerFrame at frame
    rw [frame]
    rfl
  case blocks =>
    have ⟨below, _⟩ := ok
    rw [show block = 4096 from rfl] at below blocks
    have short := (codeAt s v.toNat).len.isLt
    omega

/-! ### The bit reader -/

section Reader

variable {s t : State} {r : Option Bool}

theorem exec_brReadBit (read : readBit s = .ok r t) :
    exec .brReadBit s = .next (setResult (bitResult r) t) := by
  rw [exec_body, commandBody, read, bind_ok, endCommand_ok]

/-- While the buffer holds a bit, ReadBit does not read IN (R197). -/
theorem readBit_buffered_input (ok : readerOk s) (buffered : s.brIndex < s.brValid * 8) (read : readBit s = .ok r t) :
    t.inPos = s.inPos ∧ t.inCount = s.inCount := by
  obtain ⟨u, b, taken, -, -, -, -, pos, count⟩ := takeBit_spec s ok buffered
  rw [readBit, if_neg buffered.ne, taken] at read
  cases read
  exact ⟨pos, count⟩

end Reader

/-- Settles O44: ReadBit's answer is the head of the bits still to come, or the end of the stream when there is none. -/
theorem brReadBitReturnsNextBit : Obligations.BrReadBitReturnsNextBit := by
  unfold Obligations.BrReadBitReturnsNextBit
  intro s ok
  obtain ⟨t, b, read, frame, ok', bits, eos⟩ | ⟨t, read, frame, ok', bits, bits', eos⟩ := readBit_spec s ok
  all_goals
    have input (buffered : s.brIndex < s.brValid * 8) := readBit_buffered_input ok buffered read
    refine ⟨_, exec_brReadBit read, ?_, ok', ?_, ?_, input⟩
  · unfold readerFrame at frame
    rw [frame]
    rfl
  · intro b' bs held
    cases bits.symm.trans held
    exact ⟨rfl, eos, rfl⟩
  · exact fun none => nomatch bits.symm.trans none
  · unfold readerFrame at frame
    rw [frame]
    rfl
  · exact fun b' bs held => nomatch bits.symm.trans held
  · exact fun _ => ⟨rfl, eos, bits'⟩

/-- Settles O45: the j-th call of a run from an empty reader returns bit j of IN, and the refills are counted along. -/
theorem bitReaderLaw : Obligations.BitReaderLaw := by
  unfold Obligations.BitReaderLaw
  intro n s valid index
  obtain ⟨t, rs, run, length, bits, state⟩ := readRun_spec s n 0 s (ReadAt.start valid index)
  rw [Nat.zero_add] at state
  refine ⟨t, rs, run, length, fun j hj => ?_, fun _ => state.count⟩
  have bit := bits j (length ▸ hj)
  rw [List.getElem?_eq_getElem hj, Nat.zero_add, unpackBits_getElem?] at bit
  exact Option.some.inj bit

end Sys2Proof.Machine
end

section
/-! PROOF. ENCODE (spec/44_container_codec.md): the container it writes (R100, R210, R211, R214), its errors (R211, R214, R216)
and the container size law (R215). -/

namespace Sys2Proof.Machine

open Sys2Proof

section Encode

variable {s t u : State}

theorem exec_encode (s : State) : exec .encode s = execEncode s := rfl

theorem codesAre_congr {tr : CodeTree} (h : codesAre s tr) (code : t.code = s.code) : codesAre t tr := by
  unfold codesAre codeAt
  rw [code]
  exact h

theorem codesNone_congr (h : codesNone s) (code : t.code = s.code) : codesNone t := by
  unfold codesNone codeAt
  rw [code]
  exact h

/-- What a state that keeps the tables an ENCODE starts with holds: the tree, its codes and its dump (R210). -/
theorem EncodeStart.kept (h : EncodeStart s t) (pool : u.pool = t.pool) (root : u.root = t.root)
    (leafCount : u.leafCount = t.leafCount) (code : u.code = t.code) (dump : u.dump = t.dump)
    (treeSize : u.treeSize = t.treeSize) :
    treeHeld u (huffmanTree s) ∧ (∀ tr, huffmanTree s = some tr → codesAre u tr) ∧
      (huffmanTree s = none → codesNone u) ∧ u.treeSize.toNat = (dumpBytesOf s.cfg (huffmanTree s)).length ∧
      dumpBytes (dumpBytesOf s.cfg (huffmanTree s)).length u = dumpBytesOf s.cfg (huffmanTree s) ∧
      ∀ a, (dumpBytesOf s.cfg (huffmanTree s)).length ≤ a → storeRead 0#8 u.dump a = storeRead 0#8 s.dump a := by
  refine ⟨treeHeld_congr h.tree pool root leafCount, fun tr held => codesAre_congr (h.codes tr held) code,
    fun none => codesNone_congr (h.noCodes none) code, treeSize ▸ h.size, ?_, fun a ha => dump ▸ h.above a ha⟩
  have stored := h.dump
  rw [h.size] at stored
  unfold dumpBytes at stored ⊢
  rwa [dump]

/-- The input of an ENCODE that ends without an error (R211, R214). -/
def encodable (s : State) : Prop :=
  freqTotal s < 2 ^ 64 ∧ s.origSize.toNat ≤ (inRest s).length ∧
    ∀ x ∈ (inRest s).take s.origSize.toNat, freqAt s x.toNat ≠ 0#64

theorem encodable_of_exec (run : exec .encode s = .next t) (ok : t.err = false) : encodable s := by
  rw [exec_encode] at run
  obtain ⟨-, raised⟩ | ⟨total, enough, present, -⟩ | ⟨-, _, _, _, _, _, -, -, -, -, raised, -⟩ := encode_cases s
  · rw [raised] at run
    cases run
    cases ok
  · exact ⟨total, enough, present⟩
  · rw [raised] at run
    cases run
    cases ok

end Encode

/-- Settles O46: on such input the start puts tree, codes and dump in place, and the rest writes head and payload. -/
theorem encodeWritesContainer : Obligations.EncodeWritesContainer := by
  unfold Obligations.EncodeWritesContainer
  intro s total enough present
  obtain ⟨t, start, run⟩ := encode_start s total
  obtain ⟨bits, payload⟩ := payload_of_present present
  obtain ⟨u, body, frame⟩ := encodeRest_spec start enough payload
  rw [body, endCommand_ok] at run
  have count : u.outCount = BitVec.ofNat 64
      (containerHead s.cfg s.permissions s.origSize.toNat (huffmanTree s) ++ packBits bits).length := by rw [frame]
  rw [count] at frame
  obtain ⟨held, codes, noCodes, size, dump, above⟩ := start.kept (u := u) (by rw [frame]) (by rw [frame]) (by rw [frame])
    (by rw [frame]) (by rw [frame]) (by rw [frame])
  refine ⟨u, bits, payload, run, by rw [frame], ?frame, count, held, codes, noCodes, size, dump, above⟩
  rw [frame, start.frame]

/-! ### ENCODE's errors -/

section Errors

variable {s t u : State}

/-- No byte of a run of present bytes is where the run stops. -/
theorem le_of_present {m k : Nat} (enough : m ≤ (inRest s).length)
    (present : ∀ x ∈ (inRest s).take m, freqAt s x.toNat ≠ 0#64)
    (stop : k = (inRest s).length ∨ ∃ x, (inRest s)[k]? = some x ∧ freqAt s x.toNat = 0#64) : m ≤ k := by
  rcases stop with rfl | ⟨x, at_k, absent⟩
  · exact enough
  · by_contra before
    refine present x (List.mem_of_getElem? (i := k) ?_) absent
    rw [List.getElem?_take, if_pos (Nat.lt_of_not_le before), at_k]

theorem encode_overflow (total : 2 ^ 64 ≤ freqTotal s) :
    exec .encode s = .next (raiseError 0x40#8 .freqOverflow (clearWriter (clearCounts s))) := by
  rw [exec_encode]
  obtain ⟨-, run⟩ | ⟨fits, -⟩ | ⟨fits, -⟩ := encode_cases s
  · exact run
  all_goals exact absurd total (Nat.not_le.mpr fits)

/-- What ENCODE leaves when its payload loop raises after reading `j` bytes (R211, R216, R243). -/
theorem encode_raised_leaves {j : Nat} {ys head : List Byte} {c : Cause} (start : EncodeStart s t)
    (frame : encodeFrame (outWrite head t) u j ys) :
    ∃ v, v = raiseError 0x40#8 c u ∧ v.err = true ∧ v.error = errorWord 0x40#8 c ∧ v.result = s.result ∧
      v.inPos = s.inPos + j ∧ v.inCount = BitVec.ofNat 64 j ∧ v.out = s.out ++ (head ++ ys) ∧
      v.outCount = BitVec.ofNat 64 (head ++ ys).length ∧
      v = { s with pool := v.pool, root := v.root, leafCount := v.leafCount, pq := [], stack := [], code := v.code,
                   codesValid := true, dump := v.dump, treeSize := v.treeSize, bwBuf := v.bwBuf,
                   bwCount := v.bwCount, inPos := v.inPos, inCount := v.inCount, out := v.out,
                   outCount := v.outCount, err := true, error := v.error, errLog := v.errLog } ∧
      treeHeld v (huffmanTree s) ∧ (∀ tr, huffmanTree s = some tr → codesAre v tr) ∧
      (huffmanTree s = none → codesNone v) ∧ v.treeSize.toNat = (dumpBytesOf s.cfg (huffmanTree s)).length ∧
      dumpBytes (dumpBytesOf s.cfg (huffmanTree s)).length v = dumpBytesOf s.cfg (huffmanTree s) ∧
      ∀ a, (dumpBytesOf s.cfg (huffmanTree s)).length ≤ a → storeRead 0#8 v.dump a = storeRead 0#8 s.dump a := by
  obtain ⟨left, pool, root, leafCount, code, dump, treeSize⟩ := encode_raised (c := c) start frame
  have kept := start.kept (u := raiseError 0x40#8 c u) pool root leafCount code dump treeSize
  refine ⟨raiseError 0x40#8 c u, rfl, rfl, rfl, ?_, ?_, ?_, ?_, ?_, ?_, kept⟩
  all_goals rw [left]

end Errors

/-- Settles O47: an overflow ends ENCODE before its loops; else the payload loop stops at the first byte that is missing or
absent from the table, with what it has written before that byte. -/
theorem encodeErrors : Obligations.EncodeErrors := by
  unfold Obligations.EncodeErrors
  refine fun s clear => ⟨fun total => ?overflow, fun n total less enough present stop => ?payload⟩
  case overflow =>
    exact ⟨_, encode_overflow total, rfl, by rw [raiseError_error]; decide, rfl, rfl, rfl, rfl, rfl, rfl, rfl, rfl, rfl, rfl,
      rfl⟩
  case payload =>
    obtain ⟨overflow, -⟩ | ⟨-, enough', present', -⟩ |
      ⟨-, t, u, k, ys, c, start, -, enough', present', run, ok, ⟨blocks, payload⟩, ends⟩ := encode_cases s
    · exact absurd total (Nat.not_lt.mpr overflow)
    · exact absurd (le_of_present enough' present' stop) (Nat.not_le.mpr less)
    have same : k = n := by
      refine le_antisymm (le_of_present enough' present' stop) (le_of_present enough present ?_)
      exact ends.imp (fun ⟨short, _⟩ => short) fun ⟨x, at_k, absent, _⟩ => ⟨x, at_k, absent⟩
    subst same
    obtain ⟨last, rfl, frame⟩ | ⟨x, at_k, -, rfl, frame⟩ := ends
    · obtain ⟨v, rfl, err, error, result, pos, count, out, outCount, kept⟩ := encode_raised_leaves start frame
      refine ⟨_, _, ys, payload, run, err, result, fun _ => ⟨?_, pos, count⟩, fun more => ?_, out, outCount, ok, blocks, rfl,
        kept⟩
      · rw [error]
        decide
      · exact absurd last more.ne
    · obtain ⟨v, rfl, err, error, result, pos, count, out, outCount, kept⟩ := encode_raised_leaves start frame
      obtain ⟨more, -⟩ := List.getElem?_eq_some_iff.mp at_k
      refine ⟨_, _, ys, payload, run, err, result, fun last => ?_, fun _ => ⟨?_, pos, count⟩, out, outCount, ok, blocks, rfl,
        kept⟩
      · exact absurd last more.ne
      · rw [error]
        decide

/-! ### The container size law -/

section Size

variable {s : State} {tr : CodeTree}

theorem containerHead_length (c : Config) (perms : BitVec 16) (n : Nat) (tr : Option CodeTree) :
    (containerHead c perms n tr).length = 16 + (dumpBytesOf c tr).length := by
  simp only [containerHead, List.length_append, leBytes_length]

theorem huffmanTree_leaf_count (huffman : huffmanTree s = some tr) : tr.leaves.length = (freqSymbols s).length := by
  rw [(huffmanTree_leaves huffman).length_eq, List.length_map]

theorem exists_huffmanTree (pos : 0 < (freqSymbols s).length) : ∃ tr, huffmanTree s = some tr := by
  rw [← Option.ne_none_iff_exists', ne_eq, huffmanTree_none]
  exact pos.ne'

/-- The empty tree has the payload of no bytes alone, and it has no bits (R108). -/
theorem payloadOf_none {xs : List Byte} {bits : List Bool} (h : payloadOf none xs = some bits) : bits = [] := by
  rw [payloadOf] at h
  split at h
  · exact (Option.some.inj h).symm
  · cases h

end Size

/-- Settles O48: the head's length, the payload's bits by the codes' lengths, and their sum by how often each symbol occurs. -/
theorem containerSizeLaw : Obligations.ContainerSizeLaw := by
  unfold Obligations.ContainerSizeLaw
  intro s t clear run ok
  obtain ⟨total, enough, present⟩ := encodable_of_exec run ok
  obtain ⟨t', bits, payload, run', -, frame, count, -, codes, -⟩ := encodeWritesContainer s total enough present
  cases run.symm.trans run'
  refine ⟨by rw [frame], fun pos => ?tree, fun zero => ?empty, fun histogram => ?sum⟩
  case tree =>
    obtain ⟨tr, huffman⟩ := exists_huffmanTree pos
    rw [huffman] at payload count
    have sum := payload_length (codes tr huffman) _ bits payload
    rw [count, List.length_append, containerHead_length, packBits_length, sum, ← huffmanTree_leaf_count huffman,
      ← dump_length_sub s tr, dumpBytesOf]
  case empty =>
    rw [huffmanTree_none.mpr zero] at payload count
    rw [count, payloadOf_none payload, List.length_append, containerHead_length]
    rfl
  case sum =>
    rw [sum_by_count (fun i => (codeAt t i).len.toNat) _ rfl]
    refine congrArg List.sum (List.map_congr_left fun i hi => ?_)
    rw [histogram i (List.mem_range.mp hi)]

end Sys2Proof.Machine
end

section
/-! PROOF. DECODE (spec/44_container_codec.md): a well-formed header and dump with any payload (R220 to R225), the errors before
the payload (R220, R221, R226), and the round trip with ENCODE (R227). -/

namespace Sys2Proof.Machine

open Sys2Proof

theorem exec_decode (s : State) : exec .decode s = execDecode s := rfl

/-! ### The tree rebuilt from the dump -/

section Rebuilt

variable {s u : State} (frame : rebuildFrame (readDump (headerState s)) u)
include frame

/-- The header's fields, DUMP and the empty reader are as the header and the dump were read (R155 writes none of them). -/
theorem rebuilt_header :
    u.permissions = (headerState s).permissions ∧ u.treeSize = (headerState s).treeSize ∧
      u.origSize = (headerState s).origSize ∧ u.dump = (readDump (headerState s)).dump ∧ u.codesValid = false ∧
      u.pq = [] ∧ u.brValid = 0 ∧ u.brIndex = 0 ∧ u.eos = false := by
  unfold rebuildFrame at frame
  rw [frame]
  exact ⟨rfl, rfl, rfl, rfl, rfl, rfl, rfl, rfl, rfl⟩

theorem rebuilt_input : inRest u = (inRest (headerState s)).drop (headerState s).treeSize.toNat := by
  have rest : inRest u = inRest (readDump (headerState s)) := by
    unfold rebuildFrame at frame
    rw [frame]
    rfl
  rw [rest, inRest_readDump]

theorem rebuilt_counts (enough : (headerState s).treeSize.toNat ≤ (inRest (headerState s)).length) :
    u.inPos = s.inPos + (16 + (headerState s).treeSize.toNat) ∧
      u.inCount = BitVec.ofNat 64 (16 + (headerState s).treeSize.toNat) ∧ u.outCount = 0#64 := by
  have read : (inReadBytes (headerState s).treeSize.toNat (headerState s)).length = (headerState s).treeSize.toNat := by
    rw [inReadBytes_length, min_eq_left enough]
  unfold rebuildFrame at frame
  rw [frame]
  refine ⟨?_, ?_, rfl⟩
  · show s.inPos + 16 + (inReadBytes _ (headerState s)).length = _
    rw [read, Nat.add_assoc]
  · show 16#64 + BitVec.ofNat 64 (inReadBytes _ (headerState s)).length = _
    rw [read, BitVec.ofNat_add]

end Rebuilt

/-! ### Every way DECODE can end once it has read a header -/

theorem decode_headed {s : State} (perms sz : BitVec 16) (n : BitVec 64) (rest : List Byte)
    (h : inRest s = leBytes 4 s.cfg.magic.toNat ++ leBytes 2 perms.toNat ++ leBytes 2 sz.toNat ++ leBytes 8 n.toNat ++
      rest) :
    ((headerState s).permissions = perms ∧ (headerState s).treeSize = sz ∧ (headerState s).origSize = n ∧
      inRest (headerState s) = rest) ∧
    (767 < sz.toNat → exec .decode s = .next (raiseError 0x41#8 .treeSizeRange (headerState s))) ∧
    (sz.toNat ≤ 767 → rest.length < sz.toNat →
      exec .decode s = .next (raiseError 0x41#8 .dumpShort (readDump (headerState s)))) ∧
    (sz.toNat ≤ 767 → sz.toNat ≤ rest.length → ∃ u, rebuildFrame (readDump (headerState s)) u ∧
      ((∃ c, treeEmpty u ∧ (c = .badTag ∨ c = .stackUnderflow ∨ c = .leafRecordCut ∨ c = .dumpLeftover) ∧
          dumpFault s.cfg 0 (rest.take sz.toNat) = some c ∧ exec .decode s = .next (raiseError 0x41#8 c u)) ∨
        (sz.toNat = 0 ∧ treeEmpty u ∧
          ((0 < n.toNat ∧ exec .decode s = .next (raiseError 0x41#8 .emptyTree u)) ∨
            (n.toNat = 0 ∧ exec .decode s = .next (setResult (u.outCount.setWidth 32) u)))) ∨
        ∃ tr, treeIs u tr ∧ tr.dump s.cfg = rest.take sz.toNat ∧ dumpFault s.cfg 0 (rest.take sz.toNat) = none ∧
          exec .decode s = endCommand 0x41#8 (decodeRest u))) := by
  obtain ⟨enough, magic, permsEq, szEq, nEq, restEq⟩ := headerState_of perms sz n rest h
  have cases := decode_cases s
  rw [szEq, nEq, restEq] at cases
  refine ⟨⟨permsEq, szEq, nEq, restEq⟩, ?_⟩
  rw [exec_decode]
  obtain ⟨short, -⟩ | ⟨-, bad, -⟩ | ⟨-, -, ⟨range, run⟩ | ⟨fits, short, run⟩ | ⟨fits, all, rebuilt⟩⟩ := cases
  · exact absurd short (Nat.not_lt.mpr enough)
  · exact absurd magic bad
  · exact ⟨fun _ => run, fun fits => absurd range (Nat.not_lt.mpr fits), fun fits => absurd range (Nat.not_lt.mpr fits)⟩
  · exact ⟨fun range => absurd range (Nat.not_lt.mpr fits), fun _ _ => run,
      fun _ all => absurd short (Nat.not_lt.mpr all)⟩
  · refine ⟨fun range => absurd range (Nat.not_lt.mpr fits), fun _ short => absurd short (Nat.not_lt.mpr all),
      fun _ _ => ?_⟩
    obtain ⟨c, u, frame, empty, cause, -, raised⟩ | ⟨u, zero, frame, empty⟩ | ⟨u, tr, frame, tree, -, run⟩ := rebuilt
    · exact ⟨u, frame, .inl ⟨c, empty, cause, raised⟩⟩
    · exact ⟨u, frame, .inr (.inl ⟨zero, empty⟩)⟩
    · exact ⟨u, frame, .inr (.inr ⟨tr, tree, run⟩)⟩

/-! ### A well-formed header and dump -/

section Container

variable {s u v : State} {perms : BitVec 16} {n : Nat} {tr : Option CodeTree} {payload : List Byte}

/-- The scan of a tree's dump puts one tree on the stack and meets no error (R155). -/
theorem dumpFault_dump_append {c : Config} (tags : c.wf) : ∀ (tr : CodeTree) (d : Nat) (rest : List Byte),
    dumpFault c d (tr.dump c ++ rest) = dumpFault c (d + 1) rest
  | .leaf x, d, rest => dumpFault_leaf c d x rest
  | .node l r, d, rest => by
    rw [CodeTree.dump, List.append_assoc, List.append_assoc, dumpFault_dump_append tags l, dumpFault_dump_append tags r,
      List.singleton_append, dumpFault_interior _ _ (Ne.symm tags) rfl, if_neg (by omega)]
    rfl

theorem dumpFault_dump {c : Config} (tags : c.wf) (tr : CodeTree) : dumpFault c 0 (tr.dump c) = none := by
  rw [← List.append_nil (tr.dump c), dumpFault_dump_append tags tr]
  exact dumpFault_nil c 1

theorem dumpBytesOf_ne_nil (c : Config) (tr : CodeTree) : dumpBytesOf c (some tr) ≠ [] := dump_ne_nil c tr

/-- DECODE of a well-formed header and dump: the dump's tree is rebuilt, and the payload's bits are decoded under it as the
pure decoder does, with the reader where it read to and EOS set when the bits ran out (R220, R222, R223). -/
theorem decode_container (tags : s.cfg.wf) (bound : n < 2 ^ 64) (some_tree : n = 0 ∨ tr ≠ none)
    (fits : (dumpBytesOf s.cfg tr).length ≤ 767) (h : inRest s = containerHead s.cfg perms n tr ++ payload) :
    ∃ u v, rebuildFrame (readDump (headerState s)) u ∧ treeHeld u tr ∧ inRest u = payload ∧
      decodeFrame u v (decodeWith tr (unpackBits payload) n).1 ∧
      ReadAt u (bitsReadWith tr (unpackBits payload) n) v ∧
      v.eos = decide ((decodeWith tr (unpackBits payload) n).2 = some .payloadShort) ∧
      ((decodeWith tr (unpackBits payload) n).2 = none →
        exec .decode s = .next (setResult (v.outCount.setWidth 32) v)) ∧
      ∀ c, (decodeWith tr (unpackBits payload) n).2 = some c → exec .decode s = .next (raiseError 0x41#8 c v) := by
  have size : (BitVec.ofNat 16 (dumpBytesOf s.cfg tr).length).toNat = (dumpBytesOf s.cfg tr).length := by
    rw [BitVec.toNat_ofNat, Nat.mod_eq_of_lt (by omega)]
  have count : (BitVec.ofNat 64 n).toNat = n := by rw [BitVec.toNat_ofNat, Nat.mod_eq_of_lt bound]
  obtain ⟨⟨-, szEq, nEq, restEq⟩, -, -, scanned⟩ := decode_headed perms _ _ _ (containerHead_input bound fits h)
  rw [size, count, List.take_left' rfl] at scanned
  have input {u : State} (frame : rebuildFrame (readDump (headerState s)) u) : inRest u = payload := by
    rw [rebuilt_input frame, restEq, szEq, size, List.drop_left' rfl]
  obtain ⟨u, frame, ⟨c, -, -, fault, -⟩ | ⟨zero, empty, run⟩ | ⟨tr', tree, dump, -, run⟩⟩ :=
    scanned fits (by rw [List.length_append]; omega)
  · cases tr with
    | none => cases fault
    | some tr => exact nomatch (dumpFault_dump tags tr).symm.trans fault
  · cases tr with
    | none => 
      obtain rfl : n = 0 := some_tree.resolve_right (fun h => h rfl)
      obtain ⟨pos, -⟩ | ⟨-, run⟩ := run
      · exact absurd pos (Nat.lt_irrefl 0)
      obtain ⟨-, -, -, -, -, -, valid, index, eos⟩ := rebuilt_header frame
      exact ⟨u, u, frame, empty, input frame, decodeFrame_of_reader (readerFrame_refl u), ReadAt.start valid index, eos,
        fun _ => run, fun _ some => nomatch some⟩
    | some tr => exact absurd (List.eq_nil_of_length_eq_zero zero) (dumpBytesOf_ne_nil s.cfg tr)
  · cases tr with
    | none => exact absurd dump (dump_ne_nil s.cfg tr')
    | some tr =>
      obtain rfl : tr = tr' := dump_inj tags fits dump.symm
      obtain ⟨-, -, orig, -, -, -, valid, index, eos⟩ := rebuilt_header frame
      have total : u.origSize.toNat = n := by rw [orig, nEq, count]
      obtain ⟨v, decoded, read, eos', ok, raised⟩ := decodeRest_spec tree valid index eos
      rw [input frame, total] at decoded read eos' ok raised
      refine ⟨u, v, frame, tree, input frame, decoded, read, eos', fun none => ?_, fun c some => ?_⟩
      · rw [run, ok none, endCommand_ok]
      · rw [run, raised c some, endCommand_raised]

/-- What the payload loop of DECODE leaves as the rebuilt tree left it. -/
theorem decodeFrame_keeps {xs : List Byte} (decoded : decodeFrame u v xs) :
    v.permissions = u.permissions ∧ v.origSize = u.origSize ∧ v.treeSize = u.treeSize ∧ v.pool = u.pool ∧
      v.root = u.root ∧ v.leafCount = u.leafCount ∧ v.codesValid = u.codesValid ∧ v.pq = u.pq ∧ v.dump = u.dump ∧
      v.err = u.err ∧ v.result = u.result ∧ v.out = u.out ++ xs ∧
      v.outCount = u.outCount + BitVec.ofNat 64 xs.length := by
  unfold decodeFrame at decoded
  rw [decoded]
  exact ⟨rfl, rfl, rfl, rfl, rfl, rfl, rfl, rfl, rfl, rfl, rfl, rfl, rfl⟩

/-- Where DECODE of a well-formed header and dump leaves the state, its error state and RESULT aside. -/
theorem decode_container_leaves (bound : n < 2 ^ 64) (fits : (dumpBytesOf s.cfg tr).length ≤ 767)
    (h : inRest s = containerHead s.cfg perms n tr ++ payload) {xs : List Byte} {k : Nat}
    (frame : rebuildFrame (readDump (headerState s)) u) (held : treeHeld u tr) (rest : inRest u = payload)
    (decoded : decodeFrame u v xs) (read : ReadAt u k v) :
    codecFrame .decode s v ∧ v.out = s.out ++ xs ∧ v.outCount = BitVec.ofNat 64 xs.length ∧ v.permissions = perms ∧
      v.origSize = BitVec.ofNat 64 n ∧ v.treeSize.toNat = (dumpBytesOf s.cfg tr).length ∧ treeHeld v tr ∧
      v.codesValid = false ∧ v.pq = [] ∧
      v.inCount = BitVec.ofNat 64 (16 + (dumpBytesOf s.cfg tr).length + min payload.length (4096 * ceilDiv k 32768)) ∧
      v.inPos = s.inPos + (16 + (dumpBytesOf s.cfg tr).length + min payload.length (4096 * ceilDiv k 32768)) ∧
      dumpBytes (dumpBytesOf s.cfg tr).length v = dumpBytesOf s.cfg tr ∧
      (∀ a, (dumpBytesOf s.cfg tr).length ≤ a → storeRead 0#8 v.dump a = storeRead 0#8 s.dump a) ∧ v.err = s.err ∧
      v.result = s.result := by
  have size : (BitVec.ofNat 16 (dumpBytesOf s.cfg tr).length).toNat = (dumpBytesOf s.cfg tr).length := by
    rw [BitVec.toNat_ofNat, Nat.mod_eq_of_lt (by omega)]
  obtain ⟨-, -, permsEq, szEq, nEq, restEq⟩ := headerState_of perms _ _ _ (containerHead_input bound fits h)
  have enough : (headerState s).treeSize.toNat ≤ (inRest (headerState s)).length := by
    rw [szEq, size, restEq, List.length_append]
    exact Nat.le_add_right _ _
  obtain ⟨uPerms, uSize, uOrig, uDump, uCodesValid, uPq, -⟩ := rebuilt_header frame
  obtain ⟨uPos, uIn, uOut⟩ := rebuilt_counts frame enough
  rw [szEq, size] at uPos uIn
  obtain ⟨out, result, err⟩ := rebuildFrame_out frame
  obtain ⟨vPerms, vOrig, vSize, pool, root, leafCount, codesValid, pq, vDump, vErr, vResult, vOut, vOutCount⟩ :=
    decodeFrame_keeps decoded
  have dump : v.dump = storeWriteList 0#8 s.dump 0 (dumpBytesOf s.cfg tr) := by
    rw [vDump, uDump, readDump_dump, inReadBytes, restEq, szEq, size, List.take_left' rfl]
    rfl
  refine ⟨decodeFrame_frame frame decoded, ?out, ?outCount, ?permissions, ?origSize, ?treeSize,
    treeHeld_congr held pool root leafCount, ?codesValid, ?pq, ?inCount, ?inPos, ?dump, ?above, ?err, ?result⟩
  case out => rw [vOut, out]
  case outCount => rw [vOutCount, uOut, BitVec.zero_add]
  case permissions => rw [vPerms, uPerms, permsEq]
  case origSize => rw [vOrig, uOrig, nEq]
  case treeSize => rw [vSize, uSize, szEq, size]
  case codesValid => rw [codesValid, uCodesValid]
  case pq => rw [pq, uPq]
  case inCount => rw [read.count, uIn, rest, ← BitVec.ofNat_add]
  case inPos => rw [read.pos, uPos, rest, Nat.add_assoc]
  case dump =>
    rw [dumpBytes, dump]
    exact storeTake_writeList 0#8 s.dump _
  case above =>
    intro a ha
    rw [dump, storeRead_writeList_above ha]
  case err => rw [vErr, err]
  case result => rw [vResult, result]

end Container

/-- Settles O49: the payload's bits are decoded as the pure decoder does, and how that ends is how the command ends. -/
theorem decodeOfContainer : Obligations.DecodeOfContainer := by
  unfold Obligations.DecodeOfContainer
  intro s perms n tr payload tags clear bound some_tree fits h
  obtain ⟨u, v, rebuilt, held, rest, decoded, read, eos, ok, raised⟩ := decode_container tags bound some_tree fits h
  obtain ⟨frame, out, outCount, permissions, origSize, treeSize, tree, codesValid, pq, inCount, inPos, dump, above, err,
    result⟩ := decode_container_leaves bound fits h rebuilt held rest decoded read
  have eos' : v.eos = true ↔ (decodeWith tr (unpackBits payload) n).2 = some .payloadShort := by
    rw [eos, decide_eq_true_iff]
  rcases Option.eq_none_or_eq_some (decodeWith tr (unpackBits payload) n).2 with none | ⟨c, some⟩
  · refine ⟨_, ok none, codecFrame_result frame _, out, outCount, permissions, origSize, treeSize, tree, codesValid, pq,
      inCount, inPos, eos', dump, above, fun _ => ⟨err.trans clear, rfl⟩, fun c some => ?_⟩
    exact nomatch none.symm.trans some
  · refine ⟨_, raised c some, codecFrame_raise frame _ _, out, outCount, permissions, origSize, treeSize, tree, codesValid,
      pq, inCount, inPos, eos', dump, above, fun none => ?_, fun c' some' => ?_⟩
    · exact nomatch none.symm.trans some
    · cases some.symm.trans some'
      exact ⟨rfl, rfl, result⟩

/-! ### The errors before the payload -/

section Errors

variable {s : State}

theorem decode_headerShort (short : (inRest s).length < 16) :
    exec .decode s = .next (raiseError 0x41#8 .headerShort (inReadState 16 (clearReader (clearCounts s)))) := by
  rw [exec_decode]
  obtain ⟨-, run⟩ | ⟨enough, -⟩ | ⟨enough, -⟩ := decode_cases s
  · exact run
  all_goals exact absurd short (Nat.not_lt.mpr enough)

theorem decode_badMagic (enough : 16 ≤ (inRest s).length) (bad : BitVec.ofNat 32 (rdle ((inRest s).take 4)) ≠ s.cfg.magic) :
    exec .decode s = .next (raiseError 0x41#8 .badMagic (inReadState 16 (clearReader (clearCounts s)))) := by
  rw [exec_decode]
  obtain ⟨short, -⟩ | ⟨-, -, run⟩ | ⟨-, good, -⟩ := decode_cases s
  · exact absurd short (Nat.not_lt.mpr enough)
  · exact run
  · exact absurd good bad

/-- The ERROR word of each FormatError of the scan in DECODE (R226, R247). -/
theorem decode_scan_errorWord {c : Cause}
    (h : c = .badTag ∨ c = .stackUnderflow ∨ c = .leafRecordCut ∨ c = .dumpLeftover) :
    errorWord 0x41#8 c = 0x00410201#32 ∨ errorWord 0x41#8 c = 0x00410301#32 ∨ errorWord 0x41#8 c = 0x00410401#32 ∨
      errorWord 0x41#8 c = 0x00410601#32 := by
  rcases h with rfl | rfl | rfl | rfl <;> decide

/-- A dump cut short by the end of IN reaches DUMP as far as it goes (R220). -/
theorem dumpBytes_readDump_short {s : State} (short : (inRest s).length < s.treeSize.toNat) :
    dumpBytes (inRest s).length (readDump s) = inRest s := by
  rw [dumpBytes, readDump_dump, inReadBytes, List.take_of_length_le short.le, storeTake_writeList]

end Errors

/-- Settles O50: each error is the end of one case of DECODE once it has read a header, and OUT grows in none of them. -/
theorem decodeErrorsBeforeOutput : Obligations.DecodeErrorsBeforeOutput := by
  unfold Obligations.DecodeErrorsBeforeOutput
  refine fun s clear tags => ⟨fun short => ?headerShort, fun enough bad => ?badMagic, fun perms sz n rest h => ?headed⟩
  case headerShort =>
    have word : errorWord 0x41#8 .headerShort = 0x00411002#32 := by decide
    exact ⟨_, decode_headerShort short, by simp [word]⟩
  case badMagic =>
    have word : errorWord 0x41#8 .badMagic = 0x00410101#32 := by decide
    have read : (inReadBytes 16 (clearReader (clearCounts s))).length = 16 := by
      rw [inReadBytes_length]
      exact min_eq_left enough
    exact ⟨_, decode_badMagic enough bad, by simp [word, read]⟩
  case headed =>
    obtain ⟨⟨permsEq, szEq, nEq, restEq⟩, range, short, scanned⟩ := decode_headed perms sz n rest h
    refine ⟨fun big => ?range, fun fits cut => ?dumpShort, fun fits enough pos noTree => ?scan,
      fun fits enough c fault => ?fault, fun zero pos => ?emptyTree⟩
    case range =>
      have word : errorWord 0x41#8 .treeSizeRange = 0x00410501#32 := by decide
      exact ⟨_, range big, by simp [word, permsEq, szEq, nEq]⟩
    case dumpShort =>
      have word : errorWord 0x41#8 .dumpShort = 0x00411102#32 := by decide
      have read := dumpBytes_readDump_short (s := headerState s) (by rwa [restEq, szEq])
      rw [restEq] at read
      exact ⟨_, short fits cut, rfl, by rw [raiseError_error, word], by simp, by simp, read, by simp⟩
    case scan =>
      obtain ⟨u, frame, ⟨c, empty, cause, -, run⟩ | ⟨zero, -⟩ | ⟨tr, -, dump, -⟩⟩ := scanned fits enough
      · obtain ⟨out, result, -⟩ := rebuildFrame_out frame
        exact ⟨_, run, rfl, decode_scan_errorWord cause, out, result, empty⟩
      · exact absurd zero pos.ne'
      · exact absurd ⟨tr, dump⟩ noTree
    case fault =>
      obtain ⟨u, frame, ⟨c', empty, -, fault', run⟩ | ⟨zero, -⟩ | ⟨tr, -, -, none, -⟩⟩ := scanned fits enough
      · cases fault.symm.trans fault'
        obtain ⟨out, result, -⟩ := rebuildFrame_out frame
        obtain ⟨permissions, treeSize, origSize, dump, -⟩ := rebuilt_header frame
        have read := dumpBytes_readDump (s := headerState s) (by rwa [restEq, szEq])
        rw [restEq, szEq] at read
        refine ⟨_, run, rfl, rfl, out, result, empty, permissions.trans permsEq, treeSize.trans szEq, origSize.trans nEq, ?_⟩
        rw [← read, dumpBytes, dumpBytes, raiseError_dump, dump]
      · rw [zero, List.take_zero, dumpFault_nil, if_pos (Nat.zero_le 1)] at fault
        cases fault
      · exact nomatch none.symm.trans fault
    case emptyTree =>
      have word : errorWord 0x41#8 .emptyTree = 0x00410701#32 := by decide
      rw [zero] at scanned
      obtain ⟨u, frame, ⟨c, -, -, fault, -⟩ | ⟨-, empty, ⟨-, run⟩ | ⟨none, -⟩⟩ | ⟨tr, -, dump, -⟩⟩ :=
        scanned (Nat.zero_le _) (Nat.zero_le _)
      · cases fault
      · obtain ⟨out, result, -⟩ := rebuildFrame_out frame
        exact ⟨_, run, rfl, by rw [raiseError_error, word], out, result, empty⟩
      · exact absurd none pos.ne'
      · exact absurd dump (dump_ne_nil s.cfg tr)

/-! ### The round trip -/

section RoundTrip

variable {tr : Option CodeTree} {xs : List Byte} {bits : List Bool}

/-- Packed and unpacked again, a payload decodes to the symbols it was made of; the padding is not read (R223, R225). -/
theorem decodeWith_packed (payload : payloadOf tr xs = some bits) :
    decodeWith tr (unpackBits (packBits bits)) xs.length = (xs, none) := by
  rw [unpackBits_packBits]
  cases tr with
  | none =>
    have empty : xs = [] := by
      by_contra nonempty
      rw [payloadOf, if_neg nonempty] at payload
      cases payload
    rw [decodeWith, empty]
  | some tr => exact decodeBits_payload xs bits _ payload

theorem dumpBytesOf_length_le {t : State} (held : treeHeld t tr) (c : Config) : (dumpBytesOf c tr).length ≤ 767 := by
  cases tr with
  | none => exact Nat.zero_le _
  | some tr => exact dump_length_le held c

/-- ENCODE can write a byte only if the table has a present symbol, and so a tree. -/
theorem huffmanTree_of_encodable {s : State} (h : encodable s) : s.origSize.toNat = 0 ∨ huffmanTree s ≠ none := by
  obtain ⟨-, enough, present⟩ := h
  by_contra neither
  rw [not_or, not_not] at neither
  obtain ⟨pos, huffman⟩ := neither
  obtain ⟨x, mem⟩ := List.exists_mem_of_length_pos (l := (inRest s).take s.origSize.toNat)
    (by rw [List.length_take]; omega)
  exact present x mem (freqAt_of_none huffman x)

end RoundTrip

/-- Settles O51: what ENCODE wrote is a well-formed head and the packed payload, which decodes to the input. -/
theorem roundTrip : Obligations.RoundTrip := by
  unfold Obligations.RoundTrip
  intro s t u container tags clear run ok written cfg clear' input
  obtain ⟨total, enough, present⟩ := encodable_of_exec run ok
  obtain ⟨t', bits, payload, run', out, -, -, held, -⟩ := encodeWritesContainer s total enough present
  cases run.symm.trans run'
  obtain rfl := List.append_cancel_left (written.symm.trans out)
  rw [← cfg] at tags input
  have count : ((inRest s).take s.origSize.toNat).length = s.origSize.toNat := by
    rw [List.length_take, min_eq_left enough]
  have decoded := decodeWith_packed payload
  rw [count] at decoded
  have fits := dumpBytesOf_length_le held u.cfg
  have some_tree := huffmanTree_of_encodable ⟨total, enough, present⟩
  obtain ⟨v, decode, -, outV, -, permissions, origSize, -, -, -, -, -, -, -, -, -, noError, -⟩ :=
    decodeOfContainer u s.permissions s.origSize.toNat (huffmanTree s) (packBits bits) tags clear' s.origSize.isLt some_tree
      fits input
  rw [decoded] at outV noError
  obtain ⟨err, -⟩ := noError rfl
  exact ⟨v, decode, err, outV, permissions, by rw [origSize, BitVec.ofNat_toNat, BitVec.setWidth_eq]⟩

end Sys2Proof.Machine
end

section
/-! PROOF. Issuing a command (spec/20_memory.md R61, R64; spec/60_exceptions.md R240 to R247), the error register (R34), the
control commands (spec/45_control.md) and the two ways to reset (R270). -/

namespace Sys2Proof.Machine

open Sys2Proof

/-! ### The control commands -/

/-- Settles O23: each control command is its own effect, by definition. -/
theorem controlCommands : Obligations.ControlCommands := fun _ => ⟨rfl, rfl, rfl⟩

section Step

variable {s t : State} {es : List HostEvent}

/-! ### A host access -/

/-- Settles O17: offsets beyond the DUMP window name nothing, and the step of an access is the access. -/
theorem hostAccessEffect : Obligations.HostAccessEffect := by
  unfold Obligations.HostAccessEffect
  refine ⟨fun s off v beyond => ?_, fun s es off v aligned below => ⟨fun pending => step_read pending aligned below,
    step_write_cmd, fun pending notCmd => step_write pending aligned below notCmd⟩⟩
  have reserved : placeOf off = .reserved := by
    rw [placeOf, if_neg (by omega), if_neg (by omega), if_neg (by omega)]
  exact ⟨by simp only [portRead, reserved], by simp only [portWrite, reserved]⟩

/-- The step of a placed word is its issue at the state it was placed in (log entry 2). -/
theorem step_withFetchWord (s : State) (w : Word) : step (s.withFetchWord 32 w.toNat) = issueCommand w s := by
  have word : BitVec.ofNat 32 (w.toNat % 2 ^ 32) = w := by
    rw [Nat.mod_eq_of_lt w.isLt, BitVec.ofNat_toNat, BitVec.setWidth_eq]
  have placed : (s.withFetchWord 32 w.toNat).host = .write 0x008 4 w :: s.host := by
    rw [State.withFetchWord, placeCommand, word]
    rfl
  rw [step_write_cmd placed]
  rfl

/-- Settles O6: a CMD write issues its word, and with the gate open an accepted word is its command. -/
theorem stepRunsDecodedCommand : Obligations.StepRunsDecodedCommand := by
  unfold Obligations.StepRunsDecodedCommand
  refine ⟨fun s es w i pending clear decoded => ?_, fun s w i clear decoded => ?_⟩
  · rw [step_write_cmd pending]
    exact issueCommand_ok clear decoded
  · rw [step_withFetchWord, issueCommand_ok clear decoded]

/-- Settles O7: the gate drops every word but the three, which run; the other accesses do not pass the gate. -/
theorem gateDropsCommands : Obligations.GateDropsCommands := by
  unfold Obligations.GateDropsCommands
  refine ⟨fun s es w pending err => ?_, fun s es off v aligned below err =>
    ⟨fun pending => step_read pending aligned below, fun pending notCmd => step_write pending aligned below notCmd⟩⟩
  rw [step_write_cmd pending]
  refine ⟨issueCommand_dropped err, ?nop, ?clearErr, ?softReset⟩
  case nop => rintro rfl; exact issue_nop _
  case clearErr => rintro rfl; exact issue_clearErr _
  case softReset => rintro rfl; exact issue_softReset _

/-- Settles O21: both ways are `applyReset` at the state without the event. -/
theorem resetTwoWays : Obligations.ResetTwoWays := by
  unfold Obligations.ResetTwoWays
  refine fun s es => ⟨applyReset { s with host := es }, step_reset rfl, ?_, rfl, rfl, rfl, rfl, rfl, rfl⟩
  rw [step_write_cmd rfl, issue_softReset]

/-! ### Raising an error -/

theorem exec_body_ok {i : Instr} (clear : s.err = false) (body : commandBody i s = .ok () t) :
    t.err = false ∧ t.errLog = s.errLog := by
  by_cases clearErr : i = .clearErr
  · subst clearErr
    cases body
    exact ⟨rfl, rfl⟩
  by_cases softReset : i = .softReset
  · subst softReset
    cases body
    exact ⟨rfl, rfl⟩
  obtain ⟨err, -, errLog⟩ := (body_err clearErr softReset s).onOk () t body
  exact ⟨err.trans clear, errLog⟩

/-- A body that raises has changed neither the error state nor RESULT when it does (R243). -/
theorem exec_body_raised {i : Instr} {c : Cause} (body : commandBody i s = .raised c t) :
    t.errLog = s.errLog ∧ t.result = s.result :=
  ⟨commandBody_raised (closedAll_err fun _ _ log => log = s.errLog) rfl body,
    commandBody_raised (closedAll_result fun r => r = s.result) rfl body⟩

/-- Settles O8: a body that ends leaves the error state alone; one that raises is followed by one `raise` of its cause. -/
theorem raiseRecordsOwnCommand : Obligations.RaiseRecordsOwnCommand := by
  unfold Obligations.RaiseRecordsOwnCommand
  intro i s t clear run
  obtain body | ⟨c, u, body, rfl⟩ := exec_next run
  · exact .inl (exec_body_ok clear body)
  · obtain ⟨errLog, result⟩ := exec_body_raised body
    exact .inr ⟨c, rfl, rfl, result, by rw [raiseError_errLog, errLog]⟩

/-! ### The error register -/

/-- Settles O9: KIND and CAUSE are constants of the cause, and OPCODE is the command's own. -/
theorem causeCodes : Obligations.CauseCodes := by
  unfold Obligations.CauseCodes
  intro op
  exact ⟨rfl, rfl, rfl, rfl, rfl, rfl, rfl, rfl, rfl, rfl, rfl, rfl, rfl, rfl, rfl, rfl, rfl, rfl, rfl, rfl, rfl, rfl, rfl,
    rfl, rfl⟩

theorem kindCode_bounds (k : ErrorKind) : 1 ≤ kindCode k ∧ kindCode k ≤ 4 := by
  cases k <;> decide

/-- Settles O10: ERROR is 0 with ERR clear, or the word of a cause with ERR set. -/
theorem errorRegisterFields : Obligations.ErrorRegisterFields := by
  unfold Obligations.ErrorRegisterFields
  intro s ok
  have port : portRead 0x010 s = s.error := portRead_reg .error (by decide) s
  rw [port]
  obtain ⟨clear, zero⟩ | ⟨err, op, c, word⟩ := ok
  · rw [clear, zero]
    decide
  · obtain ⟨low, high, kind, -, -⟩ := errorWord_fields op c
    obtain ⟨least, most⟩ := kindCode_bounds (causeKind c)
    rw [word, err]
    refine ⟨low, high, kind.le.trans most, iff_of_false (fun none => ?_) Bool.noConfusion⟩
    rw [none] at kind
    exact absurd kind (by rw [BitVec.toNat_zero]; omega)

/-! ### The error history -/

/-- A host write leaves the error state alone. -/
theorem portWrite_error_state (off : Nat) (v : Word) (s : State) :
    (portWrite off v s).err = s.err ∧ (portWrite off v s).error = s.error ∧ (portWrite off v s).errLog = s.errLog := by
  rw [portWrite_frame]
  exact ⟨rfl, rfl, rfl⟩

end Step

/-- Settles O11: with ERR set, CLEAR_ERR and the two resets are the only events that touch the error state. -/
theorem firstErrorIsKept : Obligations.FirstErrorIsKept := by
  unfold Obligations.FirstErrorIsKept
  intro s t err run
  obtain ⟨-, rfl⟩ | ⟨e, es, pending, ⟨off, rfl, rfl⟩ | ⟨off, v, rfl, -, rfl⟩ | ⟨w, rfl, run⟩ | ⟨rfl, rfl⟩ |
    ⟨xs, rfl, rfl⟩⟩ := step_cases run
  · exact ⟨rfl, .inl ⟨err, rfl⟩⟩
  · exact ⟨rfl, .inl ⟨err, rfl⟩⟩
  · obtain ⟨errEq, errorEq, errLogEq⟩ := portWrite_error_state off v { s with host := es }
    exact ⟨errLogEq, .inl ⟨errEq.trans err, errorEq⟩⟩
  · obtain ⟨-, -, -, -, rfl⟩ | ⟨-, rfl⟩ | ⟨rfl, rfl⟩ | ⟨rfl, rfl⟩ | ⟨clear, -⟩ | ⟨clear, -⟩ := issue_cases run
    · exact ⟨rfl, .inl ⟨err, rfl⟩⟩
    · exact ⟨rfl, .inl ⟨err, rfl⟩⟩
    · exact ⟨rfl, .inr ⟨rfl, rfl, es, .inl pending⟩⟩
    · exact ⟨rfl, .inr ⟨rfl, rfl, es, .inr (.inl pending)⟩⟩
    · exact nomatch err.symm.trans clear
    · exact nomatch err.symm.trans clear
  · exact ⟨rfl, .inr ⟨rfl, rfl, es, .inr (.inr pending)⟩⟩
  · exact ⟨rfl, .inl ⟨err, rfl⟩⟩

/-- Settles O12: a word turned down and a command that raises each add the word they leave in ERROR; nothing else adds any. -/
theorem errorHistoryIsKept : Obligations.ErrorHistoryIsKept := by
  unfold Obligations.ErrorHistoryIsKept
  intro s t run
  obtain ⟨-, rfl⟩ | ⟨e, es, -, ⟨off, rfl, rfl⟩ | ⟨off, v, rfl, -, rfl⟩ | ⟨w, rfl, run⟩ | ⟨rfl, rfl⟩ |
    ⟨xs, rfl, rfl⟩⟩ := step_cases run
  · exact .inl ⟨rfl, id⟩
  · exact .inl ⟨rfl, id⟩
  · obtain ⟨errEq, -, errLogEq⟩ := portWrite_error_state off v { s with host := es }
    exact .inl ⟨errLogEq, errEq.symm.trans⟩
  · obtain ⟨-, -, -, -, rfl⟩ | ⟨-, rfl⟩ | ⟨-, rfl⟩ | ⟨-, rfl⟩ | ⟨clear, d, -, rfl⟩ | ⟨clear, i, -, run⟩ := issue_cases run
    · exact .inl ⟨rfl, id⟩
    · exact .inl ⟨rfl, id⟩
    · exact .inl ⟨rfl, Bool.noConfusion⟩
    · exact .inl ⟨rfl, Bool.noConfusion⟩
    · exact .inr ⟨clear, rfl, rfl⟩
    · obtain ⟨err, errLog⟩ | ⟨c, err, error, -, errLog⟩ := raiseRecordsOwnCommand i _ t clear run
      · exact .inl ⟨errLog, fun raised => nomatch err.symm.trans raised⟩
      · exact .inr ⟨clear, err, by rw [errLog, error]⟩
  · exact .inl ⟨rfl, Bool.noConfusion⟩
  · exact .inl ⟨rfl, id⟩

end Sys2Proof.Machine
end

section
/-! PROOF. The invariant (spec/70_reset_and_hazards.md R273): reset meets it, every step keeps it (R21 to R34), from it every
command completes (R18), and five causes are never raised (R242). -/

namespace Sys2Proof.Machine

open Sys2Proof

/-! ### What every step keeps -/

/-- A property that the host's bookkeeping, host writes, raises, reset and every command keep. -/
structure StepClosed (P : State → Prop) : Prop where
  host : ∀ es s, P s → P { s with host := es }
  readLog : ∀ ws s, P s → P { s with readLog := ws }
  write : ∀ off v s, P s → P (portWrite off v s)
  raise : ∀ op c s, P s → P (raiseError op c s)
  reset : ∀ s, P s → P (applyReset s)
  exec : ∀ i s t, P s → exec i s = .next t → P t

section StepClosed

variable {P : State → Prop} (closed : StepClosed P) {s t : State}
include closed

theorem StepClosed.issue {w : Word} (h : P s) (run : issueCommand w s = .next t) : P t := by
  obtain ⟨-, -, -, -, rfl⟩ | ⟨-, rfl⟩ | ⟨-, rfl⟩ | ⟨-, rfl⟩ | ⟨-, e, -, rfl⟩ | ⟨-, i, -, run⟩ := issue_cases run
  · exact h
  · exact h
  · exact closed.exec .clearErr s _ h rfl
  · exact closed.reset s h
  · exact closed.raise _ _ s h
  · exact closed.exec i s t h run

/-- Only the attaching of a source is left to look at (log entry 4). -/
theorem StepClosed.step_or_attach (h : P s) (run : step s = .next t) :
    P t ∨ ∃ xs es, s.host = .attachIn xs :: es ∧ t = { s with host := es, inBytes := xs, inPos := 0 } := by
  obtain ⟨-, rfl⟩ | ⟨e, es, pending, ⟨off, rfl, rfl⟩ | ⟨off, v, rfl, -, rfl⟩ | ⟨v, rfl, run⟩ | ⟨rfl, rfl⟩ |
    ⟨xs, rfl, rfl⟩⟩ := step_cases run
  · exact .inl h
  · exact .inl (closed.readLog _ _ (closed.host es s h))
  · exact .inl (closed.write off v _ (closed.host es s h))
  · exact .inl (closed.issue (closed.host es s h) run)
  · exact .inl (closed.reset _ (closed.host es s h))
  · exact .inr ⟨xs, es, pending, rfl⟩

end StepClosed

/-! ### The memories -/

theorem memoriesOk_closed : StepClosed memoriesOk where
  host _ _ h := h
  readLog _ _ h := h
  write off v _ h := memoriesOk_portWrite h off v
  raise _ _ _ h := h
  reset _ _ := memoriesOk_reset
  exec _ _ _ h run := memoriesOk_exec h run

/-- Settles O52: every event keeps the canonical form, and the attaching of a source touches no memory. -/
theorem stepKeepsMemories : Obligations.StepKeepsMemories := by
  unfold Obligations.StepKeepsMemories
  intro s t h run
  obtain kept | ⟨xs, es, -, rfl⟩ := memoriesOk_closed.step_or_attach h run
  · exact kept
  · exact h

/-! ### The whole invariant -/

section Invariant

variable {s t : State}

theorem Core.inv (core : Core s) (memories : memoriesOk s) (error : errorOk s) : Inv s :=
  ⟨core.config, memories, core.writer, core.reader, core.queue, core.stack, core.codes, error, core.tree, core.input⟩

theorem Inv.exec (inv : Inv s) {i : Instr} (run : Machine.exec i s = .next t) : Inv t := by
  obtain ⟨u, run', core⟩ := core_exec inv.core inv.memories i
  cases run.symm.trans run'
  exact core.inv (memoriesOk_exec inv.memories run) (errorOk_exec inv.error run)

theorem Inv.portWrite (inv : Inv s) (off : Nat) (v : Word) : Inv (portWrite off v s) := by
  refine (inv.core.portWrite off v).inv (memoriesOk_portWrite inv.memories off v) ?_
  rw [portWrite_frame]
  exact inv.error

theorem inv_closed : StepClosed Inv where
  host _ _ h := { h with }
  readLog _ _ h := { h with }
  write off v _ h := h.portWrite off v
  raise op c s h := (h.core.raise op c).inv h.memories (errorOk_raise op c s)
  reset _ h := inv_applyReset h.config h.input
  exec _ _ _ h run := h.exec run

end Invariant

/-- Settles O53: every event keeps each part of the invariant; a source that is attached is at its first byte. -/
theorem stepKeepsInvariant : Obligations.StepKeepsInvariant := by
  unfold Obligations.StepKeepsInvariant
  intro s t inv run
  obtain kept | ⟨xs, es, -, rfl⟩ := inv_closed.step_or_attach inv run
  · exact kept
  · exact { inv with input := Nat.zero_le _ }

/-- Settles O22: the state after reset is the reset of itself, so the reset of any state is the case to look at. -/
theorem resetMeetsInvariant : Obligations.ResetMeetsInvariant := by
  unfold Obligations.ResetMeetsInvariant
  refine ⟨?_, fun s tags input => ⟨inv_applyReset tags input, treeEmpty_applyReset s, rfl, rfl, rfl, rfl, rfl⟩⟩
  exact inv_applyReset (s := State.reset) config_free_wf (Nat.le_refl _)

/-! ### Every command completes -/

section Complete

variable {s : State}

theorem exec_completes (inv : Inv s) (i : Instr) : ∃ t, exec i s = .next t := by
  obtain ⟨t, run, -⟩ := core_exec inv.core inv.memories i
  exact ⟨t, run⟩

theorem issue_completes (inv : Inv s) (w : Word) : ∃ t, issueCommand w s = .next t := by
  rw [issueCommand]
  split
  · exact ⟨s, rfl⟩
  · cases decoded : decodeWord w with
    | error e => exact ⟨raiseError (opcodeOf w) (decodeCause e) s, by simp only [decodeAndRun, decoded]⟩
    | ok i =>
      obtain ⟨t, run⟩ := exec_completes inv i
      exact ⟨t, by simp only [decodeAndRun, decoded, run]⟩

/-- An event completes, or it is an access out of R60's form. -/
theorem runEvent_completes (inv : Inv s) (e : HostEvent) :
    (∃ t, runEvent e s = .next t) ∨ runEvent e s = .refused .hostAccessForm := by
  cases e with
  | read off bytes =>
    rw [runEvent, hostRead]
    split
    · exact .inl ⟨_, rfl⟩
    · exact .inr rfl
  | write off bytes v =>
    rw [runEvent, hostWrite]
    split
    · split
      · exact .inl (issue_completes inv v)
      · exact .inl ⟨_, rfl⟩
    · exact .inr rfl
  | hardwareReset => exact .inl ⟨_, rfl⟩
  | attachIn xs => exact .inl ⟨_, rfl⟩

end Complete

/-- Settles O54: within the invariant every command has a next state, and only the form of an access is ever refused. -/
theorem commandsComplete : Obligations.CommandsComplete := by
  unfold Obligations.CommandsComplete
  refine ⟨fun i s inv => exec_completes inv i, fun s inv => ?_⟩
  cases pending : s.host with
  | nil => exact .inl ⟨s, by rw [step, stepHost, pending]⟩
  | cons e es =>
    rw [step_event pending]
    exact runEvent_completes (inv_closed.host es s inv) e

/-! ### The causes a command can raise -/

/-- The causes each command raises in states within the invariant (R241, R242). -/
def raisable (i : Instr) : List Cause :=
  match i with
  | .nop | .clearErr | .softReset | .buildCodes | .deleteTree | .serializeTree | .pqClear | .bwFlush | .bwReset | .brReset
  | .brReadBit => []
  | .buildTree => [.freqOverflow]
  | .nodeRead _ => [.badOperand]
  | .codeRead _ => [.badOperand]
  | .rebuildTree => [.treeSizeRange, .badTag, .stackUnderflow, .leafRecordCut, .dumpLeftover]
  | .pqInsert _ => [.badOperand, .badNode, .pqFull]
  | .pqExtractMin => [.pqEmpty]
  | .bwWriteCode _ => [.badOperand, .noCode]
  | .encode => [.freqOverflow, .inputShort, .noCode]
  | .decode => [.headerShort, .badMagic, .treeSizeRange, .dumpShort, .badTag, .stackUnderflow, .leafRecordCut,
      .dumpLeftover, .emptyTree, .payloadShort, .absentChild]

section Raisable

variable {s u : State} {c : Cause}

theorem last_raised {α : Type} {r : Res α} {f : α → State → State}
    (h : (r.bind fun a s => .ok () (f a s)) = .raised c u) : r = .raised c u := by
  obtain raised | ⟨a, s, -, last⟩ := bind_eq_raised.mp h
  · exact raised
  · cases last

theorem nodeOperand_raised {v : BitVec 16} (h : nodeOperand v s = .raised c u) : c = .badOperand := by
  rw [nodeOperand] at h
  split at h <;> cases h
  rfl

theorem symOperand_raised {v : BitVec 16} (h : symOperand v s = .raised c u) : c = .badOperand := by
  rw [symOperand] at h
  split at h <;> cases h
  rfl

theorem symOperand_eq_ok {v : BitVec 16} {i : Nat} (h : symOperand v s = .ok i u) : u = s := by
  rw [symOperand] at h
  split at h <;> cases h
  rfl

theorem buildTreeBody_raised (h : buildTreeBody s = .raised c u) : c = .freqOverflow := by
  by_cases total : freqTotal s < 2 ^ 64
  · obtain ⟨t, ok, -⟩ := buildTreeBody_spec s total
    cases ok.symm.trans h
  · cases (buildTreeBody_overflow (Nat.le_of_not_lt total)).symm.trans h
    rfl

theorem buildCodesBody_not_raised (tree : treeOk s) : buildCodesBody s ≠ .raised c u := by
  intro h
  obtain ⟨root, -⟩ | ⟨tr, tree⟩ := tree
  · cases (buildCodesBody_empty s root).symm.trans h
  · obtain ⟨t, ok, -⟩ := buildCodesBody_spec s tr tree
    cases ok.symm.trans h

theorem serializeBody_not_raised (c : Cause) (u : State) : serializeBody s ≠ .raised c u := by
  intro h
  obtain raised | ⟨_, _, -, h⟩ := bind_eq_raised.mp h
  · split at raised
    · cases raised
    · exact postDump_not_raised _ _ _ _ _ _ raised
  · cases h

theorem rebuildBody_raised (h : rebuildBody s = .raised c u) :
    c = .treeSizeRange ∨ c = .badTag ∨ c = .stackUnderflow ∨ c = .leafRecordCut ∨ c = .dumpLeftover := by
  by_cases fits : s.treeSize.toNat ≤ maxTreeSize
  · obtain ⟨t, tr, ok, -⟩ | ⟨t, -, ok, -⟩ | ⟨d, t, raised, -, -, cause, -⟩ := rebuildBody_spec s fits
    · cases ok.symm.trans h
    · cases ok.symm.trans h
    · cases raised.symm.trans h
      exact .inr cause
  · cases (rebuildBody_tooLong (Nat.lt_of_not_le fits)).symm.trans h
    exact .inl rfl

theorem pqInsertNode_raised {n : NodeIx} (h : pqInsertNode n s = .raised c u) : c = .pqFull := by
  obtain ⟨-, full⟩ | ⟨-, ok⟩ := pqInsertNode_cases n s
  · cases full.symm.trans h
    rfl
  · cases ok.symm.trans h

theorem pqExtractNode_raised (h : pqExtractNode s = .raised c u) : c = .pqEmpty := by
  obtain ⟨-, empty⟩ | ⟨e, q, -, ok⟩ := pqExtractNode_cases s
  · cases empty.symm.trans h
    rfl
  · cases ok.symm.trans h

theorem writeCode_not_raised (ok : writerOk s) (sym : Nat) : writeCode sym s ≠ .raised c u := by
  intro h
  obtain ⟨t, ys, written, -⟩ := writeBits_spec (codeList (codeAt s sym)) 0 s ok
  cases written.symm.trans h

theorem encode_raised_mem (h : commandBody .encode s = .raised c u) : c ∈ raisable .encode := by
  obtain ⟨-, run⟩ | ⟨-, -, -, t, v, bits, start, -, run, frame⟩ | ⟨-, t, v, k, ys, d, -, -, -, -, run, -, -, ends⟩ :=
    encode_cases s
  · obtain rfl := raised_cause h run
    decide
  · refine (raised_not_ok h run ?_).elim
    rw [frame, start.frame]
  · obtain rfl := raised_cause h run
    obtain ⟨-, rfl, -⟩ | ⟨-, -, -, rfl, -⟩ := ends <;> decide

theorem rebuilt_errLog (frame : rebuildFrame (readDump (headerState s)) u) : u.errLog = s.errLog := by
  unfold rebuildFrame at frame
  rw [frame]
  rfl

theorem decode_raised_mem (h : commandBody .decode s = .raised c u) : c ∈ raisable .decode := by
  obtain ⟨-, run⟩ | ⟨-, -, run⟩ | ⟨-, -, ⟨-, run⟩ | ⟨-, -, run⟩ | ⟨-, -, rebuilt⟩⟩ := decode_cases s
  · obtain rfl := raised_cause h run
    decide
  · obtain rfl := raised_cause h run
    decide
  · obtain rfl := raised_cause h run
    decide
  · obtain rfl := raised_cause h run
    decide
  · obtain ⟨d, v, -, -, cause, -, -, run⟩ | ⟨v, -, frame, -, ⟨-, run⟩ | ⟨-, run⟩⟩ | ⟨v, tr, frame, tree, -, -, -, run⟩ :=
      rebuilt
    · obtain rfl := raised_cause h run
      rcases cause with rfl | rfl | rfl | rfl <;> decide
    · obtain rfl := raised_cause h run
      decide
    · have kept : v.errLog = s.errLog := rebuilt_errLog frame
      exact (raised_not_ok h run kept).elim
    · have kept : v.errLog = s.errLog := rebuilt_errLog frame
      obtain ⟨-, -, -, -, -, -, valid, index, eos⟩ := rebuilt_header frame
      obtain ⟨v', decoded, -, -, ok, raised⟩ := decodeRest_spec tree valid index eos
      rcases Option.eq_none_or_eq_some (tr.decodeBits (unpackBits (inRest v)) v.origSize.toNat tr).2 with none | ⟨d, some⟩
      · rw [ok none, endCommand_ok] at run
        refine (raised_not_ok h run ?_).elim
        unfold decodeFrame at decoded
        rw [setResult_errLog, decoded]
        exact kept
      · rw [raised d some, endCommand_raised] at run
        obtain rfl := raised_cause h run
        rcases decodeBits_cause tr _ _ _ some with rfl | rfl <;> decide

/-- Within the invariant a command raises none but its own causes. -/
theorem raised_mem_raisable (inv : Inv s) {i : Instr} (h : commandBody i s = .raised c u) : c ∈ raisable i := by
  cases i
  case encode => exact encode_raised_mem h
  case decode => exact decode_raised_mem h
  all_goals unfold commandBody at h
  case nop => cases h
  case clearErr => cases h
  case softReset => cases h
  case deleteTree => cases h
  case pqClear => cases h
  case bwReset => cases h
  case brReset => cases h
  case buildTree =>
    obtain rfl := buildTreeBody_raised (last_raised h)
    decide
  case buildCodes => exact absurd (last_raised h) (buildCodesBody_not_raised inv.tree)
  case nodeRead v =>
    obtain rfl := nodeOperand_raised (last_raised h)
    exact List.mem_singleton_self _
  case codeRead v =>
    obtain rfl := symOperand_raised (last_raised (f := fun i s => setResult _ (readoutCode (codeAt s i) s)) h)
    exact List.mem_singleton_self _
  case serializeTree => exact absurd (last_raised h) (serializeBody_not_raised _ _)
  case rebuildTree => rcases rebuildBody_raised (last_raised h) with rfl | rfl | rfl | rfl | rfl <;> decide
  case pqInsert v =>
    obtain operand | ⟨i, t, -, node⟩ := bind_eq_raised.mp (last_raised h)
    · obtain rfl := nodeOperand_raised operand
      exact List.mem_cons_self
    · split at node
      · obtain rfl := pqInsertNode_raised node
        simp [raisable]
      · cases node
        simp [raisable]
  case pqExtractMin =>
    obtain rfl := pqExtractNode_raised (last_raised h)
    decide
  case bwWriteCode v =>
    obtain operand | ⟨i, t, ok, written⟩ := bind_eq_raised.mp (last_raised h)
    · obtain rfl := symOperand_raised operand
      exact List.mem_cons_self
    · obtain rfl := symOperand_eq_ok ok
      split at written
      · cases written
        simp [raisable]
      · exact absurd written (writeCode_not_raised inv.writer i)
  case bwFlush => exact absurd (last_raised h) (flush_not_raised s c u)
  case brReadBit => exact absurd (last_raised h) (readBit_not_raised s c u)

end Raisable

/-- ERROR's CAUSE field names the cause (R34, R241). -/
theorem cause_of_field {op : BitVec 8} {c d : Cause} (h : (errorWord op c).extractLsb' 8 8 = BitVec.ofNat 8 (causeCode d)) :
    c = d := by
  obtain ⟨-, -, -, field, -⟩ := errorWord_fields op c
  have small : causeCode d < 2 ^ 8 := by cases d <;> decide
  rw [h, BitVec.toNat_ofNat, Nat.mod_eq_of_lt small] at field
  exact (causeCode_inj field).symm

theorem not_mem_raisable (i : Instr) : Cause.stackFull ∉ raisable i ∧ Cause.stackEmpty ∉ raisable i ∧
    Cause.poolFull ∉ raisable i ∧ Cause.codeFull ∉ raisable i ∧ Cause.codeEmpty ∉ raisable i := by
  cases i <;> simp [raisable]

theorem pqFull_mem_raisable {i : Instr} (h : Cause.pqFull ∈ raisable i) : ∃ v, i = .pqInsert v := by
  cases i <;> simp [raisable] at h ⊢

theorem pqEmpty_mem_raisable {i : Instr} (h : Cause.pqEmpty ∈ raisable i) : i = .pqExtractMin := by
  cases i <;> simp [raisable] at h ⊢

/-- Settles O55: the CAUSE field names a cause of the command's own list, which has none of the five. -/
theorem unreachableCauses : Obligations.UnreachableCauses := by
  unfold Obligations.UnreachableCauses
  intro i s t inv clear run err
  obtain ⟨c, mem, error⟩ : ∃ c, c ∈ raisable i ∧ t.error = errorWord (opcode i) c := by
    obtain body | ⟨c, u, raised, rfl⟩ := exec_next run
    · obtain ⟨ok, -⟩ := exec_body_ok clear body
      exact nomatch ok.symm.trans err
    · exact ⟨c, raised_mem_raisable inv raised, rfl⟩
  rw [error]
  have field {d : Cause} (h : (errorWord (opcode i) c).extractLsb' 8 8 = BitVec.ofNat 8 (causeCode d)) : d ∈ raisable i :=
    cause_of_field h ▸ mem
  obtain ⟨stackFull, stackEmpty, poolFull, codeFull, codeEmpty⟩ := not_mem_raisable i
  exact ⟨fun h => stackFull (field h), fun h => stackEmpty (field h), fun h => poolFull (field h),
    fun h => codeFull (field h), fun h => codeEmpty (field h), fun h => pqFull_mem_raisable (field h),
    fun h => pqEmpty_mem_raisable (field h)⟩

end Sys2Proof.Machine
end

section
/-! PROOF. The register block (spec/10_state.md R30) and STATUS (R33). -/

namespace Sys2Proof.Machine

open Sys2Proof

/-! ### The register block -/

section Registers

variable {off : Nat}

theorem portWrite_reg (r : Reg) (h : placeOf off = .reg r) (v : Word) (s : State) :
    portWrite off v s = writeReg r v s := by
  simp only [portWrite, h]

/-- An offset of the block names the register that R30 lists there, or none. -/
theorem placeOf_block (h : off < 0x800) : placeOf off = .reserved ∨ ∃ r, placeOf off = .reg r ∧ regOffset r = off := by
  rw [placeOf, if_pos h]
  cases listed : regAt off with
  | none => exact .inl rfl
  | some r =>
    have found := List.find?_some listed
    rw [beq_iff_eq] at found
    exact .inr ⟨r, rfl, found⟩

theorem writeReg_readOnly {r : Reg} (treeSize : r ≠ .treeSize) (permissions : r ≠ .permissions)
    (origSizeLo : r ≠ .origSizeLo) (origSizeHi : r ≠ .origSizeHi) (v : Word) (s : State) : writeReg r v s = s := by
  cases r
  case treeSize => exact absurd rfl treeSize
  case permissions => exact absurd rfl permissions
  case origSizeLo => exact absurd rfl origSizeLo
  case origSizeHi => exact absurd rfl origSizeHi
  all_goals rfl

theorem portRead_reserved (h : placeOf off = .reserved) (s : State) : portRead off s = 0#32 := by
  simp only [portRead, h]

/-- A write of the block at any offset but those of the four writable registers is ignored (R30, R64). -/
theorem portWrite_block_ignored (below : off < 0x800) (treeSize : off ≠ 0x024) (permissions : off ≠ 0x028)
    (origSizeLo : off ≠ 0x02C) (origSizeHi : off ≠ 0x030) (v : Word) (s : State) : portWrite off v s = s := by
  obtain reserved | ⟨r, place, rfl⟩ := placeOf_block below
  · simp only [portWrite, reserved]
  · rw [portWrite_reg r place]
    exact writeReg_readOnly (ne_of_apply_ne regOffset treeSize) (ne_of_apply_ne regOffset permissions)
      (ne_of_apply_ne regOffset origSizeLo) (ne_of_apply_ne regOffset origSizeHi) v s

end Registers

/-- Settles O13: each offset's register, what it reads and stores; every other offset of the block is reserved. -/
theorem registerBlock : Obligations.RegisterBlock := by
  unfold Obligations.RegisterBlock
  intro s
  have read {off : Nat} (r : Reg) (place : placeOf off = .reg r) := portRead_reg r place s
  refine ⟨read .id (by decide), read .version (by decide), read .cmd (by decide), read .status (by decide),
    read .error (by decide), read .result (by decide), read .pqStatus (by decide), read .root (by decide),
    read .leafCount (by decide), read .treeSize (by decide), read .permissions (by decide), read .origSizeLo (by decide),
    read .origSizeHi (by decide), read .bwCount (by decide), read .brIndex (by decide), read .brValid (by decide),
    read .inCountLo (by decide), read .inCountHi (by decide), read .outCountLo (by decide), read .outCountHi (by decide),
    read .nodeSym (by decide), read .nodeLeft (by decide), read .nodeRight (by decide), read .nodeFreqLo (by decide),
    read .nodeFreqHi (by decide), read .codeLen (by decide), fun k hk => portRead_codeBits k hk s,
    fun off aligned unlisted => portRead_reserved (placeOf_reserved_low off aligned unlisted) s, fun v => ?_⟩
  exact ⟨portWrite_reg .treeSize (by decide) v s, portWrite_reg .permissions (by decide) v s,
    portWrite_reg .origSizeLo (by decide) v s, portWrite_reg .origSizeHi (by decide) v s,
    fun off _ below treeSize permissions origSizeLo origSizeHi =>
      portWrite_block_ignored below treeSize permissions origSizeLo origSizeHi v s⟩

/-! ### STATUS -/

/-- The seven flags do not overlap: a bit of STATUS is one of them, or 0. -/
theorem statusWord_getLsbD (s : State) (k : Nat) :
    (statusWord s).getLsbD k =
      (decide (k = 0) && s.err || decide (k = 1) && s.eos || decide (k = 2) && treeValid s ||
        decide (k = 3) && s.codesValid || decide (k = 4) && pqEmptyFlag s || decide (k = 5) && pqFullFlag s ||
        decide (k = 6) && bwPending s) := by
  have place (j : Nat) (h : j < 32) : (k = j ∧ k < 32) ↔ k = j := and_iff_left_of_imp fun same => same ▸ h
  simp only [statusWord, BitVec.getLsbD_or, flagBit_getLsbD, place 0 (by decide), place 1 (by decide), place 2 (by decide),
    place 3 (by decide), place 4 (by decide), place 5 (by decide), place 6 (by decide)]

@[simp] theorem treeValid_eq_true (s : State) : treeValid s = true ↔ s.root ≠ nil := decide_eq_true_iff

@[simp] theorem bwPending_eq_true (s : State) : bwPending s = true ↔ s.bwCount ≠ 0 := decide_eq_true_iff

/-- Settles O18: each flag is read off its own bit, and no bit from 7 up is a flag's. -/
theorem statusFlags : Obligations.StatusFlags := by
  unfold Obligations.StatusFlags
  intro s
  simp only [portRead_status, statusWord_getLsbD]
  refine ⟨by simp, by simp, by simp, by simp, by simp, by simp, by simp, fun k hk => ?_⟩
  simp [show k ≠ 0 by omega, show k ≠ 1 by omega, show k ≠ 2 by omega, show k ≠ 3 by omega, show k ≠ 4 by omega,
    show k ≠ 5 by omega, show k ≠ 6 by omega]

end Sys2Proof.Machine
end

section
/-! PROOF. Frames (spec/20_memory.md R77): what each command leaves unchanged in every state, and what no step moves back
(R42, R67, R270). A frame `t = { s with x := t.x }` is proved as the equality of `t` and `s` with the fields that the command
may write taken from `t` in both, which every write of such a field keeps. -/

namespace Sys2Proof.Machine

open Sys2Proof

/-! ### A state with some of its fields taken from another -/

/-- RESULT and the error state from `t`. -/
def endFrom (t u : State) : State := { u with result := t.result, err := t.err, error := t.error, errLog := t.errLog }

/-- What the commands that make a tree may write, from `t`. -/
def treeFrom (t u : State) : State :=
  { endFrom t u with pool := t.pool, root := t.root, leafCount := t.leafCount, pq := t.pq, stack := t.stack,
                     codesValid := t.codesValid }

/-- What BUILD_CODES may write, from `t`. -/
def codesFrom (t u : State) : State := { endFrom t u with code := t.code, codesValid := t.codesValid }

/-- What SERIALIZE_TREE may write, from `t`. -/
def dumpFrom (t u : State) : State := { endFrom t u with dump := t.dump, treeSize := t.treeSize }

/-- What the queue commands may write, from `t`. -/
def queueFrom (t u : State) : State := { endFrom t u with pq := t.pq }

/-- What BW_FLUSH may write, from `t`; it raises nothing. -/
def flushFrom (t u : State) : State :=
  { u with bwBuf := t.bwBuf, bwCount := t.bwCount, out := t.out, outCount := t.outCount, result := t.result }

/-- What BW_WRITE_CODE may write, from `t`. -/
def writerFrom (t u : State) : State := endFrom t (flushFrom t u)

/-- What BR_READ_BIT may write, from `t`; it raises nothing. -/
def readerFrom (t u : State) : State :=
  { u with brBuf := t.brBuf, brValid := t.brValid, brIndex := t.brIndex, eos := t.eos, inPos := t.inPos,
           inCount := t.inCount, result := t.result }

/-- What ENCODE may write, from `t`. -/
def encodeFrom (t u : State) : State :=
  { treeFrom t u with code := t.code, dump := t.dump, treeSize := t.treeSize, bwBuf := t.bwBuf, bwCount := t.bwCount,
                      inPos := t.inPos, inCount := t.inCount, out := t.out, outCount := t.outCount }

/-- What DECODE may write, from `t`. -/
def decodeFrom (t u : State) : State :=
  { treeFrom t u with permissions := t.permissions, treeSize := t.treeSize, origSize := t.origSize, dump := t.dump,
                      brBuf := t.brBuf, brValid := t.brValid, brIndex := t.brIndex, eos := t.eos, inPos := t.inPos,
                      inCount := t.inCount, out := t.out, outCount := t.outCount }

/-- `u` and `s` are the same but for the fields that `fill` takes from elsewhere. -/
def SameBut (fill : State → State) (s u : State) : Prop := fill u = fill s

section Frames

variable {s t : State}

/-- Two states that are the same but for some fields stay so through a command whose body keeps that, however it ends. -/
theorem exec_sameBut {fill : State → State} {i : Instr} (keeps : Keeps (SameBut fill s) (commandBody i s))
    (raise : ∀ op c u, fill (raiseError op c u) = fill u) (run : exec i s = .next t) : fill t = fill s :=
  exec_frame (P := SameBut fill s) keeps (fun c u h => (raise (opcode i) c u).trans h) run

/-! ### The Huffman engine and the serializer -/

theorem treeFrom_closed : ClosedTree (SameBut (treeFrom t) s) where
  pool _ _ h := h
  root _ _ h := h
  leafCount _ _ h := h
  pq _ _ h := h
  stack _ _ h := h
  codesValid _ _ h := h

theorem buildTree_frame (run : exec .buildTree s = .next t) : t = treeFrom t s := by
  refine exec_sameBut (fill := treeFrom t) (i := .buildTree) ?_ (fun _ _ _ => rfl) run
  unfold commandBody
  exact (treeFrom_closed.buildTree s (Eq.refl (treeFrom t s))).last fun _ _ h => h

theorem rebuildTree_frame (run : exec .rebuildTree s = .next t) : t = treeFrom t s :=
  exec_sameBut (fill := treeFrom t) (i := .rebuildTree) ((treeFrom_closed.rebuild s rfl).last fun _ _ h => h)
    (fun _ _ _ => rfl) run

theorem codesFrom_closed : ClosedCode (SameBut (codesFrom t) s) where
  code _ _ h := h
  codesValid _ _ h := h

theorem buildCodes_frame (run : exec .buildCodes s = .next t) : t = codesFrom t s :=
  exec_sameBut (fill := codesFrom t) (i := .buildCodes) ((codesFrom_closed.buildCodes s rfl).last fun _ _ h => h)
    (fun _ _ _ => rfl) run

theorem nodeRead_frame {v : BitVec 16} (run : exec (.nodeRead v) s = .next t) : engineFrame (.nodeRead v) s t := by
  rcases Nat.lt_or_ge v.toNat 511 with fits | large
  · rw [exec_nodeRead_ok fits, readoutNode] at run
    split at run <;> cases run <;> rfl
  · rw [exec_nodeRead_bad large] at run
    cases run
    rfl

theorem codeRead_frame {v : BitVec 16} (run : exec (.codeRead v) s = .next t) : engineFrame (.codeRead v) s t := by
  rcases Nat.lt_or_ge v.toNat 256 with fits | large
  · rw [exec_codeRead_ok s fits] at run
    cases run
    rfl
  · rw [exec_codeRead_bad s large] at run
    cases run
    rfl

theorem dumpFrom_closed : ClosedDump (SameBut (dumpFrom t) s) where
  dump _ _ h := h
  treeSize _ _ h := h

theorem serializeTree_frame (run : exec .serializeTree s = .next t) : t = dumpFrom t s :=
  exec_sameBut (fill := dumpFrom t) (i := .serializeTree) ((dumpFrom_closed.serialize s rfl).last fun _ _ h => h)
    (fun _ _ _ => rfl) run

/-! ### The queue and the bit buffers -/

theorem pqInsert_frame {v : BitVec 16} (run : exec (.pqInsert v) s = .next t) : t = queueFrom t s :=
  exec_sameBut (fill := queueFrom t) (i := .pqInsert v)
    ((pqInsertBody_keeps (P := SameBut (queueFrom t) s) (fun _ _ h => h) v s rfl).last fun _ _ h => h)
    (fun _ _ _ => rfl) run

theorem pqExtractMin_frame (run : exec .pqExtractMin s = .next t) : t = queueFrom t s := by
  cases held : s.pq with
  | nil =>
    rw [exec_raised (pqExtractMinBody_empty held) rfl] at run
    cases run
    rfl
  | cons e q =>
    rw [exec_pqExtractMin_cons held] at run
    cases run
    rfl

theorem writerFrom_closed : ClosedWriter (SameBut (writerFrom t) s) where
  bwBuf _ _ h := h
  bwCount _ _ h := h
  out _ _ h := h

theorem bwWriteCode_frame {v : BitVec 16} (run : exec (.bwWriteCode v) s = .next t) : t = writerFrom t s :=
  exec_sameBut (fill := writerFrom t) (i := .bwWriteCode v)
    ((bwWriteBody_keeps writerFrom_closed v s rfl).last fun _ _ h => h) (fun _ _ _ => rfl) run

/-! ### Commands that raise nothing -/

/-- Where nothing before a body's last line can raise, the command ends with that line. -/
theorem exec_unraised {α : Type} {i : Instr} {r : Res α} {f : α → State → State}
    (body : commandBody i s = r.bind fun a u => .ok () (f a u)) (never : ∀ c u, r ≠ .raised c u)
    (run : exec i s = .next t) : ∃ a u, r = .ok a u ∧ t = f a u := by
  obtain ok | ⟨c, u, raised, -⟩ := exec_next run
  · obtain ⟨a, u, first, ended⟩ := bind_eq_ok.mp (body.symm.trans ok)
    cases ended
    exact ⟨a, u, first, rfl⟩
  · obtain first | ⟨a, u, -, ended⟩ := bind_eq_raised.mp (body.symm.trans raised)
    · exact absurd first (never c u)
    · cases ended

theorem flushFrom_closed : ClosedWriter (SameBut (flushFrom t) s) where
  bwBuf _ _ h := h
  bwCount _ _ h := h
  out _ _ h := h

theorem bwFlush_frame (run : exec .bwFlush s = .next t) : t = flushFrom t s := by
  obtain ⟨m, u, flushed, rfl⟩ := exec_unraised (i := .bwFlush) rfl (flush_not_raised s) run
  have closed := flushFrom_closed (t := setResult (BitVec.ofNat 32 m) u) (s := s)
  exact (closed.flush s rfl).onOk m u flushed

theorem readerFrom_closed : ClosedReader (SameBut (readerFrom t) s) where
  brBuf _ _ h := h
  brValid _ _ h := h
  brIndex _ _ h := h
  eos _ _ h := h
  input _ _ h := h

theorem brReadBit_frame (run : exec .brReadBit s = .next t) : t = readerFrom t s := by
  obtain ⟨r, u, read, rfl⟩ := exec_unraised (i := .brReadBit) rfl (readBit_not_raised s) run
  have closed := readerFrom_closed (t := setResult (bitResult r) u) (s := s)
  exact (closed.readBit s rfl).onOk r u read

/-! ### ENCODE and DECODE -/

theorem encodeFrom_closedTree : ClosedTree (SameBut (encodeFrom t) s) where
  pool _ _ h := h
  root _ _ h := h
  leafCount _ _ h := h
  pq _ _ h := h
  stack _ _ h := h
  codesValid _ _ h := h

theorem encode_frame (run : exec .encode s = .next t) : t = encodeFrom t s := by
  refine exec_sameBut (fill := encodeFrom t) (i := .encode) ?_ (fun _ _ _ => rfl) run
  unfold commandBody
  exact (encodeBody_keeps encodeFrom_closedTree ⟨fun _ _ h => h, fun _ _ h => h⟩ ⟨fun _ _ h => h, fun _ _ h => h⟩
    ⟨fun _ _ h => h, fun _ _ h => h, fun _ _ h => h⟩ (fun _ h => h) (fun _ h => h) s
    (Eq.refl (encodeFrom t s))).last fun _ _ h => h

theorem decodeFrom_closedTree : ClosedTree (SameBut (decodeFrom t) s) where
  pool _ _ h := h
  root _ _ h := h
  leafCount _ _ h := h
  pq _ _ h := h
  stack _ _ h := h
  codesValid _ _ h := h

theorem decodeFrom_closedReader : ClosedReader (SameBut (decodeFrom t) s) where
  brBuf _ _ h := h
  brValid _ _ h := h
  brIndex _ _ h := h
  eos _ _ h := h
  input _ _ h := h

theorem decode_frame (run : exec .decode s = .next t) : t = decodeFrom t s := by
  have body := decodeBody_keeps (decodeFrom_closedTree (t := t) (s := s)) (fun _ _ h => h) decodeFrom_closedReader
    (fun _ _ h => h) (fun _ _ h => h) (fun _ h => h) s rfl
  exact exec_sameBut (fill := decodeFrom t) (i := .decode) (body.last fun _ _ h => h) (fun _ _ _ => rfl) run

/-! ### The dump beyond what a command writes -/

/-- SERIALIZE_TREE writes below TREE_SIZE only, whatever the state (R152). -/
theorem serializeBody_above {k a : Nat} (body : serializeBody s = .ok k t) (ha : t.treeSize.toNat ≤ a) :
    storeRead 0#8 t.dump a = storeRead 0#8 s.dump a := by
  unfold serializeBody at body
  obtain ⟨k, u, dumped, ended⟩ := bind_eq_ok.mp body
  cases ended
  split at dumped
  · cases dumped
    rfl
  · obtain ⟨-, fits, above⟩ := postDump_frame nodeCap s.root 0 s u k dumped (Nat.zero_le _)
    have size : (BitVec.ofNat 16 k).toNat = k := by rw [BitVec.toNat_ofNat, Nat.mod_eq_of_lt (by omega)]
    exact above a (.inr (size.symm.le.trans ha))

theorem serializeTree_above {a : Nat} (run : exec .serializeTree s = .next t) (ha : t.treeSize.toNat ≤ a) :
    storeRead 0#8 t.dump a = storeRead 0#8 s.dump a := by
  obtain ⟨k, u, body, rfl⟩ := exec_unraised (i := .serializeTree) rfl serializeBody_not_raised run
  exact serializeBody_above (t := u) body ha

/-- The payload loop of ENCODE touches neither DUMP nor TREE_SIZE. -/
theorem encodeFrame_dump {j : Nat} {ys head : List Byte} (frame : encodeFrame (outWrite head s) t j ys) :
    t.dump = s.dump ∧ t.treeSize = s.treeSize := by
  unfold encodeFrame at frame
  rw [frame]
  exact ⟨rfl, rfl⟩

theorem encode_above {a : Nat} (run : exec .encode s = .next t) (ha : t.treeSize.toNat ≤ a) :
    storeRead 0#8 t.dump a = storeRead 0#8 s.dump a := by
  rw [exec_encode] at run
  obtain ⟨-, overflow⟩ | ⟨-, -, -, t', u, bits, start, -, ok, frame⟩ |
    ⟨-, t', u, k, ys, c, start, -, -, -, raised, -, -, ends⟩ := encode_cases s
  · cases overflow.symm.trans run
    rfl
  · cases ok.symm.trans run
    rw [frame] at ha ⊢
    exact start.above a (start.size ▸ ha)
  · cases raised.symm.trans run
    have kept : u.dump = t'.dump ∧ u.treeSize = t'.treeSize := by
      obtain ⟨-, -, frame⟩ | ⟨x, -, -, -, frame⟩ := ends
      · exact encodeFrame_dump frame
      · exact encodeFrame_dump frame
    obtain ⟨dump, size⟩ := kept
    rw [raiseError_treeSize, size] at ha
    rw [raiseError_dump, dump]
    exact start.above a (start.size ▸ ha)

theorem rdle_lt : ∀ bs : List Byte, rdle bs < 256 ^ bs.length
  | [] => Nat.one_pos
  | b :: bs => by
    have rest := rdle_lt bs
    have byte := b.isLt
    rw [rdle, List.length_cons, Nat.pow_succ]
    omega

/-- TREE_SIZE after DECODE's header holds the header's tree size whole (R100). -/
theorem headerState_treeSize_toNat (s : State) :
    (headerState s).treeSize.toNat = rdle (((inRest s).drop 6).take 2) := by
  have lt := rdle_lt (((inRest s).drop 6).take 2)
  have le : 256 ^ (((inRest s).drop 6).take 2).length ≤ 256 ^ 2 :=
    Nat.pow_le_pow_right (by decide) (List.length_take_le _ _)
  exact (BitVec.toNat_ofNat _ _).trans (Nat.mod_eq_of_lt (by omega))

theorem rebuildFrame_dump {u : State} (frame : rebuildFrame s u) : u.dump = s.dump := by
  unfold rebuildFrame at frame
  rw [frame]

/-- The payload of a DECODE does not touch DUMP. -/
theorem decodeRest_dump (run : endCommand 0x41#8 (decodeRest s) = .next t) : t.dump = s.dump := by
  have reader : ClosedReader (fun u => u.dump = s.dump) :=
    ⟨fun _ _ h => h, fun _ _ h => h, fun _ _ h => h, fun _ _ h => h, fun _ _ h => h⟩
  have body : Keeps (fun u => u.dump = s.dump) (decodeRest s) :=
    (keeps_decodePayload reader.readBit (fun _ _ h => h) _ _ _ s rfl).last fun _ _ h => h
  obtain ok | ⟨c, u, raised, rfl⟩ := endCommand_eq_next.mp run
  · exact body.onOk _ _ ok
  · exact body.onRaised c u raised

/-- DECODE leaves DUMP as it was, or with the dump of IN written where the header's tree size is in range (R220). -/
theorem decode_dump (run : exec .decode s = .next t) :
    t.dump = s.dump ∨ ((headerState s).treeSize.toNat ≤ 767 ∧ t.dump = (readDump (headerState s)).dump) := by
  rw [exec_decode] at run
  obtain ⟨-, short⟩ | ⟨-, -, magic⟩ | ⟨-, -, ⟨-, range⟩ | ⟨fits, -, cut⟩ | ⟨fits, -,
    ⟨c, u, frame, -, -, -, -, scan⟩ | ⟨u, -, frame, -, ⟨-, empty⟩ | ⟨-, done⟩⟩ | ⟨u, tr, frame, -, -, -, -, rest⟩⟩⟩ :=
    decode_cases s
  · cases short.symm.trans run
    exact .inl rfl
  · cases magic.symm.trans run
    exact .inl rfl
  · cases range.symm.trans run
    exact .inl rfl
  · cases cut.symm.trans run
    exact .inr ⟨fits, rfl⟩
  · cases scan.symm.trans run
    exact .inr ⟨fits, rebuildFrame_dump (u := u) frame⟩
  · cases empty.symm.trans run
    exact .inr ⟨fits, rebuildFrame_dump (u := u) frame⟩
  · cases done.symm.trans run
    exact .inr ⟨fits, rebuildFrame_dump (u := u) frame⟩
  · exact .inr ⟨fits, (decodeRest_dump (rest.symm.trans run)).trans (rebuildFrame_dump frame)⟩

theorem decode_above {a : Nat} (run : exec .decode s = .next t)
    (ha : rdle (((inRest s).drop 6).take 2) ≤ a ∨ 767 < rdle (((inRest s).drop 6).take 2)) :
    storeRead 0#8 t.dump a = storeRead 0#8 s.dump a := by
  rw [← headerState_treeSize_toNat] at ha
  obtain same | ⟨fits, written⟩ := decode_dump run
  · rw [same]
  · have below : (inReadBytes (headerState s).treeSize.toNat (headerState s)).length ≤ a :=
      (List.length_take_le _ _).trans (by omega)
    rw [written, readDump_dump, storeRead_writeList_above below]
    rfl

/-! ### What no step moves back -/

/-- OUT grows, the parameters and IN's bytes stay, IN's position does not move back. -/
def Forward (s u : State) : Prop :=
  s.out <+: u.out ∧ u.cfg = s.cfg ∧ u.inBytes = s.inBytes ∧ s.inPos ≤ u.inPos

theorem forward_refl (s : State) : Forward s s := ⟨List.prefix_rfl, rfl, rfl, le_rfl⟩

theorem forward_outWrite (xs : List Byte) (u : State) (h : Forward s u) : Forward s (outWrite xs u) := by
  obtain ⟨out, rest⟩ := h
  exact ⟨out.trans (List.prefix_append _ _), rest⟩

theorem forward_inReadState (n : Nat) (u : State) (h : Forward s u) : Forward s (inReadState n u) := by
  obtain ⟨out, cfg, bytes, pos⟩ := h
  exact ⟨out, cfg, bytes, pos.trans (Nat.le_add_right _ _)⟩

theorem forward_portWrite (off : Nat) (v : Word) (u : State) (h : Forward s u) : Forward s (portWrite off v u) := by
  rw [portWrite_frame]
  exact h

theorem forward_readoutNode (e : NodeEntry) (u : State) (h : Forward s u) : Forward s (readoutNode e u) := by
  unfold readoutNode
  split <;> exact h

theorem forward_closedAll : ClosedAll (Forward s) where
  tree := ⟨fun _ _ h => h, fun _ _ h => h, fun _ _ h => h, fun _ _ h => h, fun _ _ h => h, fun _ _ h => h⟩
  code := ⟨fun _ _ h => h, fun _ _ h => h⟩
  dump := ⟨fun _ _ h => h, fun _ _ h => h⟩
  writer := ⟨fun _ _ h => h, fun _ _ h => h, forward_outWrite⟩
  reader := ⟨fun _ _ h => h, fun _ _ h => h, fun _ _ h => h, fun _ _ h => h, forward_inReadState⟩
  counts _ h := h
  header _ _ h := h

theorem forward_exec {i : Instr} {u : State} (h : Forward s u) (run : exec i u = .next t) : Forward s t :=
  exec_frame (commandBody_keeps forward_closedAll ⟨fun _ _ h => h, forward_readoutNode, fun _ _ h => h⟩ i
    (fun _ _ h => h) (fun _ _ h => h) u h) (fun _ _ h => h) run

theorem forward_closed : StepClosed (Forward s) where
  host _ _ h := h
  readLog _ _ h := h
  write := forward_portWrite
  raise _ _ _ h := h
  reset _ h := h
  exec _ _ _ := forward_exec

end Frames

/-! ### The obligations, in a namespace of their own: the model's predicates have the first ones' names -/

namespace FrameObligations

/-- Settles O56: BUILD_TREE and BUILD_CODES by the fields they may write, the other three by the state they end in. -/
theorem engineFrame : Obligations.EngineFrame := by
  unfold Obligations.EngineFrame
  intro i s t run
  cases i with
  | buildTree => exact buildTree_frame run
  | buildCodes => exact buildCodes_frame run
  | deleteTree =>
    rw [exec_deleteTree] at run
    cases run
    rfl
  | nodeRead v => exact nodeRead_frame run
  | codeRead v => exact codeRead_frame run
  | _ => trivial

/-- Settles O57: REBUILD_TREE writes what BUILD_TREE does; the dump's walk writes below the size it answers. -/
theorem serializerFrame : Obligations.SerializerFrame := by
  unfold Obligations.SerializerFrame
  refine ⟨fun i s t run => ?_, fun s t a run ha => serializeTree_above run ha⟩
  cases i with
  | serializeTree => exact serializeTree_frame run
  | rebuildTree => exact rebuildTree_frame run
  | _ => trivial

/-- Settles O58: each command by the fields it may write or by the state it ends in; BW_FLUSH and BR_READ_BIT
raise nothing. -/
theorem queueAndBitFrame : Obligations.QueueAndBitFrame := by
  unfold Obligations.QueueAndBitFrame
  intro i s t run
  cases i with
  | pqClear =>
    rw [exec_pqClear] at run
    cases run
    rfl
  | pqInsert v => exact pqInsert_frame run
  | pqExtractMin => exact pqExtractMin_frame run
  | bwWriteCode v => exact bwWriteCode_frame run
  | bwFlush => exact bwFlush_frame run
  | bwReset =>
    rw [exec_bwReset] at run
    cases run
    rfl
  | brReset =>
    rw [exec_brReset] at run
    cases run
    rfl
  | brReadBit => exact brReadBit_frame run
  | _ => trivial

/-- Settles O59: the fields they may write give the frames; DUMP changes only by the dump that DECODE reads or
ENCODE serializes. -/
theorem codecFrame : Obligations.CodecFrame := by
  unfold Obligations.CodecFrame
  refine ⟨fun i s t run => ?_, fun s t a run ha => decode_above run ha, fun s t a run ha => encode_above run ha⟩
  cases i with
  | encode => exact encode_frame run
  | decode => exact decode_frame run
  | _ => trivial

end FrameObligations

/-- Settles O60: every event but the attaching of a source moves forward only. -/
theorem outOnlyGrows : Obligations.OutOnlyGrows := by
  unfold Obligations.OutOnlyGrows
  intro s t run
  obtain ⟨out, cfg, bytes, pos⟩ | ⟨xs, es, pending, rfl⟩ := forward_closed.step_or_attach (forward_refl s) run
  · exact ⟨out, cfg, .inr ⟨bytes, pos⟩⟩
  · exact ⟨List.prefix_rfl, rfl, .inl ⟨xs, es, pending, rfl, rfl, rfl⟩⟩

end Sys2Proof.Machine
end
